-- ==== Sys2Proof/Word.lean ====
section
/-! DEFINITION. The number types of the LC-16: the byte of a register, a counter or a character (00_scope.md, "Numbers and
characters"), and the numbers of lines, cells, descriptors and match entries ("Numbering"). -/

namespace Sys2Proof

/-- A register, a counter or a character: 00 hex to FF hex. -/
abbrev Byte := BitVec 8

/-- Lines are numbered 0 to 15. -/
abbrev LineNo := Fin 16

/-- Cells of the character store are numbered 0 to 127. -/
abbrev CellNo := Fin 128

/-- Descriptors are numbered 0 to 31. -/
abbrev DescNo := Fin 32

/-- Match entries are numbered 0 to 7. -/
abbrev MatchNo := Fin 8

/-- Sources of the post arbiter: the lines 0 to 15 and the match unit, 16 (R36). -/
abbrev SourceNo := Fin 17

/-- A count as a byte of a register. -/
abbrev byte (n : Nat) : Byte := BitVec.ofNat 8 n

end Sys2Proof
end

