-- ==== Sys2Proof/Syntax.lean ====
section
/-! DEFINITION. The commands and events that the LC-16 takes: one constructor for each row of spec/opcode_table.json.
The table gives no operands; the operands here are what the row's rule needs to be told from outside (log 1). -/

namespace Sys2Proof

/-- A modem signal is asserted or negated (00_scope.md, "Signal levels"). -/
inductive Level where
  | negated
  | asserted
  deriving DecidableEq, Repr

/-- The two modem inputs of a line. -/
inductive ModemInput where
  | cts
  | dcd
  deriving DecidableEq, Repr

/-- What the framer sampled of one frame when it arrived (R94): a data bit is 1 for mark, bit 0 first; with 7 data bits
bit 7 is not sampled. The parity sample counts only in a format with parity. -/
structure RxFrame where
  data : Byte
  parityBit : Bool
  stopMark : Bool
  deriving DecidableEq, Repr

/-- The rows of spec/opcode_table.json, in the table's order. -/
inductive Instr where
  /-- COMMAND write, code 10 hex (R48 to R50). -/
  | openBlock
  /-- COMMAND write, code 11 hex (R58). -/
  | closeBlock
  /-- COMMAND write, code 12 hex (R60). -/
  | discardBlock
  /-- COMMAND write, code 18 hex (R42). -/
  | releaseHead
  /-- COMMAND write, code 19 hex (R43). -/
  | rewindHead
  /-- COMMAND write, code 20 hex (R17). -/
  | setPoolLimits
  /-- COMMAND write, code 21 hex (R18). -/
  | getPoolStatus
  /-- COMMAND write, code 30 hex (R140, R141). -/
  | setLineFormat
  /-- COMMAND write, code 31 hex (R140, R141). -/
  | setLineRecord
  /-- COMMAND write, code 32 hex (R140, R141). -/
  | setLineFlow
  /-- COMMAND write, code 33 hex (R140, R141). -/
  | setLineModem
  /-- COMMAND write, code 34 hex (R140, R141). -/
  | setLineTimers
  /-- COMMAND write, code 35 hex (R140, R141). -/
  | setLineQueue
  /-- COMMAND write, code 36 hex (R142). -/
  | getLineConfig
  /-- COMMAND write, code 38 hex (R144). -/
  | enableLine
  /-- COMMAND write, code 39 hex (R145, R146, R148). -/
  | restartLine
  /-- COMMAND write, code 3A hex (R145, R146, R149). -/
  | disableLine
  /-- COMMAND write, code 3B hex (R151). -/
  | getLineStatus
  /-- COMMAND write, code 40 hex (R82). -/
  | haltLine
  /-- COMMAND write, code 41 hex (R83). -/
  | resumeLine
  /-- COMMAND write, code 42 hex (R85). -/
  | flushLine
  /-- COMMAND write, code 48 hex (R134, R135). -/
  | setModemOutputs
  /-- COMMAND write, code 49 hex (R136). -/
  | getModemStatus
  /-- COMMAND write, code 50 hex (R163). -/
  | setMatchEntry
  /-- COMMAND write, code 51 hex (R163). -/
  | setMatchLines
  /-- COMMAND write, code 52 hex (R164). -/
  | enableMatchEntry
  /-- COMMAND write, code 53 hex (R164). -/
  | disableMatchEntry
  /-- COMMAND write, code 54 hex (R164). -/
  | readMatchEntry
  /-- COMMAND write, code 58 hex (R165). -/
  | readCapture
  /-- COMMAND write, code 59 hex (R165). -/
  | clearCapture
  /-- COMMAND write, code 60 hex (R176). -/
  | readLineCounters
  /-- COMMAND write, code 61 hex (R176). -/
  | readAndClearLineCounters
  /-- COMMAND write, code 62 hex (R177). -/
  | readErrorSet
  /-- COMMAND write, code 63 hex (R177). -/
  | clearErrorSet
  /-- COMMAND write, code 64 hex (R178). -/
  | readErrorRecord
  /-- COMMAND write, code 65 hex (R178). -/
  | clearErrorRecord
  /-- COMMAND write, code 66 hex (R179). -/
  | setErrorOptions
  /-- COMMAND write, code A5 hex (R190). -/
  | softReset
  /-- COMMAND write of a code that is not in the index of section 10.3 (R184). -/
  | badCommand (code : Byte)
  /-- COMMAND write of any code but SOFT RESET's while BUSY is set (R184). -/
  | commandLost (code : Byte)
  /-- Host write to TXDATA (R53 to R56). -/
  | txdataWrite (value : Byte)
  /-- Host read of RXDATA (R41). -/
  | rxdataRead
  /-- Host write to INTPEND (R187). -/
  | intpendWrite (value : Byte)
  /-- Host write to INTEN (R188). -/
  | intenWrite (value : Byte)
  /-- Host write to a PARAM register or to a read-only address (R182, R183). -/
  | registerWrite (address : BitVec 4) (value : Byte)
  /-- RESET_N low, or power-on (R189). -/
  | hardwareReset
  /-- RESET_N returns high (R189). -/
  | resetEnd
  /-- The first stop bit of a frame is sampled (R94 to R99). -/
  | arrival (line : LineNo) (frame : RxFrame)
  /-- On a tick, a level of one modem input is seen that may become the qualified level (R131, R132). -/
  | qualifiedChange (line : LineNo) (input : ModemInput) (level : Level)
  /-- The lead timer expires (R74). -/
  | leadEnd (line : LineNo)
  /-- The break timer expires (R71). -/
  | breakTimerExpiry (line : LineNo)
  /-- The mark character time after a break ends (R71). -/
  | breakEnd (line : LineNo)
  /-- The trail timer expires (R75). -/
  | trailEnd (line : LineNo)
  /-- The hold timer expires (R78). -/
  | holdExpiry (line : LineNo)
  /-- The idle timer expires (R109). -/
  | idleExpiry (line : LineNo)
  /-- The last stop bit of the character in flight has been sent (R70). -/
  | characterBoundary (line : LineNo)
  /-- The record assembler takes the item at the head of the holding FIFO (R102). -/
  | assemblerTake (line : LineNo)
  /-- The post arbiter grants a free slot (R37). -/
  | postGrant
  /-- RXD goes from mark to space while the framer hunts (R94). -/
  | frameStart (line : LineNo)
  /-- The middle of the start bit reads mark (R94). -/
  | frameAbandonedAsNoise (line : LineNo)
  /-- The framer, awaiting mark, sees RXD at mark (R94). -/
  | rxdReturnsToMark (line : LineNo)
  /-- On a tick, the CTS and DCD qualifiers sample their pins (R131). -/
  | modemInputSample (line : LineNo) (cts dcd : Level)
  deriving DecidableEq, Repr

end Sys2Proof
end

