-- ==== Sys2Proof/Config.lean ====
section
/-! DEFINITION. What is fixed for every LC-16 (sizes, character values) and the one free value of the model. -/

namespace Sys2Proof.Config

/-- The event queue holds at most 48 entries (R21). -/
abbrev queueCapacity : Nat := 48

/-- The holding FIFO holds at most 4 items (R101). -/
abbrev fifoCapacity : Nat := 4

/-- A block holds at most 64 characters (R46). -/
abbrev blockCapacity : Nat := 64

/-- Characters in a cell (R1). -/
abbrev cellSize : Nat := 16

/-- Places of the character store: 128 cells of 16 characters (R1). -/
abbrev storeSize : Nat := 2048

/-- XON is 11 hex on every line (00_scope.md). -/
abbrev xonChar : Byte := 0x11

/-- XOFF is 13 hex on every line (00_scope.md). -/
abbrev xoffChar : Byte := 0x13

/-- What a place of the character store that nothing has written reads as. DESIGN CHOICE (log 8): R19 says the characters
have no defined value, and by R2 no place is read before it is written. Unsafe. -/
def unwritten : Byte := 0

/-- THE FREE VALUE of the model (log 6). Where the spec says of two things made ready inside ONE step that "either may be
first" (R29, R78, R132, R133, R157), or two rules say different things of one meeting (log 27, log 28), the step draws a number
from this constant, which has no body: nothing in Lean can tell which order it gives. `State.freeCtr` counts the draws, so each draw is a fresh one. -/
opaque freeChoice : Nat → Nat

end Sys2Proof.Config
end

