-- ==== Sys2Proof/Machine/State.lean ====
section
/-! DEFINITION. The state of the LC-16 as plain data, its two ways to stop, and its value after reset. -/

namespace Sys2Proof.Machine

/-! ## Character store and descriptor pool (01) -/

/-- Phases of a descriptor (R12, R14). -/
inductive Phase where
  | free
  | opened
  | queued
  | active
  | finished
  deriving DecidableEq, Repr

/-- How a block ended (R12). -/
inductive BlockOutcome where
  | sent
  | flushed
  | restarted
  deriving DecidableEq, Repr

/-- A block descriptor (R12). -/
structure Descriptor where
  phase : Phase
  line : LineNo
  tag : Byte
  report : Bool
  /-- units of 10 ms, 0 for none -/
  breakBefore : Nat
  length : Nat
  cells : List CellNo
  sent : Nat
  outcome : Option BlockOutcome
  deriving DecidableEq, Repr

/-- A FREE descriptor. Its other fields are unused (R12); the model keeps them at zero. DESIGN CHOICE (log 9), safe. -/
def Descriptor.unused : Descriptor :=
  { phase := .free, line := 0, tag := 0, report := false, breakBefore := 0, length := 0, cells := [], sent := 0,
    outcome := none }

/-! ## The event queue (02) -/

/-- Why a record was closed (R23, R108). -/
inductive Cause where
  | delimiter
  | length
  | idle
  | brk
  | error
  | carrier
  | storeFull
  deriving DecidableEq, Repr

/-- A set of line conditions (R26, R33). -/
structure ChangeSet where
  cts : Bool
  dcd : Bool
  holdExpired : Bool
  lineCleared : Bool
  deriving DecidableEq, Repr

def ChangeSet.empty : ChangeSet := { cts := false, dcd := false, holdExpired := false, lineCleared := false }

/-- Direction of a test of the match table (R155). -/
inductive Direction where
  | rx
  | tx
  deriving DecidableEq, Repr

/-- One entry of the event queue (R22 to R27). -/
inductive Entry where
  /-- one closed record (R23) -/
  | rxRecord (line : LineNo) (length : Nat) (cause : Cause) (errorFlag : Bool) (lost : Option Byte) (cells : List CellNo)
  /-- one finished block (R25) -/
  | txReport (line : LineNo) (tag : Byte) (outcome : BlockOutcome) (sent : Nat)
  /-- the conditions gathered in a change set (R26) -/
  | lineEvent (line : LineNo) (changes : ChangeSet) (cts dcd : Level)
  /-- hits of one match entry (R27) -/
  | matched (line : LineNo) (entry : MatchNo) (direction : Direction) (char : Byte) (hits : Byte)
  deriving DecidableEq, Repr

/-! ## The line configuration record (07) -/

inductive DataBits where
  | seven
  | eight
  deriving DecidableEq, Repr

inductive Parity where
  | none
  | even
  | odd
  deriving DecidableEq, Repr

inductive StopBits where
  | one
  | two
  deriving DecidableEq, Repr

inductive ErrorPolicy where
  | keep
  | close
  | drop
  deriving DecidableEq, Repr

inductive TxFlow where
  | none
  | xonXoff
  | cts
  | both
  deriving DecidableEq, Repr

inductive RtsMode where
  | manual
  | keyed
  | flow
  deriving DecidableEq, Repr

inductive DtrMode where
  | manual
  | auto
  deriving DecidableEq, Repr

inductive DcdAction where
  | none
  | closeRecord
  | closeAndFlush
  deriving DecidableEq, Repr

inductive HoldAction where
  | report
  | flush
  deriving DecidableEq, Repr

/-- The line configuration record (R139). -/
structure LineConfig where
  baud : Fin 10
  dataBits : DataBits
  parity : Parity
  stopBits : StopBits
  /-- 1 to 64 -/
  maxLength : Nat
  /-- ticks, 0 = off -/
  idleGap : Nat
  errorPolicy : ErrorPolicy
  txFlow : TxFlow
  rtsMode : RtsMode
  rxXoff : Bool
  dtrMode : DtrMode
  dcdAction : DcdAction
  maskCts : Bool
  maskDcd : Bool
  /-- ticks -/
  rtsLead : Nat
  /-- ticks -/
  rtsTrail : Nat
  /-- units of 100 ms, 0 = no limit -/
  holdLimit : Nat
  /-- 1 to 8 -/
  quota : Nat
  holdAction : HoldAction
  deriving DecidableEq, Repr

/-- The defaults of R139. -/
def LineConfig.default : LineConfig :=
  { baud := 5, dataBits := .eight, parity := .none, stopBits := .one, maxLength := 64, idleGap := 0, errorPolicy := .keep,
    txFlow := .none, rtsMode := .manual, rxXoff := false, dtrMode := .auto, dcdAction := .none, maskCts := false,
    maskDcd := false, rtsLead := 0, rtsTrail := 0, holdLimit := 0, quota := 4, holdAction := .report }

/-! ## The line transmitter (04) -/

/-- The eight transmitter states (R68). -/
inductive TxState where
  | off
  | idle
  | keying
  | breaking
  | sending
  | held
  | halted
  | trailing
  deriving DecidableEq, Repr

/-- The two flow characters (R87). -/
inductive FlowChar where
  | xoff
  | xon
  deriving DecidableEq, Repr

/-- The break timer (R67): up to 2,550 ticks of space, then the mark of one character time (R71). -/
inductive BreakTimer where
  | stopped
  | space (ticks : Nat)
  | mark
  deriving DecidableEq, Repr

/-- The character whose start bit has been sent and whose last stop bit has not (R68): a character of the ACTIVE block, as
it appears on the line, or a priority character (R87). -/
inductive InFlight where
  | block (char : Byte)
  | priority (c : FlowChar)
  deriving DecidableEq, Repr

/-- A line transmitter (R67). The last five fields are implied by other rules (log 12, log 28). -/
structure Transmitter where
  state : TxState
  queue : List DescNo
  remoteHold : Bool
  haltRequest : Bool
  pendingPriority : Option FlowChar
  keyed : Bool
  leadTimer : Option Nat
  trailTimer : Option Nat
  breakTimer : BreakTimer
  breakSent : Bool
  holdTimer : Option Nat
  /-- the character in flight (R68) -/
  inFlight : Option InFlight
  /-- the line is held: TX_HELD, or a priority character sent from TX_HELD is in flight (R76, R88) -/
  inHold : Bool
  /-- the hold timer expired while such a character was in flight (R78) -/
  holdDue : Bool
  /-- a flush waits for the boundary to finish the ACTIVE block (R84) -/
  flushDue : Bool
  /-- the next-step choice of a commit comes after the DCD sample of its tick (R59, log 28) -/
  commitDue : Bool
  deriving DecidableEq, Repr

/-- Reset values of R91. -/
def Transmitter.reset : Transmitter :=
  { state := .off, queue := [], remoteHold := false, haltRequest := false, pendingPriority := none, keyed := false,
    leadTimer := none, trailTimer := none, breakTimer := .stopped, breakSent := false, holdTimer := none,
    inFlight := none, inHold := false, holdDue := false, flushDue := false, commitDue := false }

/-! ## The line receiver (05) -/

/-- The four receiver states (R93). -/
inductive RxState where
  | off
  | idle
  | assembling
  | stalled
  deriving DecidableEq, Repr

/-- The framer's condition (R94); stopped while the receiver is RX_OFF (R93, R117). -/
inductive FramerCondition where
  | stopped
  | awaitingMark
  | hunting
  | inFrame
  deriving DecidableEq, Repr

/-- Status of a received character (R96). -/
inductive CharStatus where
  | ok
  | parity
  | framing
  deriving DecidableEq, Repr

/-- An item of the holding FIFO (R101). -/
inductive FifoItem where
  | char (value : Byte) (status : CharStatus)
  | breakMarker
  deriving DecidableEq, Repr

/-- The record under assembly (R92). -/
structure OpenRecord where
  length : Nat
  errorFlag : Bool
  cells : List CellNo
  deriving DecidableEq, Repr

/-- A closed record that waits for an event slot (R92). -/
structure ClosedRecord where
  cause : Cause
  length : Nat
  errorFlag : Bool
  cells : List CellNo
  deriving DecidableEq, Repr

/-- A line receiver (R92). -/
structure Receiver where
  state : RxState
  framer : FramerCondition
  fifo : List FifoItem
  openRec : Option OpenRecord
  closedRec : Option ClosedRecord
  idleTimer : Option Nat
  lostTally : Byte
  deriving DecidableEq, Repr

/-- Reset values of R117. -/
def Receiver.reset : Receiver :=
  { state := .off, framer := .stopped, fifo := [], openRec := none, closedRec := none, idleTimer := none, lostTally := 0 }

/-! ## Flow and modem logic (06) -/

/-- The qualifier of a modem input (R131). -/
structure Qualifier where
  level : Level
  previous : Level
  /-- a tick has passed whose sample has not been taken (log 2) -/
  sampleDue : Bool
  deriving DecidableEq, Repr

/-- Flow and modem logic (R118). -/
structure FlowLogic where
  congested : Bool
  xoffSent : Bool
  cts : Qualifier
  dcd : Qualifier
  manualRts : Level
  manualDtr : Level
  deriving DecidableEq, Repr

/-- Hardware-reset values of R137. -/
def FlowLogic.reset : FlowLogic :=
  { congested := false, xoffSent := false, cts := { level := .negated, previous := .negated, sampleDue := false },
    dcd := { level := .negated, previous := .negated, sampleDue := false }, manualRts := .negated, manualDtr := .negated }

/-! ## A line -/

/-- The four counters of a line (R168). -/
structure Counters where
  parity : Byte
  framing : Byte
  overrun : Byte
  discarded : Byte
  deriving DecidableEq, Repr

def Counters.zero : Counters := { parity := 0, framing := 0, overrun := 0, discarded := 0 }

/-- The four line states (R143). -/
inductive LineState where
  | disabled
  | enabled
  | restarting
  | disabling
  deriving DecidableEq, Repr

/-- Everything one line holds. -/
structure Line where
  state : LineState
  cfg : LineConfig
  tx : Transmitter
  rx : Receiver
  flow : FlowLogic
  counters : Counters
  changes : ChangeSet
  deriving DecidableEq, Repr

/-- A line after hardware reset (R44, R91, R117, R137, R152, R181). -/
def Line.reset : Line :=
  { state := .disabled, cfg := .default, tx := .reset, rx := .reset, flow := .reset, counters := .zero, changes := .empty }

/-! ## The match table and the capture record (08) -/

/-- The direction field of a match entry (R154). -/
inductive MatchDirection where
  | rx
  | tx
  | either
  deriving DecidableEq, Repr

/-- The action of a match entry (R154). -/
inductive MatchAction where
  | capture
  | delimit
  | post
  | hold
  deriving DecidableEq, Repr

/-- A MATCH entry that waits for a slot (R35). -/
structure PendingPost where
  line : LineNo
  direction : Direction
  char : Byte
  count : Byte
  deriving DecidableEq, Repr

/-- A match entry (R154). -/
structure MatchEntry where
  enabled : Bool
  value : Byte
  mask : Byte
  lines : BitVec 16
  direction : MatchDirection
  action : MatchAction
  hitCount : Byte
  pendingPost : Option PendingPost
  deriving DecidableEq, Repr

/-- Hardware-reset values of R167. -/
def MatchEntry.reset : MatchEntry :=
  { enabled := false, value := 0, mask := 0, lines := 0, direction := .rx, action := .capture, hitCount := 0,
    pendingPost := none }

/-- States of a load-and-lock record (R162, R172). -/
inductive LockState where
  | empty
  | locked
  | unlocked
  deriving DecidableEq, Repr

/-- The capture record (R162). -/
structure CaptureRecord where
  state : LockState
  entry : MatchNo
  line : LineNo
  direction : Direction
  char : Byte
  position : Nat
  tag : Option Byte
  laterHits : Byte
  deriving DecidableEq, Repr

/-- EMPTY: every field reads 0 and the tag is absent (R162). -/
def CaptureRecord.empty : CaptureRecord :=
  { state := .empty, entry := 0, line := 0, direction := .rx, char := 0, position := 0, tag := none, laterHits := 0 }

/-! ## The error record (09) -/

inductive ErrorKind where
  | parity
  | framing
  | overrun
  deriving DecidableEq, Repr

inductive Severity where
  | minor
  | severe
  deriving DecidableEq, Repr

/-- The error record (R172). -/
structure ErrorRecord where
  state : LockState
  firstKind : ErrorKind
  firstSeverity : Severity
  line : LineNo
  char : Option Byte
  severeAfter : Bool
  further : Byte
  deriving DecidableEq, Repr

/-- EMPTY: every field reads 0, the character is absent and severe-after is clear (R172, R178). -/
def ErrorRecord.empty : ErrorRecord :=
  { state := .empty, firstKind := .parity, firstSeverity := .minor, line := 0, char := none, severeAfter := false,
    further := 0 }

/-! ## The command group (10) -/

/-- The result codes (R185). -/
inductive ResultCode where
  | ok
  | badCommand
  | badParam
  | lineDisabled
  | lineActive
  | lineBusy
  | windowBusy
  | noWindow
  | noDescriptor
  | lineFull
  | empty
  deriving DecidableEq, Repr

/-- The command that keeps BUSY set until a line's character boundary (R185). -/
inductive BusyCommand where
  | flush (line : LineNo)
  | restart (line : LineNo)
  | disable (line : LineNo)
  deriving DecidableEq, Repr

/-! ## The whole part -/

/-- The state of the LC-16. INVENTORY.md names the rule of each field. -/
structure State where
  mem : List Host.Cell
  freeList : List CellNo
  descs : Vector Descriptor 32
  reserve : Nat
  poolLow : Nat
  queue : List Entry
  readPtr : Nat
  rxPastEnd : Bool
  pointer : SourceNo
  window : Option DescNo
  windowLine : LineNo
  blockFull : Bool
  lastRefused : Bool
  noCell : Bool
  windowLost : Bool
  lines : Vector Line 16
  matchTable : Vector MatchEntry 8
  capture : CaptureRecord
  errorSet : BitVec 16
  errorRec : ErrorRecord
  suppressMinor : Bool
  param0 : Byte
  param1 : Byte
  param2 : Byte
  param3 : Byte
  result : ResultCode
  busy : Option BusyCommand
  commandLost : Bool
  pendCommand : Bool
  pendCapture : Bool
  pendError : Bool
  pendPool : Bool
  pendWindow : Bool
  inten : BitVec 6
  /-- D0 to D7 at the last read of RXDATA (R41, log 10) -/
  readData : Byte
  /-- RESET_N is low (R189) -/
  resetHeld : Bool
  /-- the model's own count of draws of `Config.freeChoice` (log 6) -/
  freeCtr : Nat
  /-- commands and events that wait, first in, first out -/
  pending : List Instr
  deriving DecidableEq, Repr

/-- No constructor: the spec names no condition that stops the part; every error is a result code, a counter or a record. -/
inductive Fault where
  deriving DecidableEq, Repr

/-- Why the model would not answer. No meaning of the model raises it: every row has its effect. -/
inductive Refusal where
  /-- a row whose arm of `exec` has no meaning yet; raised by `exec` alone; safe -/
  | notModelled (mnemonic : String)
  deriving DecidableEq, Repr

/-- Cells 0 to 127 in cell-number order (R19). -/
def allCells : List CellNo := List.finRange 128

/-- Descriptors 0 to 31 in number order. -/
def allDescs : List DescNo := List.finRange 32

/-- The machine right after hardware reset has ended (R19, R44, R66, R91, R117, R137, R152, R167, R181, R189; logs 8, 9, 10,
17). -/
def State.reset : State :=
  { mem := [], freeList := allCells, descs := Vector.replicate 32 .unused, reserve := 16, poolLow := 8, queue := [],
    readPtr := 0, rxPastEnd := false, pointer := 16, window := none, windowLine := 0, blockFull := false,
    lastRefused := false, noCell := false, windowLost := false, lines := Vector.replicate 16 .reset,
    matchTable := Vector.replicate 8 .reset, capture := .empty, errorSet := 0, errorRec := .empty, suppressMinor := false,
    param0 := 0, param1 := 0, param2 := 0, param3 := 0, result := .ok, busy := none, commandLost := false,
    pendCommand := false, pendCapture := false, pendError := false, pendPool := false, pendWindow := false, inten := 0,
    readData := 0, resetHeld := false, freeCtr := 0, pending := [] }

end Sys2Proof.Machine
end

