-- ==== Sys2Proof/Machine/Ops.lean ====
section
/-! DEFINITION. The shared operations over the character store, the descriptor pool, the event queue, the lines and the
command group. -/

namespace Sys2Proof.Machine

/-! ## Memory: the places of the character store (R2, log 8) -/

/-- The character at a place. -/
def Memory.read : List Host.Cell → Nat → Byte
  | [], _ => Config.unwritten
  | (x, v) :: rest, a => if x = a then v else Memory.read rest a

/-- The store with the character `v` at place `a`, in canonical form. -/
def Memory.write : List Host.Cell → Nat → Byte → List Host.Cell
  | [], a, v => if v = Config.unwritten then [] else [(a, v)]
  | (x, w) :: rest, a, v =>
    if a < x then (if v = Config.unwritten then (x, w) :: rest else (a, v) :: (x, w) :: rest)
    else if a = x then (if v = Config.unwritten then rest else (a, v) :: rest)
    else (x, w) :: Memory.write rest a v

/-- Canonical from address `lo` on: addresses rise strictly, stay below 2,048, and no pair holds what an unlisted place
reads as. -/
def Memory.wfFrom : Nat → List Host.Cell → Bool
  | _, [] => true
  | lo, (x, v) :: rest =>
    decide (lo ≤ x) && decide (x < Config.storeSize) && decide (v ≠ Config.unwritten) && Memory.wfFrom (x + 1) rest

/-- The canonical form of the character store. -/
def Memory.wf (m : List Host.Cell) : Bool := Memory.wfFrom 0 m

/-- The address of a place of a cell. -/
def placeAddress (c : CellNo) (place : Nat) : Nat := Config.cellSize * c.val + place % Config.cellSize

/-- The address of position `pos` of a block or record whose cells are `cells`: cell pos / 16, place pos mod 16 (R2). -/
def positionAddress (cells : List CellNo) (pos : Nat) : Option Nat :=
  (cells[pos / Config.cellSize]?).map (fun c => placeAddress c (pos % Config.cellSize))

/-- The character at a position of a block or record (R2). A position without a cell, which no run reaches, reads 00. -/
def charAt (m : List Host.Cell) (cells : List CellNo) (pos : Nat) : Byte :=
  match positionAddress cells pos with
  | some a => Memory.read m a
  | none => Config.unwritten

/-- The state with the character `v` stored at a position of a block or record (R2). -/
def storeChar (cells : List CellNo) (pos : Nat) (v : Byte) (s : State) : State :=
  match positionAddress cells pos with
  | some a => { s with mem := Memory.write s.mem a v }
  | none => s

/-! ## Saturating counters (00_scope.md, "Counters and counts") -/

/-- A counter increased by `n`, staying at 255. -/
def satAdd (c : Byte) (n : Nat) : Byte := if c.toNat + n > 255 then 255 else byte (c.toNat + n)

/-! ## Lines, descriptors and match entries -/

def State.line (s : State) (l : LineNo) : Line := s.lines[l.val]

def State.setLine (s : State) (l : LineNo) (ln : Line) : State := { s with lines := s.lines.set l.val ln }

def State.desc (s : State) (d : DescNo) : Descriptor := s.descs[d.val]

def State.setDesc (s : State) (d : DescNo) (ds : Descriptor) : State := { s with descs := s.descs.set d.val ds }

def State.matchEntry (s : State) (n : MatchNo) : MatchEntry := s.matchTable[n.val]

def State.setMatch (s : State) (n : MatchNo) (m : MatchEntry) : State :=
  { s with matchTable := s.matchTable.set n.val m }

/-- Every line changed by one function of its own state. -/
def State.mapLines (s : State) (f : Line → Line) : State := { s with lines := s.lines.map f }

/-! ## The free value (log 6) -/

/-- One draw of the free value: the number, and the state with the draw counted. -/
def draw (s : State) : Nat × State := (Config.freeChoice s.freeCtr, { s with freeCtr := s.freeCtr + 1 })

/-- One thing after the other. -/
def runAll (acts : List (State → State)) (s : State) : State := acts.foldl (fun t f => f t) s

/-- A list of acts with one more act put at the place that `n` chooses; every place is chosen by some `n`. -/
def insertAct (n : Nat) (act : State → State) (acts : List (State → State)) : List (State → State) :=
  acts.take (n % (acts.length + 1)) ++ act :: acts.drop (n % (acts.length + 1))

/-! ## The free list (R1, R3, R7, R11) -/

/-- The free count (R1). -/
def State.freeCount (s : State) : Nat := s.freeList.length

/-- A take (R3): refused when the free list is empty or the taker's condition does not hold; otherwise the head cell leaves
the list, and a fall of the free count from the pool-low threshold or above to below it sets POOL pending (R11). -/
def takeCell (allowed : Bool) (s : State) : Option (CellNo × State) :=
  match s.freeList with
  | [] => none
  | c :: rest =>
    if allowed then
      some (c, { s with
        freeList := rest
        pendPool := s.pendPool || (decide (s.poolLow ≤ rest.length + 1) && decide (rest.length < s.poolLow)) })
    else none

/-- A return (R7): the cells join the tail of the free list in the order of the holder's list. -/
def returnCells (cells : List CellNo) (s : State) : State := { s with freeList := s.freeList ++ cells }

/-! ## The descriptor pool (R13 to R16) -/

/-- The free descriptor count (R13). -/
def State.freeDescCount (s : State) : Nat := allDescs.countP (fun d => decide ((s.desc d).phase = .free))

/-- The lowest-numbered FREE descriptor (R15). -/
def State.lowestFree (s : State) : Option DescNo := allDescs.find? (fun d => decide ((s.desc d).phase = .free))

/-- A descriptor returns to FREE (R16). -/
def freeDesc (d : DescNo) (s : State) : State := s.setDesc d .unused

/-! ## The event queue (R21, R28) -/

/-- A slot is free while the queue count is below 48 (R21). -/
def State.slotFree (s : State) : Bool := decide (s.queue.length < Config.queueCapacity)

/-- Posting (R28): the entry joins the tail; posted into an empty queue it becomes the head, and the read pointer and
RX_PAST_END are cleared (R40). -/
def postEntry (e : Entry) (s : State) : State :=
  if s.queue.isEmpty then { s with queue := [e], readPtr := 0, rxPastEnd := false }
  else { s with queue := s.queue ++ [e] }

/-! ## The pending change set (R33) -/

def ChangeSet.isEmpty (c : ChangeSet) : Bool := !(c.cts || c.dcd || c.holdExpired || c.lineCleared)

def ChangeSet.union (a b : ChangeSet) : ChangeSet :=
  { cts := a.cts || b.cts, dcd := a.dcd || b.dcd, holdExpired := a.holdExpired || b.holdExpired,
    lineCleared := a.lineCleared || b.lineCleared }

/-- The LINE_EVENT of a change set, with the qualified levels now (R26, R34). -/
def lineEventOf (s : State) (l : LineNo) (c : ChangeSet) : Entry :=
  .lineEvent l c (s.line l).flow.cts.level (s.line l).flow.dcd.level

/-- Changes join a line's pending change set (R33): posted at once when the set was empty and a slot is free; otherwise
they wait in the set. No change is no event. -/
def joinChanges (l : LineNo) (c : ChangeSet) (s : State) : State :=
  if c.isEmpty then s
  else if (s.line l).changes.isEmpty && s.slotFree then postEntry (lineEventOf s l c) s
  else s.setLine l { s.line l with changes := (s.line l).changes.union c }

/-! ## The front of a transmit queue (R16, R31, R32) -/

/-- The TX_REPORT of a descriptor (R16, R25). -/
def reportOf (ds : Descriptor) : Entry := .txReport ds.line ds.tag (ds.outcome.getD .sent) ds.sent

/-- The transmit queue of a line without its head descriptor, which becomes FREE (R16). -/
def dropHeadBlock (l : LineNo) (d : DescNo) (s : State) : State :=
  freeDesc d (s.setLine l { s.line l with tx.queue := (s.line l).tx.queue.tail })

/-- One head descriptor handled (R32): FINISHED without report is removed; FINISHED with report is posted and removed when
a slot is free; otherwise nothing. -/
def frontStep (l : LineNo) (s : State) : State :=
  match (s.line l).tx.queue with
  | [] => s
  | d :: _ =>
    if (s.desc d).phase = .finished then
      if (s.desc d).report then
        if s.slotFree then dropHeadBlock l d (postEntry (reportOf (s.desc d)) s) else s
      else dropHeadBlock l d s
    else s

/-- `n` head descriptors handled in turn. -/
def frontSteps (l : LineNo) : Nat → State → State
  | 0, s => s
  | n + 1, s => frontSteps l n (frontStep l s)

/-- The front of a line's transmit queue is handled in queue order (R32). Once a descriptor stops it, `frontStep` changes
nothing more, so as many steps as the queue is long are all of them. -/
def handleFront (l : LineNo) (s : State) : State := frontSteps l (s.line l).tx.queue.length s

/-! ## Finishing blocks (R9, R14) -/

/-- A block finishes: every cell still on its list is returned as one return (R9), and it is FINISHED with its outcome. -/
def finishBlock (d : DescNo) (o : BlockOutcome) (s : State) : State :=
  (returnCells (s.desc d).cells s).setDesc d { s.desc d with phase := .finished, cells := [], outcome := some o }

/-- A block finishes if it is in one of the phases named. -/
def finishIf (phases : List Phase) (o : BlockOutcome) (s : State) (d : DescNo) : State :=
  if phases.contains (s.desc d).phase then finishBlock d o s else s

/-- The blocks of a line's queue in the phases named finish, oldest first (R9). -/
def finishBlocks (phases : List Phase) (l : LineNo) (o : BlockOutcome) (s : State) : State :=
  (s.line l).tx.queue.foldl (finishIf phases o) s

/-- The QUEUED blocks of a line finish, in queue order. -/
def finishQueued (l : LineNo) (o : BlockOutcome) (s : State) : State := finishBlocks [.queued] l o s

/-- Every unfinished block of a line finishes, in queue order: the ACTIVE one, being oldest, first. -/
def finishUnfinished (l : LineNo) (o : BlockOutcome) (s : State) : State := finishBlocks [.active, .queued] l o s

/-- The ACTIVE descriptor of a line (R69). -/
def State.activeDesc (s : State) (l : LineNo) : Option DescNo :=
  (s.line l).tx.queue.find? (fun d => decide ((s.desc d).phase = .active))

/-- The oldest QUEUED descriptor of a line (R72, step 2). -/
def State.oldestQueued (s : State) (l : LineNo) : Option DescNo :=
  (s.line l).tx.queue.find? (fun d => decide ((s.desc d).phase = .queued))

/-- The line has a block that has not finished. -/
def State.hasUnfinished (s : State) (l : LineNo) : Bool :=
  (s.line l).tx.queue.any (fun d => [Phase.active, .queued].contains (s.desc d).phase)

/-! ## The command group (R183 to R185, R189) -/

/-- Completion of a command that returns no values (R185): RESULT, then BUSY, then COMMAND pending. -/
def complete (r : ResultCode) (s : State) : State := { s with result := r, busy := none, pendCommand := true }

/-- Completion with OK of a command that returns values: all four PARAM registers are written (R183). -/
def completeWith (a b c d : Byte) (s : State) : State :=
  complete .ok { s with param0 := a, param1 := b, param2 := c, param3 := d }

/-- A COMMAND write (R184, R189): ignored while RESET_N is low; with BUSY set it is ignored and sets COMMAND_LOST; otherwise
the command is accepted, which clears COMMAND_LOST, and acts. -/
def hostCommand (run : State → State) (s : State) : State :=
  if s.resetHeld then s
  else if s.busy.isSome then { s with commandLost := true }
  else run { s with commandLost := false }

/-- Anything that the part does not do while RESET_N is low: host writes are ignored, inputs are not sampled (R189). -/
def unlessReset (f : State → State) (s : State) : State := if s.resetHeld then s else f s

end Sys2Proof.Machine
end

