-- ==== Sys2Proof/Machine/Clock.lean ====
section
/-! DEFINITION. The 1 ms tick (R192): what the step does on an empty queue (log 2), and when a timer has expired or a sample
is due. -/

namespace Sys2Proof.Machine

/-! ## Expired timers (R192, log 3) -/

/-- A timer loaded with n has expired once it has counted n ticks (R192). -/
def expired (timer : Option Nat) : Bool := decide (timer = some 0)

/-- The lead has ended (R74). -/
def leadDue (t : Transmitter) : Bool := decide (t.state = .keying) && expired t.leadTimer

/-- The trail has ended (R75). -/
def trailDue (t : Transmitter) : Bool := decide (t.state = .trailing) && expired t.trailTimer

/-- The space of a break has ended (R71). -/
def breakDue (t : Transmitter) : Bool := decide (t.state = .breaking) && decide (t.breakTimer = .space 0)

/-- The hold timer of an ENABLED line has expired, in TX_HELD or during a priority character sent from TX_HELD (R78). -/
def holdTimeUp (ln : Line) : Bool :=
  decide (ln.state = .enabled) && expired ln.tx.holdTimer &&
    (decide (ln.tx.state = .held) || (ln.tx.inHold && ln.tx.inFlight.isSome))

/-- The idle timer has expired (R109). -/
def idleDue (r : Receiver) : Bool := decide (r.state = .assembling) && expired r.idleTimer

/-- A sample of the last tick has not been taken; a DISABLED line takes none (R131). -/
def samplesDue (ln : Line) : Bool :=
  decide (ln.state ≠ .disabled) && (ln.flow.cts.sampleDue || ln.flow.dcd.sampleDue)

/-- A sample that differs from the qualified level and equals the previous sample is a qualified change (R131). -/
def qualifies (q : Qualifier) (v : Level) : Bool := decide (v ≠ q.level) && decide (v = q.previous)

/-- A sample of this level, taken on this tick, is a qualified change. -/
def changeDue (q : Qualifier) (v : Level) : Bool := q.sampleDue && qualifies q v

/-- Something of the line's last tick has not happened yet: an expiry or a sample whose row is still to come. -/
def tickOpen (ln : Line) : Bool :=
  leadDue ln.tx || trailDue ln.tx || breakDue ln.tx || holdTimeUp ln || idleDue ln.rx || samplesDue ln

/-! ## The tick -/

/-- A running timer counts one tick down; at 0 it has expired and waits for its expiry row (log 2, log 3). -/
def tickTimer : Option Nat → Option Nat
  | none => none
  | some n => some (n - 1)

def tickBreak : BreakTimer → BreakTimer
  | .space n => .space (n - 1)
  | .stopped => .stopped
  | .mark => .mark

/-- A sample is due from a qualifier of a line that is not DISABLED (R131). -/
def tickQualifier (samples : Bool) (q : Qualifier) : Qualifier := { q with sampleDue := samples }

/-- One tick of a line: idle gap, RTS lead and trail, hold limit and break are counted in ticks, and the modem inputs are
sampled on each (R131, R192). -/
def tickLine (ln : Line) : Line :=
  let samples := decide (ln.state ≠ .disabled)
  { ln with
    tx.leadTimer := tickTimer ln.tx.leadTimer
    tx.trailTimer := tickTimer ln.tx.trailTimer
    tx.holdTimer := tickTimer ln.tx.holdTimer
    tx.breakTimer := tickBreak ln.tx.breakTimer
    rx.idleTimer := tickTimer ln.rx.idleTimer
    flow.cts := tickQualifier samples ln.flow.cts
    flow.dcd := tickQualifier samples ln.flow.dcd }

/-- One tick of the part. It waits until everything of the tick before it has happened, so that a timer loaded with n
expires on the nth tick and each tick has its samples (R131, R192, log 2). While RESET_N is low the time base does not count
(R189). -/
def tick (s : State) : State :=
  unlessReset (fun t => if (List.finRange 16).any fun l => tickOpen (t.line l) then t else t.mapLines tickLine) s

end Sys2Proof.Machine
end

