-- ==== Sys2Proof/Machine/Operands.lean ====
section
/-! DEFINITION. The parameters of the commands and the values they return, as the spec codes them (R141, R142, R151, R163 to
R165, R177, R178), and the frame of a line's format (R70, R95, R96, R139). -/

namespace Sys2Proof.Machine

/-- A byte as a line number; none at 16 or more. -/
def lineOf (p : Byte) : Option LineNo := if h : p.toNat < 16 then some ⟨p.toNat, h⟩ else none

/-- A byte as a match entry number; none at 8 or more. -/
def matchOf (p : Byte) : Option MatchNo := if h : p.toNat < 8 then some ⟨p.toNat, h⟩ else none

/-- A command that takes a line in PARAM0: BAD_PARAM at 16 or more. -/
def withLine (k : LineNo → State → State) (s : State) : State :=
  match lineOf s.param0 with
  | some l => k l s
  | none => complete .badParam s

/-- A command that takes a match entry in PARAM0: BAD_PARAM at 8 or more. -/
def withMatch (k : MatchNo → State → State) (s : State) : State :=
  match matchOf s.param0 with
  | some n => k n s
  | none => complete .badParam s

/-! ## Codings of R141 -/

def baudOf (p : Byte) : Option (Fin 10) := if h : p.toNat < 10 then some ⟨p.toNat, h⟩ else none

def dataBitsOf (p : Byte) : Option DataBits := if p = 7 then some .seven else if p = 8 then some .eight else none

def DataBits.code : DataBits → Byte
  | .seven => 7
  | .eight => 8

def parityStopOf (p : Byte) : Option (Parity × StopBits) :=
  if p = 0 then some (.none, .one) else if p = 1 then some (.none, .two)
  else if p = 2 then some (.even, .one) else if p = 3 then some (.even, .two)
  else if p = 4 then some (.odd, .one) else if p = 5 then some (.odd, .two) else none

def parityStopCode : Parity → StopBits → Byte
  | .none, .one => 0
  | .none, .two => 1
  | .even, .one => 2
  | .even, .two => 3
  | .odd, .one => 4
  | .odd, .two => 5

/-- A count within its accepted range. -/
def rangeOf (lo hi : Nat) (p : Byte) : Option Nat := if lo ≤ p.toNat ∧ p.toNat ≤ hi then some p.toNat else none

def errorPolicyOf (p : Byte) : Option ErrorPolicy :=
  if p = 0 then some .keep else if p = 1 then some .close else if p = 2 then some .drop else none

def ErrorPolicy.code : ErrorPolicy → Byte
  | .keep => 0
  | .close => 1
  | .drop => 2

def txFlowOf (p : Byte) : Option TxFlow :=
  if p = 0 then some .none else if p = 1 then some .xonXoff else if p = 2 then some .cts
  else if p = 3 then some .both else none

def TxFlow.code : TxFlow → Byte
  | .none => 0
  | .xonXoff => 1
  | .cts => 2
  | .both => 3

def rtsModeOf (p : Byte) : Option RtsMode :=
  if p = 0 then some .manual else if p = 1 then some .keyed else if p = 2 then some .flow else none

def RtsMode.code : RtsMode → Byte
  | .manual => 0
  | .keyed => 1
  | .flow => 2

def boolOf (p : Byte) : Option Bool := if p = 0 then some false else if p = 1 then some true else none

def boolCode (b : Bool) : Byte := if b then 1 else 0

def dtrModeOf (p : Byte) : Option DtrMode := if p = 0 then some .manual else if p = 1 then some .auto else none

def DtrMode.code : DtrMode → Byte
  | .manual => 0
  | .auto => 1

def dcdActionOf (p : Byte) : Option DcdAction :=
  if p = 0 then some .none else if p = 1 then some .closeRecord else if p = 2 then some .closeAndFlush else none

def DcdAction.code : DcdAction → Byte
  | .none => 0
  | .closeRecord => 1
  | .closeAndFlush => 2

/-- The event mask: CTS, then DCD. -/
def eventMaskOf (p : Byte) : Option (Bool × Bool) :=
  if p = 0 then some (false, false) else if p = 1 then some (true, false)
  else if p = 2 then some (false, true) else if p = 3 then some (true, true) else none

def eventMaskCode (cts dcd : Bool) : Byte := boolCode cts + 2 * boolCode dcd

def holdActionOf (p : Byte) : Option HoldAction := if p = 0 then some .report else if p = 1 then some .flush else none

def HoldAction.code : HoldAction → Byte
  | .report => 0
  | .flush => 1

/-! ## The configuration commands: the new record, or none where a value is outside its coding (R140, check 1; R141) -/

def formatOf (p1 p2 p3 : Byte) (cfg : LineConfig) : Option LineConfig :=
  match baudOf p1, dataBitsOf p2, parityStopOf p3 with
  | some b, some d, some (p, st) => some { cfg with baud := b, dataBits := d, parity := p, stopBits := st }
  | _, _, _ => none

def recordOf (p1 p2 p3 : Byte) (cfg : LineConfig) : Option LineConfig :=
  match rangeOf 1 64 p1, errorPolicyOf p3 with
  | some n, some e => some { cfg with maxLength := n, idleGap := p2.toNat, errorPolicy := e }
  | _, _ => none

def flowOf (p1 p2 p3 : Byte) (cfg : LineConfig) : Option LineConfig :=
  match txFlowOf p1, rtsModeOf p2, boolOf p3 with
  | some f, some m, some x => some { cfg with txFlow := f, rtsMode := m, rxXoff := x }
  | _, _, _ => none

def modemOf (p1 p2 p3 : Byte) (cfg : LineConfig) : Option LineConfig :=
  match dtrModeOf p1, dcdActionOf p2, eventMaskOf p3 with
  | some m, some a, some (c, d) => some { cfg with dtrMode := m, dcdAction := a, maskCts := c, maskDcd := d }
  | _, _, _ => none

def timersOf (p1 p2 p3 : Byte) (cfg : LineConfig) : Option LineConfig :=
  some { cfg with rtsLead := p1.toNat, rtsTrail := p2.toNat, holdLimit := p3.toNat }

/-- SET LINE QUEUE does not read PARAM3 (R141). -/
def queueOf (p1 p2 _p3 : Byte) (cfg : LineConfig) : Option LineConfig :=
  match rangeOf 1 8 p1, holdActionOf p2 with
  | some q, some a => some { cfg with quota := q, holdAction := a }
  | _, _ => none

/-- The values GET LINE CONFIG returns in PARAM1 to PARAM3 for a group selector (R142); none at 6 or more. -/
def configGroup (cfg : LineConfig) (selector : Byte) : Option (Byte × Byte × Byte) :=
  if selector = 0 then some (byte cfg.baud.val, cfg.dataBits.code, parityStopCode cfg.parity cfg.stopBits)
  else if selector = 1 then some (byte cfg.maxLength, byte cfg.idleGap, cfg.errorPolicy.code)
  else if selector = 2 then some (cfg.txFlow.code, cfg.rtsMode.code, boolCode cfg.rxXoff)
  else if selector = 3 then some (cfg.dtrMode.code, cfg.dcdAction.code, eventMaskCode cfg.maskCts cfg.maskDcd)
  else if selector = 4 then some (byte cfg.rtsLead, byte cfg.rtsTrail, byte cfg.holdLimit)
  else if selector = 5 then some (byte cfg.quota, cfg.holdAction.code, 0)
  else none

/-! ## Codes of states and records -/

def LineState.code : LineState → Byte
  | .disabled => 0
  | .enabled => 1
  | .restarting => 2
  | .disabling => 3

def TxState.code : TxState → Byte
  | .off => 0
  | .idle => 1
  | .keying => 2
  | .breaking => 3
  | .sending => 4
  | .held => 5
  | .halted => 6
  | .trailing => 7

def RxState.code : RxState → Byte
  | .off => 0
  | .idle => 1
  | .assembling => 2
  | .stalled => 3

def levelCode : Level → Byte
  | .negated => 0
  | .asserted => 1

def Direction.code : Direction → Byte
  | .rx => 0
  | .tx => 1

def matchDirectionOf (p : Byte) : Option MatchDirection :=
  if p = 0 then some .rx else if p = 1 then some .tx else if p = 2 then some .either else none

def MatchDirection.code : MatchDirection → Byte
  | .rx => 0
  | .tx => 1
  | .either => 2

def matchActionOf (p : Byte) : Option MatchAction :=
  if p = 0 then some .capture else if p = 1 then some .delimit else if p = 2 then some .post
  else if p = 3 then some .hold else none

def MatchAction.code : MatchAction → Byte
  | .capture => 0
  | .delimit => 1
  | .post => 2
  | .hold => 3

/-- PARAM3 of SET MATCH ENTRY: direction plus 4 × action; none for direction 3 or 16 or more (R163). -/
def directionActionOf (p : Byte) : Option (MatchDirection × MatchAction) :=
  match matchDirectionOf (p &&& 3), matchActionOf (p >>> 2) with
  | some d, some a => some (d, a)
  | _, _ => none

def LockState.code : LockState → Byte
  | .empty => 0
  | .locked => 1
  | .unlocked => 2

def ErrorKind.code : ErrorKind → Byte
  | .parity => 0
  | .framing => 1
  | .overrun => 2

def Severity.code : Severity → Byte
  | .minor => 0
  | .severe => 1

def ResultCode.code : ResultCode → Byte
  | .ok => 0
  | .badCommand => 1
  | .badParam => 2
  | .lineDisabled => 3
  | .lineActive => 4
  | .lineBusy => 5
  | .windowBusy => 6
  | .noWindow => 7
  | .noDescriptor => 8
  | .lineFull => 9
  | .empty => 10

def Cause.code : Cause → Byte
  | .delimiter => 0
  | .length => 1
  | .idle => 2
  | .brk => 3
  | .error => 4
  | .carrier => 5
  | .storeFull => 6

def BlockOutcome.code : BlockOutcome → Byte
  | .sent => 0
  | .flushed => 1
  | .restarted => 2

/-- A set of lines from two registers: bit n of the first is line n, bit n of the second is line 8 + n (R163, R177). -/
def linesOf (low high : Byte) : BitVec 16 := high ++ low

def linesLow (set : BitVec 16) : Byte := set.extractLsb' 0 8

def linesHigh (set : BitVec 16) : Byte := set.extractLsb' 8 8

/-- Membership in a set of lines. -/
def hasLine (set : BitVec 16) (l : LineNo) : Bool := set.getLsbD l.val

/-- The set with one more line. -/
def addLine (set : BitVec 16) (l : LineNo) : BitVec 16 := set ||| BitVec.twoPow 16 l.val

/-! ## The frame of a line's format -/

/-- A character as it appears on the line: with 7 data bits the upper bit is 0 (R70, R96, R155). -/
def onLine (cfg : LineConfig) (v : Byte) : Byte :=
  match cfg.dataBits with
  | .seven => v &&& 0x7F
  | .eight => v

/-- The data bits of a character in the line's format, least significant first (R70). -/
def dataBitList (cfg : LineConfig) (v : Byte) : List Bool :=
  match cfg.dataBits with
  | .seven => (List.range 7).map v.getLsbD
  | .eight => (List.range 8).map v.getLsbD

/-- Whether a list of bits has an odd number of 1 bits. -/
def oddOnes (bits : List Bool) : Bool := bits.foldl (fun p b => p != b) false

/-- The levels of TXD for one frame, mark being true: start bit, data bits least significant first, parity bit if the format
has one, stop bits (R70). -/
def frameLevels (cfg : LineConfig) (v : Byte) : List Bool :=
  let bits := dataBitList cfg v
  let parity := match cfg.parity with
    | .none => []
    | .even => [oddOnes bits]
    | .odd => [!oddOnes bits]
  let stops := match cfg.stopBits with
    | .one => [true]
    | .two => [true, true]
  [false] ++ bits ++ parity ++ stops

/-- A frame whose data bits are all space and whose first stop bit is space starts a break (R95). -/
def isBreakStart (cfg : LineConfig) (f : RxFrame) : Bool := decide (onLine cfg f.data = 0) && !f.stopMark

/-- The status of a character: FRAMING before PARITY (R96). -/
def statusOf (cfg : LineConfig) (f : RxFrame) : CharStatus :=
  if !f.stopMark then .framing
  else
    match cfg.parity with
    | .none => .ok
    | .even => if oddOnes (f.parityBit :: dataBitList cfg f.data) then .parity else .ok
    | .odd => if oddOnes (f.parityBit :: dataBitList cfg f.data) then .ok else .parity

end Sys2Proof.Machine
end

