-- ==== Sys2Proof/Machine/Errors.lean ====
section
/-! DEFINITION. Error reports, the line counters, the line error set, the error record and their commands (09). -/

namespace Sys2Proof.Machine

/-- PARITY and FRAMING are MINOR, OVERRUN is SEVERE (R169). -/
def ErrorKind.severity : ErrorKind → Severity
  | .parity => .minor
  | .framing => .minor
  | .overrun => .severe

/-- Stage 1 of a report: the line's counter (R168, R170). -/
def countError (k : ErrorKind) (c : Counters) : Counters :=
  match k with
  | .parity => { c with parity := satAdd c.parity 1 }
  | .framing => { c with framing := satAdd c.framing 1 }
  | .overrun => { c with overrun := satAdd c.overrun 1 }

/-- Stage 3: the report reaches the error record (R173, R174): a load, unless MINOR and suppressed, or a further error. -/
def reachErrorRecord (k : ErrorKind) (l : LineNo) (v : Option Byte) (s : State) : State :=
  match s.errorRec.state with
  | .locked =>
    let upgrade := decide (k.severity = .severe) && decide (s.errorRec.firstSeverity = .minor)
    { s with errorRec := { s.errorRec with
        further := satAdd s.errorRec.further 1
        severeAfter := s.errorRec.severeAfter || upgrade
        firstSeverity := if upgrade then .severe else s.errorRec.firstSeverity } }
  | .empty | .unlocked =>
    if decide (k.severity = .minor) && s.suppressMinor then s
    else
      { s with
        errorRec := { state := .locked, firstKind := k, firstSeverity := k.severity, line := l, char := v,
                      severeAfter := false, further := 0 }
        pendError := true }

/-- An error report in its three stages (R170). -/
def errorReport (k : ErrorKind) (l : LineNo) (v : Option Byte) (s : State) : State :=
  let s := s.setLine l { s.line l with counters := countError k (s.line l).counters }
  reachErrorRecord k l v { s with errorSet := addLine s.errorSet l }

/-- The discarded counter increases (R168). -/
def addDiscarded (l : LineNo) (n : Nat) (s : State) : State :=
  s.setLine l { s.line l with counters.discarded := satAdd (s.line l).counters.discarded n }

/-- The four counters of a line, as returned (R176). -/
def returnCounters (l : LineNo) (s : State) : State :=
  let c := (s.line l).counters
  completeWith c.parity c.framing c.overrun c.discarded s

/-- READ LINE COUNTERS (R176). -/
def cmdReadLineCounters : State → State := withLine returnCounters

/-- READ AND CLEAR LINE COUNTERS (R176). -/
def cmdReadAndClearLineCounters : State → State :=
  withLine fun l s => (returnCounters l s).setLine l { s.line l with counters := .zero }

/-- READ ERROR SET (R177). -/
def cmdReadErrorSet (s : State) : State :=
  completeWith (linesLow s.errorSet) (linesHigh s.errorSet) (boolCode s.suppressMinor) 0 s

/-- CLEAR ERROR SET (R177). -/
def cmdClearErrorSet (s : State) : State :=
  complete .ok { s with errorSet := s.errorSet &&& ~~~(linesOf s.param0 s.param1) }

/-- READ ERROR RECORD (R178). -/
def cmdReadErrorRecord (s : State) : State :=
  let r := s.errorRec
  completeWith
    (r.state.code + 4 * r.firstKind.code + 16 * r.firstSeverity.code + 32 * boolCode r.severeAfter
      + 64 * boolCode r.char.isSome)
    (byte r.line.val) (r.char.getD 0) r.further s

/-- CLEAR ERROR RECORD (R178). -/
def cmdClearErrorRecord (s : State) : State :=
  match s.errorRec.state with
  | .locked => complete .ok { s with errorRec := { s.errorRec with state := .unlocked, further := 0 } }
  | .empty | .unlocked => complete .ok s

/-- SET ERROR OPTIONS (R179). -/
def cmdSetErrorOptions (s : State) : State :=
  match boolOf s.param0 with
  | some b => complete .ok { s with suppressMinor := b }
  | none => complete .badParam s

def execReadLineCounters (s : State) : Host.Outcome State Fault Refusal := .next (hostCommand cmdReadLineCounters s)

def execReadAndClearLineCounters (s : State) : Host.Outcome State Fault Refusal :=
  .next (hostCommand cmdReadAndClearLineCounters s)

def execReadErrorSet (s : State) : Host.Outcome State Fault Refusal := .next (hostCommand cmdReadErrorSet s)

def execClearErrorSet (s : State) : Host.Outcome State Fault Refusal := .next (hostCommand cmdClearErrorSet s)

def execReadErrorRecord (s : State) : Host.Outcome State Fault Refusal := .next (hostCommand cmdReadErrorRecord s)

def execClearErrorRecord (s : State) : Host.Outcome State Fault Refusal := .next (hostCommand cmdClearErrorRecord s)

def execSetErrorOptions (s : State) : Host.Outcome State Fault Refusal := .next (hostCommand cmdSetErrorOptions s)

end Sys2Proof.Machine
end

