-- ==== Sys2Proof/Machine/Flags.lean ====
section
/-! DEFINITION. What the host reads and what the pins show: functions of the state (R21, R40, R64, R65, R126, R130, R182,
R187, R188). -/

namespace Sys2Proof.Machine

/-! ## Pins -/

def levelOf (b : Bool) : Level := if b then .asserted else .negated

/-- The level driven on RTS (R126 to R129). -/
def rtsLevel (ln : Line) : Level :=
  match ln.state with
  | .disabled => .negated
  | .enabled | .restarting | .disabling =>
    match ln.cfg.rtsMode with
    | .manual => ln.flow.manualRts
    | .keyed => levelOf ln.tx.keyed
    | .flow => levelOf (!ln.flow.congested)

/-- The level driven on DTR (R130). -/
def dtrLevel (ln : Line) : Level :=
  match ln.cfg.dtrMode with
  | .manual => ln.flow.manualDtr
  | .auto =>
    match ln.state with
    | .disabled => .negated
    | .enabled | .restarting | .disabling => .asserted

/-- The value of a flow character: XON is 11 hex and XOFF is 13 hex. -/
def FlowChar.value : FlowChar → Byte
  | .xon => Config.xonChar
  | .xoff => Config.xoffChar

/-- What a line's TXD carries (R68): mark, the space of a break, or the levels of the frame in flight. -/
inductive Txd where
  | mark
  | space
  | frame (levels : List Bool)
  deriving DecidableEq, Repr

def txdLine (ln : Line) : Txd :=
  match ln.tx.inFlight with
  | some (.block v) => .frame (frameLevels ln.cfg v)
  | some (.priority c) => .frame (frameLevels ln.cfg c.value)
  | none =>
    match ln.tx.breakTimer with
    | .space _ => .space
    | .mark | .stopped => .mark

/-! ## Interrupts (R187, R188) -/

/-- QUEUE_NONEMPTY and EVENT pending (R21). -/
def State.queueNonempty (s : State) : Bool := !s.queue.isEmpty

def bit (b : Bool) (n : Nat) : Byte := if b then BitVec.twoPow 8 n else 0

/-- INTPEND: WINDOW, POOL, ERROR, CAPTURE, COMMAND, EVENT from bit 5 down. -/
def intpend (s : State) : Byte :=
  bit s.pendWindow 5 ||| bit s.pendPool 4 ||| bit s.pendError 3 ||| bit s.pendCapture 2 ||| bit s.pendCommand 1
    ||| bit s.queueNonempty 0

/-- IRQ_N is driven low while a bit is set both in INTPEND and in INTEN, and released while RESET_N is low (R188, R189). -/
def irqLow (s : State) : Bool := !s.resetHeld && decide (intpend s &&& s.inten.setWidth 8 ≠ 0)

/-! ## STATUS, TXSTATUS, TXCOUNT (R46, R64, R65, R182) -/

def status (s : State) : Byte :=
  bit (decide (s.errorRec.state = .locked)) 7 ||| bit (decide (s.capture.state = .locked)) 6
    ||| bit (decide (s.errorSet ≠ 0)) 5 ||| bit s.queueNonempty 4 ||| bit s.window.isSome 3 ||| bit s.rxPastEnd 2
    ||| bit s.commandLost 1 ||| bit s.busy.isSome 0

def txstatus (s : State) : Byte :=
  bit s.windowLost 7 ||| bit s.noCell 6 ||| bit s.lastRefused 5 ||| bit s.blockFull 4 ||| byte s.windowLine.val

/-- The byte count of the open block; 0 while the window is closed (R65). -/
def txcount (s : State) : Byte :=
  match s.window with
  | some d => byte (s.desc d).length
  | none => 0

/-! ## The head registers (R40, section 10.1) -/

def changeSetCode (c : ChangeSet) : Byte :=
  bit c.cts 0 ||| bit c.dcd 1 ||| bit c.holdExpired 2 ||| bit c.lineCleared 3

/-- HEAD0 to HEAD3 of an entry. -/
def entryHead : Entry → Byte × Byte × Byte × Byte
  | .rxRecord l n c e lost _ =>
    (byte (l.val + 16), byte n ||| bit e 7, c.code ||| bit lost.isSome 7, lost.getD 0)
  | .txReport l t o n => (byte (l.val + 32), t, o.code, byte n)
  | .lineEvent l c cts dcd => (byte (l.val + 48), changeSetCode c, levelCode cts + 2 * levelCode dcd, 0)
  | .matched l n d v h => (byte (l.val + 64), byte n.val + 8 * d.code, v, h)

/-- The head registers: the oldest entry, or kind NONE and zeros. -/
def headRegisters (s : State) : Byte × Byte × Byte × Byte :=
  match s.queue with
  | e :: _ => entryHead e
  | [] => (0, 0, 0, 0)

/-! ## RXDATA (R41) -/

/-- The character RXDATA returns next, where one is available. -/
def rxdataNext (s : State) : Option Byte :=
  match s.queue with
  | .rxRecord _ n _ _ _ cells :: _ => if s.readPtr < n then some (charAt s.mem cells s.readPtr) else none
  | _ => none

/-- What a host read of an address returns (R182); 00 hex while RESET_N is low (R189). Only the read of RXDATA has an effect,
and it is a row of its own. -/
def readRegister (s : State) (address : BitVec 4) : Byte :=
  if s.resetHeld then 0
  else
    match address.toNat with
    | 0 => status s
    | 1 => s.result.code
    | 2 => s.param0
    | 3 => s.param1
    | 4 => s.param2
    | 5 => s.param3
    | 6 => (rxdataNext s).getD 0
    | 7 => txstatus s
    | 8 => txcount s
    | 9 => byte s.queue.length
    | 10 => (headRegisters s).1
    | 11 => (headRegisters s).2.1
    | 12 => (headRegisters s).2.2.1
    | 13 => (headRegisters s).2.2.2
    | 14 => intpend s
    | _ => s.inten.setWidth 8

end Sys2Proof.Machine
end

