-- ==== Sys2Proof/Machine/Match.lean ====
section
/-! DEFINITION. The match table and the capture record: the tests, the actions, and the match and capture commands (08). -/

namespace Sys2Proof.Machine

/-! ## The tests (R155, R156) -/

def allMatches : List MatchNo := List.finRange 8

def MatchDirection.covers : MatchDirection → Direction → Bool
  | .rx, .rx => true
  | .tx, .tx => true
  | .either, _ => true
  | .rx, .tx => false
  | .tx, .rx => false

/-- An entry hits a tested character (R156). -/
def hits (m : MatchEntry) (l : LineNo) (dir : Direction) (v : Byte) : Bool :=
  m.enabled && hasLine m.lines l && m.direction.covers dir && decide (v &&& m.mask = m.value &&& m.mask)

/-- The entries that hit, in rising order. -/
def hitters (s : State) (l : LineNo) (dir : Direction) (v : Byte) : List MatchNo :=
  allMatches.filter (fun n => hits (s.matchEntry n) l dir v)

/-- Those of them with one action. -/
def hittersWith (s : State) (a : MatchAction) (ns : List MatchNo) : List MatchNo :=
  ns.filter (fun n => decide ((s.matchEntry n).action = a))

/-- A hit increases the entry's hit count (R156). -/
def countHit (s : State) (n : MatchNo) : State :=
  s.setMatch n { s.matchEntry n with hitCount := satAdd (s.matchEntry n).hitCount 1 }

/-- The hit counts of all hitting entries are increased before any action is taken (R156). -/
def countHits (ns : List MatchNo) (s : State) : State := ns.foldl countHit s

/-! ## The actions (R157 to R161) -/

/-- The character that hit, as the capture record keeps it. -/
structure TestedChar where
  line : LineNo
  direction : Direction
  char : Byte
  position : Nat
  tag : Option Byte
  deriving DecidableEq, Repr

/-- CAPTURE (R158): a load from the lowest-numbered CAPTURE entry that hit, or one later hit while LOCKED. -/
def captureAction (c : TestedChar) (ns : List MatchNo) (s : State) : State :=
  match ns with
  | [] => s
  | n :: _ =>
    match s.capture.state with
    | .locked => { s with capture := { s.capture with laterHits := satAdd s.capture.laterHits 1 } }
    | .empty | .unlocked =>
      { s with
        capture := { state := .locked, entry := n, line := c.line, direction := c.direction, char := c.char,
                     position := c.position, tag := c.tag, laterHits := 0 }
        pendCapture := true }

/-- POST of one entry (R35, R160): posted at once when a slot is free, counted into a waiting post, or waiting. -/
def postHit (c : TestedChar) (n : MatchNo) (s : State) : State :=
  match (s.matchEntry n).pendingPost with
  | some p => s.setMatch n { s.matchEntry n with pendingPost := some { p with count := satAdd p.count 1 } }
  | none =>
    if s.slotFree then postEntry (.matched c.line n c.direction c.char 1) s
    else
      s.setMatch n { s.matchEntry n with
        pendingPost := some { line := c.line, direction := c.direction, char := c.char, count := 1 } }

/-- POST of all the entries named, in the order of the list. -/
def postHits (c : TestedChar) (ns : List MatchNo) (s : State) : State := ns.foldl (fun t n => postHit c n t) s

/-- The halt request of a line (R80), set and not yet taken. -/
def setHaltRequest (l : LineNo) (s : State) : State := s.setLine l { s.line l with tx.haltRequest := true }

/-- The TX test of a block character at its transmission start (R155, R157): every action but DELIMIT, which has no effect
in this direction (R159). A HOLD hit sets the halt request; the character is in flight, so the halt waits for its boundary
(R80, R161). -/
def txTest (c : TestedChar) (s : State) : State :=
  let ns := hitters s c.line .tx c.char
  let s := captureAction c (hittersWith s .capture ns) (countHits ns s)
  let s := postHits c (hittersWith s .post ns) s
  if (hittersWith s .hold ns).isEmpty then s else setHaltRequest c.line s

/-! ## The commands (R163 to R165) -/

/-- SET MATCH ENTRY (R163). -/
def cmdSetMatchEntry (s : State) : State :=
  match matchOf s.param0, directionActionOf s.param3 with
  | some n, some (d, a) =>
    complete .ok (s.setMatch n { s.matchEntry n with
      value := s.param1, mask := s.param2, direction := d, action := a, hitCount := 0, pendingPost := none })
  | _, _ => complete .badParam s

/-- SET MATCH LINES (R163). -/
def cmdSetMatchLines : State → State :=
  withMatch fun n s =>
    complete .ok (s.setMatch n { s.matchEntry n with
      lines := linesOf s.param1 s.param2, hitCount := 0, pendingPost := none })

/-- ENABLE MATCH ENTRY (R164). -/
def cmdEnableMatchEntry : State → State :=
  withMatch fun n s => complete .ok (s.setMatch n { s.matchEntry n with enabled := true })

/-- DISABLE MATCH ENTRY (R164). -/
def cmdDisableMatchEntry : State → State :=
  withMatch fun n s => complete .ok (s.setMatch n { s.matchEntry n with enabled := false })

/-- READ MATCH ENTRY (R164). -/
def cmdReadMatchEntry : State → State :=
  withMatch fun n s =>
    let m := s.matchEntry n
    if s.param1 = 0 then
      completeWith (boolCode m.enabled + 2 * m.direction.code + 8 * m.action.code) m.value m.mask m.hitCount s
    else if s.param1 = 1 then completeWith (linesLow m.lines) (linesHigh m.lines) 0 0 s
    else if s.param1 = 2 then
      match m.pendingPost with
      | none => completeWith 0 0 0 0 s
      | some p => completeWith (1 + 2 * p.direction.code + 4 * byte p.line.val) p.char p.count 0 s
    else complete .badParam s

/-- READ CAPTURE (R165). In part 1, PARAM0 is the state's code alone (log 25). -/
def cmdReadCapture (s : State) : State :=
  let c := s.capture
  if s.param0 = 0 then
    completeWith (c.state.code + 4 * c.direction.code + 8 * byte c.entry.val) (byte c.line.val) c.char (byte c.position) s
  else if s.param0 = 1 then
    completeWith c.state.code (c.tag.getD 0) (boolCode c.tag.isSome) c.laterHits s
  else complete .badParam s

/-- CLEAR CAPTURE (R165). -/
def cmdClearCapture (s : State) : State :=
  match s.capture.state with
  | .locked => complete .ok { s with capture := { s.capture with state := .unlocked, laterHits := 0 } }
  | .empty | .unlocked => complete .ok s

def execSetMatchEntry (s : State) : Host.Outcome State Fault Refusal := .next (hostCommand cmdSetMatchEntry s)

def execSetMatchLines (s : State) : Host.Outcome State Fault Refusal := .next (hostCommand cmdSetMatchLines s)

def execEnableMatchEntry (s : State) : Host.Outcome State Fault Refusal := .next (hostCommand cmdEnableMatchEntry s)

def execDisableMatchEntry (s : State) : Host.Outcome State Fault Refusal := .next (hostCommand cmdDisableMatchEntry s)

def execReadMatchEntry (s : State) : Host.Outcome State Fault Refusal := .next (hostCommand cmdReadMatchEntry s)

def execReadCapture (s : State) : Host.Outcome State Fault Refusal := .next (hostCommand cmdReadCapture s)

def execClearCapture (s : State) : Host.Outcome State Fault Refusal := .next (hostCommand cmdClearCapture s)

end Sys2Proof.Machine
end

