-- ==== Sys2Proof/Machine/Choice.lean ====
section
/-! DEFINITION. The transmitter's next-step choice (R72 to R77, R87, R88) and the moments that make it. -/

namespace Sys2Proof.Machine

/-- A change of one line's transmitter. -/
def State.updTx (s : State) (l : LineNo) (f : Transmitter → Transmitter) : State :=
  s.setLine l { s.line l with tx := f (s.line l).tx }

/-- The hold condition (R76). -/
def holdCondition (ln : Line) : Bool :=
  match ln.cfg.txFlow with
  | .none => false
  | .xonXoff => ln.tx.remoteHold
  | .cts => decide (ln.flow.cts.level = .negated)
  | .both => ln.tx.remoteHold || decide (ln.flow.cts.level = .negated)

/-- A new transmitter state with the lead, trail, break and hold timers stopped, the hold left, and no commit's choice owed. -/
def Transmitter.enter (t : Transmitter) (st : TxState) : Transmitter :=
  { t with state := st, leadTimer := none, trailTimer := none, breakTimer := .stopped, holdTimer := none, inHold := false
           commitDue := false }

/-- Step 1: the halt is taken (R80, R81). -/
def takeHalt (l : LineNo) (s : State) : State :=
  s.updTx l fun t => { t.enter .halted with haltRequest := false }

/-- Step 2: the oldest QUEUED descriptor becomes ACTIVE (R73). -/
def takeBlock (l : LineNo) (d : DescNo) (s : State) : State :=
  (s.setDesc d { s.desc d with phase := .active, sent := 0 }).updTx l fun t =>
    { t with breakSent := false, inHold := false }

/-- The transmitter keys the line (R74). -/
def startKeying (l : LineNo) (s : State) : State :=
  let lead := (s.line l).cfg.rtsLead
  s.updTx l fun t => { t.enter .keying with keyed := true, leadTimer := if lead = 0 then none else some lead }

/-- The hold timer of a line that enters or keeps the hold (R76, R88): loaded on an entry, left alone otherwise. -/
def heldTimer (ln : Line) : Option Nat :=
  if ln.tx.inHold then ln.tx.holdTimer
  else if ln.cfg.holdLimit = 0 then none
  else some (100 * ln.cfg.holdLimit)

/-- A priority character starts (R87, R125): it is pending no more, and the flow logic is told. -/
def startPriority (l : LineNo) (c : FlowChar) (s : State) : State :=
  s.setLine l { s.line l with
    tx := { (s.line l).tx.enter .sending with inFlight := some (.priority c), pendingPriority := none }
    flow.xoffSent := decide (c = .xoff) }

/-- Step 3: the line is held; a pending priority character is sent from TX_HELD, and the hold goes on through it (R72, R76,
R88). -/
def enterHold (l : LineNo) (s : State) : State :=
  let timer := heldTimer (s.line l)
  match (s.line l).tx.pendingPriority with
  | some c => (startPriority l c s).updTx l fun t => { t with inHold := true, holdTimer := timer }
  | none => s.updTx l fun t => { t.enter .held with inHold := true, holdTimer := timer }

/-- The transmitter begins the break of the ACTIVE block (R71): 10 ticks per unit. -/
def startBreak (l : LineNo) (units : Nat) (s : State) : State :=
  s.updTx l fun t => { t.enter .breaking with breakTimer := .space (10 * units) }

/-- The value, as it appears on the line, of the next character of a block (R70). The cell list of an ACTIVE block starts
with the cell of its next unsent character (R8). -/
def nextBlockChar (s : State) (l : LineNo) (d : DescNo) : Byte :=
  onLine (s.line l).cfg (charAt s.mem (s.desc d).cells ((s.desc d).sent % Config.cellSize))

/-- Transmission start of the next character of the ACTIVE block (R70): its start bit is sent and it is offered to the TX
test (R155). -/
def startBlockChar (l : LineNo) (d : DescNo) (s : State) : State :=
  let v := nextBlockChar s l d
  txTest { line := l, direction := .tx, char := v, position := (s.desc d).sent, tag := some (s.desc d).tag }
    (s.updTx l fun t => { t.enter .sending with inFlight := some (.block v) })

/-- Step 5: the break if it has not been sent, otherwise the next character. -/
def blockWork (l : LineNo) (d : DescNo) (s : State) : State :=
  if !(s.line l).tx.breakSent && decide ((s.desc d).breakBefore ≠ 0) then startBreak l (s.desc d).breakBefore s
  else startBlockChar l d s

/-- Step 6: nothing to send (R75): a keyed line trails, a trail of 0 ending in the event of entry; otherwise TX_IDLE. -/
def nothingToSend (l : LineNo) (s : State) : State :=
  let trail := (s.line l).cfg.rtsTrail
  s.updTx l fun t =>
    if t.keyed then
      if trail = 0 then { t.enter .idle with keyed := false }
      else { t.enter .trailing with trailTimer := some trail }
    else t.enter .idle

/-- The line must key before it sends: KEYED mode with keyed clear (R73, R74). -/
def mustKey (ln : Line) : Bool := decide (ln.cfg.rtsMode = .keyed) && !ln.tx.keyed

/-- The next-step choice (R72), from step 1. The number bounds how often it is made again from step 1 in one event: once for
each zero-length block taken (R73) and once for a lead of 0 (R74). -/
def choose (l : LineNo) : Nat → State → State
  | 0, s => s
  | fuel + 1, s =>
    if (s.line l).tx.haltRequest then takeHalt l s
    else
      match s.activeDesc l with
      | some d =>
        if holdCondition (s.line l) then enterHold l s
        else
          match (s.line l).tx.pendingPriority with
          | some c => startPriority l c s
          | none => blockWork l d s
      | none =>
        match s.oldestQueued l with
        | some d =>
          if (s.desc d).length = 0 ∧ (s.desc d).breakBefore = 0 then
            choose l fuel (handleFront l (finishBlock d .sent (takeBlock l d s)))
          else if mustKey (s.line l) then
            if (s.line l).cfg.rtsLead = 0 then choose l fuel (startKeying l (takeBlock l d s))
            else startKeying l (takeBlock l d s)
          else choose l fuel (takeBlock l d s)
        | none =>
          match (s.line l).tx.pendingPriority with
          | some c =>
            if mustKey (s.line l) then
              if (s.line l).cfg.rtsLead = 0 then choose l fuel (startKeying l s) else startKeying l s
            else startPriority l c s
          | none => nothingToSend l s

/-- The next-step choice with enough repetitions for every block of the queue. -/
def nextStepChoice (l : LineNo) (s : State) : State := choose l ((s.line l).tx.queue.length + 3) s

/-- A moment of choice that exists in some transmitter states only (R72). -/
def choiceIn (states : List TxState) (l : LineNo) (s : State) : State :=
  if states.contains (s.line l).tx.state then nextStepChoice l s else s

/-- A halt request is made (R80, R82, R161): not recorded in TX_HALTED, taken at once in TX_IDLE, TX_HELD and TX_TRAILING,
left for the boundary, the break's end or the lead's end otherwise. -/
def requestHalt (l : LineNo) (s : State) : State :=
  if [TxState.halted, .off].contains (s.line l).tx.state then s
  else choiceIn [.idle, .held, .trailing] l (setHaltRequest l s)

/-- A priority character becomes pending: a moment of choice in TX_IDLE, TX_TRAILING and TX_HELD (R72, R87). -/
def requestPriority (l : LineNo) (c : FlowChar) (s : State) : State :=
  choiceIn [.idle, .trailing, .held] l (s.updTx l fun t => { t with pendingPriority := some c })

/-- The line leaves TX_HELD when its hold condition has become false (R77, R120). -/
def releaseHold (l : LineNo) (s : State) : State :=
  if holdCondition (s.line l) then s else choiceIn [.held] l s

end Sys2Proof.Machine
end

