-- ==== Sys2Proof/Machine/Flow.lean ====
section
/-! DEFINITION. Remote hold, congestion and the receive flow characters (R119, R121, R123, R124). -/

namespace Sys2Proof.Machine

/-- A consumed XOFF sets the remote-hold flag and a consumed XON clears it (R119); a hold condition that becomes false
releases a held line (R77, R120). -/
def consumeFlowChar (l : LineNo) (xoff : Bool) (s : State) : State :=
  releaseHold l (s.updTx l fun t => { t with remoteHold := xoff })

/-- The pending priority character is withdrawn (R123, R124). -/
def withdrawPriority (l : LineNo) (s : State) : State := s.updTx l fun t => { t with pendingPriority := none }

/-- The flow character of a congestion (R123). The cases that R123 says do not arise change nothing (log 21). -/
def receiveXoff (l : LineNo) (s : State) : State :=
  if (s.line l).cfg.rxXoff then
    match (s.line l).flow.xoffSent, (s.line l).tx.pendingPriority with
    | false, none => requestPriority l .xoff s
    | true, some .xon => withdrawPriority l s
    | _, _ => s
  else s

/-- The flow character of an uncongestion (R124). The cases that R124 says do not arise change nothing (log 21). -/
def receiveXon (l : LineNo) (s : State) : State :=
  if (s.line l).cfg.rxXoff then
    match (s.line l).flow.xoffSent, (s.line l).tx.pendingPriority with
    | false, some .xoff => withdrawPriority l s
    | true, none => requestPriority l .xon s
    | _, _ => s
  else s

/-- An uncongested line becomes congested (R121). -/
def becomeCongested (l : LineNo) (s : State) : State :=
  if (s.line l).flow.congested then s
  else receiveXoff l (s.setLine l { s.line l with flow.congested := true })

/-- A moment at which a congested line whose receiver is not RX_STALLED and whose FIFO is empty becomes uncongested
(R121). -/
def uncongestIfClear (l : LineNo) (s : State) : State :=
  if (s.line l).flow.congested && (s.line l).rx.fifo.isEmpty && decide ((s.line l).rx.state ≠ .stalled) then
    receiveXon l (s.setLine l { s.line l with flow.congested := false })
  else s

end Sys2Proof.Machine
end

