-- ==== Sys2Proof/Machine/Receiver.lean ====
section
/-! DEFINITION. The line receiver: framing, arrival, the record assembler, closing and posting of records (05). -/

namespace Sys2Proof.Machine

/-- A change of one line's receiver. -/
def State.updRx (s : State) (l : LineNo) (f : Receiver → Receiver) : State :=
  s.setLine l { s.line l with rx := f (s.line l).rx }

/-! ## Framing (R94) -/

/-- HUNTING: mark to space begins a frame. -/
def frameStart (l : LineNo) (s : State) : State :=
  if (s.line l).rx.framer = .hunting then s.updRx l fun r => { r with framer := .inFrame } else s

/-- IN_FRAME: mark in the middle of the start bit abandons the frame as noise. -/
def frameAbandoned (l : LineNo) (s : State) : State :=
  if (s.line l).rx.framer = .inFrame then s.updRx l fun r => { r with framer := .hunting } else s

/-- AWAITING_MARK: RXD at mark. -/
def rxdAtMark (l : LineNo) (s : State) : State :=
  if (s.line l).rx.framer = .awaitingMark then s.updRx l fun r => { r with framer := .hunting } else s

/-! ## Arrival (R95 to R99) -/

/-- Placing (R99, step 2): into a FIFO of fewer than 4 items, which at 2 items makes the line congested (R121); otherwise
the item is lost. -/
def placeItem (l : LineNo) (item : FifoItem) (s : State) : State :=
  let n := (s.line l).rx.fifo.length
  if n < Config.fifoCapacity then
    let s := s.updRx l fun r => { r with fifo := r.fifo ++ [item] }
    if n + 1 = 2 then becomeCongested l s else s
  else errorReport .overrun l none (s.updRx l fun r => { r with lostTally := satAdd r.lostTally 1 })

/-- Error report (R99, step 1). -/
def reportStatus (l : LineNo) (v : Byte) (st : CharStatus) (s : State) : State :=
  match st with
  | .ok => s
  | .parity => errorReport .parity l (some v) s
  | .framing => errorReport .framing l (some v) s

/-- The line consumes XON and XOFF (R98). -/
def TxFlow.consumes : TxFlow → Bool
  | .xonXoff | .both => true
  | .none | .cts => false

/-- A character on an ENABLED line: consumed (R98) or offered to the FIFO (R99). -/
def receiveChar (l : LineNo) (v : Byte) (st : CharStatus) (s : State) : State :=
  if (s.line l).cfg.txFlow.consumes ∧ st = .ok ∧ v = Config.xoffChar then consumeFlowChar l true s
  else if (s.line l).cfg.txFlow.consumes ∧ st = .ok ∧ v = Config.xonChar then consumeFlowChar l false s
  else placeItem l (.char v st) (reportStatus l v st s)

/-- The arrival of a frame (R94 to R99). An arrival occurs only in IN_FRAME (log 4). -/
def arrival (l : LineNo) (f : RxFrame) (s : State) : State :=
  if (s.line l).rx.framer = .inFrame then
    let cfg := (s.line l).cfg
    if isBreakStart cfg f then
      let s := s.updRx l fun r => { r with framer := .awaitingMark }
      match (s.line l).state with
      | .enabled => placeItem l .breakMarker s
      | .restarting | .disabling | .disabled => s
    else
      let s := s.updRx l fun r => { r with framer := .hunting }
      match (s.line l).state with
      | .enabled => receiveChar l (onLine cfg f.data) (statusOf cfg f) s
      | .restarting | .disabling => addDiscarded l 1 s
      | .disabled => s
  else s

/-! ## Closing and posting (R24, R108) -/

/-- The lost count of a record posted with a tally: absent at 0 (R24). -/
def lostCount (tally : Byte) : Option Byte := if tally = 0 then none else some tally

/-- A record is posted (R24, R28): the lost tally is copied into it and set to 0, and the receiver is RX_IDLE. -/
def postRecord (l : LineNo) (c : Cause) (n : Nat) (e : Bool) (cells : List CellNo) (s : State) : State :=
  (postEntry (.rxRecord l n c e (lostCount (s.line l).rx.lostTally) cells) s).updRx l fun r =>
    { r with state := .idle, openRec := none, closedRec := none, idleTimer := none, lostTally := 0 }

/-- A record closes (R108): posted when a slot is free; otherwise it is the line's closed record, the receiver is RX_STALLED
(R30) and the line congested (R121). -/
def closeRecord (l : LineNo) (c : Cause) (n : Nat) (e : Bool) (cells : List CellNo) (s : State) : State :=
  if s.slotFree then postRecord l c n e cells s
  else
    becomeCongested l (s.updRx l fun r =>
      { r with state := .stalled, openRec := none, idleTimer := none,
               closedRec := some { cause := c, length := n, errorFlag := e, cells := cells } })

/-- The open record, if there is one, closes. -/
def closeOpen (l : LineNo) (c : Cause) (s : State) : State :=
  match (s.line l).rx.openRec with
  | some r => closeRecord l c r.length r.errorFlag r.cells s
  | none => s

/-! ## The record assembler (R102 to R107) -/

/-- The cause of the close that a stored character requests: ERROR, then DELIMITER, then LENGTH (R106, step 4). -/
def closeCause (cfg : LineConfig) (st : CharStatus) (delimit : Bool) (length : Nat) : Option Cause :=
  if st ≠ .ok ∧ cfg.errorPolicy = .close then some .error
  else if delimit then some .delimiter
  else if length = cfg.maxLength then some .length
  else none

/-- The idle timer is loaded after a stored character that leaves the record open (R109). -/
def loadIdle (l : LineNo) (s : State) : State :=
  let gap := (s.line l).cfg.idleGap
  s.updRx l fun r => { r with idleTimer := if gap = 0 then none else some gap }

/-- The character is at the end of the record: the match test, the length check and the close (R106, steps 2 to 5). The
record and the MATCH entries of one character take free slots in either order (R157), the MATCH entries standing together
in entry-number order (R160): where that can be seen, it is drawn whether the record closes before them all or after them
all (log 6). -/
def afterAppend (c : TestedChar) (st : CharStatus) (s : State) : State :=
  let l := c.line
  let ns := hitters s l .rx c.char
  let posts := hittersWith s .post ns
  let holds := !(hittersWith s .hold ns).isEmpty
  let cause := closeCause (s.line l).cfg st (!(hittersWith s .delimit ns).isEmpty) (c.position + 1)
  let s := captureAction c (hittersWith s .capture ns) (countHits ns s)
  let s := if holds then requestHalt l s else s
  match cause with
  | none => loadIdle l (postHits c posts s)
  | some cause =>
    if s.slotFree && !posts.isEmpty then
      let (n, s) := draw s
      runAll (insertAct n (closeOpen l cause) [postHits c posts]) s
    else closeOpen l cause (postHits c posts s)

/-- The character at the head of the FIFO is appended at position `pos` of a record whose cells are `cells` (R104, R106,
step 1). -/
def appendChar (l : LineNo) (v : Byte) (st : CharStatus) (pos : Nat) (flag : Bool) (cells : List CellNo) (s : State) :
    State :=
  let keep := decide (st ≠ .ok) && decide ((s.line l).cfg.errorPolicy = .keep)
  afterAppend { line := l, direction := .rx, char := v, position := pos, tag := none } st
    ((storeChar cells pos v s).updRx l fun r =>
      { r with state := .assembling, fifo := r.fifo.tail,
               openRec := some { length := pos + 1, errorFlag := flag || keep, cells := cells } })

/-- A character that is stored (R104, R105): into the last cell, into a new cell, or refused a cell. Refused with a record
open, the record closes with STORE_FULL and the character stays; refused with none open, it waits. -/
def takeChar (l : LineNo) (v : Byte) (st : CharStatus) (s : State) : State :=
  match (s.line l).rx.openRec with
  | some r =>
    if r.length % Config.cellSize = 0 then
      match takeCell true s with
      | some (c, s') => appendChar l v st r.length r.errorFlag (r.cells ++ [c]) s'
      | none => closeRecord l .storeFull r.length r.errorFlag r.cells s
    else appendChar l v st r.length r.errorFlag r.cells s
  | none =>
    match takeCell true s with
    | some (c, s') => appendChar l v st 0 false [c] s'
    | none => s

/-- The item at the head of the FIFO leaves it. -/
def dropHeadItem (l : LineNo) (s : State) : State := s.updRx l fun r => { r with fifo := r.fifo.tail }

/-- A break marker taken (R107): it closes the open record, or makes a record of length 0. -/
def takeMarker (l : LineNo) (s : State) : State :=
  let s := dropHeadItem l s
  match (s.line l).rx.openRec with
  | some r => closeRecord l .brk r.length r.errorFlag r.cells s
  | none => closeRecord l .brk 0 false [] s

/-- The item at the head of the FIFO is taken or handled (R102, R103). -/
def takeItem (l : LineNo) (s : State) : State :=
  match (s.line l).rx.fifo with
  | [] => s
  | .breakMarker :: _ => takeMarker l s
  | .char v st :: _ =>
    if st ≠ .ok ∧ (s.line l).cfg.errorPolicy = .drop then addDiscarded l 1 (dropHeadItem l s)
    else takeChar l v st s

/-- The assembler takes from the FIFO: the line is ENABLED and the receiver RX_IDLE or RX_ASSEMBLING (R102). -/
def assemblerRuns (ln : Line) : Bool :=
  decide (ln.state = .enabled) && (decide (ln.rx.state = .idle) || decide (ln.rx.state = .assembling))

/-- The assembler take (R102). Congestion ends at the end of the take (R121, log 16). -/
def assemblerTake (l : LineNo) (s : State) : State :=
  if assemblerRuns (s.line l) && !(s.line l).rx.fifo.isEmpty then uncongestIfClear l (takeItem l s) else s

/-! ## The idle timer (R109) -/

/-- Expiry of the idle timer: the record closes with IDLE when the FIFO is empty; otherwise the timer is loaded again (R109).
With a break marker at the head R109 has the expiry ignored and the timer loaded again, and the third row of R110 has an expiry
that comes before the marker's take close the record with IDLE: which of the two happens is drawn (DESIGN CHOICE, log 27). -/
def idleExpiry (l : LineNo) (s : State) : State :=
  if idleDue (s.line l).rx then
    match (s.line l).rx.fifo with
    | [] => closeOpen l .idle s
    | .breakMarker :: _ =>
      let (n, s) := draw s
      if n % 2 = 0 then closeOpen l .idle s else loadIdle l s
    | .char _ _ :: _ => loadIdle l s
  else s

def execFrameStart (line : LineNo) (s : State) : Host.Outcome State Fault Refusal :=
  .next (unlessReset (frameStart line) s)

def execFrameAbandonedAsNoise (line : LineNo) (s : State) : Host.Outcome State Fault Refusal :=
  .next (unlessReset (frameAbandoned line) s)

def execRxdReturnsToMark (line : LineNo) (s : State) : Host.Outcome State Fault Refusal :=
  .next (unlessReset (rxdAtMark line) s)

def execArrival (line : LineNo) (frame : RxFrame) (s : State) : Host.Outcome State Fault Refusal :=
  .next (unlessReset (arrival line frame) s)

def execAssemblerTake (line : LineNo) (s : State) : Host.Outcome State Fault Refusal :=
  .next (unlessReset (assemblerTake line) s)

def execIdleExpiry (line : LineNo) (s : State) : Host.Outcome State Fault Refusal :=
  .next (unlessReset (idleExpiry line) s)

end Sys2Proof.Machine
end

