-- ==== Sys2Proof/Machine/LineControl.lean ====
section
/-! DEFINITION. The line configuration record, the line states, and enable, restart and disable (07, with R61, R89, R90,
R114, R115, R138). -/

namespace Sys2Proof.Machine

/-! ## Configuration (R140 to R142) -/

/-- A configuration command: parameters, line settled, line out of service with an empty queue (R140). -/
def cmdConfigure (coding : Byte → Byte → Byte → LineConfig → Option LineConfig) : State → State :=
  withLine fun l s =>
    match coding s.param1 s.param2 s.param3 (s.line l).cfg with
    | none => complete .badParam s
    | some cfg =>
      match (s.line l).state with
      | .restarting | .disabling => complete .lineBusy s
      | .enabled => complete .lineActive s
      | .disabled =>
        if (s.line l).tx.queue.isEmpty then complete .ok (s.setLine l { s.line l with cfg := cfg })
        else complete .lineActive s

/-- GET LINE CONFIG (R142). -/
def cmdGetLineConfig : State → State :=
  withLine fun l s =>
    match configGroup (s.line l).cfg s.param1 with
    | some (a, b, c) => completeWith s.param1 a b c s
    | none => complete .badParam s

/-- GET LINE STATUS (R151). -/
def cmdGetLineStatus : State → State :=
  withLine fun l s =>
    let ln := s.line l
    completeWith ln.state.code ln.tx.state.code (ln.rx.state.code + 4 * byte ln.rx.fifo.length)
      (byte ln.tx.queue.length + 16 * boolCode ln.tx.remoteHold + 32 * boolCode ln.tx.haltRequest
        + 64 * boolCode ln.flow.congested) s

/-! ## Enable (R91, R116, R131, R138, R144) -/

/-- A line that enters ENABLED: transmitter TX_IDLE, receiver RX_IDLE with the FIFO empty and no record, framer
AWAITING_MARK, previous samples at the qualified levels and sampling from the next tick. Its queue, change set, configuration,
counters and manual levels stay. -/
def enabledLine (ln : Line) : Line :=
  { ln with
    state := .enabled
    tx := { ln.tx.enter .idle with
      haltRequest := false, remoteHold := false, pendingPriority := none, keyed := false, breakSent := false }
    rx := { Receiver.reset with state := .idle, framer := .awaitingMark }
    flow := { ln.flow with
      congested := false, xoffSent := false
      cts := { ln.flow.cts with previous := ln.flow.cts.level, sampleDue := false }
      dcd := { ln.flow.dcd with previous := ln.flow.dcd.level, sampleDue := false } } }

/-- ENABLE LINE (R144). -/
def cmdEnableLine : State → State :=
  withLine fun l s =>
    match (s.line l).state with
    | .restarting | .disabling => complete .lineBusy s
    | .enabled => complete .lineActive s
    | .disabled => complete .ok (s.setLine l (enabledLine (s.line l)))

/-! ## Acceptance of restart and disable (R146) -/

/-- Loss of the window, if the open block is on this line (R61): its cells are returned, its descriptor is freed without
report, and WINDOW_LOST and WINDOW pending are set. -/
def loseWindow (l : LineNo) (s : State) : State :=
  match s.window with
  | some d =>
    if (s.desc d).line = l then
      { freeDesc d (returnCells (s.desc d).cells s) with
        window := none, blockFull := false, windowLost := true, pendWindow := true }
    else s
  | none => s

/-- What the acceptance stops in the transmitter (R89). -/
def stoppedTransmitter (t : Transmitter) : Transmitter :=
  { t with
    haltRequest := false, remoteHold := false, pendingPriority := none, holdTimer := none, trailTimer := none
    breakTimer := .stopped, inHold := false, holdDue := false, flushDue := false, commitDue := false }

/-- The transmitter's part of the acceptance (R89): the blocks finish RESTARTED, the ACTIVE one only if no character is in
flight, and the front of the queue is handled. -/
def acceptTransmitter (l : LineNo) (s : State) : State :=
  let s := s.updTx l stoppedTransmitter
  if (s.line l).tx.inFlight.isSome then handleFront l (finishQueued l .restarted s)
  else handleFront l (finishUnfinished l .restarted s)

/-- The characters of a FIFO; break markers are not counted (R114). -/
def fifoChars (fifo : List FifoItem) : Nat :=
  fifo.countP fun
    | .char _ _ => true
    | .breakMarker => false

/-- The length of the open or closed record of a receiver. -/
def recordLength (r : Receiver) : Nat :=
  match r.openRec, r.closedRec with
  | some o, _ => o.length
  | none, some c => c.length
  | none, none => 0

/-- The cells of the open and closed record of a receiver. -/
def recordCells (r : Receiver) : List CellNo :=
  (match r.openRec with
    | some o => o.cells
    | none => []) ++
  (match r.closedRec with
    | some c => c.cells
    | none => [])

/-- The receiver's part of the acceptance (R114): record discarded and its cells returned, FIFO emptied, both added to the
discarded counter one after the other (R168), timer stopped, tally 0, RX_IDLE. -/
def acceptReceiver (l : LineNo) (s : State) : State :=
  let r := (s.line l).rx
  let s := addDiscarded l (fifoChars r.fifo) (addDiscarded l (recordLength r) (returnCells (recordCells r) s))
  s.updRx l fun r =>
    { r with state := .idle, fifo := [], openRec := none, closedRec := none, idleTimer := none, lostTally := 0 }

/-- The flow logic's part of the acceptance (R138): uncongested, XOFF-sent clear, no XON requested. -/
def acceptFlow (l : LineNo) (s : State) : State :=
  s.setLine l { s.line l with flow := { (s.line l).flow with congested := false, xoffSent := false } }

/-- Stages 1 to 4 of the acceptance (R146), with the line state it enters. -/
def acceptStages (st : LineState) (l : LineNo) (s : State) : State :=
  let s := loseWindow l s
  let s := s.setLine l { s.line l with state := st }
  acceptFlow l (acceptReceiver l (acceptTransmitter l s))

/-! ## Completion (R90, R115, R138, R148, R149) -/

def lineCleared : ChangeSet := { ChangeSet.empty with lineCleared := true }

/-- The transmitter's end of a restart or disable (R90). -/
def clearedTransmitter (st : TxState) (t : Transmitter) : Transmitter :=
  { t.enter st with keyed := false, holdDue := false, flushDue := false }

/-- Stages 2 to 6 of a restart's completion (R148). -/
def completeRestart (l : LineNo) (s : State) : State :=
  let s := s.setLine l { s.line l with state := .enabled, tx := clearedTransmitter .idle (s.line l).tx }
  complete .ok (joinChanges l lineCleared s)

/-- A disable's completion after stage 1 (R149): RTS and the manual RTS level negated, qualified levels held. -/
def completeDisable (l : LineNo) (s : State) : State :=
  let s := s.setLine l { s.line l with
    state := .disabled
    tx := clearedTransmitter .off (s.line l).tx
    rx := { (s.line l).rx with state := .off, framer := .stopped }
    flow := { (s.line l).flow with manualRts := .negated } }
  complete .ok (joinChanges l lineCleared s)

/-- RESTART LINE (R145, R146): with no character in flight the boundary is reached at once; otherwise the command is busy
until the boundary (R147). Where it is reached at once, an arrival after the event is judged on the ENABLED line (R97, R150's
restart row), against R180 and the first row of R150 (DESIGN CHOICE, log 29). -/
def cmdRestartLine : State → State :=
  withLine fun l s =>
    match (s.line l).state with
    | .restarting | .disabling => complete .lineBusy s
    | .disabled => complete .lineDisabled s
    | .enabled =>
      let s := acceptStages .restarting l s
      if (s.line l).tx.inFlight.isSome then { s with busy := some (.restart l) } else completeRestart l s

/-- DISABLE LINE (R145, R146); on a DISABLED line it completes with OK and changes nothing. Where the boundary is reached at once,
no arrival occurs after the event (R150's disable row), against R180 and the first row of R150 (DESIGN CHOICE, log 29). -/
def cmdDisableLine : State → State :=
  withLine fun l s =>
    match (s.line l).state with
    | .restarting | .disabling => complete .lineBusy s
    | .disabled => complete .ok s
    | .enabled =>
      let s := acceptStages .disabling l s
      if (s.line l).tx.inFlight.isSome then { s with busy := some (.disable l) } else completeDisable l s

def execSetLineFormat (s : State) : Host.Outcome State Fault Refusal := .next (hostCommand (cmdConfigure formatOf) s)

def execSetLineRecord (s : State) : Host.Outcome State Fault Refusal := .next (hostCommand (cmdConfigure recordOf) s)

def execSetLineFlow (s : State) : Host.Outcome State Fault Refusal := .next (hostCommand (cmdConfigure flowOf) s)

def execSetLineModem (s : State) : Host.Outcome State Fault Refusal := .next (hostCommand (cmdConfigure modemOf) s)

def execSetLineTimers (s : State) : Host.Outcome State Fault Refusal := .next (hostCommand (cmdConfigure timersOf) s)

def execSetLineQueue (s : State) : Host.Outcome State Fault Refusal := .next (hostCommand (cmdConfigure queueOf) s)

def execGetLineConfig (s : State) : Host.Outcome State Fault Refusal := .next (hostCommand cmdGetLineConfig s)

def execGetLineStatus (s : State) : Host.Outcome State Fault Refusal := .next (hostCommand cmdGetLineStatus s)

def execEnableLine (s : State) : Host.Outcome State Fault Refusal := .next (hostCommand cmdEnableLine s)

def execRestartLine (s : State) : Host.Outcome State Fault Refusal := .next (hostCommand cmdRestartLine s)

def execDisableLine (s : State) : Host.Outcome State Fault Refusal := .next (hostCommand cmdDisableLine s)

end Sys2Proof.Machine
end

