-- ==== Sys2Proof/Machine/Transmitter.lean ====
section
/-! DEFINITION. The line transmitter: flush, halt, resume, hold expiry, and its events (04). -/

namespace Sys2Proof.Machine

/-! ## Flush (R84 to R86) -/

/-- The front of a line's queue, one step at a time, as many steps as the queue is long (R32). -/
def frontActs (l : LineNo) (s : State) : List (State → State) :=
  List.replicate (s.line l).tx.queue.length (frontStep l)

/-- The blocks that a flush finishes when it is made (R84): with a character in flight the QUEUED ones, the ACTIVE one being
left for the boundary; otherwise all, a break being ended. The hold timer stops (R76). -/
def flushBlocks (l : LineNo) (s : State) : State :=
  if (s.line l).tx.inFlight.isSome then
    (finishQueued l .flushed s).updTx l fun t =>
      { t with holdTimer := none, flushDue := t.flushDue || (s.activeDesc l).isSome }
  else (finishUnfinished l .flushed s).updTx l fun t => { t with holdTimer := none, breakTimer := .stopped }

/-- The choice that follows the finishing of the ACTIVE block at once in TX_BREAK or TX_HELD (R72, R84). -/
def flushChoice (l : LineNo) (s : State) : State :=
  if (s.line l).tx.inFlight.isNone && (s.activeDesc l).isNone then choiceIn [.breaking, .held] l s else s

/-- A flush (R84). -/
def flush (l : LineNo) (s : State) : State := flushChoice l (handleFront l (flushBlocks l s))

/-! ## Hold expiry (R78) -/

def holdExpired : ChangeSet := { ChangeSet.empty with holdExpired := true }

/-- The blocks in the phases named finish FLUSHED, and the front of the queue is handled, as acts in turn. -/
def flushActs (phases : List Phase) (l : LineNo) (s : State) : List (State → State) :=
  finishBlocks phases l .flushed :: frontActs l s

/-- HOLD_EXPIRED joins the change set beside the other acts of the expiry's event, each of which may post entries: reports of
flushed blocks, the MATCH entries of a character that the choice starts. They become ready in one event (R29): where the
LINE_EVENT can be posted, its place among them is drawn (log 6). -/
def expireHold (acts : List (State → State)) (l : LineNo) (s : State) : State :=
  if s.slotFree && !acts.isEmpty then
    let (n, s) := draw s
    runAll (insertAct n (joinChanges l holdExpired) acts) s
  else runAll acts (joinChanges l holdExpired s)

/-- Hold expiry with FLUSH leaves the transmitter in TX_IDLE, unkeyed, without a choice (R78). A halt request made meanwhile
is taken from there (R79, log 14). -/
def idleAfterExpiry (l : LineNo) (s : State) : State :=
  let s := s.updTx l fun t => { t.enter .idle with keyed := false }
  if (s.line l).tx.haltRequest then takeHalt l s else s

/-- The hold timer of a held line expires (R78): acted on at once in TX_HELD, and at the boundary when a priority character
sent from TX_HELD is in flight. Ignored on a line that is not ENABLED. -/
def holdExpiry (l : LineNo) (s : State) : State :=
  if holdTimeUp (s.line l) then
    let stopped := s.updTx l fun t => { t with holdTimer := none }
    if (s.line l).tx.state = .held then
      match (s.line l).cfg.holdAction with
      | .report => expireHold [] l stopped
      | .flush => idleAfterExpiry l (expireHold (flushActs [.active, .queued] l stopped) l stopped)
    else stopped.updTx l fun t => { t with holdDue := true }
  else s

/-! ## Timers (R71, R74, R75) -/

/-- The end of the lead (R74). -/
def leadEnd (l : LineNo) (s : State) : State :=
  if leadDue (s.line l).tx then
    nextStepChoice l (s.updTx l fun t => { t with leadTimer := none })
  else s

/-- The end of the trail (R75). -/
def trailEnd (l : LineNo) (s : State) : State :=
  if trailDue (s.line l).tx then
    s.updTx l fun t => { t.enter .idle with keyed := false }
  else s

/-- Expiry of the break timer: TXD returns to mark for one character time (R71). -/
def breakTimerExpiry (l : LineNo) (s : State) : State :=
  if breakDue (s.line l).tx then s.updTx l fun t => { t with breakTimer := .mark } else s

/-- The ACTIVE block, if it has no characters, finishes SENT (R71). -/
def finishIfEmpty (l : LineNo) (s : State) : State :=
  match s.activeDesc l with
  | some d => if (s.desc d).length = 0 then handleFront l (finishBlock d .sent s) else s
  | none => s

/-- The end of the mark character time after a break (R71). -/
def breakEnd (l : LineNo) (s : State) : State :=
  if (s.line l).tx.state = .breaking ∧ (s.line l).tx.breakTimer = .mark then
    nextStepChoice l (finishIfEmpty l (s.updTx l fun t => { t with breakTimer := .stopped, breakSent := true }))
  else s

/-! ## The character boundary (R8, R70, R84, R88, R148, R149) -/

/-- The character in flight was the block's last. -/
def lastChar (ds : Descriptor) : Bool := decide (ds.sent + 1 = ds.length)

/-- A block character is counted, its cell is returned if it was the last filled place of it, and the block finishes SENT if
it was the block's last (R8, R70). -/
def countSent (d : DescNo) (s : State) : State :=
  let ds := s.desc d
  let s' :=
    if (ds.sent + 1) % Config.cellSize = 0 ∨ lastChar ds then
      (returnCells (ds.cells.take 1) s).setDesc d { ds with sent := ds.sent + 1, cells := ds.cells.drop 1 }
    else s.setDesc d { ds with sent := ds.sent + 1 }
  if lastChar ds then finishBlock d .sent s' else s'

/-- The effects of the character itself: a block that it finishes has the front of its queue handled (R70). A priority
character has none. -/
def ownEffects (l : LineNo) (c : InFlight) (s : State) : State :=
  let s := s.updTx l fun t => { t with inFlight := none }
  match c with
  | .block _ =>
    match s.activeDesc l with
    | some d => if lastChar (s.desc d) then handleFront l (countSent d s) else countSent d s
    | none => s
  | .priority _ => s

/-- Completion of a FLUSH LINE that waits for this line's boundary (R85). -/
def completeFlush (l : LineNo) (s : State) : State :=
  if s.busy = some (.flush l) then complete .ok s else s

/-- What follows the character's own effects on an ENABLED line: a waiting flush finishes the ACTIVE block (R84), a busy
FLUSH LINE completes (R85), a waiting hold expiry acts (R78), and the choice is made (R72), but not after an expiry with
FLUSH. With REPORT the LINE_EVENT of the expiry, the report of a block that a waiting flush finishes and a MATCH entry of the
character that the choice starts meet in one event, and R29 lets either be first: the place of the LINE_EVENT among the
others is drawn (log 6, log 14). -/
def afterBoundary (l : LineNo) (s : State) : State :=
  let flushDue := (s.line l).tx.flushDue
  let holdDue := (s.line l).tx.holdDue
  let s := completeFlush l (s.updTx l fun t => { t with flushDue := false, holdDue := false })
  if holdDue then
    match (s.line l).cfg.holdAction with
    | .report => expireHold ((if flushDue then flushActs [.active] l s else []) ++ [nextStepChoice l]) l s
    | .flush => idleAfterExpiry l (expireHold (flushActs [.active, .queued] l s) l s)
  else if flushDue then nextStepChoice l (handleFront l (finishBlocks [.active] l .flushed s))
  else nextStepChoice l s

/-- The character boundary of a line (R70). With no character in flight none occurs (log 4). -/
def characterBoundary (l : LineNo) (s : State) : State :=
  match (s.line l).tx.inFlight with
  | none => s
  | some c =>
    let s := ownEffects l c s
    match (s.line l).state with
    | .enabled => afterBoundary l s
    | .restarting => completeRestart l (handleFront l (finishBlocks [.active] l .restarted s))
    | .disabling => completeDisable l (handleFront l (finishBlocks [.active] l .restarted s))
    | .disabled => s

/-! ## Commands (R82, R83, R85) -/

/-- The check of HALT, RESUME and FLUSH LINE: an ENABLED line. -/
def onEnabled (k : LineNo → State → State) (l : LineNo) (s : State) : State :=
  match (s.line l).state with
  | .disabled => complete .lineDisabled s
  | .restarting | .disabling => complete .lineBusy s
  | .enabled => k l s

/-- HALT LINE (R82). -/
def cmdHaltLine : State → State := withLine (onEnabled fun l s => complete .ok (requestHalt l s))

/-- RESUME LINE (R83). -/
def cmdResumeLine : State → State :=
  withLine <| onEnabled fun l s =>
    complete .ok <|
      if (s.line l).tx.state = .halted then nextStepChoice l s
      else s.updTx l fun t => { t with haltRequest := false }

/-- FLUSH LINE (R85): busy while the ACTIVE block waits for its boundary. -/
def cmdFlushLine : State → State :=
  withLine <| onEnabled fun l s =>
    let s := flush l s
    if (s.line l).tx.flushDue then { s with busy := some (.flush l) } else complete .ok s

def execHaltLine (s : State) : Host.Outcome State Fault Refusal := .next (hostCommand cmdHaltLine s)

def execResumeLine (s : State) : Host.Outcome State Fault Refusal := .next (hostCommand cmdResumeLine s)

def execFlushLine (s : State) : Host.Outcome State Fault Refusal := .next (hostCommand cmdFlushLine s)

def execLeadEnd (line : LineNo) (s : State) : Host.Outcome State Fault Refusal := .next (unlessReset (leadEnd line) s)

def execTrailEnd (line : LineNo) (s : State) : Host.Outcome State Fault Refusal := .next (unlessReset (trailEnd line) s)

def execBreakTimerExpiry (line : LineNo) (s : State) : Host.Outcome State Fault Refusal :=
  .next (unlessReset (breakTimerExpiry line) s)

def execBreakEnd (line : LineNo) (s : State) : Host.Outcome State Fault Refusal := .next (unlessReset (breakEnd line) s)

def execHoldExpiry (line : LineNo) (s : State) : Host.Outcome State Fault Refusal :=
  .next (unlessReset (holdExpiry line) s)

def execCharacterBoundary (line : LineNo) (s : State) : Host.Outcome State Fault Refusal :=
  .next (unlessReset (characterBoundary line) s)

end Sys2Proof.Machine
end

