-- ==== Sys2Proof/Machine/Modem.lean ====
section
/-! DEFINITION. The qualifiers of CTS and DCD, their changes, the DCD action, and the modem commands (R131 to R136). -/

namespace Sys2Proof.Machine

/-! ## The qualifiers (R131) -/

/-- A change of one line's flow logic. -/
def State.updFlow (s : State) (l : LineNo) (f : FlowLogic → FlowLogic) : State :=
  s.setLine l { s.line l with flow := f (s.line l).flow }

def FlowLogic.qualifier (fl : FlowLogic) : ModemInput → Qualifier
  | .cts => fl.cts
  | .dcd => fl.dcd

def FlowLogic.setQualifier (fl : FlowLogic) (i : ModemInput) (q : Qualifier) : FlowLogic :=
  match i with
  | .cts => { fl with cts := q }
  | .dcd => { fl with dcd := q }

/-- The qualified level becomes the sample, and the tick's sample is taken. -/
def setLevel (l : LineNo) (i : ModemInput) (v : Level) (s : State) : State :=
  s.updFlow l fun fl => fl.setQualifier i { fl.qualifier i with level := v, sampleDue := false }

/-- The previous sample becomes the sample, and the tick's sample is taken. -/
def setPrevious (l : LineNo) (i : ModemInput) (v : Level) (s : State) : State :=
  s.updFlow l fun fl => fl.setQualifier i { fl.qualifier i with previous := v, sampleDue := false }

/-! ## Effects of a qualified change (R132, R133) -/

/-- CTS_CHANGE, if CTS is in the event mask. -/
def ctsChange (ln : Line) : ChangeSet := { ChangeSet.empty with cts := ln.cfg.maskCts }

/-- DCD_CHANGE, if DCD is in the event mask. -/
def dcdChange (ln : Line) : ChangeSet := { ChangeSet.empty with dcd := ln.cfg.maskDcd }

/-- A CTS change (R120, R132): a held line whose hold condition has become false is released, and the changes join the set.
Where the release may post a MATCH entry and the LINE_EVENT can be posted too, their order is drawn (R29, log 6). -/
def ctsEffects (l : LineNo) (c : ChangeSet) (s : State) : State :=
  let release := if (s.line l).state = .enabled then releaseHold l else id
  if (s.line l).state = .enabled ∧ (s.line l).tx.state = .held ∧ !holdCondition (s.line l) ∧ s.slotFree ∧ !c.isEmpty then
    let (n, s) := draw s
    runAll (insertAct n (joinChanges l c) [release]) s
  else joinChanges l c (release s)

/-- The DCD action closes a record (R111, R133). -/
def dcdCloses (ln : Line) : Bool :=
  decide (ln.state = .enabled) && decide (ln.cfg.dcdAction ≠ .none) && decide (ln.rx.state = .assembling)

/-- The DCD action flushes the transmitter (R86, R133). -/
def dcdFlushes (s : State) (l : LineNo) : Bool :=
  decide ((s.line l).state = .enabled) && decide ((s.line l).cfg.dcdAction = .closeAndFlush) && s.hasUnfinished l

/-- A line in TX_HELD whose hold timer has expired and whose expiry has not been acted on: a DCD flush meets the expiry at the
same moment (R79, R86). -/
def meetsHoldExpiry (t : Transmitter) : Bool := decide (t.state = .held) && expired t.holdTimer

/-- What follows a DCD flush. Where it met a hold expiry, the line is TX_IDLE without a choice, by the last row of R79; R72 and
R84 would make the choice there (log 26). Otherwise the choice of R84. -/
def dcdFlushEnds (met : Bool) (l : LineNo) (s : State) : State :=
  if met && decide ((s.line l).tx.state = .held) then idleAfterExpiry l s else flushChoice l s

/-- DCD negated (R132, R133): the record closes with CARRIER, the blocks are flushed, and the changes join the set. The
record, the reports and the LINE_EVENT become ready in one event and take free slots in either order, the reports among
themselves in commit order: where the order can be seen, it is drawn (R29, R133, log 6). -/
def dcdNegated (l : LineNo) (c : ChangeSet) (s : State) : State :=
  let close := if dcdCloses (s.line l) then closeOpen l .carrier else id
  let flushes := if dcdFlushes s l then flushBlocks l :: frontActs l s else []
  let acts := dcdCloses (s.line l) || dcdFlushes s l
  let ends := if dcdFlushes s l then dcdFlushEnds (meetsHoldExpiry (s.line l).tx) l else id
  if (dcdCloses (s.line l) && dcdFlushes s l) || (acts && s.slotFree && !c.isEmpty) then
    let (n, s) := draw s
    let (m, s) := draw s
    ends (runAll (insertAct m (joinChanges l c) (insertAct n close flushes)) s)
  else if acts then ends (joinChanges l c (close (runAll flushes s)))
  else joinChanges l c s

/-- A DCD change. -/
def dcdEffects (l : LineNo) (v : Level) (c : ChangeSet) (s : State) : State :=
  match v with
  | .negated => dcdNegated l c s
  | .asserted => joinChanges l c s

/-- After the DCD sample, the next-step choice that a commit of the same tick owes is made (R59, log 28). -/
def settleCommit (l : LineNo) (s : State) : State :=
  if (s.line l).tx.commitDue then choiceIn [.idle, .trailing] l s else s

/-- A qualified change of one input (R132). -/
def qualifiedChange (l : LineNo) (i : ModemInput) (v : Level) (s : State) : State :=
  match i with
  | .cts => ctsEffects l (ctsChange (s.line l)) (setLevel l .cts v s)
  | .dcd => settleCommit l (dcdEffects l v (dcdChange (s.line l)) (setLevel l .dcd v s))

/-- A sample that is no qualified change (R131). -/
def plainSample (l : LineNo) (i : ModemInput) (v : Level) (s : State) : State :=
  match i with
  | .cts => setPrevious l .cts v s
  | .dcd => settleCommit l (setPrevious l .dcd v s)

/-- One qualifier samples its pin, once on each tick (R131); on a DISABLED line it does not. -/
def sampleInput (l : LineNo) (i : ModemInput) (v : Level) (s : State) : State :=
  if (s.line l).state = .disabled ∨ ((s.line l).flow.qualifier i).sampleDue = false then s
  else if qualifies ((s.line l).flow.qualifier i) v then qualifiedChange l i v s
  else plainSample l i v s

/-- Both inputs of a line qualify on one tick (R132): either may be first, and the two changes give one LINE_EVENT or two.
The case is drawn. With two LINE_EVENT entries the first carries the other input's level from before its change, which R132
leaves open (DESIGN CHOICE, log 7). -/
def bothQualify (l : LineNo) (cts dcd : Level) (s : State) : State :=
  let (n, s) := draw s
  let both := (ctsChange (s.line l)).union (dcdChange (s.line l))
  let levels := setLevel l .dcd dcd (setLevel l .cts cts s)
  if n % 4 = 0 then qualifiedChange l .dcd dcd (qualifiedChange l .cts cts s)
  else if n % 4 = 1 then qualifiedChange l .cts cts (qualifiedChange l .dcd dcd s)
  else if n % 4 = 2 then settleCommit l (dcdEffects l dcd both (ctsEffects l .empty levels))
  else ctsEffects l .empty (settleCommit l (dcdEffects l dcd both levels))

/-- Both qualifiers of a line sample their pins on a tick (R131). -/
def sampleInputs (l : LineNo) (cts dcd : Level) (s : State) : State :=
  if (s.line l).state ≠ .disabled ∧ changeDue (s.line l).flow.cts cts ∧ changeDue (s.line l).flow.dcd dcd then
    bothQualify l cts dcd s
  else sampleInput l .dcd dcd (sampleInput l .cts cts s)

/-! ## Commands (R134 to R136) -/

/-- An action of SET MODEM OUTPUTS: 0 leaves the manual level, 1 negates it, 2 asserts it. -/
def manualAction (p : Byte) (v : Level) : Level := if p = 1 then .negated else if p = 2 then .asserted else v

/-- SET MODEM OUTPUTS (R134, R135). -/
def cmdSetModemOutputs : State → State :=
  withLine fun l s =>
    let ln := s.line l
    if s.param1.toNat ≥ 3 ∨ s.param2.toNat ≥ 3 then complete .badParam s
    else if (s.param1 ≠ 0 ∧ ln.cfg.rtsMode ≠ .manual) ∨ (s.param2 ≠ 0 ∧ ln.cfg.dtrMode ≠ .manual) then
      complete .badParam s
    else if ln.state = .restarting ∨ ln.state = .disabling then complete .lineBusy s
    else if s.param1 ≠ 0 ∧ ln.state = .disabled then complete .lineDisabled s
    else
      complete .ok (s.updFlow l fun fl =>
        { fl with manualRts := manualAction s.param1 fl.manualRts, manualDtr := manualAction s.param2 fl.manualDtr })

/-- GET MODEM STATUS (R136). -/
def cmdGetModemStatus : State → State :=
  withLine fun l s =>
    let ln := s.line l
    completeWith (levelCode ln.flow.cts.level) (levelCode ln.flow.dcd.level) (levelCode (rtsLevel ln))
      (levelCode (dtrLevel ln)) s

def execSetModemOutputs (s : State) : Host.Outcome State Fault Refusal := .next (hostCommand cmdSetModemOutputs s)

def execGetModemStatus (s : State) : Host.Outcome State Fault Refusal := .next (hostCommand cmdGetModemStatus s)

/-- The sample of one input on a tick: it is a qualified change when it differs from the qualified level and equals the
previous sample (R131). -/
def execQualifiedChange (line : LineNo) (input : ModemInput) (level : Level) (s : State) :
    Host.Outcome State Fault Refusal :=
  .next (unlessReset (sampleInput line input level) s)

def execModemInputSample (line : LineNo) (cts dcd : Level) (s : State) : Host.Outcome State Fault Refusal :=
  .next (unlessReset (sampleInputs line cts dcd) s)

end Sys2Proof.Machine
end

