-- ==== Sys2Proof/Machine/Queue.lean ====
section
/-! DEFINITION. The post arbiter, the head of the event queue and the RXDATA port (02). -/

namespace Sys2Proof.Machine

/-! ## Waiting (R36) -/

/-- The head descriptor of a line's transmit queue is FINISHED with report requested. -/
def reportWaits (s : State) (l : LineNo) : Bool :=
  match (s.line l).tx.queue with
  | d :: _ => decide ((s.desc d).phase = .finished) && (s.desc d).report
  | [] => false

/-- The line's receiver is RX_STALLED with a closed record. -/
def recordWaits (ln : Line) : Bool := decide (ln.rx.state = .stalled) && ln.rx.closedRec.isSome

/-- A line is a waiting source. -/
def lineWaits (s : State) (l : LineNo) : Bool :=
  !(s.line l).changes.isEmpty || reportWaits s l || recordWaits (s.line l)

/-- The lowest-numbered match entry that has a pending post (R37). -/
def lowestPost (s : State) : Option MatchNo := allMatches.find? (fun n => (s.matchEntry n).pendingPost.isSome)

/-- A source is waiting; source 16 is the match unit. -/
def sourceWaits (s : State) (src : SourceNo) : Bool :=
  if h : src.val < 16 then lineWaits s ⟨src.val, h⟩ else (lowestPost s).isSome

/-- The search order: from the source after the pointer, rising and wrapping, the pointer's own source last (R37). -/
def searchOrder (p : SourceNo) : List SourceNo :=
  (List.range 17).map fun i => ⟨(p.val + 1 + i) % 17, Nat.mod_lt _ (by decide)⟩

/-! ## A grant (R37, R38) -/

/-- A waiting change set is posted as it stands, with the levels now (R34), and emptied. -/
def grantChanges (l : LineNo) (s : State) : State :=
  (postEntry (lineEventOf s l (s.line l).changes) s).setLine l { s.line l with changes := .empty }

/-- A stalled record is posted; the line is uncongested when its FIFO is empty then (R38, R121). -/
def grantRecord (l : LineNo) (s : State) : State :=
  match (s.line l).rx.closedRec with
  | some r => uncongestIfClear l (postRecord l r.cause r.length r.errorFlag r.cells s)
  | none => s

/-- One entry of a line: the change set, else the head report, else the stalled record (R37). -/
def grantLine (l : LineNo) (s : State) : State :=
  if !(s.line l).changes.isEmpty then grantChanges l s
  else if reportWaits s l then handleFront l s
  else grantRecord l s

/-- One entry of the match unit: the lowest-numbered pending post (R37, R38). -/
def grantMatch (s : State) : State :=
  match lowestPost s with
  | some n =>
    match (s.matchEntry n).pendingPost with
    | some p =>
      postEntry (.matched p.line n p.direction p.char p.count) (s.setMatch n { s.matchEntry n with pendingPost := none })
    | none => s
  | none => s

/-- The entry of the chosen source is posted. -/
def grantTo (src : SourceNo) (s : State) : State :=
  if h : src.val < 16 then grantLine ⟨src.val, h⟩ s else grantMatch s

/-- The post arbiter's grant of a free slot (R37). When no source waits, the slot stays free and the pointer is unchanged. -/
def postGrant (s : State) : State :=
  if s.slotFree then
    match (searchOrder s.pointer).find? (sourceWaits s) with
    | some src => { grantTo src s with pointer := src }
    | none => s
  else s

/-! ## The head (R41 to R43) -/

/-- The cells of an entry: those of an RX_RECORD (R22). -/
def Entry.cells : Entry → List CellNo
  | .rxRecord _ _ _ _ _ cells => cells
  | .txReport _ _ _ _ => []
  | .lineEvent _ _ _ _ => []
  | .matched _ _ _ _ _ => []

/-- The head entry leaves the queue, its cells are returned, and the next entry is presented from its first character (R42,
steps 1 to 4). -/
def dropHeadEntry (e : Entry) (rest : List Entry) (s : State) : State :=
  returnCells e.cells { s with queue := rest, readPtr := 0, rxPastEnd := false }

/-- RELEASE HEAD (R42): the grant for the freed slot is made in the same event (log 11). -/
def cmdReleaseHead (s : State) : State :=
  match s.queue with
  | [] => complete .empty s
  | e :: rest => complete .ok (postGrant (dropHeadEntry e rest s))

/-- REWIND HEAD (R43). -/
def cmdRewindHead (s : State) : State := complete .ok { s with readPtr := 0, rxPastEnd := false }

/-- A read of RXDATA (R41): the next character and the pointer advanced, or 00 hex and RX_PAST_END. -/
def rxdataRead (s : State) : State :=
  match rxdataNext s with
  | some v => { s with readData := v, readPtr := s.readPtr + 1 }
  | none => { s with readData := 0, rxPastEnd := true }

def execPostGrant (s : State) : Host.Outcome State Fault Refusal := .next (unlessReset postGrant s)

def execReleaseHead (s : State) : Host.Outcome State Fault Refusal := .next (hostCommand cmdReleaseHead s)

def execRewindHead (s : State) : Host.Outcome State Fault Refusal := .next (hostCommand cmdRewindHead s)

/-- While RESET_N is low a read returns 00 hex and changes nothing else (R189). -/
def execRxdataRead (s : State) : Host.Outcome State Fault Refusal :=
  .next (if s.resetHeld then { s with readData := 0 } else rxdataRead s)

end Sys2Proof.Machine
end

