-- ==== Sys2Proof/Machine/Window.lean ====
section
/-! DEFINITION. The transmit window and the pool commands (01, section 1.7; 03). -/

namespace Sys2Proof.Machine

/-! ## Opening (R48 to R50) -/

/-- OPEN BLOCK's checks 2 to 6, in order (R49); none when all pass. -/
def openRefusal (s : State) (l : LineNo) : Option ResultCode :=
  if s.window.isSome then some .windowBusy
  else if (s.line l).state = .disabled then some .lineDisabled
  else if (s.line l).state = .restarting ∨ (s.line l).state = .disabling then some .lineBusy
  else if (s.line l).cfg.quota ≤ (s.line l).tx.queue.length then some .lineFull
  else if s.lowestFree.isNone then some .noDescriptor
  else none

/-- The descriptor taken is loaded (R15) and the window opens on the line (R50). -/
def openWindow (l : LineNo) (d : DescNo) (tag : Byte) (report : Bool) (units : Nat) (s : State) : State :=
  { s.setDesc d { phase := .opened, line := l, tag := tag, report := report, breakBefore := units, length := 0, cells := [],
                  sent := 0, outcome := none } with
    window := some d, windowLine := l, blockFull := false, lastRefused := false, noCell := false, windowLost := false }

/-- OPEN BLOCK (R48 to R50). -/
def cmdOpenBlock (s : State) : State :=
  match lineOf s.param0, boolOf s.param2 with
  | some l, some report =>
    match openRefusal s l with
    | some r => complete r s
    | none =>
      match s.lowestFree with
      | some d => complete .ok (openWindow l d s.param1 report s.param3.toNat s)
      | none => complete .noDescriptor s
  | _, _ => complete .badParam s

/-! ## Writing characters (R53 to R56) -/

/-- A refused byte (R53 to R55). -/
def refuseByte (forCell : Bool) (s : State) : State := { s with lastRefused := true, noCell := forCell }

/-- An accepted byte (R56): stored at the byte count, which increases by 1; BLOCK_FULL at 64. -/
def acceptByte (d : DescNo) (v : Byte) (s : State) : State :=
  let ds := s.desc d
  let s := (storeChar ds.cells ds.length v s).setDesc d { ds with length := ds.length + 1 }
  { s with lastRefused := false, noCell := false, blockFull := s.blockFull || decide (ds.length + 1 = Config.blockCapacity) }

/-- A write to TXDATA (R53 to R56). A window take succeeds when the free count is greater than the reserve (R4). -/
def writeTxdata (v : Byte) (s : State) : State :=
  match s.window with
  | none => refuseByte false s
  | some d =>
    let ds := s.desc d
    if Config.blockCapacity ≤ ds.length then refuseByte false s
    else if ds.length % Config.cellSize = 0 then
      match takeCell (decide (s.reserve < s.freeCount)) s with
      | some (c, s') => acceptByte d v (s'.setDesc d { ds with cells := ds.cells ++ [c] })
      | none => refuseByte true s
    else acceptByte d v s

/-! ## Committing and discarding (R58, R60) -/

/-- The DCD sample of the tick is still to come and would, if negated, flush the line: a commit now may meet that flush at the
same moment (R59). -/
def meetsDcdFlush (ln : Line) : Bool :=
  decide (ln.tx.state = .idle ∨ ln.tx.state = .trailing) && decide (ln.cfg.dcdAction = .closeAndFlush)
    && changeDue ln.flow.dcd .negated

/-- The next-step choice of a commit, in TX_IDLE and TX_TRAILING (R72). Where the commit may meet a DCD flush, R72 and R73 have
the block taken in the committing event and R59 has it QUEUED when the flush comes: it is drawn whether the choice is made at
once or, with the trail abandoned (R75), after the DCD sample of this tick (DESIGN CHOICE, log 28). -/
def commitChoice (l : LineNo) (s : State) : State :=
  if meetsDcdFlush (s.line l) then
    let (n, s) := draw s
    if n % 2 = 0 then nextStepChoice l s else s.updTx l fun t => { t with trailTimer := none, commitDue := true }
  else choiceIn [.idle, .trailing] l s

/-- CLOSE BLOCK (R58): QUEUED at the tail of its line's queue; in TX_IDLE and TX_TRAILING a moment of choice (R72). -/
def cmdCloseBlock (s : State) : State :=
  match s.window with
  | none => complete .noWindow s
  | some d =>
    let l := (s.desc d).line
    let s := s.setDesc d { s.desc d with phase := .queued }
    let s := s.updTx l fun t => { t with queue := t.queue ++ [d] }
    complete .ok (commitChoice l { s with window := none, blockFull := false })

/-- DISCARD BLOCK (R60). -/
def cmdDiscardBlock (s : State) : State :=
  match s.window with
  | none => complete .noWindow s
  | some d =>
    complete .ok { freeDesc d (returnCells (s.desc d).cells s) with window := none, blockFull := false }

/-! ## Pool commands (R17, R18) -/

/-- SET POOL LIMITS (R17). -/
def cmdSetPoolLimits (s : State) : State :=
  match rangeOf 0 64 s.param0, rangeOf 0 127 s.param1 with
  | some v, some t => complete .ok { s with reserve := v, poolLow := t }
  | _, _ => complete .badParam s

/-- GET POOL STATUS (R18). -/
def cmdGetPoolStatus (s : State) : State :=
  completeWith (byte s.freeCount) (byte s.freeDescCount) (byte s.reserve) (byte s.poolLow) s

def execOpenBlock (s : State) : Host.Outcome State Fault Refusal := .next (hostCommand cmdOpenBlock s)

def execCloseBlock (s : State) : Host.Outcome State Fault Refusal := .next (hostCommand cmdCloseBlock s)

def execDiscardBlock (s : State) : Host.Outcome State Fault Refusal := .next (hostCommand cmdDiscardBlock s)

def execTxdataWrite (value : Byte) (s : State) : Host.Outcome State Fault Refusal :=
  .next (unlessReset (writeTxdata value) s)

def execSetPoolLimits (s : State) : Host.Outcome State Fault Refusal := .next (hostCommand cmdSetPoolLimits s)

def execGetPoolStatus (s : State) : Host.Outcome State Fault Refusal := .next (hostCommand cmdGetPoolStatus s)

end Sys2Proof.Machine
end

