-- ==== Sys2Proof/Machine/HostPort.lean ====
section
/-! DEFINITION. Both resets, the COMMAND write by its code, and the other writes of the register window (10). -/

namespace Sys2Proof.Machine

/-! ## Resets (R189, R190) -/

/-- A line at SOFT RESET: DISABLED with its configuration and its qualifiers kept (R45, R91, R117, R137, R153, R181). -/
def softLine (ln : Line) : Line :=
  { Line.reset with cfg := ln.cfg, flow := { FlowLogic.reset with cts := ln.flow.cts, dcd := ln.flow.dcd } }

/-- A match entry at SOFT RESET: hit count 0 and no pending post, the rest kept (R167). -/
def softMatch (m : MatchEntry) : MatchEntry := { m with hitCount := 0, pendingPost := none }

/-- SOFT RESET (R20, R45, R62, R190): accepted whatever BUSY is. -/
def cmdSoftReset (s : State) : State :=
  { s with
    freeList := allCells
    descs := Vector.replicate 32 .unused
    queue := []
    readPtr := 0
    rxPastEnd := false
    pointer := 16
    window := none
    blockFull := false
    lastRefused := false
    noCell := false
    windowLost := s.window.isSome
    lines := s.lines.map softLine
    matchTable := s.matchTable.map softMatch
    capture := .empty
    errorSet := 0
    errorRec := .empty
    result := .ok
    busy := none
    commandLost := false
    pendCommand := true
    pendCapture := false
    pendError := false
    pendPool := false
    pendWindow := s.window.isSome }

/-- Hardware reset (R189): every block takes its hardware-reset values, and RESET_N is low. The model's own queue and draw
counter stay (log 17). -/
def hardwareReset (s : State) : State :=
  { State.reset with resetHeld := true, freeCtr := s.freeCtr, pending := s.pending }

/-- The reset ends (R189). -/
def resetEnd (s : State) : State := { s with resetHeld := false }

/-! ## The COMMAND write (R184, section 10.3) -/

/-- What an accepted command of a code does; a code that is not in the index completes with BAD_COMMAND (R184). -/
def commandOf (code : Byte) : State → State :=
  match code.toNat with
  | 0x10 => cmdOpenBlock
  | 0x11 => cmdCloseBlock
  | 0x12 => cmdDiscardBlock
  | 0x18 => cmdReleaseHead
  | 0x19 => cmdRewindHead
  | 0x20 => cmdSetPoolLimits
  | 0x21 => cmdGetPoolStatus
  | 0x30 => cmdConfigure formatOf
  | 0x31 => cmdConfigure recordOf
  | 0x32 => cmdConfigure flowOf
  | 0x33 => cmdConfigure modemOf
  | 0x34 => cmdConfigure timersOf
  | 0x35 => cmdConfigure queueOf
  | 0x36 => cmdGetLineConfig
  | 0x38 => cmdEnableLine
  | 0x39 => cmdRestartLine
  | 0x3A => cmdDisableLine
  | 0x3B => cmdGetLineStatus
  | 0x40 => cmdHaltLine
  | 0x41 => cmdResumeLine
  | 0x42 => cmdFlushLine
  | 0x48 => cmdSetModemOutputs
  | 0x49 => cmdGetModemStatus
  | 0x50 => cmdSetMatchEntry
  | 0x51 => cmdSetMatchLines
  | 0x52 => cmdEnableMatchEntry
  | 0x53 => cmdDisableMatchEntry
  | 0x54 => cmdReadMatchEntry
  | 0x58 => cmdReadCapture
  | 0x59 => cmdClearCapture
  | 0x60 => cmdReadLineCounters
  | 0x61 => cmdReadAndClearLineCounters
  | 0x62 => cmdReadErrorSet
  | 0x63 => cmdClearErrorSet
  | 0x64 => cmdReadErrorRecord
  | 0x65 => cmdClearErrorRecord
  | 0x66 => cmdSetErrorOptions
  | _ => complete .badCommand

/-- A host write of any byte to COMMAND (R184, R190). -/
def commandWrite (code : Byte) (s : State) : State :=
  if code = 0xA5 then unlessReset cmdSoftReset s else hostCommand (commandOf code) s

/-! ## The other registers (R182, R183, R187, R188) -/

/-- A write to INTPEND clears each pending bit written as 1; EVENT and bits 6 and 7 are ignored (R187). -/
def writeIntpend (v : Byte) (s : State) : State :=
  { s with
    pendCommand := s.pendCommand && !v.getLsbD 1
    pendCapture := s.pendCapture && !v.getLsbD 2
    pendError := s.pendError && !v.getLsbD 3
    pendPool := s.pendPool && !v.getLsbD 4
    pendWindow := s.pendWindow && !v.getLsbD 5 }

/-- A write to INTEN replaces bits 0 to 5 (R188). -/
def writeInten (v : Byte) (s : State) : State := { s with inten := v.setWidth 6 }

/-- A host write to an address (R182): a PARAM register takes the value, a read-only address ignores it. The four addresses
that have rows of their own act as those rows (log 1). -/
def writeRegister (address : BitVec 4) (v : Byte) (s : State) : State :=
  match address.toNat with
  | 0 => commandWrite v s
  | 2 => unlessReset (fun t => { t with param0 := v }) s
  | 3 => unlessReset (fun t => { t with param1 := v }) s
  | 4 => unlessReset (fun t => { t with param2 := v }) s
  | 5 => unlessReset (fun t => { t with param3 := v }) s
  | 6 => unlessReset (writeTxdata v) s
  | 14 => unlessReset (writeIntpend v) s
  | 15 => unlessReset (writeInten v) s
  | _ => s

def execSoftReset (s : State) : Host.Outcome State Fault Refusal := .next (unlessReset cmdSoftReset s)

/-- A COMMAND write of `code`: BAD_COMMAND when it is in no row of the index and BUSY is clear (R184, log 1). -/
def execBadCommand (code : Byte) (s : State) : Host.Outcome State Fault Refusal := .next (commandWrite code s)

/-- A COMMAND write of `code`: lost when BUSY is set (R184, log 1). -/
def execCommandLost (code : Byte) (s : State) : Host.Outcome State Fault Refusal := .next (commandWrite code s)

def execIntpendWrite (value : Byte) (s : State) : Host.Outcome State Fault Refusal :=
  .next (unlessReset (writeIntpend value) s)

def execIntenWrite (value : Byte) (s : State) : Host.Outcome State Fault Refusal :=
  .next (unlessReset (writeInten value) s)

def execRegisterWrite (address : BitVec 4) (value : Byte) (s : State) : Host.Outcome State Fault Refusal :=
  .next (writeRegister address value s)

def execHardwareReset (s : State) : Host.Outcome State Fault Refusal := .next (hardwareReset s)

def execResetEnd (s : State) : Host.Outcome State Fault Refusal := .next (resetEnd s)

end Sys2Proof.Machine
end

