-- ==== Sys2Proof/Machine/Dispatch.lean ====
section
/-! DEFINITION. One arm for each row of spec/opcode_table.json. -/

namespace Sys2Proof.Machine

def exec (i : Instr) (s : State) : Host.Outcome State Fault Refusal :=
  match i with
  | .openBlock => Sys2Proof.Machine.execOpenBlock s
  | .closeBlock => Sys2Proof.Machine.execCloseBlock s
  | .discardBlock => Sys2Proof.Machine.execDiscardBlock s
  | .releaseHead => Sys2Proof.Machine.execReleaseHead s
  | .rewindHead => Sys2Proof.Machine.execRewindHead s
  | .setPoolLimits => Sys2Proof.Machine.execSetPoolLimits s
  | .getPoolStatus => Sys2Proof.Machine.execGetPoolStatus s
  | .setLineFormat => Sys2Proof.Machine.execSetLineFormat s
  | .setLineRecord => Sys2Proof.Machine.execSetLineRecord s
  | .setLineFlow => Sys2Proof.Machine.execSetLineFlow s
  | .setLineModem => Sys2Proof.Machine.execSetLineModem s
  | .setLineTimers => Sys2Proof.Machine.execSetLineTimers s
  | .setLineQueue => Sys2Proof.Machine.execSetLineQueue s
  | .getLineConfig => Sys2Proof.Machine.execGetLineConfig s
  | .enableLine => Sys2Proof.Machine.execEnableLine s
  | .restartLine => Sys2Proof.Machine.execRestartLine s
  | .disableLine => Sys2Proof.Machine.execDisableLine s
  | .getLineStatus => Sys2Proof.Machine.execGetLineStatus s
  | .haltLine => Sys2Proof.Machine.execHaltLine s
  | .resumeLine => Sys2Proof.Machine.execResumeLine s
  | .flushLine => Sys2Proof.Machine.execFlushLine s
  | .setModemOutputs => Sys2Proof.Machine.execSetModemOutputs s
  | .getModemStatus => Sys2Proof.Machine.execGetModemStatus s
  | .setMatchEntry => Sys2Proof.Machine.execSetMatchEntry s
  | .setMatchLines => Sys2Proof.Machine.execSetMatchLines s
  | .enableMatchEntry => Sys2Proof.Machine.execEnableMatchEntry s
  | .disableMatchEntry => Sys2Proof.Machine.execDisableMatchEntry s
  | .readMatchEntry => Sys2Proof.Machine.execReadMatchEntry s
  | .readCapture => Sys2Proof.Machine.execReadCapture s
  | .clearCapture => Sys2Proof.Machine.execClearCapture s
  | .readLineCounters => Sys2Proof.Machine.execReadLineCounters s
  | .readAndClearLineCounters => Sys2Proof.Machine.execReadAndClearLineCounters s
  | .readErrorSet => Sys2Proof.Machine.execReadErrorSet s
  | .clearErrorSet => Sys2Proof.Machine.execClearErrorSet s
  | .readErrorRecord => Sys2Proof.Machine.execReadErrorRecord s
  | .clearErrorRecord => Sys2Proof.Machine.execClearErrorRecord s
  | .setErrorOptions => Sys2Proof.Machine.execSetErrorOptions s
  | .softReset => Sys2Proof.Machine.execSoftReset s
  | .badCommand code => Sys2Proof.Machine.execBadCommand code s
  | .commandLost code => Sys2Proof.Machine.execCommandLost code s
  | .txdataWrite value => Sys2Proof.Machine.execTxdataWrite value s
  | .rxdataRead => Sys2Proof.Machine.execRxdataRead s
  | .intpendWrite value => Sys2Proof.Machine.execIntpendWrite value s
  | .intenWrite value => Sys2Proof.Machine.execIntenWrite value s
  | .registerWrite address value => Sys2Proof.Machine.execRegisterWrite address value s
  | .hardwareReset => Sys2Proof.Machine.execHardwareReset s
  | .resetEnd => Sys2Proof.Machine.execResetEnd s
  | .arrival line frame => Sys2Proof.Machine.execArrival line frame s
  | .qualifiedChange line input level => Sys2Proof.Machine.execQualifiedChange line input level s
  | .leadEnd line => Sys2Proof.Machine.execLeadEnd line s
  | .breakTimerExpiry line => Sys2Proof.Machine.execBreakTimerExpiry line s
  | .breakEnd line => Sys2Proof.Machine.execBreakEnd line s
  | .trailEnd line => Sys2Proof.Machine.execTrailEnd line s
  | .holdExpiry line => Sys2Proof.Machine.execHoldExpiry line s
  | .idleExpiry line => Sys2Proof.Machine.execIdleExpiry line s
  | .characterBoundary line => Sys2Proof.Machine.execCharacterBoundary line s
  | .assemblerTake line => Sys2Proof.Machine.execAssemblerTake line s
  | .postGrant => Sys2Proof.Machine.execPostGrant s
  | .frameStart line => Sys2Proof.Machine.execFrameStart line s
  | .frameAbandonedAsNoise line => Sys2Proof.Machine.execFrameAbandonedAsNoise line s
  | .rxdReturnsToMark line => Sys2Proof.Machine.execRxdReturnsToMark line s
  | .modemInputSample line cts dcd => Sys2Proof.Machine.execModemInputSample line cts dcd s

end Sys2Proof.Machine
end

