-- ==== Sys2Proof/Machine/Step.lean ====
section
/-! DEFINITION. One step of the LC-16: the command or event at the front of the queue has its effect; on an empty queue one
tick of the time base passes (log 2). -/

namespace Sys2Proof.Machine

/-- The command at the front of the queue runs on the queue's rest. With nothing waiting, a tick passes. -/
def step (s : State) : Host.Outcome State Fault Refusal :=
  match s.pending with
  | [] => .next (tick s)
  | c :: rest => exec c { s with pending := rest }

/-- `s` with the command that a word spells at the front of its queue. The table gives no row any bits, so no word spells
one and `s` is unchanged. -/
def State.withFetchWord (s : State) (nbits w : Nat) : State :=
  match decodeTableWord nbits w with
  | some c => { s with pending := c :: s.pending }
  | none => s

end Sys2Proof.Machine
end

