-- ==== Sys2Proof/Safety.lean ====
section
/-! DEFINITION. What a safe run is, in the terms claims use: no step of the LC-16 stops, and the properties of a state that
every step keeps. -/

namespace Sys2Proof.Machine

/-- The step from `s` goes on. -/
def goesOn (s : State) : Prop := ∃ t, step s = .next t

/-- A property that every step keeps, whatever waits in the queue. -/
def stepKeeps (P : State → Prop) : Prop := ∀ s t, P s → step s = .next t → P t

/-- The bounds of R21 and R101, and the canonical form of the character store. -/
def withinBounds (s : State) : Prop :=
  s.queue.length ≤ 48 ∧ (∀ l, (s.line l).rx.fifo.length ≤ 4) ∧ Memory.wf s.mem = true

/-- The receiver states of R93: which of the open and the closed record is present. -/
def receiverFits (r : Receiver) : Prop :=
  match r.state with
  | .off => r.openRec = none ∧ r.closedRec = none
  | .idle => r.openRec = none ∧ r.closedRec = none
  | .assembling => r.openRec.isSome ∧ r.closedRec = none
  | .stalled => r.openRec = none ∧ r.closedRec.isSome

/-- The table of R143, with R68 and R93: what the line state says of the transmitter and the receiver. -/
def lineFits (ln : Line) : Prop :=
  receiverFits ln.rx ∧ (ln.tx.inFlight.isSome → ln.tx.state = .sending) ∧
  match ln.state with
  | .disabled => ln.tx.state = .off ∧ ln.tx.inFlight = none ∧ ln.rx.state = .off ∧ ln.rx.fifo = []
  | .enabled => ln.tx.state ≠ .off ∧ ln.rx.state ≠ .off
  | .restarting => ln.tx.inFlight.isSome ∧ ln.rx.state = .idle ∧ ln.rx.fifo = []
  | .disabling => ln.tx.inFlight.isSome ∧ ln.rx.state = .idle ∧ ln.rx.fifo = []

/-- Every line fits its line state. -/
def linesFit (s : State) : Prop := ∀ l, lineFits (s.line l)

/-- The line's count against its quota (R47): its queue, and the open block if it is on the line. -/
def quotaCount (s : State) (l : LineNo) : Nat :=
  (s.line l).tx.queue.length +
    match s.window with
    | some d => if (s.desc d).line = l then 1 else 0
    | none => 0

/-- Every descriptor has one holder (R13), the open block is on an ENABLED line (R58), and no line is above its quota
(R47). -/
structure descriptorsHeld (s : State) : Prop where
  nodup : ∀ l, (s.line l).tx.queue.Nodup
  queued : ∀ l, ∀ d ∈ (s.line l).tx.queue,
    (s.desc d).line = l ∧ ((s.desc d).phase = .queued ∨ (s.desc d).phase = .active ∨ (s.desc d).phase = .finished)
  inQueue : ∀ d, ((s.desc d).phase = .queued ∨ (s.desc d).phase = .active ∨ (s.desc d).phase = .finished) →
    d ∈ (s.line (s.desc d).line).tx.queue
  opened : ∀ d, (s.desc d).phase = .opened ↔ s.window = some d
  windowLine : ∀ d, s.window = some d → (s.line (s.desc d).line).state = .enabled
  quota : ∀ l, quotaCount s l ≤ (s.line l).cfg.quota

/-- Every place of R1 where a cell can be, in a fixed order: the free list, the descriptors, the records of the lines, the
entries of the event queue. -/
def cellPlaces (s : State) : List CellNo :=
  s.freeList ++ allDescs.flatMap (fun d => (s.desc d).cells)
    ++ (List.finRange 16).flatMap (fun l => recordCells (s.line l).rx) ++ s.queue.flatMap Entry.cells

/-- Every cell is in exactly one place (R1): the places hold the 128 cells, each once; a FREE or FINISHED descriptor holds
none (R8, R14). -/
def cellsConserved (s : State) : Prop :=
  (cellPlaces s).Perm allCells ∧
  ∀ d, ((s.desc d).phase = .free ∨ (s.desc d).phase = .finished) → (s.desc d).cells = []

end Sys2Proof.Machine
end

