-- ==== Sys2Proof/WellFormed.lean ====
section
/-! DEFINITION. Which operands name the row they stand in: checks on the terms of `Instr` alone. Every meaning is total and
answers on ill-formed terms too (log 1). -/

namespace Sys2Proof

/-- The command codes of the index of section 10.3. -/
abbrev commandCodes : List Byte :=
  [0x10, 0x11, 0x12, 0x18, 0x19, 0x20, 0x21] ++
  [0x30, 0x31, 0x32, 0x33, 0x34, 0x35, 0x36, 0x38, 0x39, 0x3A, 0x3B] ++
  [0x40, 0x41, 0x42, 0x48, 0x49, 0x50, 0x51, 0x52, 0x53, 0x54, 0x58, 0x59] ++
  [0x60, 0x61, 0x62, 0x63, 0x64, 0x65, 0x66, 0xA5]

/-- Addresses whose write has a row of its own: COMMAND, TXDATA, INTPEND, INTEN (R182). -/
abbrev ownRowAddresses : List (BitVec 4) := [0, 6, 14, 15]

/-- BAD_COMMAND's code is in no row of the index (R184); COMMAND_LOST's code is not SOFT RESET's, which is accepted whatever
BUSY is (R184, R190); REGISTER_WRITE's address is a PARAM register's or a read-only one (R182). -/
def Instr.wellFormed : Instr → Bool
  | .badCommand code => !commandCodes.contains code
  | .commandLost code => code != 0xA5
  | .registerWrite address _ => !ownRowAddresses.contains address
  | .openBlock | .closeBlock | .discardBlock | .releaseHead | .rewindHead | .setPoolLimits | .getPoolStatus => true
  | .setLineFormat | .setLineRecord | .setLineFlow | .setLineModem | .setLineTimers | .setLineQueue => true
  | .getLineConfig | .enableLine | .restartLine | .disableLine | .getLineStatus => true
  | .haltLine | .resumeLine | .flushLine | .setModemOutputs | .getModemStatus => true
  | .setMatchEntry | .setMatchLines | .enableMatchEntry | .disableMatchEntry | .readMatchEntry => true
  | .readCapture | .clearCapture | .readLineCounters | .readAndClearLineCounters => true
  | .readErrorSet | .clearErrorSet | .readErrorRecord | .clearErrorRecord | .setErrorOptions | .softReset => true
  | .txdataWrite _ | .rxdataRead | .intpendWrite _ | .intenWrite _ | .hardwareReset | .resetEnd => true
  | .arrival _ _ | .qualifiedChange _ _ _ | .leadEnd _ | .breakTimerExpiry _ | .breakEnd _ | .trailEnd _ => true
  | .holdExpiry _ | .idleExpiry _ | .characterBoundary _ | .assemblerTake _ | .postGrant => true
  | .frameStart _ | .frameAbandonedAsNoise _ | .rxdReturnsToMark _ | .modemInputSample _ _ _ => true

end Sys2Proof
end

