-- ==== Sys2Proof/Certificates/Slice0/Obligations.lean ====
section
/-! DEFINITION. The statements for the provers, in the terms of the spec's rules. `Sys2Proof.Claims` holds what several of
them say: a port that takes a command, a completion, a posting, an error report, the tables of codes. -/

namespace Sys2Proof.Claims

open Sys2Proof.Machine

/-- The host port takes a command: RESET_N is high and BUSY is clear (R184, R189). -/
abbrev Ready (s : State) : Prop := s.resetHeld = false ∧ s.busy = none

/-- The state after a command that completes at its acceptance and returns no values: COMMAND_LOST cleared (R184), RESULT
set, BUSY clear, COMMAND pending set, the PARAM registers as they were (R183, R185). -/
def done (r : ResultCode) (s : State) : State :=
  { s with result := r, busy := none, commandLost := false, pendCommand := true }

/-- The state after a command that completes with OK and returns four values (R183, R185). -/
def doneWith (a b c d : Byte) (s : State) : State := done .ok { s with param0 := a, param1 := b, param2 := c, param3 := d }

/-- A byte names a line: its value is the line's number. -/
abbrev Names (p : Byte) (l : LineNo) : Prop := p.toNat = l.val

/-- One line changed. -/
def onLineOf (s : State) (l : LineNo) (f : Line → Line) : State := { s with lines := s.lines.set l.val (f (s.line l)) }

/-- A slot of the event queue is free (R21). -/
abbrev SlotFree (s : State) : Prop := s.queue.length < 48

/-- The state with an entry posted: at the tail, and read from its first character when the queue was empty (R28, R40). -/
def posted (e : Entry) (s : State) : State :=
  { s with queue := s.queue ++ [e]
           readPtr := if s.queue = [] then 0 else s.readPtr
           rxPastEnd := if s.queue = [] then false else s.rxPastEnd }

/-- The empty change set. -/
abbrev noChanges : ChangeSet := ⟨false, false, false, false⟩

/-- A counter increased by `n`, staying at 255 (00_scope.md). -/
def upTo255 (c : Byte) (n : Nat) : Byte := byte (min 255 (c.toNat + n))

/-- Changes that join a line's set (R33): posted at once when the set is empty and a slot is free, otherwise waiting. -/
def joined (l : LineNo) (c : ChangeSet) (s : State) : State :=
  if c = noChanges then s
  else if (s.line l).changes = noChanges ∧ s.queue.length < 48 then
    posted (.lineEvent l c (s.line l).flow.cts.level (s.line l).flow.dcd.level) s
  else onLineOf s l fun ln => { ln with changes :=
    ⟨ln.changes.cts || c.cts, ln.changes.dcd || c.dcd, ln.changes.holdExpired || c.holdExpired,
      ln.changes.lineCleared || c.lineCleared⟩ }

/-! ## The front of a transmit queue, and blocks that finish -/

/-- One head descriptor of a line's transmit queue leaves it (R32) and becomes FREE (R16): FINISHED without report, silently;
FINISHED with report, posted into a free slot. -/
inductive HeadHandled (l : LineNo) (s : State) : State → Prop
  | silent (d : DescNo) (rest : List DescNo) (u : Descriptor) : (s.line l).tx.queue = d :: rest →
      (s.desc d).phase = .finished → (s.desc d).report = false → u.phase = .free →
      HeadHandled l s (onLineOf (s.setDesc d u) l fun ln => { ln with tx.queue := rest })
  | reported (d : DescNo) (rest : List DescNo) (u : Descriptor) (o : BlockOutcome) : (s.line l).tx.queue = d :: rest →
      (s.desc d).phase = .finished → (s.desc d).report = true → SlotFree s → u.phase = .free →
      (∀ p, (s.desc d).outcome = some p → o = p) →
      HeadHandled l s (posted (.txReport (s.desc d).line (s.desc d).tag o (s.desc d).sent)
        (onLineOf (s.setDesc d u) l fun ln => { ln with tx.queue := rest }))

/-- Head descriptors that leave one after the other. -/
inductive HeadsHandled (l : LineNo) : State → State → Prop
  | none (s : State) : HeadsHandled l s s
  | more (s t w : State) : HeadHandled l s t → HeadsHandled l t w → HeadsHandled l s w

/-- The handling stops: the queue is empty, its head is not FINISHED, or its report finds no slot (R31, R32). -/
def FrontStops (l : LineNo) (s : State) : Prop :=
  ∀ d rest, (s.line l).tx.queue = d :: rest →
    (s.desc d).phase ≠ .finished ∨ ((s.desc d).report = true ∧ ¬SlotFree s)

/-- The front of a line's transmit queue is handled in queue order until it stops (R32). -/
def FrontHandled (l : LineNo) (s t : State) : Prop := HeadsHandled l s t ∧ FrontStops l t

/-- A block finishes (R9, R14): FINISHED with its outcome and its characters sent, its cells at the tail of the free list. -/
def blockEnded (o : BlockOutcome) (d : DescNo) (s : State) : State :=
  { s.setDesc d { s.desc d with phase := .finished, cells := [], outcome := some o } with
    freeList := s.freeList ++ (s.desc d).cells }

/-- The blocks of a line's queue that are in one of the phases finish, oldest first (R9). -/
def blocksEnded (phases : List Phase) (l : LineNo) (o : BlockOutcome) (s : State) : State :=
  (s.line l).tx.queue.foldl (fun t d => if (t.desc d).phase ∈ phases then blockEnded o d t else t) s

/-! ## The match table -/

/-- An entry hits a character offered on a line in a direction (R156). -/
abbrev Hits (m : MatchEntry) (c : TestedChar) : Prop :=
  m.enabled = true ∧ m.lines.getLsbD c.line.val = true ∧
    (m.direction = .either ∨ (m.direction = .rx ∧ c.direction = .rx) ∨ (m.direction = .tx ∧ c.direction = .tx)) ∧
    c.char &&& m.mask = m.value &&& m.mask

/-- An entry hits and has an action. -/
abbrev HitWith (c : TestedChar) (a : MatchAction) (s : State) (n : MatchNo) : Prop :=
  Hits (s.matchEntry n) c ∧ (s.matchEntry n).action = a

/-- The hit count of every entry that hits goes up by 1, staying at 255; the other entries are as they were (R156). -/
def hitsCounted (c : TestedChar) (s : State) : State :=
  { s with matchTable := Vector.ofFn fun n =>
      if Hits (s.matchEntry n) c then { s.matchEntry n with hitCount := upTo255 (s.matchEntry n).hitCount 1 }
      else s.matchEntry n }

/-- CAPTURE (R158): where an entry with this action hits, the record is loaded from the lowest-numbered of them, or counts one
later hit while LOCKED. -/
def captured (c : TestedChar) (s : State) : State :=
  match (List.finRange 8).find? fun n => decide (HitWith c .capture s n) with
  | none => s
  | some n =>
    if s.capture.state = .locked then
      { s with capture := { s.capture with laterHits := upTo255 s.capture.laterHits 1 } }
    else
      { s with
        capture := { state := .locked, entry := n, line := c.line, direction := c.direction, char := c.char,
                     position := c.position, tag := c.tag, laterHits := 0 }
        pendCapture := true }

/-- POST of one entry (R35, R160): counted into a waiting post; else posted into a free slot; else waiting. -/
def hitPosted (c : TestedChar) (s : State) (n : MatchNo) : State :=
  let set (p : PendingPost) : State :=
    { s with matchTable := s.matchTable.set n.val { s.matchEntry n with pendingPost := some p } }
  match (s.matchEntry n).pendingPost with
  | some p => set { p with count := upTo255 p.count 1 }
  | none =>
    if SlotFree s then posted (.matched c.line n c.direction c.char 1) s
    else set { line := c.line, direction := c.direction, char := c.char, count := 1 }

/-- POST of every entry that hits with this action, in rising entry-number order (R160). -/
def postsMade (c : TestedChar) (s : State) : State :=
  ((List.finRange 8).filter fun n => decide (HitWith c .post s n)).foldl (hitPosted c) s

/-! ## The transmitter -/

/-- The ACTIVE block of a line: the first ACTIVE descriptor of its queue (R69). -/
abbrev Working (s : State) (l : LineNo) (d : DescNo) : Prop :=
  (s.line l).tx.queue.find? (fun e => decide ((s.desc e).phase = .active)) = some d

/-- No block of the line is ACTIVE. -/
abbrev NoneActive (s : State) (l : LineNo) : Prop := ∀ d ∈ (s.line l).tx.queue, (s.desc d).phase ≠ .active

/-- No block of the line is QUEUED. -/
abbrev NoneQueued (s : State) (l : LineNo) : Prop := ∀ d ∈ (s.line l).tx.queue, (s.desc d).phase ≠ .queued

/-- The oldest QUEUED block of a line (R72, step 2). -/
abbrev OldestQueued (s : State) (l : LineNo) (d : DescNo) : Prop :=
  (s.line l).tx.queue.find? (fun e => decide ((s.desc e).phase = .queued)) = some d

/-- The hold condition of R76. -/
abbrev Held (ln : Line) : Prop :=
  ((ln.cfg.txFlow = .xonXoff ∨ ln.cfg.txFlow = .both) ∧ ln.tx.remoteHold = true) ∨
  ((ln.cfg.txFlow = .cts ∨ ln.cfg.txFlow = .both) ∧ ln.flow.cts.level = .negated)

/-- The line is in KEYED mode and not keyed (R73, R74). -/
abbrev Unkeyed (ln : Line) : Prop := ln.cfg.rtsMode = .keyed ∧ ln.tx.keyed = false

/-- A transmitter in a new state with its four timers stopped and the hold left. -/
def stoppedIn (st : TxState) (t : Transmitter) : Transmitter :=
  { t with state := st, leadTimer := none, trailTimer := none, breakTimer := .stopped, holdTimer := none, inHold := false
           commitDue := false }

/-- The hold timer in TX_HELD: loaded with 100 ticks for each unit of the limit on entry, and left running by a hold that
goes on (R76, R88). -/
def holdTimerIn (ln : Line) : Option Nat :=
  if ln.tx.inHold then ln.tx.holdTimer else if ln.cfg.holdLimit = 0 then none else some (100 * ln.cfg.holdLimit)

/-- The line in TX_HELD (R72, step 3). -/
def heldLine (ln : Line) : Line :=
  { ln with tx := { stoppedIn .held ln.tx with inHold := true, holdTimer := holdTimerIn ln } }

/-- A priority character started (R87, R125). -/
def priorityLine (c : FlowChar) (ln : Line) : Line :=
  { ln with
    tx := { stoppedIn .sending ln.tx with inFlight := some (.priority c), pendingPriority := none }
    flow.xoffSent := decide (c = .xoff) }

/-- A priority character started from TX_HELD: the hold goes on (R88). -/
def priorityFromHold (c : FlowChar) (ln : Line) : Line :=
  { priorityLine c ln with
    tx := { (priorityLine c ln).tx with inHold := true, holdTimer := holdTimerIn ln } }

/-- The line keyed for what it has to send, with a lead to run (R74). -/
def keyingLine (ln : Line) : Line :=
  { ln with tx := { stoppedIn .keying ln.tx with keyed := true, leadTimer := some ln.cfg.rtsLead } }

/-- A byte of a block as it appears on the line: with 7 data bits its upper bit is not sent (R70). -/
def onWire (cfg : LineConfig) (v : Byte) : Byte := if cfg.dataBits = .seven then v &&& 0x7F else v

/-- The character at the next position of block `d` as the TX test sees it (R70, R155). -/
def nextChar (l : LineNo) (d : DescNo) (cell : CellNo) (s : State) : TestedChar :=
  { line := l, direction := .tx, position := (s.desc d).sent, tag := some (s.desc d).tag
    char := onWire (s.line l).cfg (Memory.read s.mem (16 * cell.val + (s.desc d).sent % 16)) }

/-- A transmission start and its TX test (R70, R155 to R161): the character is in flight, the hits are counted, CAPTURE and
POST act, DELIMIT has no effect, and a HOLD hit sets the halt request. -/
structure CharStarts (l : LineNo) (c : TestedChar) (s t : State) : Prop where
  plain : (∀ n, ¬HitWith c .hold s n) →
    t = postsMade c (captured c (hitsCounted c (onLineOf s l fun ln =>
      { ln with tx := { stoppedIn .sending ln.tx with inFlight := some (.block c.char) } })))
  halts : (∃ n, HitWith c .hold s n) →
    t = onLineOf (postsMade c (captured c (hitsCounted c (onLineOf s l fun ln =>
      { ln with tx := { stoppedIn .sending ln.tx with inFlight := some (.block c.char) } })))) l fun ln =>
        { ln with tx.haltRequest := true }

/-- What step 3, 4 or 5 of the next-step choice makes of a line whose block `d` is ACTIVE (R71, R72, R76, R87). -/
structure BlockChoice (l : LineNo) (d : DescNo) (s t : State) : Prop where
  held : Held (s.line l) → (s.line l).tx.pendingPriority = none → t = onLineOf s l heldLine
  heldPriority : ∀ c, Held (s.line l) → (s.line l).tx.pendingPriority = some c → t = onLineOf s l (priorityFromHold c)
  priority : ∀ c, ¬Held (s.line l) → (s.line l).tx.pendingPriority = some c → t = onLineOf s l (priorityLine c)
  breaks : ¬Held (s.line l) → (s.line l).tx.pendingPriority = none → (s.line l).tx.breakSent = false →
    (s.desc d).breakBefore ≠ 0 →
    t = onLineOf s l fun ln =>
      { ln with tx := { stoppedIn .breaking ln.tx with breakTimer := .space (10 * (s.desc d).breakBefore) } }
  starts : ¬Held (s.line l) → (s.line l).tx.pendingPriority = none →
    ((s.line l).tx.breakSent = true ∨ (s.desc d).breakBefore = 0) →
    ∀ c rest, (s.desc d).cells = c :: rest → CharStarts l (nextChar l d c s) s t

/-- A block taken: ACTIVE with nothing sent, its break not sent (R73). -/
def taken (l : LineNo) (d : DescNo) (s : State) : State :=
  onLineOf (s.setDesc d { s.desc d with phase := .active, sent := 0 }) l fun ln =>
    { ln with tx := { ln.tx with breakSent := false, inHold := false } }

/-- The choice comes to a block of length 0 without a break (R73). -/
abbrev ZeroBlock (l : LineNo) (d : DescNo) (s : State) : Prop :=
  (s.line l).tx.haltRequest = false ∧ NoneActive s l ∧ OldestQueued s l d ∧ (s.desc d).length = 0 ∧
    (s.desc d).breakBefore = 0

/-- One making of the next-step choice of a line (R72): a halt first; then the ACTIVE block's work; with none ACTIVE, the
oldest QUEUED block, keyed first where the line must key; with none of either, a priority character, the trail or TX_IDLE. -/
structure ChoiceMade (l : LineNo) (s t : State) : Prop where
  halt : (s.line l).tx.haltRequest = true →
    t = onLineOf s l fun ln => { ln with tx := { stoppedIn .halted ln.tx with haltRequest := false } }
  active : (s.line l).tx.haltRequest = false → ∀ d, Working s l d → BlockChoice l d s t
  take : (s.line l).tx.haltRequest = false → NoneActive s l → ∀ d, OldestQueued s l d →
    ((s.desc d).length ≠ 0 ∨ (s.desc d).breakBefore ≠ 0) →
    (¬Unkeyed (s.line l) → BlockChoice l d (taken l d s) t) ∧
    (Unkeyed (s.line l) → (s.line l).cfg.rtsLead ≠ 0 → t = onLineOf (taken l d s) l keyingLine) ∧
    (Unkeyed (s.line l) → (s.line l).cfg.rtsLead = 0 →
      BlockChoice l d (onLineOf (taken l d s) l fun ln =>
        { ln with tx := { stoppedIn .keying ln.tx with keyed := true } }) t)
  priority : (s.line l).tx.haltRequest = false → NoneActive s l → NoneQueued s l →
    ∀ c, (s.line l).tx.pendingPriority = some c →
    (¬Unkeyed (s.line l) → t = onLineOf s l (priorityLine c)) ∧
    (Unkeyed (s.line l) → (s.line l).cfg.rtsLead ≠ 0 → t = onLineOf s l keyingLine) ∧
    (Unkeyed (s.line l) → (s.line l).cfg.rtsLead = 0 →
      t = onLineOf s l fun ln => priorityLine c { ln with tx := { ln.tx with keyed := true } })
  nothing : (s.line l).tx.haltRequest = false → NoneActive s l → NoneQueued s l →
    (s.line l).tx.pendingPriority = none →
    ((s.line l).tx.keyed = false → t = onLineOf s l fun ln => { ln with tx := stoppedIn .idle ln.tx }) ∧
    ((s.line l).tx.keyed = true → (s.line l).cfg.rtsTrail = 0 →
      t = onLineOf s l fun ln => { ln with tx := { stoppedIn .idle ln.tx with keyed := false } }) ∧
    ((s.line l).tx.keyed = true → (s.line l).cfg.rtsTrail ≠ 0 →
      t = onLineOf s l fun ln => { ln with tx := { stoppedIn .trailing ln.tx with trailTimer := some ln.cfg.rtsTrail } })

/-- The next-step choice (R72). Blocks of length 0 without a break that it comes to finish SENT one after the other, the front
of the queue being handled after each, and the choice is made again (R73). -/
inductive Chooses (l : LineNo) : State → State → Prop
  | zero (s w t : State) (d : DescNo) : ZeroBlock l d s → FrontHandled l (blockEnded .sent d (taken l d s)) w →
      Chooses l w t → Chooses l s t
  | made (s t : State) : (∀ d, ¬ZeroBlock l d s) → ChoiceMade l s t → Chooses l s t

/-! ## Flush and hold expiry -/

/-- The blocks that a flush finishes when it is made (R84): with a character in flight the QUEUED ones, an ACTIVE one being
left for the boundary; otherwise all, a break being ended. The hold timer stops (R76). The waiting of a flush is the model's
field `flushDue` (log 12). -/
def flushMade (l : LineNo) (s : State) : State :=
  if (s.line l).tx.inFlight.isSome then
    onLineOf (blocksEnded [.queued] l .flushed s) l fun ln => { ln with tx := { ln.tx with
      holdTimer := none
      flushDue := ln.tx.flushDue || ln.tx.queue.any fun d => decide ((s.desc d).phase = .active) } }
  else
    onLineOf (blocksEnded [.active, .queued] l .flushed s) l fun ln =>
      { ln with tx := { ln.tx with holdTimer := none, breakTimer := .stopped } }

/-- HOLD_EXPIRED as a change. -/
abbrev holdExpiredChange : ChangeSet := ⟨false, false, true, false⟩

/-- LINE_CLEARED as a change. -/
abbrev lineClearedChange : ChangeSet := ⟨false, false, false, true⟩

/-- The hold timer of an ENABLED line has expired, in TX_HELD or during a priority character sent from the hold (R78). -/
abbrev HoldUp (ln : Line) : Prop :=
  ln.state = .enabled ∧ ln.tx.holdTimer = some 0 ∧ (ln.tx.state = .held ∨ (ln.tx.inHold = true ∧ ln.tx.inFlight.isSome))

/-- The line after a hold expiry with FLUSH (R78): TX_IDLE and unkeyed, without a choice; a halt request is taken from there
(R79, log 14). -/
def idleLine (ln : Line) : Line :=
  if ln.tx.haltRequest then
    { ln with tx := { stoppedIn .halted ln.tx with keyed := false, haltRequest := false } }
  else { ln with tx := { stoppedIn .idle ln.tx with keyed := false } }

/-- Something of a line's last tick is still to happen: an expired timer whose row has not come (R192, log 3), a sample of CTS
or DCD that has not been taken (R131). -/
abbrev TickOpen (ln : Line) : Prop :=
  (ln.tx.state = .keying ∧ ln.tx.leadTimer = some 0) ∨ (ln.tx.state = .trailing ∧ ln.tx.trailTimer = some 0) ∨
  (ln.tx.state = .breaking ∧ ln.tx.breakTimer = .space 0) ∨ HoldUp ln ∨
  (ln.rx.state = .assembling ∧ ln.rx.idleTimer = some 0) ∨
  (ln.state ≠ .disabled ∧ (ln.flow.cts.sampleDue = true ∨ ln.flow.dcd.sampleDue = true))

/-- The entries of one event: HOLD_EXPIRED joins at some place among the reports of the front, which are otherwise posted in
commit order (R29, R32, R33). -/
def FrontWithExpiry (l : LineNo) (s t : State) : Prop :=
  ∃ w, HeadsHandled l s w ∧ FrontHandled l (joined l holdExpiredChange w) t

/-! ## Congestion -/

/-- A flow character that becomes pending: a moment of choice in TX_IDLE, TX_TRAILING and TX_HELD (R72, R87). -/
def Requested (l : LineNo) (c : FlowChar) (s t : State) : Prop :=
  let u := onLineOf s l fun ln => { ln with tx.pendingPriority := some c }
  if (s.line l).tx.state = .idle ∨ (s.line l).tx.state = .trailing ∨ (s.line l).tx.state = .held then Chooses l u t
  else t = u

/-- What a cause of congestion makes of a line (R121, R123). -/
structure Congests (l : LineNo) (s t : State) : Prop where
  already : (s.line l).flow.congested = true → t = s
  silent : (s.line l).flow.congested = false → (s.line l).cfg.rxXoff = false →
    t = onLineOf s l fun ln => { ln with flow.congested := true }
  request : (s.line l).flow.congested = false → (s.line l).cfg.rxXoff = true → (s.line l).flow.xoffSent = false →
    (s.line l).tx.pendingPriority = none → Requested l .xoff (onLineOf s l fun ln => { ln with flow.congested := true }) t
  withdraw : (s.line l).flow.congested = false → (s.line l).cfg.rxXoff = true → (s.line l).flow.xoffSent = true →
    (s.line l).tx.pendingPriority = some .xon →
    t = onLineOf s l fun ln => { ln with flow.congested := true, tx.pendingPriority := none }
  quiet : (s.line l).flow.congested = false → (s.line l).cfg.rxXoff = true → (s.line l).flow.xoffSent = true →
    (s.line l).tx.pendingPriority = none → t = onLineOf s l fun ln => { ln with flow.congested := true }

/-- A line at a moment at which congestion may end (R121): congested, not RX_STALLED, with an empty FIFO. -/
abbrev Clear (ln : Line) : Prop := ln.flow.congested = true ∧ ln.rx.fifo = [] ∧ ln.rx.state ≠ .stalled

/-- What such a moment makes of a line (R121, R124). -/
structure Uncongests (l : LineNo) (s t : State) : Prop where
  stays : ¬Clear (s.line l) → t = s
  silent : Clear (s.line l) → (s.line l).cfg.rxXoff = false →
    t = onLineOf s l fun ln => { ln with flow.congested := false }
  withdraw : Clear (s.line l) → (s.line l).cfg.rxXoff = true → (s.line l).flow.xoffSent = false →
    (s.line l).tx.pendingPriority = some .xoff →
    t = onLineOf s l fun ln => { ln with flow.congested := false, tx.pendingPriority := none }
  request : Clear (s.line l) → (s.line l).cfg.rxXoff = true → (s.line l).flow.xoffSent = true →
    (s.line l).tx.pendingPriority = none → Requested l .xon (onLineOf s l fun ln => { ln with flow.congested := false }) t

/-! ## Records -/

/-- A lost tally as the lost count of an entry: absent at 0 (R24). -/
def lostOf (tally : Byte) : Option Byte := if tally = 0 then none else some tally

/-- A record posted (R24, R28, R108): its cells go to the entry, its lost count is the tally, the receiver is RX_IDLE. -/
def recordPosted (l : LineNo) (c : Cause) (n : Nat) (e : Bool) (cells : List CellNo) (s : State) : State :=
  posted (.rxRecord l n c e (lostOf (s.line l).rx.lostTally) cells) <|
    onLineOf s l fun ln => { ln with rx :=
      { ln.rx with state := .idle, openRec := none, closedRec := none, idleTimer := none, lostTally := 0 } }

/-- A record closes (R108): posted where a slot is free, otherwise RX_STALLED and the line congested (R121). -/
structure Closes (l : LineNo) (c : Cause) (n : Nat) (e : Bool) (cells : List CellNo) (s t : State) : Prop where
  posts : SlotFree s → t = recordPosted l c n e cells s
  stalls : ¬SlotFree s →
    Congests l (onLineOf s l fun ln => { ln with rx :=
      { ln.rx with state := .stalled, openRec := none, idleTimer := none
                   closedRec := some { cause := c, length := n, errorFlag := e, cells := cells } } }) t

/-- A record closes in the event that makes the POST entries of its last character ready: before them all or after them all
(R157, R160); `n` is the count of the model's draws (log 6). -/
def ClosesWithPosts (c : TestedChar) (cause : Cause) (len : Nat) (e : Bool) (cells : List CellNo) (s t : State) : Prop :=
  ∃ n, Closes c.line cause len e cells (postsMade c { s with freeCtr := n }) t ∨
    ∃ w, Closes c.line cause len e cells { s with freeCtr := n } w ∧ t = postsMade c w

/-- A halt request made on a line (R80, R161): taken at once in TX_IDLE, TX_HELD and TX_TRAILING, left for the boundary, the
break's end or the lead's end otherwise, not recorded in TX_HALTED. -/
def haltAsked (ln : Line) : Line :=
  match ln.tx.state with
  | .idle | .held | .trailing => { ln with tx := { stoppedIn .halted ln.tx with haltRequest := false } }
  | .sending | .breaking | .keying => { ln with tx.haltRequest := true }
  | .halted | .off => ln

/-! ## Tables of codes (R141, R142) -/

def parityStopCodes : List (Byte × Parity × StopBits) :=
  [(0, .none, .one), (1, .none, .two), (2, .even, .one), (3, .even, .two), (4, .odd, .one), (5, .odd, .two)]

def dataBitsCodes : List (Byte × DataBits) := [(7, .seven), (8, .eight)]

def errorPolicyCodes : List (Byte × ErrorPolicy) := [(0, .keep), (1, .close), (2, .drop)]

def txFlowCodes : List (Byte × TxFlow) := [(0, .none), (1, .xonXoff), (2, .cts), (3, .both)]

def rtsModeCodes : List (Byte × RtsMode) := [(0, .manual), (1, .keyed), (2, .flow)]

def boolCodes : List (Byte × Bool) := [(0, false), (1, true)]

def dtrModeCodes : List (Byte × DtrMode) := [(0, .manual), (1, .auto)]

def dcdActionCodes : List (Byte × DcdAction) := [(0, .none), (1, .closeRecord), (2, .closeAndFlush)]

def eventMaskCodes : List (Byte × Bool × Bool) :=
  [(0, false, false), (1, true, false), (2, false, true), (3, true, true)]

def holdActionCodes : List (Byte × HoldAction) := [(0, .report), (1, .flush)]

/-- The six configuration commands (R140). -/
def configRows : List Instr :=
  [.setLineFormat, .setLineRecord, .setLineFlow, .setLineModem, .setLineTimers, .setLineQueue]

/-- A value that a configuration command reads is outside its coding (R141). -/
def badlyCoded (c : Instr) (p1 p2 p3 : Byte) : Bool :=
  match c with
  | .setLineFormat => decide (10 ≤ p1.toNat ∨ (p2.toNat ≠ 7 ∧ p2.toNat ≠ 8) ∨ 6 ≤ p3.toNat)
  | .setLineRecord => decide (p1.toNat = 0 ∨ 65 ≤ p1.toNat ∨ 3 ≤ p3.toNat)
  | .setLineFlow => decide (4 ≤ p1.toNat ∨ 3 ≤ p2.toNat ∨ 2 ≤ p3.toNat)
  | .setLineModem => decide (2 ≤ p1.toNat ∨ 3 ≤ p2.toNat ∨ 4 ≤ p3.toNat)
  | .setLineQueue => decide (p1.toNat = 0 ∨ 9 ≤ p1.toNat ∨ 2 ≤ p2.toNat)
  | _ => false

/-! ## The command rows -/

/-- The rows that are a COMMAND write of one code, with the code (section 10.3), but for SOFT RESET. -/
def commandRows : List (Byte × Instr) :=
  [(0x10, .openBlock), (0x11, .closeBlock), (0x12, .discardBlock), (0x18, .releaseHead), (0x19, .rewindHead),
    (0x20, .setPoolLimits), (0x21, .getPoolStatus)] ++
  [(0x30, .setLineFormat), (0x31, .setLineRecord), (0x32, .setLineFlow), (0x33, .setLineModem), (0x34, .setLineTimers),
    (0x35, .setLineQueue), (0x36, .getLineConfig), (0x38, .enableLine), (0x39, .restartLine), (0x3A, .disableLine),
    (0x3B, .getLineStatus)] ++
  [(0x40, .haltLine), (0x41, .resumeLine), (0x42, .flushLine), (0x48, .setModemOutputs), (0x49, .getModemStatus),
    (0x50, .setMatchEntry), (0x51, .setMatchLines), (0x52, .enableMatchEntry), (0x53, .disableMatchEntry),
    (0x54, .readMatchEntry), (0x58, .readCapture), (0x59, .clearCapture)] ++
  [(0x60, .readLineCounters), (0x61, .readAndClearLineCounters), (0x62, .readErrorSet), (0x63, .clearErrorSet),
    (0x64, .readErrorRecord), (0x65, .clearErrorRecord), (0x66, .setErrorOptions)]

/-- The rows of the spec that are a step of one line, with the line. -/
def lineOfEvent : Instr → Option LineNo
  | .arrival l _ => some l
  | .qualifiedChange l _ _ => some l
  | .leadEnd l => some l
  | .breakTimerExpiry l => some l
  | .breakEnd l => some l
  | .trailEnd l => some l
  | .holdExpiry l => some l
  | .idleExpiry l => some l
  | .characterBoundary l => some l
  | .assemblerTake l => some l
  | .frameStart l => some l
  | .frameAbandonedAsNoise l => some l
  | .rxdReturnsToMark l => some l
  | .modemInputSample l _ _ => some l
  | _ => none

/-! ## Frames and errors -/

/-- A break start: all data bits space and the first stop bit space (R95). -/
abbrev BreakStart (cfg : LineConfig) (f : RxFrame) : Prop := onWire cfg f.data = 0 ∧ f.stopMark = false

/-- The number of 1 bits among the data and parity bits (R96). -/
def frameOnes (cfg : LineConfig) (f : RxFrame) : Nat :=
  (List.range 8).countP (fun i => (onWire cfg f.data).getLsbD i) + if f.parityBit then 1 else 0

/-- The status of a character (R96). -/
def frameStatus (cfg : LineConfig) (f : RxFrame) : CharStatus :=
  if f.stopMark = false then .framing
  else if cfg.parity = .even ∧ frameOnes cfg f % 2 = 1 then .parity
  else if cfg.parity = .odd ∧ frameOnes cfg f % 2 = 0 then .parity
  else .ok

/-- A character that an ENABLED line consumes (R98): status OK and value XON or XOFF, on a line with flow characters. -/
abbrev Consumed (cfg : LineConfig) (f : RxFrame) : Prop :=
  (cfg.txFlow = .xonXoff ∨ cfg.txFlow = .both) ∧ frameStatus cfg f = .ok ∧
    (onWire cfg f.data = 0x11 ∨ onWire cfg f.data = 0x13)

/-- What a frame that is not consumed gives to the FIFO (R95, R96, R99). -/
def itemOf (cfg : LineConfig) (f : RxFrame) : FifoItem :=
  if BreakStart cfg f then .breakMarker else .char (onWire cfg f.data) (frameStatus cfg f)

/-- The framer's condition after an arrival (R94, R95). -/
def framerAfter (cfg : LineConfig) (f : RxFrame) : FramerCondition :=
  if BreakStart cfg f then .awaitingMark else .hunting

/-- One error report of a line (R170): the counter, the error set, the error record (R173, R174). -/
def reported (k : ErrorKind) (l : LineNo) (v : Option Byte) (s : State) : State :=
  let s := onLineOf s l fun ln => { ln with counters :=
    { ln.counters with
      parity := if k = .parity then upTo255 ln.counters.parity 1 else ln.counters.parity
      framing := if k = .framing then upTo255 ln.counters.framing 1 else ln.counters.framing
      overrun := if k = .overrun then upTo255 ln.counters.overrun 1 else ln.counters.overrun } }
  let s := { s with errorSet := s.errorSet ||| BitVec.twoPow 16 l.val }
  if s.errorRec.state = .locked then
    { s with errorRec := { s.errorRec with
        further := upTo255 s.errorRec.further 1
        severeAfter := s.errorRec.severeAfter || decide (k = .overrun ∧ s.errorRec.firstSeverity = .minor)
        firstSeverity := if k = .overrun then .severe else s.errorRec.firstSeverity } }
  else if k ≠ .overrun ∧ s.suppressMinor = true then s
  else
    { s with
      errorRec := { state := .locked, firstKind := k, firstSeverity := if k = .overrun then .severe else .minor, line := l,
                    char := v, severeAfter := false, further := 0 }
      pendError := true }

/-! ## Waiting sources (R36) -/

/-- The report at the head of a line's queue waits. -/
abbrev ReportWaits (s : State) (l : LineNo) (d : DescNo) : Prop :=
  (s.line l).tx.queue.head? = some d ∧ (s.desc d).phase = .finished ∧ (s.desc d).report = true

/-- A line waits. -/
abbrev LineWaits (s : State) (l : LineNo) : Prop :=
  (s.line l).changes ≠ noChanges ∨ (∃ d, ReportWaits s l d) ∨
    ((s.line l).rx.state = .stalled ∧ (s.line l).rx.closedRec.isSome)

/-- A source of the post arbiter waits: a line, or the match unit, which is source 16. -/
abbrev Waits (s : State) (src : SourceNo) : Prop :=
  (∃ l : LineNo, l.val = src.val ∧ LineWaits s l) ∨ (src.val = 16 ∧ ∃ n, (s.matchEntry n).pendingPost.isSome)

/-- How late a source comes in the search: 0 for the source after the pointer, 16 for the pointer's own (R37). -/
abbrev turn (p src : SourceNo) : Nat := (src.val + 16 - p.val) % 17

/-- The search stops at `src`: it waits, and no source that waits comes earlier (R37). -/
abbrev Chosen (s : State) (src : SourceNo) : Prop := Waits s src ∧ ∀ k, Waits s k → turn s.pointer src ≤ turn s.pointer k

/-! ## Reset values -/

/-- A line's transmitter after a reset (R91). -/
def txReset : Transmitter :=
  { state := .off, queue := [], remoteHold := false, haltRequest := false, pendingPriority := none, keyed := false,
    leadTimer := none, trailTimer := none, breakTimer := .stopped, breakSent := false, holdTimer := none,
    inFlight := none, inHold := false, holdDue := false, flushDue := false, commitDue := false }

/-- A line's receiver after a reset (R117). -/
def rxReset : Receiver :=
  { state := .off, framer := .stopped, fifo := [], openRec := none, closedRec := none, idleTimer := none, lostTally := 0 }

/-- The defaults of the configuration record (R139). -/
def defaults : LineConfig :=
  { baud := 5, dataBits := .eight, parity := .none, stopBits := .one, maxLength := 64, idleGap := 0, errorPolicy := .keep,
    txFlow := .none, rtsMode := .manual, rxXoff := false, dtrMode := .auto, dcdAction := .none, maskCts := false,
    maskDcd := false, rtsLead := 0, rtsTrail := 0, holdLimit := 0, quota := 4, holdAction := .report }

/-- What a hardware reset leaves, by R19, R44, R66, R91, R117, R137, R139, R152, R167, R181 and R189. Not the rules' own are:
the mark `sampleDue` false (log 2, DESIGN CHOICE), the transmitter's `inFlight`, `inHold`, `holdDue` and `flushDue` clear (log
12, DEDUCED), its `commitDue` clear (log 28, DESIGN CHOICE), the framer stopped (log 15, DEDUCED), and the codes 0 of the two
EMPTY records (log 22, DEDUCED). -/
structure ResetValues (t : State) : Prop where
  freeList : t.freeList = List.finRange 128
  descs : ∀ d, (t.desc d).phase = .free
  limits : t.reserve = 16 ∧ t.poolLow = 8
  queue : t.queue = [] ∧ t.readPtr = 0 ∧ t.rxPastEnd = false ∧ t.pointer = 16
  window : t.window = none ∧ t.windowLine = 0 ∧ t.blockFull = false ∧ t.lastRefused = false ∧ t.noCell = false ∧
    t.windowLost = false
  lines : ∀ l, t.line l =
    { state := .disabled, cfg := defaults, tx := txReset, rx := rxReset
      flow := { congested := false, xoffSent := false, cts := ⟨.negated, .negated, false⟩, dcd := ⟨.negated, .negated, false⟩,
                manualRts := .negated, manualDtr := .negated }
      counters := ⟨0, 0, 0, 0⟩, changes := ⟨false, false, false, false⟩ }
  table : ∀ n, t.matchEntry n =
    { enabled := false, value := 0, mask := 0, lines := 0, direction := .rx, action := .capture, hitCount := 0,
      pendingPost := none }
  capture : t.capture = { state := .empty, entry := 0, line := 0, direction := .rx, char := 0, position := 0, tag := none,
                          laterHits := 0 }
  errors : t.errorSet = 0 ∧ t.suppressMinor = false ∧
    t.errorRec = { state := .empty, firstKind := .parity, firstSeverity := .minor, line := 0, char := none,
                   severeAfter := false, further := 0 }
  port : t.param0 = 0 ∧ t.param1 = 0 ∧ t.param2 = 0 ∧ t.param3 = 0 ∧ t.result = .ok ∧ t.busy = none ∧
    t.commandLost = false
  interrupts : t.pendCommand = false ∧ t.pendCapture = false ∧ t.pendError = false ∧ t.pendPool = false ∧
    t.pendWindow = false ∧ t.inten = 0
  reads : ∀ a, readRegister t a = 0
  irq : irqLow t = false
  pins : ∀ l, txdLine (t.line l) = .mark ∧ rtsLevel (t.line l) = .negated ∧ dtrLevel (t.line l) = .negated

/-! ## Restart and disable -/

/-- The length of the record that an acceptance discards (R114). -/
def discardedLength (r : Receiver) : Nat :=
  match r.openRec, r.closedRec with
  | some o, _ => o.length
  | none, some c => c.length
  | none, none => 0

/-- The cells of the record that an acceptance discards (R114). -/
def discardedCells (r : Receiver) : List CellNo :=
  (match r.openRec with
    | some o => o.cells
    | none => []) ++
  match r.closedRec with
    | some c => c.cells
    | none => []

/-- The loss of the window to a restart or disable of line `l` (R61). -/
structure WindowLost (l : LineNo) (s t : State) : Prop where
  lost : ∀ d, s.window = some d → (s.desc d).line = l → ∃ u : Descriptor, u.phase = .free ∧
    t = { s.setDesc d u with freeList := s.freeList ++ (s.desc d).cells, window := none, blockFull := false
                             windowLost := true, pendWindow := true }
  kept : (∀ d, s.window = some d → (s.desc d).line ≠ l) → t = s

/-- The transmitter of a line whose restart or disable is accepted, its blocks apart (R89): flags and hold and trail timers
cleared, a break ended. That a waiting hold expiry and a waiting flush end here too is the model's (log 12, log 13, DEDUCED),
and a commit's choice that waits (log 28). -/
def stoppedLine (st : LineState) (ln : Line) : Line :=
  { ln with
    state := st
    tx := { ln.tx with
      haltRequest := false, remoteHold := false, pendingPriority := none, holdTimer := none, trailTimer := none
      breakTimer := .stopped, inHold := false, holdDue := false, flushDue := false, commitDue := false } }

/-- The blocks that an acceptance finishes (R89): every QUEUED one, and the ACTIVE one with no character in flight. -/
def acceptedPhases (ln : Line) : List Phase := if ln.tx.inFlight.isSome then [.queued] else [.active, .queued]

/-- The receiver and the flow logic after an acceptance (R114, R138). -/
def discardedLine (ln : Line) : Line :=
  { ln with
    rx := { ln.rx with state := .idle, fifo := [], openRec := none, closedRec := none, idleTimer := none, lostTally := 0 }
    counters := { ln.counters with
      discarded := upTo255 (upTo255 ln.counters.discarded (discardedLength ln.rx))
        (ln.rx.fifo.countP fun i => decide (i ≠ .breakMarker)) }
    flow := { ln.flow with congested := false, xoffSent := false } }

/-- Stages 1 to 4 of the acceptance of RESTART LINE or DISABLE LINE (R146): the window lost; the blocks finished RESTARTED,
oldest first, with the front of the queue handled; the record and the FIFO discarded; congestion ended. -/
def Accepted (st : LineState) (l : LineNo) (s t : State) : Prop :=
  ∃ a b, WindowLost l s a ∧
    FrontHandled l (blocksEnded (acceptedPhases (s.line l)) l .restarted (onLineOf a l (stoppedLine st))) b ∧
    t = onLineOf { b with freeList := b.freeList ++ discardedCells (s.line l).rx } l discardedLine

/-- A busy command completes with OK (R185). -/
def completed (s : State) : State := { s with result := .ok, busy := none, pendCommand := true }

/-- Stages 2 to 6 of a restart's completion (R148): ENABLED, TX_IDLE, unkeyed; LINE_CLEARED joins the set; OK. -/
def restarted (l : LineNo) (s : State) : State :=
  completed (joined l lineClearedChange (onLineOf s l fun ln =>
    { ln with
      state := .enabled
      tx := { stoppedIn .idle ln.tx with keyed := false, holdDue := false, flushDue := false } }))

/-- A disable's completion after stage 1 (R149): DISABLED, TX_OFF, RX_OFF with the framer stopped, the manual RTS level
negated; LINE_CLEARED joins the set; OK. -/
def disabled (l : LineNo) (s : State) : State :=
  completed (joined l lineClearedChange (onLineOf s l fun ln =>
    { ln with
      state := .disabled
      tx := { stoppedIn .off ln.tx with keyed := false, holdDue := false, flushDue := false }
      rx := { ln.rx with state := .off, framer := .stopped }
      flow.manualRts := .negated }))

/-! ## The character boundary -/

/-- A character of block `d` counted (R8, R70): sent goes up by 1; the last character finishes the block SENT with its cells
returned; another one at the last place of a cell returns that cell. -/
def charCounted (l : LineNo) (d : DescNo) (s : State) : State :=
  let ds := { s.desc d with sent := (s.desc d).sent + 1 }
  let s := onLineOf s l fun ln => { ln with tx.inFlight := none }
  if ds.sent = ds.length then blockEnded .sent d (s.setDesc d ds)
  else if ds.sent % 16 = 0 then
    { s.setDesc d { ds with cells := ds.cells.drop 1 } with freeList := s.freeList ++ ds.cells.take 1 }
  else s.setDesc d ds

/-- The effects of the character itself at its boundary (R70): none for a priority character; a block character is counted,
and a block that it finishes has the front of the queue handled (R32). -/
structure Landed (l : LineNo) (c : InFlight) (s t : State) : Prop where
  priority : ∀ p, c = .priority p → t = onLineOf s l fun ln => { ln with tx.inFlight := none }
  noBlock : ∀ v, c = .block v → NoneActive s l → t = onLineOf s l fun ln => { ln with tx.inFlight := none }
  counts : ∀ v d, c = .block v → Working s l d → (s.desc d).sent + 1 ≠ (s.desc d).length → t = charCounted l d s
  ends : ∀ v d, c = .block v → Working s l d → (s.desc d).sent + 1 = (s.desc d).length →
    FrontHandled l (charCounted l d s) t

/-- Where a block character in flight is counted, its block is FINISHED with its count and `o`, or SENT if the character was
its last; or it is FREE, and a report of it that was requested is among the entries that the event posted (R16, R32). -/
def BlockAccounted (l : LineNo) (c : InFlight) (o : BlockOutcome) (s t : State) : Prop :=
  ∀ v d, c = .block v → Working s l d →
    let out := if (s.desc d).sent + 1 = (s.desc d).length then .sent else o
    ((t.desc d).phase = .finished ∧ (t.desc d).sent = (s.desc d).sent + 1 ∧ (t.desc d).cells = [] ∧
      (t.desc d).outcome = some out) ∨
    ((t.desc d).phase = .free ∧ ((s.desc d).report = true →
      .txReport (s.desc d).line (s.desc d).tag out ((s.desc d).sent + 1) ∈ t.queue.drop s.queue.length))

/-- What waits for the boundary is taken: a busy FLUSH LINE completes (R85), and the two waiting marks are cleared (log 12). -/
def waitsTaken (l : LineNo) (s : State) : State :=
  let s := onLineOf s l fun ln => { ln with tx.flushDue := false, tx.holdDue := false }
  if s.busy = some (.flush l) then completed s else s

/-- What follows the character's own effects on an ENABLED line (R72, R78, R84, R85), from the state `s` in which the marks
still stand. With a hold expiry waiting and REPORT, HOLD_EXPIRED joins before or after the choice, or among the reports of a
flush that waits too (R29, log 6, log 14); `n` is the count of the model's draws. -/
structure BoundaryEnds (l : LineNo) (s t : State) : Prop where
  plain : (s.line l).tx.holdDue = false → (s.line l).tx.flushDue = false → Chooses l (waitsTaken l s) t
  flush : (s.line l).tx.holdDue = false → (s.line l).tx.flushDue = true →
    ∃ w, FrontHandled l (blocksEnded [.active] l .flushed (waitsTaken l s)) w ∧ Chooses l w t
  expiryFlush : (s.line l).tx.holdDue = true → (s.line l).cfg.holdAction = .flush →
    ∃ n w, FrontWithExpiry l { blocksEnded [.active, .queued] l .flushed (waitsTaken l s) with freeCtr := n } w ∧
      t = onLineOf w l idleLine
  expiryReport : (s.line l).tx.holdDue = true → (s.line l).cfg.holdAction = .report → (s.line l).tx.flushDue = false →
    ∃ n, let u := { waitsTaken l s with freeCtr := n }
      Chooses l (joined l holdExpiredChange u) t ∨ ∃ w, Chooses l u w ∧ t = joined l holdExpiredChange w
  expiryReportFlush : (s.line l).tx.holdDue = true → (s.line l).cfg.holdAction = .report → (s.line l).tx.flushDue = true →
    ∃ n, let u := { blocksEnded [.active] l .flushed (waitsTaken l s) with freeCtr := n }
      (∃ w, FrontWithExpiry l u w ∧ Chooses l w t) ∨
      ∃ w x, FrontHandled l u w ∧ Chooses l w x ∧ t = joined l holdExpiredChange x

/-! ## Modem signals -/

/-- The qualifier of one input. -/
abbrev qualifierOf (ln : Line) : ModemInput → Qualifier
  | .cts => ln.flow.cts
  | .dcd => ln.flow.dcd

/-- A sample that differs from the qualified level and equals the previous sample (R131). -/
abbrev Qualifies (q : Qualifier) (v : Level) : Prop := v ≠ q.level ∧ v = q.previous

/-- A sample of the last tick is due from a qualifier (log 2). -/
abbrev Due (q : Qualifier) : Prop := q.sampleDue = true

/-- The previous sample of one input becomes the sample, which is then taken. -/
def sampled (l : LineNo) (i : ModemInput) (v : Level) (s : State) : State :=
  onLineOf s l fun ln =>
    match i with
    | .cts => { ln with flow.cts := ⟨ln.flow.cts.level, v, false⟩ }
    | .dcd => { ln with flow.dcd := ⟨ln.flow.dcd.level, v, false⟩ }

/-- The qualified level of one input becomes the sample, which is then taken. -/
def requalified (l : LineNo) (i : ModemInput) (v : Level) (s : State) : State :=
  onLineOf s l fun ln =>
    match i with
    | .cts => { ln with flow.cts := ⟨v, ln.flow.cts.previous, false⟩ }
    | .dcd => { ln with flow.dcd := ⟨v, ln.flow.dcd.previous, false⟩ }

/-- A change of the qualified CTS level has its effects, the changes `c` joining the set (R120, R132): a held line whose hold
condition has become false makes the next-step choice, before or after the joining (R29, log 6). -/
structure CtsActs (l : LineNo) (c : ChangeSet) (s t : State) : Prop where
  quiet : ((s.line l).state ≠ .enabled ∨ (s.line l).tx.state ≠ .held ∨ Held (s.line l)) → t = joined l c s
  releases : (s.line l).state = .enabled → (s.line l).tx.state = .held → ¬Held (s.line l) →
    ∃ n, (∃ w, Chooses l { s with freeCtr := n } w ∧ t = joined l c w) ∨ Chooses l (joined l c { s with freeCtr := n }) t

/-- How far a DCD flush is: there is none, it is still to be made, or it is made. -/
inductive FlushStage where
  | absent
  | due
  | made
  deriving DecidableEq, Repr

/-- The acts of a DCD negation (R133) in any order that R29 leaves: the flush and then the head descriptors in turn (R32), the
close of the open record with CARRIER (R111), the joining of the changes `c`. The indices say what is still to be done. -/
inductive DcdActs (l : LineNo) (c : ChangeSet) : FlushStage → Option OpenRecord → Bool → State → State → Prop
  | rest (g : FlushStage) (s : State) : g ≠ .due → (g = .made → FrontStops l s) → DcdActs l c g none false s s
  | flush (k : Option OpenRecord) (j : Bool) (s t : State) : DcdActs l c .made k j (flushMade l s) t →
      DcdActs l c .due k j s t
  | head (k : Option OpenRecord) (j : Bool) (s w t : State) : HeadHandled l s w → DcdActs l c .made k j w t →
      DcdActs l c .made k j s t
  | close (g : FlushStage) (r : OpenRecord) (j : Bool) (s w t : State) :
      Closes l .carrier r.length r.errorFlag r.cells s w → DcdActs l c g none j w t → DcdActs l c g (some r) j s t
  | join (g : FlushStage) (k : Option OpenRecord) (s t : State) : DcdActs l c g k false (joined l c s) t →
      DcdActs l c g k true s t

/-- The flush that the DCD action asks for: CLOSE_AND_FLUSH on a line with an unfinished block (R86, R133). -/
def dcdFlushStage (s : State) (l : LineNo) : FlushStage :=
  if (s.line l).cfg.dcdAction = .closeAndFlush ∧
      (s.line l).tx.queue.any (fun d => decide ((s.desc d).phase = .active ∨ (s.desc d).phase = .queued)) then .due
  else .absent

/-- The record that the DCD action closes: the open one, with CLOSE_RECORD or CLOSE_AND_FLUSH (R111, R133). -/
def dcdRecord (ln : Line) : Option OpenRecord :=
  if ln.cfg.dcdAction ≠ .none ∧ ln.rx.state = .assembling then ln.rx.openRec else none

/-- A line in TX_HELD whose hold timer has expired, the expiry not yet acted on: a DCD flush meets it (R79). -/
abbrev MeetsExpiry (ln : Line) : Prop := ln.tx.state = .held ∧ ln.tx.holdTimer = some 0

/-- A change of the qualified DCD level has its effects, the changes `c` joining the set (R132, R133). After a flush, from the
state `w` that the acts lead to: a line still in TX_HELD that met a hold expiry is TX_IDLE and unkeyed (R79, log 26); else a
line in TX_BREAK or TX_HELD whose ACTIVE block finished at once makes the next-step choice (R84). -/
structure DcdHas (l : LineNo) (c : ChangeSet) (v : Level) (s t : State) : Prop where
  quiet : (v = .asserted ∨ (s.line l).state ≠ .enabled) → t = joined l c s
  acts : v = .negated → (s.line l).state = .enabled →
    ∃ n w, DcdActs l c (dcdFlushStage s l) (dcdRecord (s.line l)) true { s with freeCtr := n } w ∧
      (dcdFlushStage s l = .absent → t = w) ∧
      (dcdFlushStage s l = .due →
        (MeetsExpiry (s.line l) → (w.line l).tx.state = .held → t = onLineOf w l idleLine) ∧
        (¬(MeetsExpiry (s.line l) ∧ (w.line l).tx.state = .held) →
          (((w.line l).tx.state = .breaking ∨ (w.line l).tx.state = .held) → (w.line l).tx.inFlight = none →
            NoneActive w l → Chooses l w t) ∧
          (¬(((w.line l).tx.state = .breaking ∨ (w.line l).tx.state = .held) ∧ (w.line l).tx.inFlight = none ∧
            NoneActive w l) → t = w)))

/-- The choice of a commit of this tick, if it waits, is made after the DCD sample in TX_IDLE and TX_TRAILING (log 28). -/
structure Settled (l : LineNo) (s t : State) : Prop where
  quiet : ((s.line l).tx.commitDue = false ∨ ((s.line l).tx.state ≠ .idle ∧ (s.line l).tx.state ≠ .trailing)) → t = s
  chooses : (s.line l).tx.commitDue = true → ((s.line l).tx.state = .idle ∨ (s.line l).tx.state = .trailing) → Chooses l s t

/-- The DCD sample of the tick is still to come and would, if negated, flush the line (R59). -/
abbrev MeetsDcdFlush (ln : Line) : Prop :=
  ln.cfg.dcdAction = .closeAndFlush ∧ Due ln.flow.dcd ∧ Qualifies ln.flow.dcd .negated

/-! ## TXD (R68, R70) -/

/-- The parity bit of some data bits: it makes the number of 1 bits even or odd (R70). -/
def parityBits (p : Parity) (bits : List Bool) : List Bool :=
  match p with
  | .none => []
  | .even => [decide (bits.count true % 2 = 1)]
  | .odd => [decide (bits.count true % 2 = 0)]

/-- The levels of a frame (R70), mark being true: a start bit of space, the data bits least significant first, the parity bit
if there is one, one or two stop bits of mark. -/
def frameOf (cfg : LineConfig) (v : Byte) : List Bool :=
  let bits := (List.range (if cfg.dataBits = .seven then 7 else 8)).map fun i => v.getLsbD i
  false :: bits ++ parityBits cfg.parity bits ++ List.replicate (if cfg.stopBits = .two then 2 else 1) true

/-- The value of a flow character: XOFF is 13 hex and XON is 11 hex. -/
def flowCharValue : FlowChar → Byte
  | .xoff => 0x13
  | .xon => 0x11

/-- A modem level as a value of GET MODEM STATUS (R136). -/
def asValue (v : Level) : Byte := if v = .asserted then 1 else 0

/-- A manual level after an action of SET MODEM OUTPUTS (R134). -/
def afterAction (p : Byte) (v : Level) : Level := if p = 1 then .negated else if p = 2 then .asserted else v

/-! ## The match table -/

def directionCodes : List (Byte × MatchDirection) := [(0, .rx), (1, .tx), (2, .either)]

def actionCodes : List (Byte × MatchAction) := [(0, .capture), (1, .delimit), (2, .post), (3, .hold)]

/-- A direction of a test as a code (R164, R165). -/
def asCode (d : Direction) : Byte := if d = .tx then 1 else 0

/-- One match entry changed. -/
def onEntryOf (s : State) (n : MatchNo) (f : MatchEntry → MatchEntry) : State :=
  { s with matchTable := s.matchTable.set n.val (f (s.matchEntry n)) }

/-- The code of a record's state (R165, R178). -/
def asState : LockState → Byte
  | .empty => 0
  | .locked => 1
  | .unlocked => 2

/-! ## What a row on one line leaves alone -/

/-- What every row that acts on line `l` alone leaves as it was: the other lines, the configuration, the descriptors that are
neither in the line's queue nor open, the entries posted before, the patterns of the match table, the settings of the host. -/
structure LeavesTheRest (l : LineNo) (s t : State) : Prop where
  others : ∀ k, k ≠ l → t.line k = s.line k
  cfg : (t.line l).cfg = (s.line l).cfg
  descs : ∀ d, d ∉ (s.line l).tx.queue → s.window ≠ some d → t.desc d = s.desc d
  entries : s.queue <+: t.queue
  head : s.queue ≠ [] → t.readPtr = s.readPtr ∧ t.rxPastEnd = s.rxPastEnd
  patterns : ∀ n, (t.matchEntry n).enabled = (s.matchEntry n).enabled ∧ (t.matchEntry n).value = (s.matchEntry n).value ∧
    (t.matchEntry n).mask = (s.matchEntry n).mask ∧ (t.matchEntry n).lines = (s.matchEntry n).lines ∧
    (t.matchEntry n).direction = (s.matchEntry n).direction ∧ (t.matchEntry n).action = (s.matchEntry n).action
  params : t.param0 = s.param0 ∧ t.param1 = s.param1 ∧ t.param2 = s.param2 ∧ t.param3 = s.param3
  settings : t.reserve = s.reserve ∧ t.poolLow = s.poolLow ∧ t.suppressMinor = s.suppressMinor ∧ t.inten = s.inten
  port : t.windowLine = s.windowLine ∧ t.lastRefused = s.lastRefused ∧ t.noCell = s.noCell ∧ t.readData = s.readData ∧
    t.pointer = s.pointer ∧ t.resetHeld = s.resetHeld ∧ t.pending = s.pending

/-- The transmit window is as it was. -/
structure LeavesTheWindow (s t : State) : Prop where
  window : t.window = s.window
  flags : t.blockFull = s.blockFull ∧ t.windowLost = s.windowLost ∧ t.pendWindow = s.pendWindow

end Sys2Proof.Claims

open Sys2Proof Sys2Proof.Machine Sys2Proof.Claims

/-! ## The step and the queue of commands -/

/-- The command at the front of the queue runs on the queue's rest. -/
def Obligations.StepRunsTheFrontCommand : Prop :=
  ∀ (c : Instr) (rest : List Instr) (s : State), step { s with pending := c :: rest } = exec c { s with pending := rest }

/-- With nothing waiting, a step is one tick (R192), or nothing while something of the tick before is still to happen. On a
tick every running timer counts one down, a sample of CTS and DCD is due on every line that is not DISABLED (R131), and
nothing else changes; while RESET_N is low nothing counts. The model's choice (log 2). -/
def Obligations.EmptyQueueStepIsOneTick : Prop :=
  ∀ s : State, s.pending = [] →
    (s.resetHeld = true → step s = .next s) ∧
    ((∃ l, TickOpen (s.line l)) → step s = .next s) ∧
    (s.resetHeld = false → (∀ l, ¬TickOpen (s.line l)) → step s = .next
      { s with lines := s.lines.map fun ln =>
        { ln with
          tx.leadTimer := ln.tx.leadTimer.map (· - 1)
          tx.trailTimer := ln.tx.trailTimer.map (· - 1)
          tx.holdTimer := ln.tx.holdTimer.map (· - 1)
          tx.breakTimer := match ln.tx.breakTimer with
            | .space n => .space (n - 1)
            | .mark => .mark
            | .stopped => .stopped
          rx.idleTimer := ln.rx.idleTimer.map (· - 1)
          flow.cts.sampleDue := decide (ln.state ≠ .disabled)
          flow.dcd.sampleDue := decide (ln.state ≠ .disabled) } })

/-- Every row answers a next state, on every state, and leaves the queue of waiting rows alone. In part the model's choice
and no rule of the spec: rows are total on states that no run reaches (log 23, DESIGN CHOICE), BAD_COMMAND, COMMAND_LOST and
REGISTER_WRITE on any operand (log 1, DESIGN CHOICE), an event row whose event cannot occur changes nothing (log 4, DEDUCED;
log 3 for an expiry row), and the queue of rows, which the spec does not know, outlives even HARDWARE_RESET (log 17,
DESIGN CHOICE). -/
def Obligations.EveryRowGoesOn : Prop := ∀ (c : Instr) (s : State), ∃ t, exec c s = .next t ∧ t.pending = s.pending

/-! ## The command port, the registers, the resets -/

/-- A COMMAND write (R184, section 10.3): with BUSY set it only sets COMMAND_LOST; with BUSY clear a known code acts as its
row and any other code completes with BAD_COMMAND; SOFT RESET's code acts as SOFT RESET whatever BUSY is. -/
def Obligations.CommandWriteByItsCode : Prop :=
  ∀ (s : State), s.resetHeld = false →
    exec (.commandLost 0xA5) s = exec .softReset s ∧
    (s.busy.isSome →
      (∀ p ∈ commandRows, exec p.2 s = .next { s with commandLost := true }) ∧
      ∀ code, code ≠ 0xA5 → exec (.commandLost code) s = .next { s with commandLost := true } ∧
        exec (.badCommand code) s = .next { s with commandLost := true }) ∧
    (s.busy = none →
      (∀ p ∈ commandRows, exec (.commandLost p.1) s = exec p.2 s) ∧
      ∀ code, (∀ p ∈ commandRows, p.1 ≠ code) → code ≠ 0xA5 →
        exec (.badCommand code) s = .next (done .badCommand s) ∧ exec (.commandLost code) s = .next (done .badCommand s))

/-- SOFT RESET (R190), whatever BUSY is, with the soft-reset values of R20, R45, R62, R91, R117, R137, R153, R167 and R181.
Of what it leaves as it was, these are the model's choice and no rule of the spec: the characters in the store (log 8, DESIGN
CHOICE), the mark `sampleDue` of the qualifiers (log 2, DESIGN CHOICE), the draw counter and the queue of rows (log 17,
DESIGN CHOICE), the data-bus byte `readData` (log 10, DESIGN CHOICE). That the fields of the two EMPTY records are the codes 0
is log 22 (DEDUCED), and that the transmitter's own fields are cleared is log 12 (DEDUCED) and log 28 (DESIGN CHOICE). -/
def Obligations.SoftResetClearsTheTraffic : Prop :=
  ∀ (s : State), s.resetHeld = false →
    ∃ ds : Vector Descriptor 32, (∀ d : DescNo, ds[d.val].phase = .free) ∧
      exec .softReset s = .next
        { s with
          freeList := List.finRange 128, descs := ds
          queue := [], readPtr := 0, rxPastEnd := false, pointer := 16
          window := none, blockFull := false, lastRefused := false, noCell := false, windowLost := s.window.isSome
          lines := s.lines.map fun ln =>
            { state := .disabled, cfg := ln.cfg, tx := txReset, rx := rxReset
              flow := { congested := false, xoffSent := false, cts := ln.flow.cts, dcd := ln.flow.dcd,
                        manualRts := .negated, manualDtr := .negated }
              counters := ⟨0, 0, 0, 0⟩, changes := noChanges }
          matchTable := s.matchTable.map fun m => { m with hitCount := 0, pendingPost := none }
          capture := { state := .empty, entry := 0, line := 0, direction := .rx, char := 0, position := 0, tag := none,
                       laterHits := 0 }
          errorSet := 0
          errorRec := { state := .empty, firstKind := .parity, firstSeverity := .minor, line := 0, char := none,
                        severeAfter := false, further := 0 }
          result := .ok, busy := none, commandLost := false
          pendCommand := true, pendCapture := false, pendError := false, pendPool := false
          pendWindow := s.window.isSome }

/-- A hardware reset gives every block its reset values, and its end changes nothing more (R189). Of the values, those of the
model's own fields and the codes of the EMPTY records are its choice and no rule's: see `ResetValues` (logs 2, 12, 15, 22, 28).
The state that runs start from is such a machine, with no row waiting (log 17, DESIGN CHOICE). -/
def Obligations.HardwareResetAndItsEnd : Prop :=
  (∀ s : State, ∃ t, exec .hardwareReset s = .next t ∧ t.resetHeld = true ∧ ResetValues t ∧
    exec .resetEnd t = .next { t with resetHeld := false } ∧ ResetValues { t with resetHeld := false } ∧
    exec .resetEnd s = .next { s with resetHeld := false }) ∧
  ResetValues State.reset ∧ State.reset.resetHeld = false ∧ State.reset.pending = []

/-- While RESET_N is low, reads return 00, writes are ignored, IRQ_N is released and nothing acts (R189). -/
def Obligations.NothingActsWhileResetIsHeld : Prop :=
  ∀ s : State, s.resetHeld = true →
    (∀ c, c ≠ .hardwareReset → c ≠ .resetEnd → c ≠ .rxdataRead → exec c s = .next s) ∧
    exec .rxdataRead s = .next { s with readData := 0 } ∧ (∀ a, readRegister s a = 0) ∧ irqLow s = false

/-- A write to INTPEND clears the pending bits written as 1, EVENT apart (R187); a write to INTEN replaces the enable bits,
and IRQ_N is low while a bit is set in both (R188). -/
def Obligations.InterruptRegisterWrites : Prop :=
  ∀ (s : State) (v : Byte), s.resetHeld = false →
    exec (.intpendWrite v) s = .next
      { s with
        pendCommand := s.pendCommand && !v.getLsbD 1
        pendCapture := s.pendCapture && !v.getLsbD 2
        pendError := s.pendError && !v.getLsbD 3
        pendPool := s.pendPool && !v.getLsbD 4
        pendWindow := s.pendWindow && !v.getLsbD 5 } ∧
    exec (.intenWrite v) s = .next { s with inten := v.setWidth 6 } ∧
    (irqLow s = true ↔ ∃ i, (readRegister s 14).getLsbD i = true ∧ (readRegister s 15).getLsbD i = true)

/-- A write to a PARAM register replaces it, busy or not (R183); a write to a read-only address is ignored (R182). The other
four addresses act as their own rows (log 1). -/
def Obligations.RegisterWrites : Prop :=
  ∀ (s : State) (v : Byte), s.resetHeld = false →
    exec (.registerWrite 2 v) s = .next { s with param0 := v } ∧
    exec (.registerWrite 3 v) s = .next { s with param1 := v } ∧
    exec (.registerWrite 4 v) s = .next { s with param2 := v } ∧
    exec (.registerWrite 5 v) s = .next { s with param3 := v } ∧
    (∀ a : BitVec 4, a ∉ [0, 2, 3, 4, 5, 6, 14, 15] → exec (.registerWrite a v) s = .next s) ∧
    exec (.registerWrite 0 v) s = exec (.commandLost v) s ∧ exec (.registerWrite 6 v) s = exec (.txdataWrite v) s ∧
    exec (.registerWrite 14 v) s = exec (.intpendWrite v) s ∧ exec (.registerWrite 15 v) s = exec (.intenWrite v) s

/-- The bits of STATUS, TXSTATUS and INTPEND, the codes of RESULT, and the other registers that show the state (R182 and its
layouts, R185). -/
def Obligations.RegistersShowTheState : Prop :=
  ∀ (s : State), s.resetHeld = false →
    (∀ i, (readRegister s 0).getLsbD i =
      [s.busy.isSome, s.commandLost, s.rxPastEnd, s.window.isSome, !s.queue.isEmpty, decide (s.errorSet ≠ 0),
        decide (s.capture.state = .locked), decide (s.errorRec.state = .locked)].getD i false) ∧
    (∀ i, (readRegister s 7).getLsbD (4 + i) = [s.blockFull, s.lastRefused, s.noCell, s.windowLost].getD i false) ∧
    (readRegister s 7).toNat % 16 = s.windowLine.val ∧
    (∀ i, (readRegister s 14).getLsbD i =
      [!s.queue.isEmpty, s.pendCommand, s.pendCapture, s.pendError, s.pendPool, s.pendWindow].getD i false) ∧
    (readRegister s 2 = s.param0 ∧ readRegister s 3 = s.param1 ∧ readRegister s 4 = s.param2 ∧ readRegister s 5 = s.param3) ∧
    (s.window = none → readRegister s 8 = 0) ∧ (∀ d, s.window = some d → readRegister s 8 = byte (s.desc d).length) ∧
    readRegister s 9 = byte s.queue.length ∧ readRegister s 15 = s.inten.setWidth 8 ∧
    readRegister s 1 = (match s.result with
      | .ok => 0
      | .badCommand => 1
      | .badParam => 2
      | .lineDisabled => 3
      | .lineActive => 4
      | .lineBusy => 5
      | .windowBusy => 6
      | .noWindow => 7
      | .noDescriptor => 8
      | .lineFull => 9
      | .empty => 10)

/-- The head registers present the oldest entry, or kind NONE and zeros (R40, section 10.1). -/
def Obligations.HeadRegistersPresentTheOldestEntry : Prop :=
  ∀ (s : State), s.resetHeld = false →
    let head := (readRegister s 10, readRegister s 11, readRegister s 12, readRegister s 13)
    (s.queue = [] → head = (0, 0, 0, 0)) ∧
    (∀ l n c e cells rest, s.queue = .rxRecord l n c e none cells :: rest → n ≤ 64 →
      head = (byte (16 + l.val), byte (n + if e then 128 else 0),
        match c with
        | .delimiter => 0
        | .length => 1
        | .idle => 2
        | .brk => 3
        | .error => 4
        | .carrier => 5
        | .storeFull => 6, 0)) ∧
    (∀ l n c e k cells rest, s.queue = .rxRecord l n c e (some k) cells :: rest → n ≤ 64 →
      head = (byte (16 + l.val), byte (n + if e then 128 else 0),
        match c with
        | .delimiter => 128
        | .length => 129
        | .idle => 130
        | .brk => 131
        | .error => 132
        | .carrier => 133
        | .storeFull => 134, k)) ∧
    (∀ l tag o n rest, s.queue = .txReport l tag o n :: rest →
      head = (byte (32 + l.val), tag, match o with
        | .sent => 0
        | .flushed => 1
        | .restarted => 2, byte n)) ∧
    (∀ l c cts dcd rest, s.queue = .lineEvent l c cts dcd :: rest →
      head = (byte (48 + l.val),
        byte ((if c.cts then 1 else 0) + (if c.dcd then 2 else 0) + (if c.holdExpired then 4 else 0)
          + (if c.lineCleared then 8 else 0)),
        byte ((if cts = .asserted then 1 else 0) + (if dcd = .asserted then 2 else 0)), 0)) ∧
    (∀ l n dir v hits rest, s.queue = .matched l n dir v hits :: rest →
      head = (byte (64 + l.val), byte (n.val + if dir = .tx then 8 else 0), v, hits))

/-! ## The pools and the transmit window -/

/-- SET POOL LIMITS (R17) and GET POOL STATUS (R18). -/
def Obligations.PoolCommands : Prop :=
  ∀ (s : State), Ready s →
    (s.param0.toNat ≤ 64 → s.param1.toNat ≤ 127 →
      exec .setPoolLimits s = .next (done .ok { s with reserve := s.param0.toNat, poolLow := s.param1.toNat })) ∧
    ((65 ≤ s.param0.toNat ∨ 128 ≤ s.param1.toNat) → exec .setPoolLimits s = .next (done .badParam s)) ∧
    exec .getPoolStatus s = .next (doneWith (byte s.freeList.length)
      (byte ((List.finRange 32).countP fun d => (s.desc d).phase = .free)) (byte s.reserve) (byte s.poolLow) s)

/-- OPEN BLOCK: its checks in their order, a refusal leaving everything but the command group alone (R48, R49); with every
check passed it takes the lowest-numbered FREE descriptor and opens the window (R50). -/
def Obligations.OpenBlock : Prop :=
  ∀ (s : State), Ready s →
    ((16 ≤ s.param0.toNat ∨ 2 ≤ s.param2.toNat) → exec .openBlock s = .next (done .badParam s)) ∧
    ∀ l, Names s.param0 l → s.param2.toNat < 2 →
      (s.window.isSome → exec .openBlock s = .next (done .windowBusy s)) ∧
      (s.window = none →
        ((s.line l).state = .disabled → exec .openBlock s = .next (done .lineDisabled s)) ∧
        (((s.line l).state = .restarting ∨ (s.line l).state = .disabling) →
          exec .openBlock s = .next (done .lineBusy s)) ∧
        ((s.line l).state = .enabled →
          ((s.line l).cfg.quota ≤ (s.line l).tx.queue.length → exec .openBlock s = .next (done .lineFull s)) ∧
          ((s.line l).tx.queue.length < (s.line l).cfg.quota →
            ((∀ d, (s.desc d).phase ≠ .free) → exec .openBlock s = .next (done .noDescriptor s)) ∧
            ∀ d report, (s.desc d).phase = .free → (∀ e : DescNo, e < d → (s.desc e).phase ≠ .free) →
              (s.param2, report) ∈ boolCodes →
              exec .openBlock s = .next (done .ok
                { s.setDesc d { phase := .opened, line := l, tag := s.param1, report := report,
                                breakBefore := s.param3.toNat, length := 0, cells := [], sent := 0, outcome := none } with
                  window := some d, windowLine := l, blockFull := false, lastRefused := false, noCell := false
                  windowLost := false }))))

/-- TXDATA: a byte is refused with the window closed (R53), with the block full (R54), or when a new cell is needed and
refused (R55). An accepted byte (R56) is stored at the byte count, which goes up by 1; at counts 0, 16, 32 and 48 a new cell
is taken (R3, R4), a fall below the pool-low threshold setting POOL pending (R11). -/
def Obligations.TxdataWrite : Prop :=
  ∀ (s : State) (v : Byte), s.resetHeld = false →
    (s.window = none → exec (.txdataWrite v) s = .next { s with lastRefused := true, noCell := false }) ∧
    ∀ d, s.window = some d →
      (64 ≤ (s.desc d).length → exec (.txdataWrite v) s = .next { s with lastRefused := true, noCell := false }) ∧
      ((s.desc d).length < 64 → (s.desc d).length % 16 = 0 → s.freeList.length ≤ s.reserve →
        exec (.txdataWrite v) s = .next { s with lastRefused := true, noCell := true }) ∧
      ∀ cells free pool, Memory.wf s.mem = true → (s.desc d).length < 64 →
        (((s.desc d).length % 16 ≠ 0 ∧ cells = (s.desc d).cells ∧ free = s.freeList ∧ pool = s.pendPool) ∨
          ((s.desc d).length % 16 = 0 ∧ s.reserve < s.freeList.length ∧
            (∃ c, s.freeList = c :: free ∧ cells = (s.desc d).cells ++ [c]) ∧
            pool = (s.pendPool || decide (s.freeList.length = s.poolLow)))) →
        ∃ m, exec (.txdataWrite v) s = .next
            { s.setDesc d { s.desc d with length := (s.desc d).length + 1, cells := cells } with
              mem := m, freeList := free, pendPool := pool, lastRefused := false, noCell := false
              blockFull := s.blockFull || decide ((s.desc d).length + 1 = 64) } ∧
          (∀ c, cells[(s.desc d).length / 16]? = some c →
            Memory.read m (16 * c.val + (s.desc d).length % 16) = v) ∧
          ∀ a, (∀ c, cells[(s.desc d).length / 16]? = some c → a ≠ 16 * c.val + (s.desc d).length % 16) →
            Memory.read m a = Memory.read s.mem a

/-- CLOSE BLOCK (R58): the block is QUEUED at the tail of its line's queue and the window closes; in TX_IDLE and TX_TRAILING
that is a moment of choice (R72), and a block of length 0 without a break finishes SENT there (R73). Where the commit may meet
a DCD flush, the choice is made at once (R73), or the block is still QUEUED when the DCD sample of the tick comes (R59): which
of the two is drawn (log 28, DESIGN CHOICE). -/
def Obligations.CloseBlockCommits : Prop :=
  ∀ (s : State), Ready s →
    (s.window = none → exec .closeBlock s = .next (done .noWindow s)) ∧
    ∀ d l, s.window = some d → (s.desc d).line = l →
      let committed := { onLineOf (s.setDesc d { s.desc d with phase := .queued }) l fun ln =>
          { ln with tx.queue := ln.tx.queue ++ [d] } with window := none, blockFull := false, commandLost := false }
      ((s.line l).tx.state ≠ .idle → (s.line l).tx.state ≠ .trailing →
        exec .closeBlock s = .next (done .ok committed)) ∧
      (((s.line l).tx.state = .idle ∨ (s.line l).tx.state = .trailing) →
        (¬MeetsDcdFlush (s.line l) → ∃ t, exec .closeBlock s = .next (done .ok t) ∧ Chooses l committed t) ∧
        (MeetsDcdFlush (s.line l) → ∃ n t, exec .closeBlock s = .next (done .ok t) ∧
          let u := { committed with freeCtr := n }
          (Chooses l u t ∨ t = onLineOf u l fun ln => { ln with tx.trailTimer := none, tx.commitDue := true }))) ∧
      (¬MeetsDcdFlush (s.line l) → (s.line l).tx.state = .idle → (s.line l).tx.haltRequest = false → (s.line l).tx.keyed = false →
        (s.line l).tx.pendingPriority = none → (s.line l).tx.queue = [] → (s.desc d).length = 0 →
        (s.desc d).breakBefore = 0 → (s.desc d).cells = [] → (s.desc d).report = true → SlotFree s →
        ∃ u : Descriptor, u.phase = .free ∧
          exec .closeBlock s = .next (done .ok (posted (.txReport l (s.desc d).tag .sent 0)
            { onLineOf (s.setDesc d u) l fun ln => { ln with tx := { stoppedIn .idle ln.tx with breakSent := false } } with
              window := none, blockFull := false })))

/-- DISCARD BLOCK (R60). -/
def Obligations.DiscardBlockAbandons : Prop :=
  ∀ (s : State), Ready s →
    (s.window = none → exec .discardBlock s = .next (done .noWindow s)) ∧
    ∀ d, s.window = some d → ∃ u : Descriptor, u.phase = .free ∧
      exec .discardBlock s = .next (done .ok
        { s.setDesc d u with freeList := s.freeList ++ (s.desc d).cells, window := none, blockFull := false })

/-! ## The event queue -/

/-- RELEASE HEAD (R42): EMPTY on an empty queue; otherwise the head leaves, its cells return, the next entry is read from its
first character, and the arbiter makes its grant. -/
def Obligations.ReleaseHead : Prop :=
  ∀ (s : State), Ready s →
    (s.queue = [] → exec .releaseHead s = .next (done .empty s)) ∧
    ∀ e rest, s.queue = e :: rest →
      let freed := { s with queue := rest, readPtr := 0, rxPastEnd := false, commandLost := false
                            freeList := s.freeList ++ match e with
                              | .rxRecord _ _ _ _ _ cells => cells
                              | _ => [] }
      ((∀ src, ¬Waits s src) → exec .releaseHead s = .next (done .ok freed)) ∧
      ∃ t, exec .postGrant freed = .next t ∧ exec .releaseHead s = .next (done .ok t)

/-- REWIND HEAD (R43) and a read of RXDATA (R41). -/
def Obligations.RewindHeadAndRxdataRead : Prop :=
  ∀ (s : State),
    (Ready s → exec .rewindHead s = .next (done .ok { s with readPtr := 0, rxPastEnd := false })) ∧
    (s.resetHeld = false →
      (∀ l n c e lost cells rest a, s.queue = .rxRecord l n c e lost cells :: rest → s.readPtr < n →
        cells[s.readPtr / 16]? = some a →
        exec .rxdataRead s = .next
          { s with readData := Memory.read s.mem (16 * a.val + s.readPtr % 16), readPtr := s.readPtr + 1 }) ∧
      ((∀ l n c e lost cells rest, s.queue = .rxRecord l n c e lost cells :: rest → n ≤ s.readPtr) →
        exec .rxdataRead s = .next { s with readData := 0, rxPastEnd := true }))

/-- The post arbiter's grant (R37, R38): nothing without a free slot or a waiting source; otherwise one entry of the first
waiting source after the pointer. After a report the handling of the front goes on behind it (R32). -/
def Obligations.PostGrantServesTheFirstWaiting : Prop :=
  ∀ (s : State), s.resetHeld = false →
    (¬SlotFree s → exec .postGrant s = .next s) ∧ ((∀ src, ¬Waits s src) → exec .postGrant s = .next s) ∧
    ∀ src, SlotFree s → Chosen s src →
      (∀ l : LineNo, l.val = src.val →
        ((s.line l).changes ≠ noChanges →
          exec .postGrant s = .next
            { posted (.lineEvent l (s.line l).changes (s.line l).flow.cts.level (s.line l).flow.dcd.level)
                (onLineOf s l fun ln => { ln with changes := noChanges }) with pointer := src }) ∧
        ((s.line l).changes = noChanges → ∀ d rest, (s.line l).tx.queue = d :: rest → ReportWaits s l d →
          ∀ o, (s.desc d).outcome = some o →
          ∃ (u : Descriptor) (w : State), u.phase = .free ∧
            FrontHandled l (posted (.txReport (s.desc d).line (s.desc d).tag o (s.desc d).sent)
              (onLineOf (s.setDesc d u) l fun ln => { ln with tx.queue := rest })) w ∧
            exec .postGrant s = .next { w with pointer := src }) ∧
        ((s.line l).changes = noChanges → (∀ d, ¬ReportWaits s l d) → ∀ r, (s.line l).rx.closedRec = some r →
          ∃ t, exec .postGrant s = .next { t with pointer := src } ∧
            Uncongests l (recordPosted l r.cause r.length r.errorFlag r.cells s) t)) ∧
      (src.val = 16 → ∀ n p, (s.matchEntry n).pendingPost = some p →
        (∀ k : MatchNo, k < n → (s.matchEntry k).pendingPost = none) →
        exec .postGrant s = .next
          { posted (.matched p.line n p.direction p.char p.count)
              (s.setMatch n { s.matchEntry n with pendingPost := none }) with pointer := src })

/-! ## Line configuration and line states -/

/-- The six configuration commands accepted (R140, R141): on a DISABLED line with an empty queue the named fields take their
values. -/
def Obligations.ConfigurationAccepted : Prop :=
  ∀ (s : State) (l : LineNo), Ready s → Names s.param0 l → (s.line l).state = .disabled → (s.line l).tx.queue = [] →
    let set (f : LineConfig → LineConfig) := done .ok (onLineOf s l fun ln => { ln with cfg := f ln.cfg })
    (∀ b : Fin 10, s.param1.toNat = b.val → ∀ d, (s.param2, d) ∈ dataBitsCodes →
      ∀ p st, (s.param3, p, st) ∈ parityStopCodes →
      exec .setLineFormat s = .next (set fun c => { c with baud := b, dataBits := d, parity := p, stopBits := st })) ∧
    (1 ≤ s.param1.toNat → s.param1.toNat ≤ 64 → ∀ e, (s.param3, e) ∈ errorPolicyCodes →
      exec .setLineRecord s = .next (set fun c =>
        { c with maxLength := s.param1.toNat, idleGap := s.param2.toNat, errorPolicy := e })) ∧
    (∀ f, (s.param1, f) ∈ txFlowCodes → ∀ m, (s.param2, m) ∈ rtsModeCodes → ∀ x, (s.param3, x) ∈ boolCodes →
      exec .setLineFlow s = .next (set fun c => { c with txFlow := f, rtsMode := m, rxXoff := x })) ∧
    (∀ m, (s.param1, m) ∈ dtrModeCodes → ∀ a, (s.param2, a) ∈ dcdActionCodes →
      ∀ cts dcd, (s.param3, cts, dcd) ∈ eventMaskCodes →
      exec .setLineModem s = .next (set fun c => { c with dtrMode := m, dcdAction := a, maskCts := cts, maskDcd := dcd })) ∧
    exec .setLineTimers s = .next (set fun c =>
      { c with rtsLead := s.param1.toNat, rtsTrail := s.param2.toNat, holdLimit := s.param3.toNat }) ∧
    (1 ≤ s.param1.toNat → s.param1.toNat ≤ 8 → ∀ a, (s.param2, a) ∈ holdActionCodes →
      exec .setLineQueue s = .next (set fun c => { c with quota := s.param1.toNat, holdAction := a }))

/-- The checks of the configuration commands, in their order (R140). -/
def Obligations.ConfigurationRefused : Prop :=
  ∀ (s : State) (c : Instr), Ready s → c ∈ configRows →
    (16 ≤ s.param0.toNat → exec c s = .next (done .badParam s)) ∧
    (badlyCoded c s.param1 s.param2 s.param3 = true → exec c s = .next (done .badParam s)) ∧
    ∀ l, Names s.param0 l → badlyCoded c s.param1 s.param2 s.param3 = false →
      (((s.line l).state = .restarting ∨ (s.line l).state = .disabling) → exec c s = .next (done .lineBusy s)) ∧
      (((s.line l).state = .enabled ∨ ((s.line l).state = .disabled ∧ (s.line l).tx.queue ≠ [])) →
        exec c s = .next (done .lineActive s))

/-- GET LINE CONFIG (R142). -/
def Obligations.GetLineConfig : Prop :=
  ∀ (s : State), Ready s →
    ((16 ≤ s.param0.toNat ∨ 6 ≤ s.param1.toNat) → exec .getLineConfig s = .next (done .badParam s)) ∧
    ∀ l, Names s.param0 l →
      (s.param1 = 0 → ∀ d, (d, (s.line l).cfg.dataBits) ∈ dataBitsCodes →
        ∀ p, (p, (s.line l).cfg.parity, (s.line l).cfg.stopBits) ∈ parityStopCodes →
        exec .getLineConfig s = .next (doneWith 0 (byte (s.line l).cfg.baud.val) d p s)) ∧
      (s.param1 = 1 → ∀ e, (e, (s.line l).cfg.errorPolicy) ∈ errorPolicyCodes →
        exec .getLineConfig s = .next
          (doneWith 1 (byte (s.line l).cfg.maxLength) (byte (s.line l).cfg.idleGap) e s)) ∧
      (s.param1 = 2 → ∀ f, (f, (s.line l).cfg.txFlow) ∈ txFlowCodes → ∀ m, (m, (s.line l).cfg.rtsMode) ∈ rtsModeCodes →
        ∀ x, (x, (s.line l).cfg.rxXoff) ∈ boolCodes → exec .getLineConfig s = .next (doneWith 2 f m x s)) ∧
      (s.param1 = 3 → ∀ m, (m, (s.line l).cfg.dtrMode) ∈ dtrModeCodes →
        ∀ a, (a, (s.line l).cfg.dcdAction) ∈ dcdActionCodes →
        ∀ e, (e, (s.line l).cfg.maskCts, (s.line l).cfg.maskDcd) ∈ eventMaskCodes →
        exec .getLineConfig s = .next (doneWith 3 m a e s)) ∧
      (s.param1 = 4 → exec .getLineConfig s = .next
        (doneWith 4 (byte (s.line l).cfg.rtsLead) (byte (s.line l).cfg.rtsTrail) (byte (s.line l).cfg.holdLimit) s)) ∧
      (s.param1 = 5 → ∀ a, (a, (s.line l).cfg.holdAction) ∈ holdActionCodes →
        exec .getLineConfig s = .next (doneWith 5 (byte (s.line l).cfg.quota) a 0 s))

/-- ENABLE LINE (R144), and the checks of RESTART LINE and DISABLE LINE (R145). -/
def Obligations.EnableLineAndChecks : Prop :=
  ∀ (s : State), Ready s →
    (16 ≤ s.param0.toNat → exec .enableLine s = .next (done .badParam s) ∧
      exec .restartLine s = .next (done .badParam s) ∧ exec .disableLine s = .next (done .badParam s)) ∧
    ∀ l, Names s.param0 l →
      (((s.line l).state = .restarting ∨ (s.line l).state = .disabling) →
        exec .enableLine s = .next (done .lineBusy s) ∧ exec .restartLine s = .next (done .lineBusy s) ∧
          exec .disableLine s = .next (done .lineBusy s)) ∧
      ((s.line l).state = .enabled → exec .enableLine s = .next (done .lineActive s)) ∧
      ((s.line l).state = .disabled →
        exec .restartLine s = .next (done .lineDisabled s) ∧ exec .disableLine s = .next (done .ok s) ∧
        exec .enableLine s = .next (done .ok (onLineOf s l fun ln =>
          { ln with
            state := .enabled
            tx := { stoppedIn .idle ln.tx with
              haltRequest := false, remoteHold := false, pendingPriority := none, keyed := false, breakSent := false }
            rx := { rxReset with state := .idle, framer := .awaitingMark }
            flow := { ln.flow with
              congested := false, xoffSent := false
              cts := ⟨ln.flow.cts.level, ln.flow.cts.level, false⟩
              dcd := ⟨ln.flow.dcd.level, ln.flow.dcd.level, false⟩ } })))

/-- RESTART LINE and DISABLE LINE on an ENABLED line with no character in flight complete in the accepting event (R146, R148,
R149): every unfinished block finishes RESTARTED with its characters sent, the cells join the free list in the order of R146,
the reports are posted in commit order, and then the completion follows. -/
def Obligations.RestartAndDisableAtOnce : Prop :=
  ∀ (s : State) (l : LineNo), Ready s → Names s.param0 l → (s.line l).state = .enabled →
    (s.line l).tx.inFlight = none →
    (∃ a, Accepted .restarting l { s with commandLost := false } a ∧ exec .restartLine s = .next (restarted l a)) ∧
    (∃ a, Accepted .disabling l { s with commandLost := false } a ∧ exec .disableLine s = .next (disabled l a))

/-- With a character in flight the acceptance leaves the line RESTARTING or DISABLING and the command busy, the ACTIVE block
unfinished (R89, R146, R147). That it ends a waiting hold expiry and a waiting flush, so that the ACTIVE block of such a flush
will finish RESTARTED, is the model's choice and no rule of the spec (log 12, log 13, DEDUCED; `commitDue`: log 28). -/
def Obligations.RestartAndDisableWait : Prop :=
  ∀ (s : State) (l : LineNo) (c : InFlight), Ready s → Names s.param0 l → (s.line l).state = .enabled →
    (s.line l).tx.inFlight = some c →
    (∃ a, Accepted .restarting l { s with commandLost := false } a ∧
      exec .restartLine s = .next { a with busy := some (.restart l) } ∧
      ∀ d, Working s l d → s.window ≠ some d → a.desc d = s.desc d) ∧
    (∃ a, Accepted .disabling l { s with commandLost := false } a ∧
      exec .disableLine s = .next { a with busy := some (.disable l) } ∧
      ∀ d, Working s l d → s.window ≠ some d → a.desc d = s.desc d)

/-- The character boundary of a RESTARTING or DISABLING line completes the command (R148, R149): a block character is
counted, the ACTIVE block finishes RESTARTED, or SENT if the character was its last, the reports are posted in commit order,
LINE_CLEARED joins the change set, and the command is done. -/
def Obligations.BoundaryCompletesRestartAndDisable : Prop :=
  ∀ (s : State) (l : LineNo) (c : InFlight), s.resetHeld = false → (s.line l).tx.inFlight = some c →
    ((s.line l).state = .restarting → ∃ a b, Landed l c s a ∧ FrontHandled l (blocksEnded [.active] l .restarted a) b ∧
      exec (.characterBoundary l) s = .next (restarted l b) ∧ BlockAccounted l c .restarted s (restarted l b)) ∧
    ((s.line l).state = .disabling → ∃ a b, Landed l c s a ∧ FrontHandled l (blocksEnded [.active] l .restarted a) b ∧
      exec (.characterBoundary l) s = .next (disabled l b) ∧ BlockAccounted l c .restarted s (disabled l b))

/-- GET LINE STATUS (R151). -/
def Obligations.GetLineStatus : Prop :=
  ∀ (s : State), Ready s →
    (16 ≤ s.param0.toNat → exec .getLineStatus s = .next (done .badParam s)) ∧
    ∀ l, Names s.param0 l → exec .getLineStatus s = .next (doneWith
      (match (s.line l).state with
        | .disabled => 0
        | .enabled => 1
        | .restarting => 2
        | .disabling => 3)
      (match (s.line l).tx.state with
        | .off => 0
        | .idle => 1
        | .keying => 2
        | .breaking => 3
        | .sending => 4
        | .held => 5
        | .halted => 6
        | .trailing => 7)
      ((match (s.line l).rx.state with
        | .off => 0
        | .idle => 1
        | .assembling => 2
        | .stalled => 3) + 4 * byte (s.line l).rx.fifo.length)
      (byte (s.line l).tx.queue.length + (if (s.line l).tx.remoteHold then 16 else 0)
        + (if (s.line l).tx.haltRequest then 32 else 0) + (if (s.line l).flow.congested then 64 else 0)) s)

/-! ## The line transmitter -/

/-- HALT LINE, RESUME LINE and FLUSH LINE on a line that is not ENABLED (R82, R83, R85). HALT LINE on an ENABLED line (R80,
R82): taken at once in TX_IDLE, TX_HELD and TX_TRAILING, requested in TX_SENDING, TX_BREAK and TX_KEYING, not recorded in
TX_HALTED. RESUME LINE (R83): in TX_HALTED the next-step choice is made; in any other state a halt request is cleared. -/
def Obligations.HaltAndResumeLine : Prop :=
  ∀ (s : State), Ready s →
    (16 ≤ s.param0.toNat → ∀ c ∈ [Instr.haltLine, .resumeLine, .flushLine], exec c s = .next (done .badParam s)) ∧
    ∀ l, Names s.param0 l →
      ((s.line l).state = .disabled →
        ∀ c ∈ [Instr.haltLine, .resumeLine, .flushLine], exec c s = .next (done .lineDisabled s)) ∧
      (((s.line l).state = .restarting ∨ (s.line l).state = .disabling) →
        ∀ c ∈ [Instr.haltLine, .resumeLine, .flushLine], exec c s = .next (done .lineBusy s)) ∧
      ((s.line l).state = .enabled →
        (((s.line l).tx.state = .idle ∨ (s.line l).tx.state = .held ∨ (s.line l).tx.state = .trailing) →
          exec .haltLine s = .next (done .ok (onLineOf s l fun ln =>
            { ln with tx := { stoppedIn .halted ln.tx with haltRequest := false } }))) ∧
        (((s.line l).tx.state = .sending ∨ (s.line l).tx.state = .breaking ∨ (s.line l).tx.state = .keying) →
          exec .haltLine s = .next (done .ok (onLineOf s l fun ln => { ln with tx.haltRequest := true }))) ∧
        ((s.line l).tx.state = .halted → exec .haltLine s = .next (done .ok s) ∧
          ∃ t, exec .resumeLine s = .next (done .ok t) ∧ Chooses l { s with commandLost := false } t) ∧
        ((s.line l).tx.state ≠ .halted →
          exec .resumeLine s = .next (done .ok (onLineOf s l fun ln => { ln with tx.haltRequest := false }))))

/-- FLUSH LINE on an ENABLED line (R84, R85): the blocks finish FLUSHED, oldest first, their cells returned in that order and
their reports posted in commit order. With no character in flight the ACTIVE block is among them, and in TX_BREAK and TX_HELD
the next-step choice follows; with one in flight an ACTIVE block is left for the boundary and the command is busy. -/
def Obligations.FlushLine : Prop :=
  ∀ (s : State) (l : LineNo), Ready s → Names s.param0 l → (s.line l).state = .enabled →
    ∃ w, FrontHandled l (flushMade l { s with commandLost := false }) w ∧
      (∀ c d, (s.line l).tx.inFlight = some c → Working s l d →
        exec .flushLine s = .next { w with busy := some (.flush l) } ∧ w.desc d = s.desc d) ∧
      ((s.line l).tx.flushDue = false →
        (∀ c, (s.line l).tx.inFlight = some c → NoneActive s l → exec .flushLine s = .next (done .ok w)) ∧
        ((s.line l).tx.inFlight = none →
          ((s.line l).tx.state ≠ .breaking → (s.line l).tx.state ≠ .held → exec .flushLine s = .next (done .ok w)) ∧
          (((s.line l).tx.state = .breaking ∨ (s.line l).tx.state = .held) →
            ∃ t, Chooses l w t ∧ exec .flushLine s = .next (done .ok t))))

/-- LEAD_END (R74): in TX_KEYING with the lead timer expired, the next-step choice is made; otherwise there is no lead to end. -/
def Obligations.LeadEnd : Prop :=
  ∀ (s : State) (l : LineNo), s.resetHeld = false →
    ((s.line l).tx.state = .keying → (s.line l).tx.leadTimer = some 0 →
      ∃ t, exec (.leadEnd l) s = .next t ∧ Chooses l (onLineOf s l fun ln => { ln with tx.leadTimer := none }) t) ∧
    (((s.line l).tx.state ≠ .keying ∨ (s.line l).tx.leadTimer ≠ some 0) → exec (.leadEnd l) s = .next s)

/-- TRAIL_END (R75) and BREAK_TIMER_EXPIRY (R71): each acts when its timer has expired (R192). -/
def Obligations.TrailEndAndBreakTimerExpiry : Prop :=
  ∀ (s : State) (l : LineNo), s.resetHeld = false →
    ((s.line l).tx.state = .trailing → (s.line l).tx.trailTimer = some 0 →
      exec (.trailEnd l) s = .next (onLineOf s l fun ln =>
        { ln with tx := { stoppedIn .idle ln.tx with keyed := false } })) ∧
    (((s.line l).tx.state ≠ .trailing ∨ (s.line l).tx.trailTimer ≠ some 0) → exec (.trailEnd l) s = .next s) ∧
    ((s.line l).tx.state = .breaking → (s.line l).tx.breakTimer = .space 0 →
      exec (.breakTimerExpiry l) s = .next (onLineOf s l fun ln => { ln with tx.breakTimer := .mark })) ∧
    (((s.line l).tx.state ≠ .breaking ∨ (s.line l).tx.breakTimer ≠ .space 0) →
      exec (.breakTimerExpiry l) s = .next s)

/-- BREAK_END (R71): a block with characters goes to the next-step choice with its break sent; a block of length 0 finishes
SENT, and the front of the queue is handled, before the choice. -/
def Obligations.BreakEnd : Prop :=
  ∀ (s : State) (l : LineNo), s.resetHeld = false →
    (((s.line l).tx.state ≠ .breaking ∨ (s.line l).tx.breakTimer ≠ .mark) → exec (.breakEnd l) s = .next s) ∧
    ((s.line l).tx.state = .breaking → (s.line l).tx.breakTimer = .mark →
      let u := onLineOf s l fun ln => { ln with tx.breakTimer := .stopped, tx.breakSent := true }
      (NoneActive s l → ∃ t, exec (.breakEnd l) s = .next t ∧ Chooses l u t) ∧
      ∀ d, Working s l d →
        ((s.desc d).length ≠ 0 → ∃ t, exec (.breakEnd l) s = .next t ∧ Chooses l u t) ∧
        ((s.desc d).length = 0 → ∃ w t, exec (.breakEnd l) s = .next t ∧
          FrontHandled l (blockEnded .sent d u) w ∧ Chooses l w t))

/-- HOLD_EXPIRY (R78): with the hold timer expired on an ENABLED line, HOLD_EXPIRED joins the change set; with REPORT the line
stays in TX_HELD with the timer stopped; with FLUSH every unfinished block finishes FLUSHED, oldest first, its report in
commit order, the LINE_EVENT at some place among the reports (R29, log 6), and the line is TX_IDLE, unkeyed, the remote-hold
flag kept; during a priority character sent from the hold the expiry waits for the boundary (the mark is log 12's). In any
other case there is no expiry. -/
def Obligations.HoldExpiry : Prop :=
  ∀ (s : State) (l : LineNo), s.resetHeld = false →
    (¬HoldUp (s.line l) → exec (.holdExpiry l) s = .next s) ∧
    (HoldUp (s.line l) →
      let stopped := onLineOf s l fun ln => { ln with tx.holdTimer := none }
      ((s.line l).tx.state = .held → (s.line l).cfg.holdAction = .report →
        exec (.holdExpiry l) s = .next (joined l holdExpiredChange stopped)) ∧
      ((s.line l).tx.state = .held → (s.line l).cfg.holdAction = .flush →
        ∃ n w, FrontWithExpiry l { blocksEnded [.active, .queued] l .flushed stopped with freeCtr := n } w ∧
          exec (.holdExpiry l) s = .next (onLineOf w l idleLine)) ∧
      ((s.line l).tx.state ≠ .held →
        exec (.holdExpiry l) s = .next (onLineOf s l fun ln => { ln with tx.holdTimer := none, tx.holdDue := true })))

/-- CHARACTER_BOUNDARY in the middle of a block or after a priority character (R8, R70, R72): the block character is counted,
the cell of its last filled place returned, and the next-step choice is made. -/
def Obligations.CharacterBoundaryGoesOn : Prop :=
  ∀ (s : State) (l : LineNo), s.resetHeld = false →
    ((s.line l).tx.inFlight = none → exec (.characterBoundary l) s = .next s) ∧
    ((s.line l).state = .enabled → (s.line l).tx.flushDue = false → (s.line l).tx.holdDue = false →
      s.busy ≠ some (.flush l) →
      let landed := onLineOf s l fun ln => { ln with tx.inFlight := none }
      (∀ c, (s.line l).tx.inFlight = some (.priority c) →
        ∃ t, exec (.characterBoundary l) s = .next t ∧ Chooses l landed t) ∧
      (∀ v d, (s.line l).tx.inFlight = some (.block v) → Working s l d → (s.desc d).sent + 1 ≠ (s.desc d).length →
        ((s.desc d).sent % 16 ≠ 15 → ∃ t, exec (.characterBoundary l) s = .next t ∧
          Chooses l (landed.setDesc d { s.desc d with sent := (s.desc d).sent + 1 }) t) ∧
        ((s.desc d).sent % 16 = 15 → ∀ c rest, (s.desc d).cells = c :: rest →
          ∃ t, exec (.characterBoundary l) s = .next t ∧
          Chooses l { landed.setDesc d { s.desc d with sent := (s.desc d).sent + 1, cells := rest } with
            freeList := s.freeList ++ [c] } t)))

/-- CHARACTER_BOUNDARY of a block's last character (R8, R70, R16, R32): the block finishes SENT, its cells return, the front of
the queue is handled, FINISHED blocks before and behind it included, and the next-step choice is made. -/
def Obligations.CharacterBoundaryEndsTheBlock : Prop :=
  ∀ (s : State) (l : LineNo) (v : Byte) (d : DescNo), s.resetHeld = false →
    (s.line l).state = .enabled → (s.line l).tx.flushDue = false → (s.line l).tx.holdDue = false →
    s.busy ≠ some (.flush l) → (s.line l).tx.inFlight = some (.block v) → Working s l d →
    (s.desc d).sent + 1 = (s.desc d).length →
    let ended := { onLineOf (s.setDesc d { s.desc d with
        phase := .finished, sent := (s.desc d).sent + 1, cells := [], outcome := some .sent }) l fun ln =>
          { ln with tx.inFlight := none } with
      freeList := s.freeList ++ (s.desc d).cells }
    ∃ w t, exec (.characterBoundary l) s = .next t ∧ FrontHandled l ended w ∧ Chooses l w t

/-- CHARACTER_BOUNDARY of an ENABLED line, whatever waits for it: the character's own effects; a flush of FLUSH LINE or of a DCD
action that waits finishes the ACTIVE block FLUSHED (R84, R86); a busy FLUSH LINE completes with OK (R85); a hold expiry that
waits is acted on (R78); the choice follows, but not after an expiry with FLUSH. -/
def Obligations.CharacterBoundaryCompletesFlush : Prop :=
  ∀ (s : State) (l : LineNo) (c : InFlight), s.resetHeld = false → (s.line l).state = .enabled →
    (s.line l).tx.inFlight = some c →
    ∃ a t, exec (.characterBoundary l) s = .next t ∧ Landed l c s a ∧ BoundaryEnds l a t ∧
      ((s.line l).tx.flushDue = true → BlockAccounted l c .flushed s t)

/-! ## The line receiver -/

/-- FRAME_START, FRAME_ABANDONED_AS_NOISE and RXD_RETURNS_TO_MARK (R94): each acts in its own framer condition only. -/
def Obligations.FramerConditions : Prop :=
  ∀ (s : State) (l : LineNo), s.resetHeld = false →
    let now (c : FramerCondition) := onLineOf s l fun ln => { ln with rx.framer := c }
    ((s.line l).rx.framer = .hunting → exec (.frameStart l) s = .next (now .inFrame)) ∧
    ((s.line l).rx.framer ≠ .hunting → exec (.frameStart l) s = .next s) ∧
    ((s.line l).rx.framer = .inFrame → exec (.frameAbandonedAsNoise l) s = .next (now .hunting)) ∧
    ((s.line l).rx.framer ≠ .inFrame → exec (.frameAbandonedAsNoise l) s = .next s) ∧
    ((s.line l).rx.framer = .awaitingMark → exec (.rxdReturnsToMark l) s = .next (now .hunting)) ∧
    ((s.line l).rx.framer ≠ .awaitingMark → exec (.rxdReturnsToMark l) s = .next s)

/-- ARRIVAL with no frame (R94), on a RESTARTING or DISABLING line (R97), and of a flow character (R98, R119). -/
def Obligations.ArrivalDiscardedOrConsumed : Prop :=
  ∀ (s : State) (l : LineNo) (f : RxFrame), s.resetHeld = false →
    ((s.line l).rx.framer ≠ .inFrame → exec (.arrival l f) s = .next s) ∧
    ((s.line l).rx.framer = .inFrame →
      let seen := onLineOf s l fun ln => { ln with rx.framer := framerAfter ln.cfg f }
      (((s.line l).state = .restarting ∨ (s.line l).state = .disabling) →
        (BreakStart (s.line l).cfg f → exec (.arrival l f) s = .next seen) ∧
        (¬BreakStart (s.line l).cfg f → exec (.arrival l f) s = .next (onLineOf seen l fun ln =>
          { ln with counters.discarded := upTo255 ln.counters.discarded 1 }))) ∧
      ((s.line l).state = .enabled → Consumed (s.line l).cfg f →
        let flagged := onLineOf seen l fun ln => { ln with tx.remoteHold := decide (onWire ln.cfg f.data = 0x13) }
        (((s.line l).tx.state ≠ .held ∨ Held (flagged.line l)) → exec (.arrival l f) s = .next flagged) ∧
        ((s.line l).tx.state = .held → ¬Held (flagged.line l) →
          ∃ t, exec (.arrival l f) s = .next t ∧ Chooses l flagged t)))

/-- ARRIVAL on an ENABLED line of a character that is not consumed, or of a break marker (R95, R96, R99): the error report
first; then the item joins a FIFO of fewer than 4 items, which at 2 items congests the line (R121), or is lost with an
OVERRUN report. -/
def Obligations.ArrivalOfferedToTheFifo : Prop :=
  ∀ (s : State) (l : LineNo) (f : RxFrame), s.resetHeld = false → (s.line l).rx.framer = .inFrame →
    (s.line l).state = .enabled → ¬Consumed (s.line l).cfg f →
    let seen := onLineOf s l fun ln => { ln with rx.framer := framerAfter ln.cfg f }
    let told := match itemOf (s.line l).cfg f with
      | .char v .parity => reported .parity l (some v) seen
      | .char v .framing => reported .framing l (some v) seen
      | .char _ .ok => seen
      | .breakMarker => seen
    let stored := onLineOf told l fun ln => { ln with rx.fifo := ln.rx.fifo ++ [itemOf ln.cfg f] }
    ((s.line l).rx.fifo.length < 4 → (s.line l).rx.fifo.length ≠ 1 → exec (.arrival l f) s = .next stored) ∧
    ((s.line l).rx.fifo.length = 1 → ∃ t, exec (.arrival l f) s = .next t ∧ Congests l stored t) ∧
    (4 ≤ (s.line l).rx.fifo.length → exec (.arrival l f) s = .next (reported .overrun l none
      (onLineOf told l fun ln => { ln with rx.lostTally := upTo255 ln.rx.lostTally 1 })))

/-- ASSEMBLER_TAKE of a character that is stored, whatever the match table holds (R103, R104, R106, R108, R109, R155 to R161):
placed at the record's next position, in a new cell at positions 0, 16, 32 and 48; offered to the RX test, where every entry
that hits is counted, CAPTURE and POST act and a HOLD hit makes a halt request, while an entry that does not hit leaves
everything alone; the record then closes with ERROR, else DELIMITER, else LENGTH, before or after the MATCH entries (R157,
log 6), or stays open with the idle timer loaded. -/
def Obligations.AssemblerTakeStores : Prop :=
  ∀ (s : State) (l : LineNo) (v : Byte) (st : CharStatus) (rest : List FifoItem) (pos : Nat) (flag : Bool)
    (cells free : List CellNo) (pool : Bool), s.resetHeld = false → Memory.wf s.mem = true →
    (s.line l).state = .enabled → ((s.line l).rx.state = .idle ∨ (s.line l).rx.state = .assembling) →
    (s.line l).rx.fifo = .char v st :: rest → (st = .ok ∨ (s.line l).cfg.errorPolicy ≠ .drop) →
    (((s.line l).rx.openRec = none ∧ pos = 0 ∧ flag = false ∧ pool = (s.pendPool || decide (s.freeList.length = s.poolLow)) ∧
        ∃ c, s.freeList = c :: free ∧ cells = [c]) ∨
      (∃ r, (s.line l).rx.openRec = some r ∧ pos = r.length ∧ flag = r.errorFlag ∧
        ((pos % 16 ≠ 0 ∧ cells = r.cells ∧ free = s.freeList ∧ pool = s.pendPool) ∨
          (pos % 16 = 0 ∧ pool = (s.pendPool || decide (s.freeList.length = s.poolLow)) ∧
            ∃ c, s.freeList = c :: free ∧ cells = r.cells ++ [c])))) →
    ∃ m w t u, exec (.assemblerTake l) s = .next t ∧ Uncongests l u t ∧
      (∀ c, cells[pos / 16]? = some c → Memory.read m (16 * c.val + pos % 16) = v) ∧
      (∀ a, (∀ c, cells[pos / 16]? = some c → a ≠ 16 * c.val + pos % 16) → Memory.read m a = Memory.read s.mem a) ∧
      let errorFlag := flag || decide (st ≠ .ok ∧ (s.line l).cfg.errorPolicy = .keep)
      let stored := { onLineOf s l fun ln => { ln with rx := { ln.rx with
          state := .assembling, fifo := rest
          openRec := some { length := pos + 1, errorFlag := errorFlag, cells := cells } } } with
        mem := m, freeList := free, pendPool := pool }
      let c : TestedChar := { line := l, direction := .rx, char := v, position := pos, tag := none }
      ((∀ n, ¬HitWith c .hold s n) → w = captured c (hitsCounted c stored)) ∧
      ((∃ n, HitWith c .hold s n) → w = onLineOf (captured c (hitsCounted c stored)) l haltAsked) ∧
      (st ≠ .ok → (s.line l).cfg.errorPolicy = .close → ClosesWithPosts c .error (pos + 1) errorFlag cells w u) ∧
      ((st = .ok ∨ (s.line l).cfg.errorPolicy ≠ .close) →
        ((∃ n, HitWith c .delimit s n) → ClosesWithPosts c .delimiter (pos + 1) errorFlag cells w u) ∧
        ((∀ n, ¬HitWith c .delimit s n) →
          (pos + 1 = (s.line l).cfg.maxLength → ClosesWithPosts c .length (pos + 1) errorFlag cells w u) ∧
          (pos + 1 ≠ (s.line l).cfg.maxLength → u = onLineOf (postsMade c w) l fun ln =>
            { ln with rx.idleTimer := if ln.cfg.idleGap = 0 then none else some ln.cfg.idleGap })))

/-- The other assembler takes: none to make (R102), a dropped character (R103), a break marker (R107), a character refused a
cell (R105). -/
def Obligations.AssemblerTakeStoresNothing : Prop :=
  ∀ (s : State) (l : LineNo), s.resetHeld = false →
    (((s.line l).state ≠ .enabled ∨ (s.line l).rx.state = .off ∨ (s.line l).rx.state = .stalled ∨
      (s.line l).rx.fifo = []) → exec (.assemblerTake l) s = .next s) ∧
    ((s.line l).state = .enabled → ((s.line l).rx.state = .idle ∨ (s.line l).rx.state = .assembling) →
      (∀ v st rest, (s.line l).rx.fifo = .char v st :: rest → st ≠ .ok → (s.line l).cfg.errorPolicy = .drop →
        ∃ t, exec (.assemblerTake l) s = .next t ∧ Uncongests l (onLineOf s l fun ln =>
          { ln with rx.fifo := rest, counters.discarded := upTo255 ln.counters.discarded 1 }) t) ∧
      (∀ rest, (s.line l).rx.fifo = .breakMarker :: rest →
        let left := onLineOf s l fun ln => { ln with rx.fifo := rest }
        ((s.line l).rx.openRec = none → ∃ t u, exec (.assemblerTake l) s = .next t ∧ Uncongests l u t ∧
          Closes l .brk 0 false [] left u) ∧
        (∀ r, (s.line l).rx.openRec = some r → ∃ t u, exec (.assemblerTake l) s = .next t ∧ Uncongests l u t ∧
          Closes l .brk r.length r.errorFlag r.cells left u)) ∧
      (∀ v st rest, (s.line l).rx.fifo = .char v st :: rest → (st = .ok ∨ (s.line l).cfg.errorPolicy ≠ .drop) →
        s.freeList = [] →
        ((s.line l).rx.openRec = none → exec (.assemblerTake l) s = .next s) ∧
        (∀ r, (s.line l).rx.openRec = some r → r.length % 16 = 0 →
          ∃ t, exec (.assemblerTake l) s = .next t ∧ Closes l .storeFull r.length r.errorFlag r.cells s t)))

/-- IDLE_EXPIRY (R109, R110): with the idle timer expired, the open record closes with IDLE when the FIFO is empty, and with a
character at its head the timer is loaded again. With a break marker at the head the one or the other happens, as R110 and R109
say of it, drawn (the model's choice, DESIGN CHOICE, log 27). A timer that has ticks to go, as one that a take has loaded anew,
does not expire (log 3). -/
def Obligations.IdleExpiry : Prop :=
  ∀ (s : State) (l : LineNo), s.resetHeld = false →
    (((s.line l).rx.state ≠ .assembling ∨ (s.line l).rx.idleTimer ≠ some 0) → exec (.idleExpiry l) s = .next s) ∧
    ((s.line l).rx.state = .assembling → (s.line l).rx.idleTimer = some 0 →
      let reloaded (u : State) := onLineOf u l fun ln =>
        { ln with rx.idleTimer := if ln.cfg.idleGap = 0 then none else some ln.cfg.idleGap }
      (∀ v st rest, (s.line l).rx.fifo = .char v st :: rest → exec (.idleExpiry l) s = .next (reloaded s)) ∧
      ∀ r, (s.line l).rx.openRec = some r →
        ((s.line l).rx.fifo = [] →
          ∃ t, exec (.idleExpiry l) s = .next t ∧ Closes l .idle r.length r.errorFlag r.cells s t) ∧
        (∀ rest, (s.line l).rx.fifo = .breakMarker :: rest →
          ∃ n t, exec (.idleExpiry l) s = .next t ∧
            (t = reloaded { s with freeCtr := n } ∨
              Closes l .idle r.length r.errorFlag r.cells { s with freeCtr := n } t)))

/-- The match table at an append in mid-cell (R155, R156, R158 to R161, R35): one enabled entry that covers the line and
direction and agrees with the character counts a hit and takes its action. Several entries, entries that do not hit and the
causes of a close together are in AssemblerTakeStores. -/
def Obligations.MatchActionsAtAnAppend : Prop :=
  ∀ (s : State) (l : LineNo) (v : Byte) (rest : List FifoItem) (r : OpenRecord) (n : MatchNo), s.resetHeld = false →
    (s.line l).state = .enabled → (s.line l).rx.state = .assembling → (s.line l).rx.fifo = .char v .ok :: rest →
    (s.line l).rx.openRec = some r → r.length % 16 ≠ 0 → r.length + 1 ≠ (s.line l).cfg.maxLength →
    (s.line l).flow.congested = false → (∀ k, k ≠ n → (s.matchEntry k).enabled = false) →
    (s.matchEntry n).enabled = true → (s.matchEntry n).lines.getLsbD l.val = true →
    ((s.matchEntry n).direction = .rx ∨ (s.matchEntry n).direction = .either) →
    v &&& (s.matchEntry n).mask = (s.matchEntry n).value &&& (s.matchEntry n).mask →
    ∃ t, exec (.assemblerTake l) s = .next t ∧
      (t.matchEntry n).hitCount = upTo255 (s.matchEntry n).hitCount 1 ∧ (t.line l).rx.fifo = rest ∧
      ((s.matchEntry n).action = .capture →
        (t.line l).rx.openRec = some { r with length := r.length + 1 } ∧
        (s.capture.state ≠ .locked → t.pendCapture = true ∧
          t.capture = { state := .locked, entry := n, line := l, direction := .rx, char := v, position := r.length,
                        tag := none, laterHits := 0 }) ∧
        (s.capture.state = .locked → t.pendCapture = s.pendCapture ∧
          t.capture = { s.capture with laterHits := upTo255 s.capture.laterHits 1 })) ∧
      ((s.matchEntry n).action = .delimit → (t.line l).rx.openRec = none ∧ t.capture = s.capture ∧
        (SlotFree s → (t.line l).rx.state = .idle ∧ t.queue = s.queue ++
          [.rxRecord l (r.length + 1) .delimiter r.errorFlag (lostOf (s.line l).rx.lostTally) r.cells]) ∧
        (¬SlotFree s → (t.line l).rx.state = .stalled ∧ t.queue = s.queue ∧ (t.line l).rx.closedRec =
          some { cause := .delimiter, length := r.length + 1, errorFlag := r.errorFlag, cells := r.cells })) ∧
      ((s.matchEntry n).action = .post →
        (t.line l).rx.openRec = some { r with length := r.length + 1 } ∧ t.capture = s.capture ∧
        ((s.matchEntry n).pendingPost = none → SlotFree s →
          (t.matchEntry n).pendingPost = none ∧ t.queue = s.queue ++ [.matched l n .rx v 1]) ∧
        ((s.matchEntry n).pendingPost = none → ¬SlotFree s → t.queue = s.queue ∧
          (t.matchEntry n).pendingPost = some { line := l, direction := .rx, char := v, count := 1 }) ∧
        (∀ p, (s.matchEntry n).pendingPost = some p → t.queue = s.queue ∧
          (t.matchEntry n).pendingPost = some { p with count := upTo255 p.count 1 })) ∧
      ((s.matchEntry n).action = .hold →
        (t.line l).rx.openRec = some { r with length := r.length + 1 } ∧ t.capture = s.capture ∧ t.queue = s.queue ∧
        ((s.line l).tx.state = .halted → (t.line l).tx = (s.line l).tx) ∧
        (((s.line l).tx.state = .idle ∨ (s.line l).tx.state = .held ∨ (s.line l).tx.state = .trailing) →
          (t.line l).tx = { stoppedIn .halted (s.line l).tx with haltRequest := false }) ∧
        (((s.line l).tx.state = .sending ∨ (s.line l).tx.state = .breaking ∨ (s.line l).tx.state = .keying) →
          (t.line l).tx = { (s.line l).tx with haltRequest := true }))

/-- The match table at a transmission start (R70, R155 to R161, R35), made by a LEAD_END that starts a block character: the
test is TX with the block's tag; DELIMIT has no effect beyond its hit count; POST without a free slot waits. -/
def Obligations.MatchActionsAtATransmissionStart : Prop :=
  ∀ (s : State) (l : LineNo) (d : DescNo) (c : CellNo) (rest : List CellNo) (n : MatchNo) (v : Byte), s.resetHeld = false →
    (s.line l).tx.state = .keying → (s.line l).tx.leadTimer = some 0 → (s.line l).tx.haltRequest = false → Working s l d →
    ¬Held (s.line l) → (s.line l).tx.pendingPriority = none →
    ((s.line l).tx.breakSent = true ∨ (s.desc d).breakBefore = 0) → (s.desc d).cells = c :: rest →
    v = onWire (s.line l).cfg (Memory.read s.mem (16 * c.val + (s.desc d).sent % 16)) →
    (∀ k, k ≠ n → (s.matchEntry k).enabled = false) → (s.matchEntry n).enabled = true →
    (s.matchEntry n).lines.getLsbD l.val = true →
    ((s.matchEntry n).direction = .tx ∨ (s.matchEntry n).direction = .either) →
    v &&& (s.matchEntry n).mask = (s.matchEntry n).value &&& (s.matchEntry n).mask →
    ∃ t, exec (.leadEnd l) s = .next t ∧ (t.line l).tx.inFlight = some (.block v) ∧ (t.line l).tx.state = .sending ∧
      (t.line l).rx = (s.line l).rx ∧ (t.matchEntry n).hitCount = upTo255 (s.matchEntry n).hitCount 1 ∧
      ((s.matchEntry n).action = .capture → t.queue = s.queue ∧ (t.line l).tx.haltRequest = false ∧
        (s.capture.state ≠ .locked → t.pendCapture = true ∧
          t.capture = { state := .locked, entry := n, line := l, direction := .tx, char := v, position := (s.desc d).sent,
                        tag := some (s.desc d).tag, laterHits := 0 }) ∧
        (s.capture.state = .locked → t.pendCapture = s.pendCapture ∧
          t.capture = { s.capture with laterHits := upTo255 s.capture.laterHits 1 })) ∧
      ((s.matchEntry n).action ≠ .capture → t.capture = s.capture ∧ t.pendCapture = s.pendCapture) ∧
      ((s.matchEntry n).action = .delimit → t.queue = s.queue ∧ (t.line l).tx.haltRequest = false) ∧
      ((s.matchEntry n).action = .post → (t.line l).tx.haltRequest = false ∧
        ((s.matchEntry n).pendingPost = none → SlotFree s →
          (t.matchEntry n).pendingPost = none ∧ t.queue = s.queue ++ [.matched l n .tx v 1]) ∧
        ((s.matchEntry n).pendingPost = none → ¬SlotFree s → t.queue = s.queue ∧
          (t.matchEntry n).pendingPost = some { line := l, direction := .tx, char := v, count := 1 }) ∧
        (∀ p, (s.matchEntry n).pendingPost = some p → t.queue = s.queue ∧
          (t.matchEntry n).pendingPost = some { p with count := upTo255 p.count 1 })) ∧
      ((s.matchEntry n).action = .hold → t.queue = s.queue ∧ (t.line l).tx.haltRequest = true)

/-! ## Modem signals -/

/-- The qualifiers on a tick (R131): on a DISABLED line nothing is sampled, nor a second time on one tick; a sample that is no
qualified change becomes the previous sample; MODEM_INPUT_SAMPLE samples CTS and DCD. When both qualify on one tick (R132),
either is first and each has its own effects, or the two changes join the set as one; the case is drawn (log 7). After the DCD
sample the choice of a commit that waits for it is made (log 28, DESIGN CHOICE). -/
def Obligations.ModemInputsAreQualified : Prop :=
  ∀ (s : State) (l : LineNo), s.resetHeld = false →
    ((s.line l).state = .disabled →
      (∀ i v, exec (.qualifiedChange l i v) s = .next s) ∧ ∀ c d, exec (.modemInputSample l c d) s = .next s) ∧
    (∀ i v, ¬Due (qualifierOf (s.line l) i) → exec (.qualifiedChange l i v) s = .next s) ∧
    ((s.line l).state ≠ .disabled →
      (∀ v, Due (s.line l).flow.cts → ¬Qualifies (s.line l).flow.cts v →
        exec (.qualifiedChange l .cts v) s = .next (sampled l .cts v s)) ∧
      (∀ v, Due (s.line l).flow.dcd → ¬Qualifies (s.line l).flow.dcd v →
        ∃ t, exec (.qualifiedChange l .dcd v) s = .next t ∧ Settled l (sampled l .dcd v s) t) ∧
      ∀ c d,
        (Due (s.line l).flow.cts → Due (s.line l).flow.dcd →
          ¬Qualifies (s.line l).flow.cts c → ¬Qualifies (s.line l).flow.dcd d →
          ∃ t, exec (.modemInputSample l c d) s = .next t ∧ Settled l (sampled l .dcd d (sampled l .cts c s)) t) ∧
        (¬(Due (s.line l).flow.cts ∧ Qualifies (s.line l).flow.cts c ∧
            Due (s.line l).flow.dcd ∧ Qualifies (s.line l).flow.dcd d) →
          ∃ t, exec (.qualifiedChange l .cts c) s = .next t ∧
            exec (.modemInputSample l c d) s = exec (.qualifiedChange l .dcd d) t) ∧
        (Due (s.line l).flow.cts → Qualifies (s.line l).flow.cts c → Due (s.line l).flow.dcd →
          Qualifies (s.line l).flow.dcd d →
          ∃ n w x t, exec (.modemInputSample l c d) s = .next t ∧
            let u := { s with freeCtr := n }
            let both := requalified l .dcd d (requalified l .cts c u)
            let joint : ChangeSet := ⟨(s.line l).cfg.maskCts, (s.line l).cfg.maskDcd, false, false⟩
            ((exec (.qualifiedChange l .cts c) u = .next w ∧ exec (.qualifiedChange l .dcd d) w = .next t) ∨
              (exec (.qualifiedChange l .dcd d) u = .next w ∧ exec (.qualifiedChange l .cts c) w = .next t) ∨
              (CtsActs l noChanges both w ∧ DcdHas l joint d w x ∧ Settled l x t) ∨
              (DcdHas l joint d both w ∧ Settled l w x ∧ CtsActs l noChanges x t))))

/-- A qualified change of CTS (R132, R120): the level changes, a held line whose hold condition has become false makes the
next-step choice, CTS_CHANGE joins the change set if CTS is in the event mask. Where both can post, either is first (log
6). -/
def Obligations.QualifiedChangeOfCts : Prop :=
  ∀ (s : State) (l : LineNo) (v : Level), s.resetHeld = false → (s.line l).state ≠ .disabled →
    Due (s.line l).flow.cts → Qualifies (s.line l).flow.cts v →
    ∃ t, exec (.qualifiedChange l .cts v) s = .next t ∧
      CtsActs l ⟨(s.line l).cfg.maskCts, false, false, false⟩ (requalified l .cts v s) t

/-- A qualified change of DCD (R132, R133, R111, R86): asserted, it only joins the change set; negated on an ENABLED line, the
DCD action closes an open record with CARRIER and, with CLOSE_AND_FLUSH, finishes the blocks FLUSHED, oldest first, their
reports in commit order: the ACTIVE one at once, or at the boundary of the character in flight, which a XOFF started by a
close that stalls can be. The record, the reports and the LINE_EVENT take slots in either order (log 6). Then the choice of a
commit that waits is made (log 28, DESIGN CHOICE). -/
def Obligations.QualifiedChangeOfDcd : Prop :=
  ∀ (s : State) (l : LineNo) (v : Level), s.resetHeld = false → (s.line l).state ≠ .disabled →
    Due (s.line l).flow.dcd → Qualifies (s.line l).flow.dcd v →
    ∃ w t, exec (.qualifiedChange l .dcd v) s = .next t ∧
      DcdHas l ⟨false, (s.line l).cfg.maskDcd, false, false⟩ v (requalified l .dcd v s) w ∧ Settled l w t

/-- SET MODEM OUTPUTS: its checks in their order (R134) and its effect (R135). -/
def Obligations.SetModemOutputs : Prop :=
  ∀ (s : State), Ready s →
    ((16 ≤ s.param0.toNat ∨ 3 ≤ s.param1.toNat ∨ 3 ≤ s.param2.toNat) →
      exec .setModemOutputs s = .next (done .badParam s)) ∧
    ∀ l, Names s.param0 l → s.param1.toNat < 3 → s.param2.toNat < 3 →
      (((s.param1 ≠ 0 ∧ (s.line l).cfg.rtsMode ≠ .manual) ∨ (s.param2 ≠ 0 ∧ (s.line l).cfg.dtrMode ≠ .manual)) →
        exec .setModemOutputs s = .next (done .badParam s)) ∧
      ((s.param1 = 0 ∨ (s.line l).cfg.rtsMode = .manual) → (s.param2 = 0 ∨ (s.line l).cfg.dtrMode = .manual) →
        (((s.line l).state = .restarting ∨ (s.line l).state = .disabling) →
          exec .setModemOutputs s = .next (done .lineBusy s)) ∧
        ((s.line l).state = .disabled → s.param1 ≠ 0 → exec .setModemOutputs s = .next (done .lineDisabled s)) ∧
        (((s.line l).state = .enabled ∨ ((s.line l).state = .disabled ∧ s.param1 = 0)) →
          exec .setModemOutputs s = .next (done .ok (onLineOf s l fun ln =>
            { ln with
              flow.manualRts := afterAction s.param1 ln.flow.manualRts
              flow.manualDtr := afterAction s.param2 ln.flow.manualDtr }))))

/-- GET MODEM STATUS (R136), and what the output pins of a line carry: RTS (R126), DTR (R130) and TXD (R68, R70, R71): the frame
of the block or priority character in flight; with none in flight, space in the space of a break, and mark otherwise. -/
def Obligations.ModemStatusAndOutputs : Prop :=
  (∀ (s : State), Ready s →
    (16 ≤ s.param0.toNat → exec .getModemStatus s = .next (done .badParam s)) ∧
    ∀ l, Names s.param0 l → exec .getModemStatus s = .next (doneWith (asValue (s.line l).flow.cts.level)
      (asValue (s.line l).flow.dcd.level) (asValue (rtsLevel (s.line l))) (asValue (dtrLevel (s.line l))) s)) ∧
  ∀ ln : Line,
    (ln.state = .disabled → rtsLevel ln = .negated) ∧
    (ln.state ≠ .disabled →
      (ln.cfg.rtsMode = .manual → rtsLevel ln = ln.flow.manualRts) ∧
      (ln.cfg.rtsMode = .keyed → (rtsLevel ln = .asserted ↔ ln.tx.keyed = true)) ∧
      (ln.cfg.rtsMode = .flow → (rtsLevel ln = .asserted ↔ ln.flow.congested = false))) ∧
    (ln.cfg.dtrMode = .auto → (dtrLevel ln = .asserted ↔ ln.state ≠ .disabled)) ∧
    (ln.cfg.dtrMode = .manual → dtrLevel ln = ln.flow.manualDtr) ∧
    (∀ v, ln.tx.inFlight = some (.block v) → txdLine ln = .frame (frameOf ln.cfg v)) ∧
    (∀ c, ln.tx.inFlight = some (.priority c) → txdLine ln = .frame (frameOf ln.cfg (flowCharValue c))) ∧
    (ln.tx.inFlight = none →
      (∀ n, ln.tx.breakTimer = .space n → txdLine ln = .space) ∧
      ((∀ n, ln.tx.breakTimer ≠ .space n) → txdLine ln = .mark))

/-! ## The match table and the capture record -/

/-- SET MATCH ENTRY and SET MATCH LINES (R163), ENABLE, DISABLE and READ MATCH ENTRY (R164). -/
def Obligations.MatchTableCommands : Prop :=
  ∀ (s : State), Ready s →
    ((8 ≤ s.param0.toNat ∨ 16 ≤ s.param3.toNat ∨ s.param3.toNat % 4 = 3) →
      exec .setMatchEntry s = .next (done .badParam s)) ∧
    ((8 ≤ s.param0.toNat ∨ 3 ≤ s.param1.toNat) → exec .readMatchEntry s = .next (done .badParam s)) ∧
    (8 ≤ s.param0.toNat → exec .setMatchLines s = .next (done .badParam s) ∧
      exec .enableMatchEntry s = .next (done .badParam s) ∧ exec .disableMatchEntry s = .next (done .badParam s)) ∧
    ∀ n : MatchNo, s.param0.toNat = n.val →
      (∀ d ∈ directionCodes, ∀ a ∈ actionCodes, s.param3 = d.1 + 4 * a.1 →
        exec .setMatchEntry s = .next (done .ok (onEntryOf s n fun m =>
          { m with value := s.param1, mask := s.param2, direction := d.2, action := a.2
                   hitCount := 0, pendingPost := none }))) ∧
      (∃ set : BitVec 16, (∀ i, i < 8 → set.getLsbD i = s.param1.getLsbD i ∧ set.getLsbD (8 + i) = s.param2.getLsbD i) ∧
        exec .setMatchLines s = .next (done .ok (onEntryOf s n fun m =>
          { m with lines := set, hitCount := 0, pendingPost := none }))) ∧
      exec .enableMatchEntry s = .next (done .ok (onEntryOf s n fun m => { m with enabled := true })) ∧
      exec .disableMatchEntry s = .next (done .ok (onEntryOf s n fun m => { m with enabled := false })) ∧
      (s.param1 = 0 → ∀ d, (d, (s.matchEntry n).direction) ∈ directionCodes →
        ∀ a, (a, (s.matchEntry n).action) ∈ actionCodes →
        exec .readMatchEntry s = .next (doneWith ((if (s.matchEntry n).enabled then 1 else 0) + 2 * d + 8 * a)
          (s.matchEntry n).value (s.matchEntry n).mask (s.matchEntry n).hitCount s)) ∧
      (s.param1 = 1 → exec .readMatchEntry s = .next (doneWith ((s.matchEntry n).lines.setWidth 8)
        (((s.matchEntry n).lines >>> 8).setWidth 8) 0 0 s)) ∧
      (s.param1 = 2 →
        ((s.matchEntry n).pendingPost = none → exec .readMatchEntry s = .next (doneWith 0 0 0 0 s)) ∧
        ∀ p, (s.matchEntry n).pendingPost = some p → exec .readMatchEntry s = .next
          (doneWith (1 + 2 * asCode p.direction + 4 * byte p.line.val) p.char p.count 0 s))

/-- READ CAPTURE and CLEAR CAPTURE (R165). -/
def Obligations.CaptureCommands : Prop :=
  ∀ (s : State), Ready s →
    (2 ≤ s.param0.toNat → exec .readCapture s = .next (done .badParam s)) ∧
    (s.param0 = 0 → exec .readCapture s = .next (doneWith
      (asState s.capture.state + 4 * asCode s.capture.direction + 8 * byte s.capture.entry.val)
      (byte s.capture.line.val) s.capture.char (byte s.capture.position) s)) ∧
    (s.param0 = 1 → exec .readCapture s = .next (doneWith (asState s.capture.state) (s.capture.tag.getD 0)
      (if s.capture.tag.isSome then 1 else 0) s.capture.laterHits s)) ∧
    (s.capture.state = .locked → exec .clearCapture s = .next (done .ok
      { s with capture := { s.capture with state := .unlocked, laterHits := 0 } })) ∧
    (s.capture.state ≠ .locked → exec .clearCapture s = .next (done .ok s))

/-! ## Counters and errors -/

/-- READ LINE COUNTERS and READ AND CLEAR LINE COUNTERS (R176). -/
def Obligations.CounterCommands : Prop :=
  ∀ (s : State), Ready s →
    (16 ≤ s.param0.toNat → exec .readLineCounters s = .next (done .badParam s) ∧
      exec .readAndClearLineCounters s = .next (done .badParam s)) ∧
    ∀ l, Names s.param0 l →
      let told (t : State) := doneWith (s.line l).counters.parity (s.line l).counters.framing
        (s.line l).counters.overrun (s.line l).counters.discarded t
      exec .readLineCounters s = .next (told s) ∧
      exec .readAndClearLineCounters s = .next (told (onLineOf s l fun ln => { ln with counters := ⟨0, 0, 0, 0⟩ }))

/-- READ ERROR SET and CLEAR ERROR SET (R177), READ ERROR RECORD and CLEAR ERROR RECORD (R178), SET ERROR OPTIONS (R179). -/
def Obligations.ErrorCommands : Prop :=
  ∀ (s : State), Ready s →
    exec .readErrorSet s = .next (doneWith (s.errorSet.setWidth 8) ((s.errorSet >>> 8).setWidth 8)
      (if s.suppressMinor then 1 else 0) 0 s) ∧
    (∃ set : BitVec 16, (∀ i, i < 8 → set.getLsbD i = (s.errorSet.getLsbD i && !s.param0.getLsbD i) ∧
        set.getLsbD (8 + i) = (s.errorSet.getLsbD (8 + i) && !s.param1.getLsbD i)) ∧
      exec .clearErrorSet s = .next (done .ok { s with errorSet := set })) ∧
    exec .readErrorRecord s = .next (doneWith
      (asState s.errorRec.state
        + (match s.errorRec.firstKind with
          | .parity => 0
          | .framing => 4
          | .overrun => 8)
        + (if s.errorRec.firstSeverity = .severe then 16 else 0) + (if s.errorRec.severeAfter then 32 else 0)
        + (if s.errorRec.char.isSome then 64 else 0))
      (byte s.errorRec.line.val) (s.errorRec.char.getD 0) s.errorRec.further s) ∧
    (s.errorRec.state = .locked → exec .clearErrorRecord s = .next (done .ok
      { s with errorRec := { s.errorRec with state := .unlocked, further := 0 } })) ∧
    (s.errorRec.state ≠ .locked → exec .clearErrorRecord s = .next (done .ok s)) ∧
    (2 ≤ s.param0.toNat → exec .setErrorOptions s = .next (done .badParam s)) ∧
    ∀ b, (s.param0, b) ∈ boolCodes → exec .setErrorOptions s = .next (done .ok { s with suppressMinor := b })

/-! ## What rows leave alone, and the invariants of every step -/

/-- What a row on one line leaves alone: the other lines, the configuration, the patterns, the host's settings, every byte of
the store for a row that stores nothing. -/
def Obligations.RowsOfALineLeaveTheRestAlone : Prop :=
  ∀ (s t : State) (c : Instr) (l : LineNo), exec c s = .next t →
    (lineOfEvent c = some l → LeavesTheRest l s t ∧ LeavesTheWindow s t ∧ t.commandLost = s.commandLost ∧
      (c ≠ .assemblerTake l → t.mem = s.mem)) ∧
    (Ready s → Names s.param0 l → c ∈ [Instr.haltLine, .resumeLine, .flushLine] →
      LeavesTheRest l s t ∧ LeavesTheWindow s t ∧ t.mem = s.mem) ∧
    (Ready s → Names s.param0 l → c ∈ [Instr.restartLine, .disableLine] → LeavesTheRest l s t ∧ t.mem = s.mem)

/-- What stays until the host clears it: the detail of a LOCKED capture record (R162) and of a LOCKED error record (R172), a
pending bit of INTPEND (R187), an entry of the event queue (R22). -/
def Obligations.RecordsAndPendingBitsStay : Prop :=
  ∀ (s t : State) (c : Instr), exec c s = .next t → c.wellFormed = true →
    (∀ code, c = .commandLost code → s.busy.isSome) → c ≠ .softReset → c ≠ .hardwareReset →
    (s.capture.state = .locked → c ≠ .clearCapture → t.capture = { s.capture with laterHits := t.capture.laterHits }) ∧
    (s.errorRec.state = .locked → c ≠ .clearErrorRecord →
      t.errorRec.state = .locked ∧ t.errorRec.firstKind = s.errorRec.firstKind ∧ t.errorRec.line = s.errorRec.line ∧
      t.errorRec.char = s.errorRec.char ∧ (s.errorRec.firstSeverity = .severe → t.errorRec.firstSeverity = .severe)) ∧
    ((∀ v, c ≠ .intpendWrite v) →
      (s.pendCommand = true → t.pendCommand = true) ∧ (s.pendCapture = true → t.pendCapture = true) ∧
      (s.pendError = true → t.pendError = true) ∧ (s.pendPool = true → t.pendPool = true) ∧
      (s.pendWindow = true → t.pendWindow = true)) ∧
    (c ≠ .releaseHead → s.queue <+: t.queue)

/-- Every step keeps the bounds of the event queue (R21) and of the holding FIFO (R101), and the canonical form of the
character store. -/
def Obligations.StepKeepsTheBounds : Prop := stepKeeps withinBounds

/-- Every step keeps the table of R143: what the line state says of the transmitter and the receiver. -/
def Obligations.StepKeepsTheLineStates : Prop := stepKeeps linesFit

/-- Every step keeps each descriptor in one place (R13), the open block on an ENABLED line (R61) and every line within its
quota (R47). -/
def Obligations.StepKeepsTheDescriptors : Prop := stepKeeps descriptorsHeld

/-- Every step keeps every cell in exactly one place (R1), on states whose lines and descriptors fit. -/
def Obligations.StepKeepsEveryCellInOnePlace : Prop :=
  stepKeeps fun s => cellsConserved s ∧ linesFit s ∧ descriptorsHeld s

/-- The state after reset meets the four invariants. -/
def Obligations.ResetMeetsTheInvariants : Prop :=
  withinBounds State.reset ∧ linesFit State.reset ∧ descriptorsHeld State.reset ∧ cellsConserved State.reset
end

