-- ==== Sys2Proof/Laws/Memory.lean ====
section
/-! SUPPORT. The character store as memory: reading after writing, and the canonical form kept by every write. -/

namespace Sys2Proof.Machine

/-- Below its first listed address a canonical store reads as unwritten. -/
theorem read_below {m : List Host.Cell} {lo a : Nat} (hm : Memory.wfFrom lo m) (ha : a < lo) :
    Memory.read m a = Config.unwritten := by
  induction m generalizing lo with
  | nil => rfl
  | cons cell rest ih =>
    obtain ⟨x, v⟩ := cell
    simp only [Memory.wfFrom, Bool.and_eq_true, decide_eq_true_eq] at hm
    obtain ⟨⟨⟨hlo, -⟩, -⟩, hrest⟩ := hm
    have hne : x ≠ a := by omega
    simp only [Memory.read, if_neg hne]
    exact ih hrest (by omega)

/-- A canonical store stays canonical from a lower address on. -/
theorem wfFrom_mono {m : List Host.Cell} {lo lo' : Nat} (hm : Memory.wfFrom lo m) (h : lo' ≤ lo) :
    Memory.wfFrom lo' m := by
  cases m with
  | nil => rfl
  | cons cell rest =>
    obtain ⟨x, v⟩ := cell
    simp only [Memory.wfFrom, Bool.and_eq_true, decide_eq_true_eq] at hm ⊢
    exact ⟨⟨⟨by omega, hm.1.1.2⟩, hm.1.2⟩, hm.2⟩

theorem wfFrom_write {m : List Host.Cell} {lo a : Nat} {v : Byte} (hm : Memory.wfFrom lo m) (hlo : lo ≤ a)
    (ha : a < Config.storeSize) : Memory.wfFrom lo (Memory.write m a v) := by
  induction m generalizing lo with
  | nil =>
    unfold Memory.write
    split
    · rfl
    · next hv => simp [Memory.wfFrom, hlo, ha, hv]
  | cons cell rest ih =>
    obtain ⟨x, w⟩ := cell
    simp only [Memory.wfFrom, Bool.and_eq_true, decide_eq_true_eq] at hm
    obtain ⟨⟨⟨hx, hxs⟩, hw⟩, hrest⟩ := hm
    unfold Memory.write
    split
    · next hax =>
      split
      · simp [Memory.wfFrom, hx, hxs, hw, hrest]
      · next hv =>
        have : a + 1 ≤ x := hax
        simp [Memory.wfFrom, hlo, ha, hv, this, hxs, hw, hrest]
    · next hax =>
      split
      · next hax' =>
        subst hax'
        split
        · exact wfFrom_mono hrest (by omega)
        · next hv => simp [Memory.wfFrom, hlo, ha, hv, hrest]
      · next hax' =>
        simp only [Memory.wfFrom, Bool.and_eq_true, decide_eq_true_eq]
        exact ⟨⟨⟨hx, hxs⟩, hw⟩, ih hrest (by omega)⟩

/-- Every write keeps the canonical form. -/
theorem write_keeps_wf {m : List Host.Cell} {a : Nat} {v : Byte} (hm : Memory.wf m) (ha : a < Config.storeSize) :
    Memory.wf (Memory.write m a v) := wfFrom_write hm (Nat.zero_le a) ha

theorem read_write_same_from {m : List Host.Cell} {lo a : Nat} {v : Byte} (hm : Memory.wfFrom lo m) :
    Memory.read (Memory.write m a v) a = v := by
  induction m generalizing lo with
  | nil =>
    unfold Memory.write
    split
    · next hv => simp [Memory.read, hv]
    · simp [Memory.read]
  | cons cell rest ih =>
    obtain ⟨x, w⟩ := cell
    simp only [Memory.wfFrom, Bool.and_eq_true, decide_eq_true_eq] at hm
    obtain ⟨-, hrest⟩ := hm
    unfold Memory.write
    split
    · next hax =>
      split
      · next hv =>
        have hne : x ≠ a := by omega
        simp only [Memory.read, if_neg hne]
        rw [read_below hrest (by omega), hv]
      · simp [Memory.read]
    · next hax =>
      split
      · next hax' =>
        subst hax'
        split
        · next hv => rw [read_below hrest (by omega), hv]
        · simp [Memory.read]
      · next hax' =>
        have hne : x ≠ a := fun h => hax' h.symm
        simp only [Memory.read, if_neg hne]
        exact ih hrest

/-- A read of the place written gives the character written. -/
theorem read_write_same {m : List Host.Cell} {a : Nat} {v : Byte} (hm : Memory.wf m) :
    Memory.read (Memory.write m a v) a = v := read_write_same_from hm

/-- A write leaves every other place alone. -/
theorem read_write_other {m : List Host.Cell} {a b : Nat} {v : Byte} (h : b ≠ a) :
    Memory.read (Memory.write m a v) b = Memory.read m b := by
  have hba : ¬a = b := fun e => h e.symm
  induction m with
  | nil =>
    unfold Memory.write
    split
    · rfl
    · simp [Memory.read, hba]
  | cons cell rest ih =>
    obtain ⟨x, w⟩ := cell
    unfold Memory.write
    split
    · split
      · rfl
      · simp [Memory.read, hba]
    · split
      · next hax' =>
        subst hax'
        split
        · simp [Memory.read, hba]
        · simp [Memory.read, hba]
      · simp only [Memory.read, ih]

/-- Every place of a cell is a place of the store. -/
theorem placeAddress_lt (c : CellNo) (p : Nat) : placeAddress c p < Config.storeSize := by
  have hc := c.isLt
  have hp : p % Config.cellSize < 16 := Nat.mod_lt _ (by decide)
  simp only [placeAddress, Config.storeSize, Config.cellSize] at *
  omega

theorem positionAddress_lt {cells : List CellNo} {pos a : Nat} (h : positionAddress cells pos = some a) :
    a < Config.storeSize := by
  unfold positionAddress at h
  cases hc : cells[pos / Config.cellSize]? with
  | none => simp [hc] at h
  | some c =>
    simp only [hc, Option.map_some, Option.some.injEq] at h
    exact h ▸ placeAddress_lt c _

/-- Storing a character keeps the store canonical. -/
theorem storeChar_keeps_wf {cells : List CellNo} {pos : Nat} {v : Byte} {s : State} (hm : Memory.wf s.mem) :
    Memory.wf (storeChar cells pos v s).mem := by
  unfold storeChar
  cases h : positionAddress cells pos with
  | none => exact hm
  | some a => exact write_keeps_wf hm (positionAddress_lt h)

/-- A character stored is read back at its position. -/
theorem charAt_storeChar {cells : List CellNo} {pos a : Nat} {v : Byte} {s : State} (hm : Memory.wf s.mem)
    (h : positionAddress cells pos = some a) : charAt (storeChar cells pos v s).mem cells pos = v := by
  simp [charAt, storeChar, h, read_write_same hm]

end Sys2Proof.Machine
end

