-- ==== Sys2Proof/Laws/State.lean ====
section
/-! SUPPORT. One lemma per field per update of the state, and what reading a line, a descriptor or a match entry gives after an
update: later proofs unfold no record update. -/

namespace Sys2Proof.Machine

variable (s : State) (l k : LineNo) (ln : Line) (d e : DescNo) (ds : Descriptor) (n m : MatchNo) (me : MatchEntry)

/-! ## Reading back -/

@[simp] theorem line_setLine_self : (s.setLine l ln).line l = ln := by simp [State.line, State.setLine]

theorem line_setLine_ne (h : k ≠ l) : (s.setLine l ln).line k = s.line k := by
  have h' : l.val ≠ k.val := fun hv => h (Fin.ext hv.symm)
  simp [State.line, State.setLine, h']

theorem line_setLine : (s.setLine l ln).line k = if k = l then ln else s.line k := by
  split
  · next h => subst h; simp
  · next h => exact line_setLine_ne s l k ln h

@[simp] theorem desc_setDesc_self : (s.setDesc d ds).desc d = ds := by simp [State.desc, State.setDesc]

theorem desc_setDesc_ne (h : e ≠ d) : (s.setDesc d ds).desc e = s.desc e := by
  have h' : d.val ≠ e.val := fun hv => h (Fin.ext hv.symm)
  simp [State.desc, State.setDesc, h']

theorem desc_setDesc : (s.setDesc d ds).desc e = if e = d then ds else s.desc e := by
  split
  · next h => subst h; simp
  · next h => exact desc_setDesc_ne s d e ds h

@[simp] theorem matchEntry_setMatch_self : (s.setMatch n me).matchEntry n = me := by
  simp [State.matchEntry, State.setMatch]

theorem matchEntry_setMatch_ne (h : m ≠ n) : (s.setMatch n me).matchEntry m = s.matchEntry m := by
  have h' : n.val ≠ m.val := fun hv => h (Fin.ext hv.symm)
  simp [State.matchEntry, State.setMatch, h']

@[simp] theorem desc_setLine : (s.setLine l ln).desc d = s.desc d := rfl

@[simp] theorem matchEntry_setLine : (s.setLine l ln).matchEntry n = s.matchEntry n := rfl

@[simp] theorem line_setDesc : (s.setDesc d ds).line l = s.line l := rfl

@[simp] theorem matchEntry_setDesc : (s.setDesc d ds).matchEntry n = s.matchEntry n := rfl

@[simp] theorem line_setMatch : (s.setMatch n me).line l = s.line l := rfl

@[simp] theorem desc_setMatch : (s.setMatch n me).desc d = s.desc d := rfl

@[simp] theorem line_mapLines (f : Line → Line) : (s.mapLines f).line l = f (s.line l) := by
  simp [State.line, State.mapLines]

/-! ## Writing back -/

@[simp] theorem setLine_line : s.setLine l (s.line l) = s := by
  simp [State.line, State.setLine]

@[simp] theorem setLine_setLine (ln' : Line) : (s.setLine l ln).setLine l ln' = s.setLine l ln' := by
  simp [State.setLine]

@[simp] theorem setDesc_setDesc (ds' : Descriptor) : (s.setDesc d ds).setDesc d ds' = s.setDesc d ds' := by
  simp [State.setDesc]

/-! ## Fields of `setLine` -/

@[simp] theorem setLine_mem : (s.setLine l ln).mem = s.mem := rfl

@[simp] theorem setLine_freeList : (s.setLine l ln).freeList = s.freeList := rfl

@[simp] theorem setLine_descs : (s.setLine l ln).descs = s.descs := rfl

@[simp] theorem setLine_reserve : (s.setLine l ln).reserve = s.reserve := rfl

@[simp] theorem setLine_poolLow : (s.setLine l ln).poolLow = s.poolLow := rfl

@[simp] theorem setLine_queue : (s.setLine l ln).queue = s.queue := rfl

@[simp] theorem setLine_readPtr : (s.setLine l ln).readPtr = s.readPtr := rfl

@[simp] theorem setLine_rxPastEnd : (s.setLine l ln).rxPastEnd = s.rxPastEnd := rfl

@[simp] theorem setLine_pointer : (s.setLine l ln).pointer = s.pointer := rfl

@[simp] theorem setLine_window : (s.setLine l ln).window = s.window := rfl

@[simp] theorem setLine_windowLine : (s.setLine l ln).windowLine = s.windowLine := rfl

@[simp] theorem setLine_blockFull : (s.setLine l ln).blockFull = s.blockFull := rfl

@[simp] theorem setLine_lastRefused : (s.setLine l ln).lastRefused = s.lastRefused := rfl

@[simp] theorem setLine_noCell : (s.setLine l ln).noCell = s.noCell := rfl

@[simp] theorem setLine_windowLost : (s.setLine l ln).windowLost = s.windowLost := rfl

@[simp] theorem setLine_matchTable : (s.setLine l ln).matchTable = s.matchTable := rfl

@[simp] theorem setLine_capture : (s.setLine l ln).capture = s.capture := rfl

@[simp] theorem setLine_errorSet : (s.setLine l ln).errorSet = s.errorSet := rfl

@[simp] theorem setLine_errorRec : (s.setLine l ln).errorRec = s.errorRec := rfl

@[simp] theorem setLine_suppressMinor : (s.setLine l ln).suppressMinor = s.suppressMinor := rfl

@[simp] theorem setLine_param0 : (s.setLine l ln).param0 = s.param0 := rfl

@[simp] theorem setLine_param1 : (s.setLine l ln).param1 = s.param1 := rfl

@[simp] theorem setLine_param2 : (s.setLine l ln).param2 = s.param2 := rfl

@[simp] theorem setLine_param3 : (s.setLine l ln).param3 = s.param3 := rfl

@[simp] theorem setLine_result : (s.setLine l ln).result = s.result := rfl

@[simp] theorem setLine_busy : (s.setLine l ln).busy = s.busy := rfl

@[simp] theorem setLine_commandLost : (s.setLine l ln).commandLost = s.commandLost := rfl

@[simp] theorem setLine_pendCommand : (s.setLine l ln).pendCommand = s.pendCommand := rfl

@[simp] theorem setLine_pendCapture : (s.setLine l ln).pendCapture = s.pendCapture := rfl

@[simp] theorem setLine_pendError : (s.setLine l ln).pendError = s.pendError := rfl

@[simp] theorem setLine_pendPool : (s.setLine l ln).pendPool = s.pendPool := rfl

@[simp] theorem setLine_pendWindow : (s.setLine l ln).pendWindow = s.pendWindow := rfl

@[simp] theorem setLine_inten : (s.setLine l ln).inten = s.inten := rfl

@[simp] theorem setLine_readData : (s.setLine l ln).readData = s.readData := rfl

@[simp] theorem setLine_resetHeld : (s.setLine l ln).resetHeld = s.resetHeld := rfl

@[simp] theorem setLine_freeCtr : (s.setLine l ln).freeCtr = s.freeCtr := rfl

@[simp] theorem setLine_pending : (s.setLine l ln).pending = s.pending := rfl

/-! ## Fields of `setDesc` -/

@[simp] theorem setDesc_mem : (s.setDesc d ds).mem = s.mem := rfl

@[simp] theorem setDesc_freeList : (s.setDesc d ds).freeList = s.freeList := rfl

@[simp] theorem setDesc_reserve : (s.setDesc d ds).reserve = s.reserve := rfl

@[simp] theorem setDesc_poolLow : (s.setDesc d ds).poolLow = s.poolLow := rfl

@[simp] theorem setDesc_queue : (s.setDesc d ds).queue = s.queue := rfl

@[simp] theorem setDesc_readPtr : (s.setDesc d ds).readPtr = s.readPtr := rfl

@[simp] theorem setDesc_rxPastEnd : (s.setDesc d ds).rxPastEnd = s.rxPastEnd := rfl

@[simp] theorem setDesc_pointer : (s.setDesc d ds).pointer = s.pointer := rfl

@[simp] theorem setDesc_window : (s.setDesc d ds).window = s.window := rfl

@[simp] theorem setDesc_windowLine : (s.setDesc d ds).windowLine = s.windowLine := rfl

@[simp] theorem setDesc_blockFull : (s.setDesc d ds).blockFull = s.blockFull := rfl

@[simp] theorem setDesc_lastRefused : (s.setDesc d ds).lastRefused = s.lastRefused := rfl

@[simp] theorem setDesc_noCell : (s.setDesc d ds).noCell = s.noCell := rfl

@[simp] theorem setDesc_windowLost : (s.setDesc d ds).windowLost = s.windowLost := rfl

@[simp] theorem setDesc_lines : (s.setDesc d ds).lines = s.lines := rfl

@[simp] theorem setDesc_matchTable : (s.setDesc d ds).matchTable = s.matchTable := rfl

@[simp] theorem setDesc_capture : (s.setDesc d ds).capture = s.capture := rfl

@[simp] theorem setDesc_errorSet : (s.setDesc d ds).errorSet = s.errorSet := rfl

@[simp] theorem setDesc_errorRec : (s.setDesc d ds).errorRec = s.errorRec := rfl

@[simp] theorem setDesc_suppressMinor : (s.setDesc d ds).suppressMinor = s.suppressMinor := rfl

@[simp] theorem setDesc_param0 : (s.setDesc d ds).param0 = s.param0 := rfl

@[simp] theorem setDesc_param1 : (s.setDesc d ds).param1 = s.param1 := rfl

@[simp] theorem setDesc_param2 : (s.setDesc d ds).param2 = s.param2 := rfl

@[simp] theorem setDesc_param3 : (s.setDesc d ds).param3 = s.param3 := rfl

@[simp] theorem setDesc_result : (s.setDesc d ds).result = s.result := rfl

@[simp] theorem setDesc_busy : (s.setDesc d ds).busy = s.busy := rfl

@[simp] theorem setDesc_commandLost : (s.setDesc d ds).commandLost = s.commandLost := rfl

@[simp] theorem setDesc_pendCommand : (s.setDesc d ds).pendCommand = s.pendCommand := rfl

@[simp] theorem setDesc_pendCapture : (s.setDesc d ds).pendCapture = s.pendCapture := rfl

@[simp] theorem setDesc_pendError : (s.setDesc d ds).pendError = s.pendError := rfl

@[simp] theorem setDesc_pendPool : (s.setDesc d ds).pendPool = s.pendPool := rfl

@[simp] theorem setDesc_pendWindow : (s.setDesc d ds).pendWindow = s.pendWindow := rfl

@[simp] theorem setDesc_inten : (s.setDesc d ds).inten = s.inten := rfl

@[simp] theorem setDesc_readData : (s.setDesc d ds).readData = s.readData := rfl

@[simp] theorem setDesc_resetHeld : (s.setDesc d ds).resetHeld = s.resetHeld := rfl

@[simp] theorem setDesc_freeCtr : (s.setDesc d ds).freeCtr = s.freeCtr := rfl

@[simp] theorem setDesc_pending : (s.setDesc d ds).pending = s.pending := rfl

/-! ## Fields of `setMatch` -/

@[simp] theorem setMatch_mem : (s.setMatch n me).mem = s.mem := rfl

@[simp] theorem setMatch_freeList : (s.setMatch n me).freeList = s.freeList := rfl

@[simp] theorem setMatch_descs : (s.setMatch n me).descs = s.descs := rfl

@[simp] theorem setMatch_reserve : (s.setMatch n me).reserve = s.reserve := rfl

@[simp] theorem setMatch_poolLow : (s.setMatch n me).poolLow = s.poolLow := rfl

@[simp] theorem setMatch_queue : (s.setMatch n me).queue = s.queue := rfl

@[simp] theorem setMatch_readPtr : (s.setMatch n me).readPtr = s.readPtr := rfl

@[simp] theorem setMatch_rxPastEnd : (s.setMatch n me).rxPastEnd = s.rxPastEnd := rfl

@[simp] theorem setMatch_pointer : (s.setMatch n me).pointer = s.pointer := rfl

@[simp] theorem setMatch_window : (s.setMatch n me).window = s.window := rfl

@[simp] theorem setMatch_windowLine : (s.setMatch n me).windowLine = s.windowLine := rfl

@[simp] theorem setMatch_blockFull : (s.setMatch n me).blockFull = s.blockFull := rfl

@[simp] theorem setMatch_lastRefused : (s.setMatch n me).lastRefused = s.lastRefused := rfl

@[simp] theorem setMatch_noCell : (s.setMatch n me).noCell = s.noCell := rfl

@[simp] theorem setMatch_windowLost : (s.setMatch n me).windowLost = s.windowLost := rfl

@[simp] theorem setMatch_lines : (s.setMatch n me).lines = s.lines := rfl

@[simp] theorem setMatch_capture : (s.setMatch n me).capture = s.capture := rfl

@[simp] theorem setMatch_errorSet : (s.setMatch n me).errorSet = s.errorSet := rfl

@[simp] theorem setMatch_errorRec : (s.setMatch n me).errorRec = s.errorRec := rfl

@[simp] theorem setMatch_suppressMinor : (s.setMatch n me).suppressMinor = s.suppressMinor := rfl

@[simp] theorem setMatch_param0 : (s.setMatch n me).param0 = s.param0 := rfl

@[simp] theorem setMatch_param1 : (s.setMatch n me).param1 = s.param1 := rfl

@[simp] theorem setMatch_param2 : (s.setMatch n me).param2 = s.param2 := rfl

@[simp] theorem setMatch_param3 : (s.setMatch n me).param3 = s.param3 := rfl

@[simp] theorem setMatch_result : (s.setMatch n me).result = s.result := rfl

@[simp] theorem setMatch_busy : (s.setMatch n me).busy = s.busy := rfl

@[simp] theorem setMatch_commandLost : (s.setMatch n me).commandLost = s.commandLost := rfl

@[simp] theorem setMatch_pendCommand : (s.setMatch n me).pendCommand = s.pendCommand := rfl

@[simp] theorem setMatch_pendCapture : (s.setMatch n me).pendCapture = s.pendCapture := rfl

@[simp] theorem setMatch_pendError : (s.setMatch n me).pendError = s.pendError := rfl

@[simp] theorem setMatch_pendPool : (s.setMatch n me).pendPool = s.pendPool := rfl

@[simp] theorem setMatch_pendWindow : (s.setMatch n me).pendWindow = s.pendWindow := rfl

@[simp] theorem setMatch_inten : (s.setMatch n me).inten = s.inten := rfl

@[simp] theorem setMatch_readData : (s.setMatch n me).readData = s.readData := rfl

@[simp] theorem setMatch_resetHeld : (s.setMatch n me).resetHeld = s.resetHeld := rfl

@[simp] theorem setMatch_freeCtr : (s.setMatch n me).freeCtr = s.freeCtr := rfl

@[simp] theorem setMatch_pending : (s.setMatch n me).pending = s.pending := rfl

end Sys2Proof.Machine
end

