-- ==== Sys2Proof/Laws/Ops.lean ====
section
/-! SUPPORT. For each shared operation, what it does, said once. -/

namespace Sys2Proof.Machine

/-! ## Takes and returns -/

/-- A take succeeds exactly when the free list has a head and the taker's condition holds, and then changes the free list
and POOL pending only. -/
theorem takeCell_eq_some {allowed : Bool} {s t : State} {c : CellNo} (h : takeCell allowed s = some (c, t)) :
    ∃ rest, s.freeList = c :: rest ∧ allowed = true ∧
      t = { s with freeList := rest
                   pendPool := s.pendPool || (decide (s.poolLow ≤ rest.length + 1) && decide (rest.length < s.poolLow)) } := by
  unfold takeCell at h
  split at h
  · cases h
  · next c' rest hl =>
    split at h
    · next ha =>
      cases h
      exact ⟨rest, hl, ha, rfl⟩
    · cases h

theorem takeCell_none_iff (allowed : Bool) (s : State) : takeCell allowed s = none ↔ s.freeList = [] ∨ allowed = false := by
  unfold takeCell
  split
  · next hl => simp [hl]
  · next hl => cases allowed <;> simp [hl]

theorem freeCount_takeCell {allowed : Bool} {s t : State} {c : CellNo} (h : takeCell allowed s = some (c, t)) :
    s.freeCount = t.freeCount + 1 := by
  obtain ⟨rest, hl, -, rfl⟩ := takeCell_eq_some h
  simp [State.freeCount, hl]

@[simp] theorem line_returnCells (cells : List CellNo) (s : State) (l : LineNo) :
    (returnCells cells s).line l = s.line l := rfl

@[simp] theorem desc_returnCells (cells : List CellNo) (s : State) (d : DescNo) :
    (returnCells cells s).desc d = s.desc d := rfl

@[simp] theorem queue_returnCells (cells : List CellNo) (s : State) : (returnCells cells s).queue = s.queue := rfl

@[simp] theorem freeList_returnCells (cells : List CellNo) (s : State) :
    (returnCells cells s).freeList = s.freeList ++ cells := rfl

/-! ## Posting -/

@[simp] theorem queue_postEntry (e : Entry) (s : State) : (postEntry e s).queue = s.queue ++ [e] := by
  unfold postEntry
  split
  · next h => simp [List.isEmpty_iff.mp h]
  · rfl

@[simp] theorem line_postEntry (e : Entry) (s : State) (l : LineNo) : (postEntry e s).line l = s.line l := by
  unfold postEntry; split <;> rfl

@[simp] theorem desc_postEntry (e : Entry) (s : State) (d : DescNo) : (postEntry e s).desc d = s.desc d := by
  unfold postEntry; split <;> rfl

@[simp] theorem mem_postEntry (e : Entry) (s : State) : (postEntry e s).mem = s.mem := by
  unfold postEntry; split <;> rfl

@[simp] theorem freeList_postEntry (e : Entry) (s : State) : (postEntry e s).freeList = s.freeList := by
  unfold postEntry; split <;> rfl

/-- Posted into an empty queue, an entry becomes the head and is read from its first character (R40). -/
theorem readPtr_postEntry (e : Entry) (s : State) :
    (postEntry e s).readPtr = if s.queue = [] then 0 else s.readPtr := by
  unfold postEntry
  cases s.queue <;> rfl

/-! ## The change set -/

/-- Joining a change set posts one entry, or changes the set of that one line, or does nothing (R33). -/
theorem joinChanges_cases (l : LineNo) (c : ChangeSet) (s : State) :
    (joinChanges l c s = s ∧ c.isEmpty = true) ∨
    (joinChanges l c s = postEntry (lineEventOf s l c) s ∧ s.slotFree = true ∧ (s.line l).changes.isEmpty = true) ∨
    joinChanges l c s = s.setLine l { s.line l with changes := (s.line l).changes.union c } := by
  unfold joinChanges
  split
  · next h => exact .inl ⟨rfl, h⟩
  · split
    · next h =>
      simp only [Bool.and_eq_true] at h
      exact .inr (.inl ⟨rfl, h.2, h.1⟩)
    · exact .inr (.inr rfl)

/-! ## Finishing -/

@[simp] theorem line_finishBlock (d : DescNo) (o : BlockOutcome) (s : State) (l : LineNo) :
    (finishBlock d o s).line l = s.line l := rfl

/-- A finished block holds no cells and has its outcome (R8, R9, R12). -/
theorem desc_finishBlock (d : DescNo) (o : BlockOutcome) (s : State) :
    (finishBlock d o s).desc d = { s.desc d with phase := .finished, cells := [], outcome := some o } := by
  simp [finishBlock]

theorem freeList_finishBlock (d : DescNo) (o : BlockOutcome) (s : State) :
    (finishBlock d o s).freeList = s.freeList ++ (s.desc d).cells := rfl

@[simp] theorem line_finishIf (ps : List Phase) (o : BlockOutcome) (s : State) (d : DescNo) (l : LineNo) :
    (finishIf ps o s d).line l = s.line l := by
  unfold finishIf; split <;> rfl

/-! ## Completion -/

@[simp] theorem line_complete (r : ResultCode) (s : State) (l : LineNo) : (complete r s).line l = s.line l := rfl

@[simp] theorem desc_complete (r : ResultCode) (s : State) (d : DescNo) : (complete r s).desc d = s.desc d := rfl

@[simp] theorem queue_complete (r : ResultCode) (s : State) : (complete r s).queue = s.queue := rfl

@[simp] theorem result_complete (r : ResultCode) (s : State) : (complete r s).result = r := rfl

@[simp] theorem busy_complete (r : ResultCode) (s : State) : (complete r s).busy = none := rfl

/-- A COMMAND write with the port free is the command's action after COMMAND_LOST is cleared (R184). -/
theorem hostCommand_ready {run : State → State} {s : State} (h : s.resetHeld = false) (hb : s.busy = none) :
    hostCommand run s = run { s with commandLost := false } := by
  simp [hostCommand, h, hb]

/-- A COMMAND write with BUSY set only sets COMMAND_LOST (R184). -/
theorem hostCommand_busy {run : State → State} {s : State} {b : BusyCommand} (h : s.resetHeld = false)
    (hb : s.busy = some b) : hostCommand run s = { s with commandLost := true } := by
  simp [hostCommand, h, hb]

/-- While RESET_N is low a COMMAND write changes nothing (R189). -/
theorem hostCommand_reset {run : State → State} {s : State} (h : s.resetHeld = true) : hostCommand run s = s := by
  simp [hostCommand, h]

theorem unlessReset_running {f : State → State} {s : State} (h : s.resetHeld = false) : unlessReset f s = f s := by
  simp [unlessReset, h]

theorem unlessReset_reset {f : State → State} {s : State} (h : s.resetHeld = true) : unlessReset f s = s := by
  simp [unlessReset, h]

/-! ## The front of a transmit queue -/

/-- One step at the front (R32): nothing, a silent removal, or a report posted into a free slot and its block removed. -/
theorem frontStep_cases (l : LineNo) (s : State) :
    frontStep l s = s ∨
    ∃ d rest, (s.line l).tx.queue = d :: rest ∧ (s.desc d).phase = .finished ∧
      (((s.desc d).report = false ∧ frontStep l s = dropHeadBlock l d s) ∨
       ((s.desc d).report = true ∧ s.slotFree = true ∧
         frontStep l s = dropHeadBlock l d (postEntry (reportOf (s.desc d)) s))) := by
  unfold frontStep
  split
  · exact .inl rfl
  · next d rest hq =>
    split
    · next hf =>
      split
      · next hr =>
        split
        · next hs => exact .inr ⟨d, rest, hq, hf, .inr ⟨hr, hs, rfl⟩⟩
        · exact .inl rfl
      · next hr => exact .inr ⟨d, rest, hq, hf, .inl ⟨by simpa using hr, rfl⟩⟩
    · exact .inl rfl

theorem activeDesc_mem {s : State} {l : LineNo} {d : DescNo} (h : s.activeDesc l = some d) :
    d ∈ (s.line l).tx.queue := List.mem_of_find?_eq_some h

theorem activeDesc_active {s : State} {l : LineNo} {d : DescNo} (h : s.activeDesc l = some d) :
    (s.desc d).phase = .active := by simpa using List.find?_some h

theorem oldestQueued_mem {s : State} {l : LineNo} {d : DescNo} (h : s.oldestQueued l = some d) :
    d ∈ (s.line l).tx.queue := List.mem_of_find?_eq_some h

theorem oldestQueued_queued {s : State} {l : LineNo} {d : DescNo} (h : s.oldestQueued l = some d) :
    (s.desc d).phase = .queued := by simpa using List.find?_some h

/-! ## Expired timers and the tick (R192) -/

theorem leadDue_iff (t : Transmitter) : leadDue t = true ↔ t.state = .keying ∧ t.leadTimer = some 0 := by
  simp [leadDue, expired]

theorem trailDue_iff (t : Transmitter) : trailDue t = true ↔ t.state = .trailing ∧ t.trailTimer = some 0 := by
  simp [trailDue, expired]

theorem breakDue_iff (t : Transmitter) : breakDue t = true ↔ t.state = .breaking ∧ t.breakTimer = .space 0 := by
  simp [breakDue]

theorem holdTimeUp_iff (ln : Line) : holdTimeUp ln = true ↔
    ln.state = .enabled ∧ ln.tx.holdTimer = some 0 ∧
      (ln.tx.state = .held ∨ (ln.tx.inHold = true ∧ ln.tx.inFlight.isSome = true)) := by
  simp [holdTimeUp, expired, and_assoc]

theorem idleDue_iff (r : Receiver) : idleDue r = true ↔ r.state = .assembling ∧ r.idleTimer = some 0 := by
  simp [idleDue, expired]

theorem samplesDue_iff (ln : Line) : samplesDue ln = true ↔
    ln.state ≠ .disabled ∧ (ln.flow.cts.sampleDue = true ∨ ln.flow.dcd.sampleDue = true) := by
  simp [samplesDue]

/-- A tick is one tick of every line, or nothing while something of the tick before is still to happen or RESET_N is low. -/
theorem tick_cases (s : State) :
    (tick s = s ∧ (s.resetHeld = true ∨ ∃ l, tickOpen (s.line l) = true)) ∨
    (tick s = s.mapLines tickLine ∧ s.resetHeld = false ∧ ∀ l, tickOpen (s.line l) = false) := by
  unfold tick unlessReset
  split
  · next h => exact .inl ⟨rfl, .inl h⟩
  · next h =>
    simp only
    split
    · next ho =>
      obtain ⟨l, -, ho⟩ := List.any_eq_true.mp ho
      exact .inl ⟨rfl, .inr ⟨l, ho⟩⟩
    · next ho =>
      refine .inr ⟨rfl, by simpa using h, fun l => ?_⟩
      simp only [List.any_eq_true, not_exists, not_and, Bool.not_eq_true] at ho
      exact ho l (List.mem_finRange l)

end Sys2Proof.Machine
end

