-- ==== Sys2Proof/Laws/Frame.lean ====
section
/-! SUPPORT. What an operation on the side of one line leaves alone: one relation, `LineStep`, and one lemma for each
operation of a line. -/

namespace Sys2Proof.Machine

/-- The fields that no operation on a line's side writes. -/
def State.kept (s : State) :=
  (s.reserve, s.poolLow, s.pointer, s.window, s.windowLine, s.blockFull, s.lastRefused, s.noCell, s.windowLost,
    s.suppressMinor, s.param0, s.param1, s.param2, s.param3, s.commandLost, s.pendWindow, s.inten, s.readData,
    s.resetHeld, s.pending)

/-- What becomes of the capture record while it is LOCKED (R162): only later hits change. -/
def CaptureStep (a b : CaptureRecord) : Prop := a.state = .locked → b = { a with laterHits := b.laterHits }

theorem CaptureStep.refl (a : CaptureRecord) : CaptureStep a a := fun _ => rfl

theorem CaptureStep.trans {a b c : CaptureRecord} (h : CaptureStep a b) (k : CaptureStep b c) : CaptureStep a c := by
  intro ha
  have hb := h ha
  have hl : b.state = .locked := by rw [hb]; exact ha
  have hc := k hl
  rw [hb] at hc
  exact hc

/-- What becomes of the error record while it is LOCKED (R172): only further errors, severe-after and first severity change,
the last from MINOR to SEVERE. -/
structure ErrorStep (a b : ErrorRecord) : Prop where
  state : a.state = .locked → b.state = .locked
  firstKind : a.state = .locked → b.firstKind = a.firstKind
  line : a.state = .locked → b.line = a.line
  char : a.state = .locked → b.char = a.char
  severity : a.state = .locked → b.firstSeverity = a.firstSeverity ∨ (a.firstSeverity = .minor ∧ b.firstSeverity = .severe)

theorem ErrorStep.refl (a : ErrorRecord) : ErrorStep a a :=
  ⟨id, fun _ => rfl, fun _ => rfl, fun _ => rfl, fun _ => .inl rfl⟩

theorem ErrorStep.trans {a b c : ErrorRecord} (h : ErrorStep a b) (k : ErrorStep b c) : ErrorStep a c where
  state ha := k.state (h.state ha)
  firstKind ha := (k.firstKind (h.state ha)).trans (h.firstKind ha)
  line ha := (k.line (h.state ha)).trans (h.line ha)
  char ha := (k.char (h.state ha)).trans (h.char ha)
  severity ha := by
    rcases h.severity ha with h1 | ⟨h1, h2⟩ <;> rcases k.severity (h.state ha) with k1 | ⟨k1, k2⟩
    · exact .inl (k1.trans h1)
    · exact .inr ⟨h1 ▸ k1, k2⟩
    · exact .inr ⟨h1, k1.trans h2⟩
    · exact .inr ⟨h1, k2⟩

/-- A match entry without its counts. -/
def MatchEntry.pattern (m : MatchEntry) : MatchEntry := { m with hitCount := 0, pendingPost := none }

/-- No counter of `a` is above that of `b`. -/
structure CountersUp (a b : Counters) : Prop where
  parity : a.parity ≤ b.parity
  framing : a.framing ≤ b.framing
  overrun : a.overrun ≤ b.overrun
  discarded : a.discarded ≤ b.discarded

theorem CountersUp.refl (a : Counters) : CountersUp a a :=
  ⟨BitVec.le_refl _, BitVec.le_refl _, BitVec.le_refl _, BitVec.le_refl _⟩

theorem CountersUp.trans {a b c : Counters} (h : CountersUp a b) (k : CountersUp b c) : CountersUp a c :=
  ⟨BitVec.le_trans h.1 k.1, BitVec.le_trans h.2 k.2, BitVec.le_trans h.3 k.3, BitVec.le_trans h.4 k.4⟩

/-- A saturating addition never lowers a counter (00_scope.md, "Counters and counts"). -/
theorem le_satAdd (c : Byte) (n : Nat) : c ≤ satAdd c n := by
  unfold satAdd
  have hc := c.isLt
  split
  · exact BitVec.le_def.mpr (by simpa using Nat.le_of_lt_succ hc)
  · refine BitVec.le_def.mpr ?_
    simp only [byte, BitVec.toNat_ofNat]
    omega

/-- What an operation on the side of line `l` leaves alone: the kept fields, every other line, the line's configuration, the
characters of the store, every descriptor that is not in the line's queue, every entry already posted, the patterns of the
match table, the detail of a locked record. The transmit queue loses descriptors at its front only, counters and pending
bits do not fall, and the bounds of the event queue and of the holding FIFO are kept. -/
structure LineStep (l : LineNo) (s t : State) : Prop where
  kept : t.kept = s.kept := by rfl
  mem : t.mem = s.mem := by rfl
  others : ∀ k, k ≠ l → t.line k = s.line k := by intros; rfl
  cfg : (t.line l).cfg = (s.line l).cfg := by rfl
  front : (t.line l).tx.queue <:+ (s.line l).tx.queue := by exact List.suffix_refl _
  descs : ∀ e, e ∉ (s.line l).tx.queue → t.desc e = s.desc e := by intros; rfl
  entries : s.queue <+: t.queue := by exact List.prefix_refl _
  queueBound : s.queue.length ≤ Config.queueCapacity → t.queue.length ≤ Config.queueCapacity := by exact id
  fifoBound : (s.line l).rx.fifo.length ≤ Config.fifoCapacity →
    (t.line l).rx.fifo.length ≤ Config.fifoCapacity := by exact id
  patterns : ∀ n, (t.matchEntry n).pattern = (s.matchEntry n).pattern := by intros; rfl
  capture : CaptureStep s.capture t.capture := by exact CaptureStep.refl _
  errorRec : ErrorStep s.errorRec t.errorRec := by exact ErrorStep.refl _
  counters : CountersUp (s.line l).counters (t.line l).counters := by exact CountersUp.refl _
  pendCommand : s.pendCommand = true → t.pendCommand = true := by exact id
  pendCapture : s.pendCapture = true → t.pendCapture = true := by exact id
  pendError : s.pendError = true → t.pendError = true := by exact id
  pendPool : s.pendPool = true → t.pendPool = true := by exact id

theorem LineStep.refl (l : LineNo) (s : State) : LineStep l s s := {}

theorem LineStep.trans {l : LineNo} {s t u : State} (h : LineStep l s t) (k : LineStep l t u) : LineStep l s u where
  kept := k.kept.trans h.kept
  mem := k.mem.trans h.mem
  others j hj := (k.others j hj).trans (h.others j hj)
  cfg := k.cfg.trans h.cfg
  front := k.front.trans h.front
  descs e he := (k.descs e fun hm => he (h.front.subset hm)).trans (h.descs e he)
  entries := h.entries.trans k.entries
  queueBound hq := k.queueBound (h.queueBound hq)
  fifoBound hq := k.fifoBound (h.fifoBound hq)
  patterns n := (k.patterns n).trans (h.patterns n)
  capture := h.capture.trans k.capture
  errorRec := h.errorRec.trans k.errorRec
  counters := h.counters.trans k.counters
  pendCommand hp := k.pendCommand (h.pendCommand hp)
  pendCapture hp := k.pendCapture (h.pendCapture hp)
  pendError hp := k.pendError (h.pendError hp)
  pendPool hp := k.pendPool (h.pendPool hp)

/-! ## The shared operations -/

section shared

variable (l : LineNo) (s : State)

/-- A change of the line's own state. -/
theorem LineStep.setLine {ln : Line} (hc : ln.cfg = (s.line l).cfg) (hq : ln.tx.queue <:+ (s.line l).tx.queue)
    (hf : (s.line l).rx.fifo.length ≤ Config.fifoCapacity → ln.rx.fifo.length ≤ Config.fifoCapacity)
    (hn : CountersUp (s.line l).counters ln.counters := by exact CountersUp.refl _) :
    LineStep l s (s.setLine l ln) where
  others k hk := line_setLine_ne s l k ln hk
  cfg := by simpa using hc
  front := by simpa using hq
  fifoBound := by simpa using hf
  counters := by simpa using hn

/-- A change of the line's transmitter that keeps its queue. -/
theorem LineStep.updTx {f : Transmitter → Transmitter} (hq : (f (s.line l).tx).queue = (s.line l).tx.queue) :
    LineStep l s (s.updTx l f) :=
  .setLine l s rfl (by simp only [hq]; exact List.suffix_refl _) id

/-- A change of a descriptor of the line's queue. -/
theorem LineStep.setDesc {d : DescNo} {ds : Descriptor} (hd : d ∈ (s.line l).tx.queue) :
    LineStep l s (s.setDesc d ds) where
  descs e he := desc_setDesc_ne s d e ds fun h => he (h ▸ hd)

/-- A change of the counts of a match entry. -/
theorem LineStep.setMatch {n : MatchNo} {m : MatchEntry} (h : m.pattern = (s.matchEntry n).pattern) :
    LineStep l s (s.setMatch n m) where
  patterns k := by
    by_cases hk : k = n
    · subst hk; simpa using h
    · rw [matchEntry_setMatch_ne s n k m hk]

theorem LineStep.returnCells {cells : List CellNo} : LineStep l s (returnCells cells s) := {}

theorem LineStep.complete {r : ResultCode} : LineStep l s (complete r s) := { pendCommand := fun _ => rfl }

theorem LineStep.draw : LineStep l s (draw s).2 := {}

theorem LineStep.takeCell {a : Bool} {c : CellNo} {t : State} (h : takeCell a s = some (c, t)) : LineStep l s t := by
  obtain ⟨rest, -, -, rfl⟩ := takeCell_eq_some h
  exact { pendPool := fun hp => by simp [hp] }

/-- What posting an entry changes: the queue, and the head's read pointer when the queue was empty (R28, R40). -/
theorem postEntry_eq (e : Entry) (s : State) :
    postEntry e s = { s with queue := s.queue ++ [e]
                             readPtr := if s.queue = [] then 0 else s.readPtr
                             rxPastEnd := if s.queue = [] then false else s.rxPastEnd } := by
  unfold Machine.postEntry
  split
  · next h => simp [List.isEmpty_iff.mp h]
  · next h => simp [List.isEmpty_iff] at h; simp [h]

theorem LineStep.postEntry {e : Entry} (h : s.slotFree = true) : LineStep l s (postEntry e s) := by
  rw [postEntry_eq]
  refine { entries := by simp, queueBound := fun _ => ?_ }
  simp only [State.slotFree, decide_eq_true_eq] at h
  simp only [List.length_append, List.length_singleton]
  omega

theorem LineStep.joinChanges {c : ChangeSet} : LineStep l s (joinChanges l c s) := by
  rcases joinChanges_cases l c s with ⟨h, -⟩ | ⟨h, hs, -⟩ | h <;> rw [h]
  · exact .refl l s
  · exact .postEntry l s hs
  · exact .setLine l s rfl (List.suffix_refl _) id

theorem LineStep.dropHeadBlock {d : DescNo} {rest : List DescNo} (h : (s.line l).tx.queue = d :: rest) :
    LineStep l s (dropHeadBlock l d s) := by
  refine LineStep.trans (t := s.setDesc d .unused) (.setDesc l s (by simp [h])) ?_
  exact LineStep.setLine l (s.setDesc d .unused) (ln := { s.line l with tx.queue := (s.line l).tx.queue.tail }) rfl
    (List.tail_suffix _) id

theorem LineStep.frontStep : LineStep l s (frontStep l s) := by
  rcases frontStep_cases l s with h | ⟨d, rest, hq, -, ⟨-, h⟩ | ⟨-, hs, h⟩⟩ <;> rw [h]
  · exact .refl l s
  · exact .dropHeadBlock l s hq
  · exact (LineStep.postEntry l s hs).trans (.dropHeadBlock l _ (rest := rest) (by simpa using hq))

theorem LineStep.frontSteps (n : Nat) : LineStep l s (frontSteps l n s) := by
  induction n generalizing s with
  | zero => exact .refl l s
  | succ n ih => exact (LineStep.frontStep l s).trans (ih _)

theorem LineStep.handleFront : LineStep l s (handleFront l s) := .frontSteps l s _

theorem LineStep.finishBlock {d : DescNo} {o : BlockOutcome} (hd : d ∈ (s.line l).tx.queue) :
    LineStep l s (finishBlock d o s) :=
  (LineStep.returnCells l s).trans (.setDesc l _ hd)

theorem LineStep.finishIf {ps : List Phase} {d : DescNo} {o : BlockOutcome} (hd : d ∈ (s.line l).tx.queue) :
    LineStep l s (finishIf ps o s d) := by
  unfold Machine.finishIf
  split
  · exact .finishBlock l s hd
  · exact .refl l s

theorem LineStep.foldFinish {ps : List Phase} {o : BlockOutcome} (ds : List DescNo)
    (hd : ∀ d ∈ ds, d ∈ (s.line l).tx.queue) : LineStep l s (ds.foldl (Machine.finishIf ps o) s) := by
  induction ds generalizing s with
  | nil => exact .refl l s
  | cons d ds ih =>
    refine (LineStep.finishIf l s (hd d (by simp))).trans (ih _ fun e he => ?_)
    simpa using hd e (by simp [he])

theorem LineStep.finishBlocks {ps : List Phase} {o : BlockOutcome} : LineStep l s (finishBlocks ps l o s) :=
  .foldFinish l s _ fun _ h => h

/-- Acts in turn, each a line's operation. -/
theorem LineStep.runAll (acts : List (State → State)) (h : ∀ f ∈ acts, ∀ t, LineStep l t (f t)) :
    LineStep l s (runAll acts s) := by
  induction acts generalizing s with
  | nil => exact .refl l s
  | cons f acts ih =>
    exact (h f (by simp) s).trans (ih _ fun g hg t => h g (by simp [hg]) t)

theorem mem_insertAct {n : Nat} {f g : State → State} {acts : List (State → State)} (h : g ∈ insertAct n f acts) :
    g = f ∨ g ∈ acts := by
  unfold insertAct at h
  simp only [List.mem_append, List.mem_cons] at h
  rcases h with h | h | h
  · exact .inr (List.mem_of_mem_take h)
  · exact .inl h
  · exact .inr (List.mem_of_mem_drop h)

end shared

/-! ## The match unit -/

section matching

variable (l : LineNo) (s : State)

theorem LineStep.countHits (ns : List MatchNo) : LineStep l s (countHits ns s) := by
  induction ns generalizing s with
  | nil => exact .refl l s
  | cons n ns ih =>
    have h : LineStep l s (countHit s n) := .setMatch l s rfl
    exact h.trans (ih _)

theorem LineStep.captureAction {c : TestedChar} {ns : List MatchNo} : LineStep l s (captureAction c ns s) := by
  unfold Machine.captureAction
  split
  · exact .refl l s
  · split
    · exact { capture := fun _ => rfl }
    · next h => exact { capture := fun hl => by simp [h] at hl, pendCapture := fun _ => rfl }
    · next h => exact { capture := fun hl => by simp [h] at hl, pendCapture := fun _ => rfl }

theorem LineStep.postHit {c : TestedChar} {n : MatchNo} : LineStep l s (postHit c n s) := by
  unfold Machine.postHit
  split
  · exact .setMatch l s rfl
  · split
    · next h => exact .postEntry l s h
    · exact .setMatch l s rfl

theorem LineStep.postHits {c : TestedChar} (ns : List MatchNo) : LineStep l s (postHits c ns s) := by
  induction ns generalizing s with
  | nil => exact .refl l s
  | cons n ns ih => exact (LineStep.postHit l s).trans (ih _)

theorem LineStep.setHaltRequest : LineStep l s (setHaltRequest l s) := .setLine l s rfl (List.suffix_refl _) id

theorem LineStep.txTest {c : TestedChar} (hc : c.line = l) : LineStep l s (txTest c s) := by
  subst hc
  unfold Machine.txTest
  simp only
  split
  · exact ((LineStep.countHits c.line s _).trans (.captureAction c.line _)).trans (.postHits c.line _ _)
  · exact (((LineStep.countHits c.line s _).trans (.captureAction c.line _)).trans (.postHits c.line _ _)).trans
      (.setHaltRequest c.line _)

end matching

/-! ## The transmitter's choice -/

section choice

variable (l : LineNo) (s : State)

theorem LineStep.takeHalt : LineStep l s (takeHalt l s) := .updTx l s rfl

theorem LineStep.takeBlock {d : DescNo} (hd : d ∈ (s.line l).tx.queue) : LineStep l s (takeBlock l d s) :=
  (LineStep.setDesc l s hd).trans (.updTx l _ rfl)

theorem LineStep.startKeying : LineStep l s (startKeying l s) := by
  unfold Machine.startKeying
  exact .updTx l s rfl

theorem LineStep.startPriority {c : FlowChar} : LineStep l s (startPriority l c s) :=
  .setLine l s rfl (List.suffix_refl _) id

theorem LineStep.enterHold : LineStep l s (enterHold l s) := by
  unfold Machine.enterHold
  simp only
  split
  · exact (LineStep.startPriority l s).trans (.updTx l _ rfl)
  · exact .updTx l s rfl

theorem LineStep.startBlockChar {d : DescNo} : LineStep l s (startBlockChar l d s) := by
  unfold Machine.startBlockChar
  simp only
  exact LineStep.trans (.updTx l s rfl) (.txTest l _ rfl)

theorem LineStep.blockWork {d : DescNo} : LineStep l s (blockWork l d s) := by
  unfold Machine.blockWork
  split
  · exact .updTx l s rfl
  · exact .startBlockChar l s

theorem LineStep.nothingToSend : LineStep l s (nothingToSend l s) := by
  unfold Machine.nothingToSend
  refine .updTx l s ?_
  simp only
  split
  · split <;> rfl
  · rfl

theorem queue_takeBlock (d : DescNo) : ((takeBlock l d s).line l).tx.queue = (s.line l).tx.queue := by
  simp [Machine.takeBlock, State.updTx]

theorem LineStep.choose (n : Nat) : LineStep l s (choose l n s) := by
  induction n generalizing s with
  | zero => exact .refl l s
  | succ n ih =>
    unfold Machine.choose
    split
    · exact .takeHalt l s
    · split
      · split
        · exact .enterHold l s
        · split
          · exact .startPriority l s
          · exact .blockWork l s
      · split
        · next d hd =>
          have hm := oldestQueued_mem hd
          have ht := LineStep.takeBlock l s hm
          split
          · refine ((ht.trans (.finishBlock l _ ?_)).trans (.handleFront l _)).trans (ih _)
            rwa [queue_takeBlock]
          · split
            · split
              · exact (ht.trans (.startKeying l _)).trans (ih _)
              · exact ht.trans (.startKeying l _)
            · exact ht.trans (ih _)
        · split
          · split
            · split
              · exact (LineStep.startKeying l s).trans (ih _)
              · exact .startKeying l s
            · exact .startPriority l s
          · exact .nothingToSend l s

theorem LineStep.nextStepChoice : LineStep l s (nextStepChoice l s) := .choose l s _

theorem LineStep.choiceIn {sts : List TxState} : LineStep l s (choiceIn sts l s) := by
  unfold Machine.choiceIn
  split
  · exact .nextStepChoice l s
  · exact .refl l s

theorem LineStep.requestHalt : LineStep l s (requestHalt l s) := by
  unfold Machine.requestHalt
  split
  · exact .refl l s
  · exact (LineStep.setHaltRequest l s).trans (.choiceIn l _)

theorem LineStep.requestPriority {c : FlowChar} : LineStep l s (requestPriority l c s) :=
  LineStep.trans (.updTx l s rfl) (.choiceIn l _)

theorem LineStep.releaseHold : LineStep l s (releaseHold l s) := by
  unfold Machine.releaseHold
  split
  · exact .refl l s
  · exact .choiceIn l s

end choice

/-! ## Flow logic, errors, receiver -/

section receiver

variable (l : LineNo) (s : State)

theorem LineStep.consumeFlowChar {x : Bool} : LineStep l s (consumeFlowChar l x s) :=
  LineStep.trans (.updTx l s rfl) (.releaseHold l _)

theorem LineStep.withdrawPriority : LineStep l s (withdrawPriority l s) := .updTx l s rfl

theorem LineStep.receiveXoff : LineStep l s (receiveXoff l s) := by
  unfold Machine.receiveXoff
  split
  · split
    · exact .requestPriority l s
    · exact .withdrawPriority l s
    · exact .refl l s
  · exact .refl l s

theorem LineStep.receiveXon : LineStep l s (receiveXon l s) := by
  unfold Machine.receiveXon
  split
  · split
    · exact .withdrawPriority l s
    · exact .requestPriority l s
    · exact .refl l s
  · exact .refl l s

theorem LineStep.becomeCongested : LineStep l s (becomeCongested l s) := by
  unfold Machine.becomeCongested
  split
  · exact .refl l s
  · refine LineStep.trans ?_ (LineStep.receiveXoff l _)
    exact .setLine l s rfl (List.suffix_refl _) id

theorem LineStep.uncongestIfClear : LineStep l s (uncongestIfClear l s) := by
  unfold Machine.uncongestIfClear
  split
  · refine LineStep.trans ?_ (LineStep.receiveXon l _)
    exact .setLine l s rfl (List.suffix_refl _) id
  · exact .refl l s

theorem LineStep.reachErrorRecord {k : ErrorKind} {v : Option Byte} : LineStep l s (reachErrorRecord k l v s) := by
  unfold Machine.reachErrorRecord
  split
  · refine { errorRec := ⟨id, fun _ => rfl, fun _ => rfl, fun _ => rfl, fun _ => ?_⟩ }
    simp only
    split
    · next h =>
      simp only [Bool.and_eq_true, decide_eq_true_eq] at h
      exact .inr ⟨h.2, rfl⟩
    · exact .inl rfl
  all_goals
    next h =>
    split
    · exact .refl l s
    · exact { errorRec := by constructor <;> intro hl <;> simp [h] at hl, pendError := fun _ => rfl }

theorem countersUp_countError (k : ErrorKind) (c : Counters) : CountersUp c (countError k c) := by
  cases k
  · exact ⟨le_satAdd _ _, BitVec.le_refl _, BitVec.le_refl _, BitVec.le_refl _⟩
  · exact ⟨BitVec.le_refl _, le_satAdd _ _, BitVec.le_refl _, BitVec.le_refl _⟩
  · exact ⟨BitVec.le_refl _, BitVec.le_refl _, le_satAdd _ _, BitVec.le_refl _⟩

theorem LineStep.errorReport {k : ErrorKind} {v : Option Byte} : LineStep l s (errorReport k l v s) := by
  unfold Machine.errorReport
  refine (LineStep.setLine l s (ln := { s.line l with counters := countError k (s.line l).counters }) rfl
    (List.suffix_refl _) id (countersUp_countError _ _)).trans (LineStep.trans ?_ (.reachErrorRecord l _))
  exact {}

theorem LineStep.addDiscarded {n : Nat} : LineStep l s (addDiscarded l n s) :=
  .setLine l s rfl (List.suffix_refl _) id ⟨BitVec.le_refl _, BitVec.le_refl _, BitVec.le_refl _, le_satAdd _ _⟩

/-- A change of the line's receiver that keeps the bound of its FIFO. -/
theorem LineStep.updRx {f : Receiver → Receiver}
    (hf : (s.line l).rx.fifo.length ≤ Config.fifoCapacity → (f (s.line l).rx).fifo.length ≤ Config.fifoCapacity) :
    LineStep l s (s.updRx l f) := .setLine l s rfl (List.suffix_refl _) hf

theorem LineStep.placeItem {i : FifoItem} : LineStep l s (placeItem l i s) := by
  unfold Machine.placeItem
  simp only
  split
  · next h =>
    have hu := LineStep.updRx l s (f := fun r => { r with fifo := r.fifo ++ [i] }) fun _ => by
      simp only [List.length_append, List.length_singleton]; omega
    split
    · exact hu.trans (.becomeCongested l _)
    · exact hu
  · exact LineStep.trans (.updRx l s id) (.errorReport l _)

theorem LineStep.reportStatus {v : Byte} {st : CharStatus} : LineStep l s (reportStatus l v st s) := by
  unfold Machine.reportStatus
  split
  · exact .refl l s
  · exact .errorReport l s
  · exact .errorReport l s

theorem LineStep.receiveChar {v : Byte} {st : CharStatus} : LineStep l s (receiveChar l v st s) := by
  unfold Machine.receiveChar
  split
  · exact .consumeFlowChar l s
  · split
    · exact .consumeFlowChar l s
    · exact (LineStep.reportStatus l s).trans (.placeItem l _)

theorem LineStep.arrival {f : RxFrame} : LineStep l s (arrival l f s) := by
  unfold Machine.arrival
  split
  · simp only
    split
    · have h := LineStep.updRx l s (f := fun r => { r with framer := .awaitingMark }) id
      split
      · exact h.trans (.placeItem l _)
      all_goals exact h
    · have h := LineStep.updRx l s (f := fun r => { r with framer := .hunting }) id
      split
      · exact h.trans (.receiveChar l _)
      · exact h.trans (.addDiscarded l _)
      · exact h.trans (.addDiscarded l _)
      · exact h
  · exact .refl l s

theorem LineStep.postRecord {c : Cause} {n : Nat} {e : Bool} {cells : List CellNo} (h : s.slotFree = true) :
    LineStep l s (postRecord l c n e cells s) := (LineStep.postEntry l s h).trans (.updRx l _ id)

theorem LineStep.closeRecord {c : Cause} {n : Nat} {e : Bool} {cells : List CellNo} :
    LineStep l s (closeRecord l c n e cells s) := by
  unfold Machine.closeRecord
  split
  · next h => exact .postRecord l s h
  · exact LineStep.trans (.updRx l s id) (.becomeCongested l _)

theorem LineStep.closeOpen {c : Cause} : LineStep l s (closeOpen l c s) := by
  unfold Machine.closeOpen
  split
  · exact .closeRecord l s
  · exact .refl l s

theorem LineStep.loadIdle : LineStep l s (loadIdle l s) := by
  unfold Machine.loadIdle
  exact .updRx l s id

theorem LineStep.afterAppend {c : TestedChar} {st : CharStatus} (hc : c.line = l) : LineStep l s (afterAppend c st s) := by
  subst hc
  unfold Machine.afterAppend
  simp only
  have hcap := (LineStep.countHits c.line s (hitters s c.line .rx c.char)).trans
    (.captureAction c.line _ (c := c) (ns := hittersWith s .capture (hitters s c.line .rx c.char)))
  generalize Machine.captureAction c (hittersWith s .capture (hitters s c.line .rx c.char))
    (Machine.countHits (hitters s c.line .rx c.char) s) = s1 at hcap ⊢
  have h2 : LineStep c.line s
      (if (!(hittersWith s .hold (hitters s c.line .rx c.char)).isEmpty) = true then Machine.requestHalt c.line s1
        else s1) := by
    split
    · exact hcap.trans (.requestHalt c.line _)
    · exact hcap
  generalize (if (!(hittersWith s .hold (hitters s c.line .rx c.char)).isEmpty) = true
    then Machine.requestHalt c.line s1 else s1) = s2 at h2 ⊢
  split
  · exact (h2.trans (.postHits c.line _ _)).trans (.loadIdle c.line _)
  · split
    · refine h2.trans ((LineStep.draw c.line _).trans (.runAll c.line _ _ fun f hf t => ?_))
      rcases mem_insertAct hf with rfl | h
      · exact .closeOpen c.line t
      · rw [List.mem_singleton.mp h]; exact .postHits c.line t _
    · exact (h2.trans (.postHits c.line _ _)).trans (.closeOpen c.line _)

theorem LineStep.dropHeadItem : LineStep l s (dropHeadItem l s) :=
  .updRx l s fun h => by simp only [List.length_tail]; omega

theorem LineStep.takeMarker : LineStep l s (takeMarker l s) := by
  unfold Machine.takeMarker
  simp only
  split <;> exact (LineStep.dropHeadItem l s).trans (.closeRecord l _)

/-- An assembler take: an operation of the line, with at most one character stored on the way. -/
def TakeStep (l : LineNo) (s t : State) : Prop :=
  LineStep l s t ∨ ∃ u cells pos v, LineStep l s u ∧ LineStep l (storeChar cells pos v u) t

theorem TakeStep.after {u t : State} (h : LineStep l s u) (k : TakeStep l u t) : TakeStep l s t := by
  rcases k with k | ⟨w, c, p, v, h1, h2⟩
  · exact .inl (h.trans k)
  · exact .inr ⟨w, c, p, v, h.trans h1, h2⟩

theorem TakeStep.before {u t : State} (h : TakeStep l s u) (k : LineStep l u t) : TakeStep l s t := by
  rcases h with h | ⟨w, c, p, v, h1, h2⟩
  · exact .inl (h.trans k)
  · exact .inr ⟨w, c, p, v, h1, h2.trans k⟩

theorem TakeStep.appendChar {v : Byte} {st : CharStatus} {pos : Nat} {flag : Bool} {cells : List CellNo} :
    TakeStep l s (appendChar l v st pos flag cells s) := by
  unfold Machine.appendChar
  simp only
  refine .inr ⟨s, cells, pos, v, .refl l s, (LineStep.updRx l _ fun h => ?_).trans (.afterAppend l _ rfl)⟩
  simp only [List.length_tail]
  omega

theorem TakeStep.takeChar {v : Byte} {st : CharStatus} : TakeStep l s (takeChar l v st s) := by
  unfold Machine.takeChar
  split
  · split
    · split
      · next h => exact .after l s (LineStep.takeCell l s h) (.appendChar l _)
      · exact .inl (.closeRecord l s)
    · exact .appendChar l s
  · split
    · next h => exact .after l s (LineStep.takeCell l s h) (.appendChar l _)
    · exact .inl (.refl l s)

theorem TakeStep.takeItem : TakeStep l s (takeItem l s) := by
  unfold Machine.takeItem
  split
  · exact .inl (.refl l s)
  · exact .inl (.takeMarker l s)
  · split
    · exact .inl ((LineStep.dropHeadItem l s).trans (.addDiscarded l _))
    · exact .takeChar l s

theorem TakeStep.assemblerTake : TakeStep l s (assemblerTake l s) := by
  unfold Machine.assemblerTake
  split
  · exact .before l s (.takeItem l s) (.uncongestIfClear l _)
  · exact .inl (.refl l s)

/-- What storing a character changes: the store alone. -/
theorem storeChar_eq (cells : List CellNo) (pos : Nat) (v : Byte) (s : State) :
    storeChar cells pos v s = { s with mem := (storeChar cells pos v s).mem } := by
  unfold storeChar
  split <;> rfl

theorem LineStep.idleExpiry : LineStep l s (idleExpiry l s) := by
  unfold Machine.idleExpiry
  split
  · split
    · exact .closeOpen l s
    · simp only
      split
      · exact (LineStep.draw l s).trans (.closeOpen l _)
      · exact (LineStep.draw l s).trans (.loadIdle l _)
    · exact .loadIdle l s
  · exact .refl l s

theorem LineStep.frameStart : LineStep l s (frameStart l s) := by
  unfold Machine.frameStart
  split
  · exact .updRx l s id
  · exact .refl l s

theorem LineStep.frameAbandoned : LineStep l s (frameAbandoned l s) := by
  unfold Machine.frameAbandoned
  split
  · exact .updRx l s id
  · exact .refl l s

theorem LineStep.rxdAtMark : LineStep l s (rxdAtMark l s) := by
  unfold Machine.rxdAtMark
  split
  · exact .updRx l s id
  · exact .refl l s

end receiver

/-! ## The transmitter's events -/

section transmitter

variable (l : LineNo) (s : State)

theorem LineStep.flushBlocks : LineStep l s (flushBlocks l s) := by
  unfold Machine.flushBlocks
  split <;> exact LineStep.trans (.finishBlocks l s) (.updTx l _ rfl)

theorem LineStep.flushChoice : LineStep l s (flushChoice l s) := by
  unfold Machine.flushChoice
  split
  · exact .choiceIn l s
  · exact .refl l s

theorem LineStep.flush : LineStep l s (flush l s) :=
  ((LineStep.flushBlocks l s).trans (.handleFront l _)).trans (.flushChoice l _)

theorem mem_frontActs {f : State → State} (h : f ∈ frontActs l s) : f = Machine.frontStep l :=
  List.eq_of_mem_replicate h

theorem LineStep.mem_flushActs {ps : List Phase} {f : State → State} (h : f ∈ flushActs ps l s) (t : State) :
    LineStep l t (f t) := by
  rcases List.mem_cons.mp h with rfl | h
  · exact .finishBlocks l t
  · rw [mem_frontActs l s h]; exact .frontStep l t

/-- A hold expiry does what its acts do, and joins HOLD_EXPIRED. -/
theorem LineStep.expireHold {acts : List (State → State)} (h : ∀ f ∈ acts, ∀ t, LineStep l t (f t)) :
    LineStep l s (expireHold acts l s) := by
  unfold Machine.expireHold
  split
  · refine (LineStep.draw l s).trans (.runAll l _ _ fun f hf t => ?_)
    rcases mem_insertAct hf with rfl | hf
    · exact .joinChanges l t
    · exact h f hf t
  · exact (LineStep.joinChanges l s).trans (.runAll l _ _ h)

theorem LineStep.idleAfterExpiry : LineStep l s (idleAfterExpiry l s) := by
  unfold Machine.idleAfterExpiry
  simp only
  split
  · exact LineStep.trans (.updTx l s rfl) (.takeHalt l _)
  · exact .updTx l s rfl

theorem LineStep.holdExpiry : LineStep l s (holdExpiry l s) := by
  unfold Machine.holdExpiry
  split
  · simp only
    have h := LineStep.updTx l s (f := fun t => { t with holdTimer := none }) rfl
    split
    · split
      · exact h.trans (.expireHold l _ fun f hf => by cases hf)
      · exact (h.trans (.expireHold l _ fun f hf t => .mem_flushActs l _ hf t)).trans (.idleAfterExpiry l _)
    · exact h.trans (.updTx l _ rfl)
  · exact .refl l s

theorem LineStep.leadEnd : LineStep l s (leadEnd l s) := by
  unfold Machine.leadEnd
  split
  · exact LineStep.trans (.updTx l s rfl) (.nextStepChoice l _)
  · exact .refl l s

theorem LineStep.trailEnd : LineStep l s (trailEnd l s) := by
  unfold Machine.trailEnd
  split
  · exact .updTx l s rfl
  · exact .refl l s

theorem LineStep.breakTimerExpiry : LineStep l s (breakTimerExpiry l s) := by
  unfold Machine.breakTimerExpiry
  split
  · exact .updTx l s rfl
  · exact .refl l s

theorem LineStep.finishIfEmpty : LineStep l s (finishIfEmpty l s) := by
  unfold Machine.finishIfEmpty
  split
  · next h =>
    split
    · exact (LineStep.finishBlock l s (activeDesc_mem h)).trans (.handleFront l _)
    · exact .refl l s
  · exact .refl l s

theorem LineStep.breakEnd : LineStep l s (breakEnd l s) := by
  unfold Machine.breakEnd
  split
  · exact (LineStep.trans (.updTx l s rfl) (.finishIfEmpty l _)).trans (.nextStepChoice l _)
  · exact .refl l s

theorem LineStep.countSent {d : DescNo} (hd : d ∈ (s.line l).tx.queue) : LineStep l s (countSent d s) := by
  unfold Machine.countSent
  simp only
  split
  · split
    · exact ((LineStep.returnCells l s).trans (.setDesc l _ hd)).trans (.finishBlock l _ hd)
    · exact (LineStep.setDesc l s hd).trans (.finishBlock l _ hd)
  · split
    · exact (LineStep.returnCells l s).trans (.setDesc l _ hd)
    · exact .setDesc l s hd

theorem LineStep.ownEffects {c : InFlight} : LineStep l s (ownEffects l c s) := by
  unfold Machine.ownEffects
  simp only
  have h := LineStep.updTx l s (f := fun t => { t with inFlight := none }) rfl
  split
  · split
    · next hd =>
      split
      · exact (h.trans (.countSent l _ (activeDesc_mem hd))).trans (.handleFront l _)
      · exact h.trans (.countSent l _ (activeDesc_mem hd))
    · exact h
  · exact h

theorem LineStep.completeFlush : LineStep l s (completeFlush l s) := by
  unfold Machine.completeFlush
  split
  · exact .complete l s
  · exact .refl l s

theorem LineStep.afterBoundary : LineStep l s (afterBoundary l s) := by
  unfold Machine.afterBoundary
  simp only
  have h := LineStep.trans
    (LineStep.updTx l s (f := fun t => { t with flushDue := false, holdDue := false }) rfl) (.completeFlush l _)
  split
  · split
    · refine h.trans (.expireHold l _ fun f hf t => ?_)
      rcases List.mem_append.mp hf with hf | hf
      · split at hf
        · exact .mem_flushActs l _ hf t
        · cases hf
      · rw [List.mem_singleton.mp hf]; exact .nextStepChoice l t
    · exact (h.trans (.expireHold l _ fun f hf t => .mem_flushActs l _ hf t)).trans (.idleAfterExpiry l _)
  · split
    · exact ((h.trans (.finishBlocks l _)).trans (.handleFront l _)).trans (.nextStepChoice l _)
    · exact h.trans (.nextStepChoice l _)

theorem LineStep.completeRestart : LineStep l s (completeRestart l s) := by
  unfold Machine.completeRestart
  refine LineStep.trans (LineStep.trans ?_ (LineStep.joinChanges l _)) (LineStep.complete l _)
  exact .setLine l s rfl (List.suffix_refl _) id

theorem LineStep.completeDisable : LineStep l s (completeDisable l s) := by
  unfold Machine.completeDisable
  refine LineStep.trans (LineStep.trans ?_ (LineStep.joinChanges l _)) (LineStep.complete l _)
  exact .setLine l s rfl (List.suffix_refl _) id

/-- A character boundary touches its own line, the blocks of its queue and the shared ends of their work only. -/
theorem LineStep.characterBoundary : LineStep l s (characterBoundary l s) := by
  unfold Machine.characterBoundary
  split
  · exact .refl l s
  · next c _ =>
    simp only
    have h := LineStep.ownEffects l s (c := c)
    split
    · exact h.trans (.afterBoundary l _)
    · exact ((h.trans (.finishBlocks l _)).trans (.handleFront l _)).trans (.completeRestart l _)
    · exact ((h.trans (.finishBlocks l _)).trans (.handleFront l _)).trans (.completeDisable l _)
    · exact h

end transmitter

/-! ## The modem logic -/

section modem

variable (l : LineNo) (s : State)

theorem LineStep.updFlow {f : FlowLogic → FlowLogic} : LineStep l s (s.updFlow l f) :=
  .setLine l s rfl (List.suffix_refl _) id

theorem LineStep.ctsEffects {c : ChangeSet} : LineStep l s (ctsEffects l c s) := by
  unfold Machine.ctsEffects
  simp only
  have hrel : ∀ t, LineStep l t ((if (s.line l).state = .enabled then Machine.releaseHold l else id) t) := by
    intro t
    split
    · exact .releaseHold l t
    · exact .refl l t
  split
  · refine (LineStep.draw l s).trans (.runAll l _ _ fun f hf t => ?_)
    rcases mem_insertAct hf with rfl | h
    · exact .joinChanges l t
    · rw [List.mem_singleton.mp h]; exact hrel t
  · exact (hrel s).trans (.joinChanges l _)

theorem LineStep.dcdFlushEnds {met : Bool} : LineStep l s (dcdFlushEnds met l s) := by
  unfold Machine.dcdFlushEnds
  split
  · exact .idleAfterExpiry l s
  · exact .flushChoice l s

theorem LineStep.dcdNegated {c : ChangeSet} : LineStep l s (dcdNegated l c s) := by
  unfold Machine.dcdNegated
  simp only
  have hclose : ∀ t, LineStep l t ((if dcdCloses (s.line l) = true then Machine.closeOpen l .carrier else id) t) := by
    intro t
    split
    · exact .closeOpen l t
    · exact .refl l t
  have hflush : ∀ f ∈ (if dcdFlushes s l = true then Machine.flushBlocks l :: frontActs l s else []), ∀ t,
      LineStep l t (f t) := by
    intro f hf t
    split at hf
    · rcases List.mem_cons.mp hf with rfl | h
      · exact .flushBlocks l t
      · rw [mem_frontActs l s h]; exact .frontStep l t
    · cases hf
  have hends : ∀ t, LineStep l t
      ((if dcdFlushes s l = true then Machine.dcdFlushEnds (meetsHoldExpiry (s.line l).tx) l else id) t) := by
    intro t
    split
    · exact .dcdFlushEnds l t
    · exact .refl l t
  split
  · refine (((LineStep.draw l s).trans (.draw l _)).trans (.runAll l _ _ fun f hf t => ?_)).trans (hends _)
    rcases mem_insertAct hf with rfl | h
    · exact .joinChanges l t
    · rcases mem_insertAct h with rfl | h
      · exact hclose t
      · exact hflush f h t
  · split
    · exact (((LineStep.runAll l s _ hflush).trans (hclose _)).trans (.joinChanges l _)).trans (hends _)
    · exact .joinChanges l s

theorem LineStep.dcdEffects {v : Level} {c : ChangeSet} : LineStep l s (dcdEffects l v c s) := by
  unfold Machine.dcdEffects
  split
  · exact .dcdNegated l s
  · exact .joinChanges l s

theorem LineStep.settleCommit : LineStep l s (settleCommit l s) := by
  unfold Machine.settleCommit
  split
  · exact .choiceIn l s
  · exact .refl l s

theorem LineStep.plainSample {i : ModemInput} {v : Level} : LineStep l s (plainSample l i v s) := by
  unfold Machine.plainSample
  split
  · exact .updFlow l s
  · exact (LineStep.updFlow l s).trans (.settleCommit l _)

theorem LineStep.qualifiedChange {i : ModemInput} {v : Level} : LineStep l s (qualifiedChange l i v s) := by
  unfold Machine.qualifiedChange
  split
  · exact (LineStep.updFlow l s).trans (.ctsEffects l _)
  · exact ((LineStep.updFlow l s).trans (.dcdEffects l _)).trans (.settleCommit l _)

theorem LineStep.sampleInput {i : ModemInput} {v : Level} : LineStep l s (sampleInput l i v s) := by
  unfold Machine.sampleInput
  split
  · exact .refl l s
  · split
    · exact .qualifiedChange l s
    · exact .plainSample l s

theorem LineStep.bothQualify {c d : Level} : LineStep l s (bothQualify l c d s) := by
  unfold Machine.bothQualify
  simp only
  have hd := LineStep.draw l s
  split
  · exact (hd.trans (.qualifiedChange l _)).trans (.qualifiedChange l _)
  · split
    · exact (hd.trans (.qualifiedChange l _)).trans (.qualifiedChange l _)
    · split
      · exact ((((hd.trans (.updFlow l _)).trans (.updFlow l _)).trans (.ctsEffects l _)).trans (.dcdEffects l _)).trans
          (.settleCommit l _)
      · exact ((((hd.trans (.updFlow l _)).trans (.updFlow l _)).trans (.dcdEffects l _)).trans
          (.settleCommit l _)).trans (.ctsEffects l _)

theorem LineStep.sampleInputs {c d : Level} : LineStep l s (sampleInputs l c d s) := by
  unfold Machine.sampleInputs
  split
  · exact .bothQualify l s
  · exact (LineStep.sampleInput l s).trans (.sampleInput l _)

end modem

end Sys2Proof.Machine
end

