-- ==== Sys2Proof/Laws/Choice.lean ====
section
/-! SUPPORT. What the transmitter's side of a line leaves of the line itself: one relation, `TxSide`, and one lemma for each
operation up to a flush. -/

namespace Sys2Proof.Machine

/-- What an operation of the transmitter of line `l` leaves alone beside `LineStep`: the line state, the receiver, the
counters, the pending change set, the flow logic but for XOFF-sent, the error accounts, the command group. -/
structure TxSide (l : LineNo) (s t : State) : Prop where
  state : (t.line l).state = (s.line l).state := by rfl
  rx : (t.line l).rx = (s.line l).rx := by rfl
  counters : (t.line l).counters = (s.line l).counters := by rfl
  changes : (t.line l).changes = (s.line l).changes := by rfl
  congested : (t.line l).flow.congested = (s.line l).flow.congested := by rfl
  cts : (t.line l).flow.cts = (s.line l).flow.cts := by rfl
  dcd : (t.line l).flow.dcd = (s.line l).flow.dcd := by rfl
  manualRts : (t.line l).flow.manualRts = (s.line l).flow.manualRts := by rfl
  manualDtr : (t.line l).flow.manualDtr = (s.line l).flow.manualDtr := by rfl
  errorSet : t.errorSet = s.errorSet := by rfl
  errorRec : t.errorRec = s.errorRec := by rfl
  pendError : t.pendError = s.pendError := by rfl
  pendPool : t.pendPool = s.pendPool := by rfl
  result : t.result = s.result := by rfl
  busy : t.busy = s.busy := by rfl
  pendCommand : t.pendCommand = s.pendCommand := by rfl

theorem TxSide.refl (l : LineNo) (s : State) : TxSide l s s := {}

theorem TxSide.trans {l : LineNo} {s t u : State} (h : TxSide l s t) (k : TxSide l t u) : TxSide l s u where
  state := k.state.trans h.state
  rx := k.rx.trans h.rx
  counters := k.counters.trans h.counters
  changes := k.changes.trans h.changes
  congested := k.congested.trans h.congested
  cts := k.cts.trans h.cts
  dcd := k.dcd.trans h.dcd
  manualRts := k.manualRts.trans h.manualRts
  manualDtr := k.manualDtr.trans h.manualDtr
  errorSet := k.errorSet.trans h.errorSet
  errorRec := k.errorRec.trans h.errorRec
  pendError := k.pendError.trans h.pendError
  pendPool := k.pendPool.trans h.pendPool
  result := k.result.trans h.result
  busy := k.busy.trans h.busy
  pendCommand := k.pendCommand.trans h.pendCommand

variable (l : LineNo) (s : State)

/-- A change of the line's transmitter. -/
theorem TxSide.updTx {f : Transmitter → Transmitter} : TxSide l s (s.updTx l f) := by
  constructor <;> simp [State.updTx]

theorem TxSide.setDesc {d : DescNo} {ds : Descriptor} : TxSide l s (s.setDesc d ds) := {}

theorem TxSide.setMatch {n : MatchNo} {m : MatchEntry} : TxSide l s (s.setMatch n m) := {}

theorem TxSide.returnCells {cells : List CellNo} : TxSide l s (returnCells cells s) := {}

theorem TxSide.draw : TxSide l s (draw s).2 := {}

theorem TxSide.postEntry {e : Entry} : TxSide l s (postEntry e s) := by
  unfold Machine.postEntry
  split
  · exact {}
  · exact {}

theorem TxSide.dropHeadBlock {d : DescNo} : TxSide l s (dropHeadBlock l d s) :=
  (TxSide.updTx l s (f := fun t => { t with queue := t.queue.tail })).trans (.setDesc l _)

theorem TxSide.frontStep : TxSide l s (frontStep l s) := by
  rcases frontStep_cases l s with h | ⟨d, rest, -, -, ⟨-, h⟩ | ⟨-, -, h⟩⟩
  · rw [h]; exact .refl l s
  · rw [h]; exact .dropHeadBlock l s
  · rw [h]; exact (TxSide.postEntry l s).trans (.dropHeadBlock l _)

theorem TxSide.frontSteps (n : Nat) : TxSide l s (frontSteps l n s) := by
  induction n generalizing s with
  | zero => exact .refl l s
  | succ n ih => exact (TxSide.frontStep l s).trans (ih _)

theorem TxSide.handleFront : TxSide l s (handleFront l s) := .frontSteps l s _

theorem TxSide.finishBlock {d : DescNo} {o : BlockOutcome} : TxSide l s (finishBlock d o s) :=
  (TxSide.returnCells l s).trans (.setDesc l _)

theorem TxSide.finishIf {ps : List Phase} {o : BlockOutcome} {d : DescNo} : TxSide l s (finishIf ps o s d) := by
  unfold Machine.finishIf
  split
  · exact .finishBlock l s
  · exact .refl l s

theorem TxSide.finishBlocks {ps : List Phase} {o : BlockOutcome} : TxSide l s (finishBlocks ps l o s) := by
  unfold Machine.finishBlocks
  generalize (s.line l).tx.queue = ds
  induction ds generalizing s with
  | nil => exact .refl l s
  | cons d ds ih => exact (TxSide.finishIf l s).trans (ih _)

/-! ## The match test of the transmitter -/

theorem TxSide.countHits (ns : List MatchNo) : TxSide l s (countHits ns s) := by
  unfold Machine.countHits
  induction ns generalizing s with
  | nil => exact .refl l s
  | cons n ns ih => exact (TxSide.setMatch l s).trans (ih _)

theorem TxSide.captureAction {c : TestedChar} {ns : List MatchNo} : TxSide l s (captureAction c ns s) := by
  unfold Machine.captureAction
  split
  · exact .refl l s
  · split <;> exact {}

theorem TxSide.postHit {c : TestedChar} {n : MatchNo} : TxSide l s (postHit c n s) := by
  unfold Machine.postHit
  split
  · exact .setMatch l s
  · split
    · exact .postEntry l s
    · exact .setMatch l s

theorem TxSide.postHits {c : TestedChar} (ns : List MatchNo) : TxSide l s (postHits c ns s) := by
  unfold Machine.postHits
  induction ns generalizing s with
  | nil => exact .refl l s
  | cons n ns ih => exact (TxSide.postHit l s).trans (ih _)

theorem TxSide.setHaltRequest : TxSide l s (setHaltRequest l s) := .updTx l s (f := fun t => { t with haltRequest := true })

theorem TxSide.txTest {c : TestedChar} (hc : c.line = l) : TxSide l s (txTest c s) := by
  subst hc
  unfold Machine.txTest
  simp only
  split
  · exact ((TxSide.countHits c.line s _).trans (.captureAction c.line _)).trans (.postHits c.line _ _)
  · exact (((TxSide.countHits c.line s _).trans (.captureAction c.line _)).trans (.postHits c.line _ _)).trans
      (.setHaltRequest c.line _)

/-! ## The next-step choice -/

theorem TxSide.startPriority {c : FlowChar} : TxSide l s (startPriority l c s) := by
  constructor <;> simp [Machine.startPriority]

theorem TxSide.enterHold : TxSide l s (enterHold l s) := by
  unfold Machine.enterHold
  simp only
  split
  · exact (TxSide.startPriority l s).trans (.updTx l _)
  · exact .updTx l s

theorem TxSide.takeBlock {d : DescNo} : TxSide l s (takeBlock l d s) := (TxSide.setDesc l s).trans (.updTx l _)

theorem TxSide.startKeying : TxSide l s (startKeying l s) := by
  unfold Machine.startKeying
  exact .updTx l s

theorem TxSide.nothingToSend : TxSide l s (nothingToSend l s) := by
  unfold Machine.nothingToSend
  exact .updTx l s

theorem TxSide.startBlockChar {d : DescNo} : TxSide l s (startBlockChar l d s) := (TxSide.updTx l s).trans (.txTest l _ rfl)

theorem TxSide.blockWork {d : DescNo} : TxSide l s (blockWork l d s) := by
  unfold Machine.blockWork
  split
  · exact .updTx l s
  · exact .startBlockChar l s

theorem TxSide.choose (n : Nat) : TxSide l s (choose l n s) := by
  induction n generalizing s with
  | zero => exact .refl l s
  | succ n ih =>
    unfold Machine.choose
    split
    · exact .updTx l s
    · split
      · split
        · exact .enterHold l s
        · split
          · exact .startPriority l s
          · exact .blockWork l s
      · split
        · split
          · exact (((TxSide.takeBlock l s).trans (.finishBlock l _)).trans (.handleFront l _)).trans (ih _)
          · split
            · split
              · exact ((TxSide.takeBlock l s).trans (.startKeying l _)).trans (ih _)
              · exact (TxSide.takeBlock l s).trans (.startKeying l _)
            · exact (TxSide.takeBlock l s).trans (ih _)
        · split
          · split
            · split
              · exact (TxSide.startKeying l s).trans (ih _)
              · exact .startKeying l s
            · exact .startPriority l s
          · exact .nothingToSend l s

theorem TxSide.nextStepChoice : TxSide l s (nextStepChoice l s) := .choose l s _

theorem TxSide.choiceIn {sts : List TxState} : TxSide l s (choiceIn sts l s) := by
  unfold Machine.choiceIn
  split
  · exact .nextStepChoice l s
  · exact .refl l s

theorem TxSide.requestHalt : TxSide l s (requestHalt l s) := by
  unfold Machine.requestHalt
  split
  · exact .refl l s
  · exact (TxSide.setHaltRequest l s).trans (.choiceIn l _)

theorem TxSide.requestPriority {c : FlowChar} : TxSide l s (requestPriority l c s) :=
  (TxSide.updTx l s).trans (.choiceIn l _)

theorem TxSide.releaseHold : TxSide l s (releaseHold l s) := by
  unfold Machine.releaseHold
  split
  · exact .refl l s
  · exact .choiceIn l s

theorem TxSide.receiveXoff : TxSide l s (receiveXoff l s) := by
  unfold Machine.receiveXoff
  split
  · split
    · exact .requestPriority l s
    · exact .updTx l s
    · exact .refl l s
  · exact .refl l s

theorem TxSide.receiveXon : TxSide l s (receiveXon l s) := by
  unfold Machine.receiveXon
  split
  · split
    · exact .updTx l s
    · exact .requestPriority l s
    · exact .refl l s
  · exact .refl l s

/-- Congestion changes nothing of the receiver itself (R121). -/
theorem rx_becomeCongested : ((becomeCongested l s).line l).rx = (s.line l).rx := by
  unfold becomeCongested
  split
  · rfl
  · rw [(TxSide.receiveXoff l _).rx, line_setLine_self]

/-- Neither does its end (R121). -/
theorem rx_uncongestIfClear : ((uncongestIfClear l s).line l).rx = (s.line l).rx := by
  unfold uncongestIfClear
  split
  · rw [(TxSide.receiveXon l _).rx, line_setLine_self]
  · rfl

/-! ## Flush -/

theorem TxSide.flushBlocks : TxSide l s (flushBlocks l s) := by
  unfold Machine.flushBlocks
  split
  · exact (TxSide.finishBlocks l s).trans (.updTx l _)
  · exact (TxSide.finishBlocks l s).trans (.updTx l _)

theorem TxSide.flushChoice : TxSide l s (flushChoice l s) := by
  unfold Machine.flushChoice
  split
  · exact .choiceIn l s
  · exact .refl l s

theorem TxSide.flush : TxSide l s (flush l s) :=
  ((TxSide.flushBlocks l s).trans (.handleFront l _)).trans (.flushChoice l _)

end Sys2Proof.Machine
end

