-- ==== Sys2Proof/Tests/Slice0.lean ====
section
/-! SUPPORT. The model's own tests: the smoke test of `WellFormed`, small one-step tests of the rows on values of the spec's
examples, and for every statement with hypotheses concrete states that meet them, clause by clause. -/

namespace Sys2Proof.Tests

open Sys2Proof Sys2Proof.Machine Sys2Proof.Claims

/-! ## Small states -/

/-- The state after one row. -/
def after (c : Instr) (s : State) : State :=
  match exec c s with
  | .next t => t
  | .fault _ => s
  | .refused _ => s

/-- The PARAM registers written. -/
def params (a b c d : Byte) (s : State := .reset) : State := { s with param0 := a, param1 := b, param2 := c, param3 := d }

/-- Line 2 ENABLED and changed by `f`; everything else after reset. -/
def onTwo (f : Line → Line) : State := State.reset.setLine 2 (f (enabledLine .reset))

/-- A change of line 2's configuration. -/
def cfgTwo (f : LineConfig → LineConfig) (s : State) : State := s.setLine 2 { s.line 2 with cfg := f (s.line 2).cfg }

/-- A change of line 2's transmitter. -/
def txTwo (f : Transmitter → Transmitter) (s : State) : State := s.setLine 2 { s.line 2 with tx := f (s.line 2).tx }

/-- A change of line 2's receiver. -/
def rxTwo (f : Receiver → Receiver) (s : State) : State := s.setLine 2 { s.line 2 with rx := f (s.line 2).rx }

/-- A change of line 2's flow logic. -/
def flowTwo (f : FlowLogic → FlowLogic) (s : State) : State := s.setLine 2 { s.line 2 with flow := f (s.line 2).flow }

/-- Line 2 ENABLED, PARAM0 naming it. -/
def two : State := params 2 0 0 0 (onTwo id)

/-- A block of line 2, tag 40 hex. -/
def block (ph : Phase) (len sent : Nat) (cells : List CellNo) (report : Bool := true) (units : Nat := 0) : Descriptor :=
  { phase := ph, line := 2, tag := 0x40, report := report, breakBefore := units, length := len, cells := cells, sent := sent,
    outcome := if ph = .finished then some .sent else none }

/-- Block 5 at the front of line 2's queue, the transmitter in a state; cell 9 holds `A` at place 0. -/
def withBlock (st : TxState) (b : Descriptor) (s : State := two) : State :=
  { (txTwo (fun t => { t with state := st, queue := [5] }) s).setDesc 5 b with mem := [(144, 0x41)] }

/-- Line 2 sends the first character of block 5. -/
def sending (len : Nat) (report : Bool := true) (sent : Nat := 0) : State :=
  txTwo (fun t => { t with inFlight := some (.block 0x41) }) (withBlock .sending (block .active len sent [9] report))

/-- The window open on line 2 with block 5. -/
def opened (len : Nat) (cells : List CellNo) (s : State := two) : State :=
  { s.setDesc 5 (block .opened len 0 cells) with window := some 5, windowLine := 2 }

/-- The event queue full of reports. -/
def full (s : State) : State := { s with queue := List.replicate 48 (.txReport 0 0 .sent 0) }

/-- The event queue with one entry: a record of line 4 of two characters in cell 9. -/
def headed (s : State) : State :=
  { s with queue := [.rxRecord 4 2 .idle false none [9]], mem := [(144, 0x41), (145, 0x42)] }

/-- Line 2 has an open record of `n` characters. -/
def assembling (n : Nat) (cells : List CellNo) (fifo : List FifoItem) (s : State := two) : State :=
  rxTwo (fun r =>
    { r with state := .assembling, fifo := fifo, openRec := some { length := n, errorFlag := false, cells := cells } }) s

/-- Line 2 in the middle of a frame. -/
def inFrame (s : State := two) : State := rxTwo (fun r => { r with framer := .inFrame }) s

/-- Line 2 in a line state. -/
def stateTwo (st : LineState) (s : State := two) : State := s.setLine 2 { s.line 2 with state := st }

/-- Match entry 3 hits 0D hex in both directions on every line, with an action. -/
def matching (a : MatchAction) (s : State) : State :=
  s.setMatch 3 { MatchEntry.reset with enabled := true, value := 0x0D, mask := 0xFF, lines := 0xFFFF, direction := .either
                                       action := a }

/-- A line's CTS about to qualify as `v`, its sample due. -/
def ctsTwo (v : Level) (s : State) : State :=
  flowTwo (fun fl => { fl with cts := ⟨if v = .asserted then .negated else .asserted, v, true⟩ }) s

/-- A line's DCD about to qualify as `v`, its sample due. -/
def dcdTwo (v : Level) (s : State) : State :=
  flowTwo (fun fl => { fl with dcd := ⟨if v = .asserted then .negated else .asserted, v, true⟩ }) s

/-- Line 2 with both samples of a tick due. -/
def sampleTwo (s : State := two) : State :=
  flowTwo (fun fl => { fl with cts.sampleDue := true, dcd.sampleDue := true }) s

/-- The state after a step on an empty queue. -/
def ticked (s : State) : State :=
  match step s with
  | .next t => t
  | .fault _ => s
  | .refused _ => s

/-! ## WellFormed -/

theorem test_wellformed_refuses :
    Instr.wellFormed (.badCommand 0x10) = false ∧ Instr.wellFormed (.badCommand 0xA5) = false ∧
    Instr.wellFormed (.commandLost 0xA5) = false ∧ Instr.wellFormed (.registerWrite 0 0x10) = false ∧
    Instr.wellFormed (.registerWrite 6 0) = false ∧ Instr.wellFormed (.registerWrite 14 0) = false ∧
    Instr.wellFormed (.registerWrite 15 0) = false := by decide

theorem test_wellformed_accepts :
    Instr.wellFormed (.badCommand 0x13) = true ∧ Instr.wellFormed (.commandLost 0x10) = true ∧
    Instr.wellFormed (.registerWrite 2 7) = true ∧ Instr.wellFormed .softReset = true ∧
    Instr.wellFormed (.arrival 15 ⟨0, false, true⟩) = true := by decide

/-- The table gives no bits: no word spells a row. -/
theorem test_no_word_spells_a_row : decodeTableWord 8 0x10 = none ∧ State.reset.withFetchWord 8 0x10 = State.reset :=
  ⟨rfl, rfl⟩

/-! ## One step of each row -/

/-- Section 3.8: OK on line 4 with break 5, BAD_PARAM for report 3, LINE_DISABLED on line 11. -/
theorem test_openBlock :
    (let t := after .openBlock (params 2 0x40 1 5 two)
     t.result = .ok ∧ t.window = some 0 ∧ t.windowLine = 2 ∧ (t.desc 0).breakBefore = 5 ∧ (t.desc 0).tag = 0x40) ∧
    (after .openBlock (params 2 2 3 0 two)).result = .badParam ∧
    (after .openBlock (params 11 1 1 0 two)).result = .lineDisabled := by decide

/-- The committed block is taken and its first character started. A block of length 0 without a break finishes at once, behind
a FINISHED block whose report finds no slot. -/
theorem test_closeBlock :
    (let t := after .closeBlock { opened 1 [9] with mem := [(144, 0x41)] }
     t.window = none ∧ (t.line 2).tx.queue = [5] ∧ (t.desc 5).phase = .active ∧ (t.line 2).tx.state = .sending ∧
        (t.line 2).tx.inFlight = some (.block 0x41)) ∧
    (let s := (txTwo (fun t => { t with queue := [6] }) (opened 0 [])).setDesc 6 (block .finished 1 1 [])
     let t := after .closeBlock (full s)
     (t.line 2).tx.queue = [6, 5] ∧ (t.desc 5).phase = .finished ∧ (t.desc 5).outcome = some .sent ∧
        (t.line 2).tx.state = .idle ∧ t.queue.length = 48) := by decide

/-- A commit whose choice waits for the DCD sample (log 28): the block is FLUSHED with 0 sent if DCD is negated (R59), and sent
otherwise. -/
theorem test_closeBlock_meets_dcd :
    let s := cfgTwo (fun c => { c with dcdAction := .closeAndFlush })
      (dcdTwo .negated (txTwo (fun x => { x with commitDue := true }) (withBlock .idle (block .queued 1 0 [9]))))
    let t := after (.qualifiedChange 2 .dcd .negated) s
    let u := after (.qualifiedChange 2 .dcd .asserted) s
    t.queue = [.txReport 2 0x40 .flushed 0] ∧ (t.line 2).tx.state = .idle ∧ (t.line 2).tx.commitDue = false ∧
      (u.line 2).tx.inFlight = some (.block 0x41) ∧ (u.line 2).tx.commitDue = false := by decide

theorem test_discardBlock :
    let t := after .discardBlock (opened 17 [9, 30])
    t.window = none ∧ (t.desc 5).phase = .free ∧ t.freeList.drop 128 = [9, 30] := by decide

/-- The first release of section 2.5's example: pointer 5, lines 2 and 9 and the match unit wait; line 9 is served. -/
theorem test_releaseHead :
    let s := rxTwo (fun r => { r with state := .idle }) two
    let s := s.setLine 2 { s.line 2 with changes := ⟨true, false, false, false⟩ }
    let s := s.setLine 9 { enabledLine .reset with
      rx := { Receiver.reset with
        state := .stalled, lostTally := 2
        closedRec := some { cause := .delimiter, length := 12, errorFlag := false, cells := [7] } } }
    let s := s.setMatch 3 { MatchEntry.reset with pendingPost := some { line := 0, direction := .rx, char := 1, count := 1 } }
    let t := after .releaseHead { full s with pointer := 5 }
    t.queue.length = 48 ∧ t.pointer = 9 ∧
      t.queue.getLast? = some (.rxRecord 9 12 .delimiter false (some 2) [7]) ∧ (t.line 9).rx.lostTally = 0 ∧
      (t.line 9).rx.state = .idle := by decide

theorem test_rewindHead :
    let t := after .rewindHead { headed two with readPtr := 2, rxPastEnd := true }
    t.readPtr = 0 ∧ t.rxPastEnd = false ∧ t.result = .ok := by decide

theorem test_setPoolLimits :
    (let t := after .setPoolLimits (params 64 127 0 0)
     t.result = .ok ∧ t.reserve = 64 ∧ t.poolLow = 127) ∧
    (after .setPoolLimits (params 65 127 0 0)).result = .badParam ∧
    (after .setPoolLimits (params 64 128 0 0)).reserve = 16 := by decide

theorem test_getPoolStatus :
    let t := after .getPoolStatus State.reset
    (t.param0, t.param1, t.param2, t.param3) = (128, 32, 16, 8) ∧ t.pendCommand = true := by decide +kernel

theorem test_setLineFormat :
    let t := after .setLineFormat (params 2 9 7 5)
    t.result = .ok ∧ (t.line 2).cfg.baud = 9 ∧ (t.line 2).cfg.dataBits = .seven ∧ (t.line 2).cfg.parity = .odd ∧
      (t.line 2).cfg.stopBits = .two ∧ (after .setLineFormat (params 2 10 7 5)).result = .badParam := by decide

theorem test_setLineRecord :
    let t := after .setLineRecord (params 2 64 255 2)
    (t.line 2).cfg.maxLength = 64 ∧ (t.line 2).cfg.idleGap = 255 ∧ (t.line 2).cfg.errorPolicy = .drop ∧
      (after .setLineRecord (params 2 65 0 0)).result = .badParam := by decide

theorem test_setLineFlow :
    let t := after .setLineFlow (params 2 3 2 1)
    (t.line 2).cfg.txFlow = .both ∧ (t.line 2).cfg.rtsMode = .flow ∧ (t.line 2).cfg.rxXoff = true := by decide

theorem test_setLineModem :
    let t := after .setLineModem (params 2 0 2 1)
    (t.line 2).cfg.dtrMode = .manual ∧ (t.line 2).cfg.dcdAction = .closeAndFlush ∧ (t.line 2).cfg.maskCts = true ∧
      (t.line 2).cfg.maskDcd = false := by decide

theorem test_setLineTimers :
    let t := after .setLineTimers (params 2 5 20 2)
    (t.line 2).cfg.rtsLead = 5 ∧ (t.line 2).cfg.rtsTrail = 20 ∧ (t.line 2).cfg.holdLimit = 2 := by decide

theorem test_setLineQueue :
    let t := after .setLineQueue (params 2 8 1 0)
    (t.line 2).cfg.quota = 8 ∧ (t.line 2).cfg.holdAction = .flush ∧
      (after .setLineQueue (params 2 9 1 0 )).result = .badParam ∧ (after .setLineQueue (params 2 8 1 0 two)).result = .lineActive
    := by decide

/-- The defaults of R139. -/
theorem test_getLineConfig :
    let t := after .getLineConfig (params 2 0 0 0)
    (t.param0, t.param1, t.param2, t.param3) = (0, 5, 8, 0) := by decide

theorem test_enableLine :
    let t := after .enableLine (params 2 0 0 0)
    (t.line 2).state = .enabled ∧ (t.line 2).tx.state = .idle ∧ (t.line 2).rx.state = .idle ∧
      (t.line 2).rx.framer = .awaitingMark ∧
      ((after .enableLine (stateTwo .disabled (txTwo (fun x => { x with state := .off, breakSent := true }) two))).line
        2).tx.breakSent = false := by decide

theorem test_restartLine :
    (let t := after .restartLine two
     t.result = .ok ∧ (t.line 2).state = .enabled ∧
        t.queue = [.lineEvent 2 ⟨false, false, false, true⟩ .negated .negated]) ∧
    (let t := after .restartLine (sending 2)
     t.busy = some (.restart 2) ∧ (t.line 2).state = .restarting ∧ (t.desc 5).phase = .active) := by decide

theorem test_disableLine :
    (let t := after .disableLine two
     (t.line 2).state = .disabled ∧ (t.line 2).tx.state = .off ∧ (t.line 2).rx.state = .off) ∧
    (after .disableLine (params 2 0 0 0)).result = .ok := by decide

theorem test_getLineStatus :
    let t := after .getLineStatus (withBlock .held (block .active 2 0 [9]))
    (t.param0, t.param1, t.param2, t.param3) = (1, 5, 1, 1) := by decide

theorem test_haltLine :
    ((after .haltLine two).line 2).tx.state = .halted ∧ ((after .haltLine (sending 2)).line 2).tx.haltRequest = true ∧
      ((after .haltLine (sending 2)).line 2).tx.state = .sending := by decide

theorem test_resumeLine :
    let t := after .resumeLine (withBlock .halted (block .active 1 0 [9]))
    (t.line 2).tx.state = .sending ∧ (t.line 2).tx.inFlight = some (.block 0x41) := by decide

theorem test_flushLine :
    (let t := after .flushLine (withBlock .halted (block .active 1 0 [9]))
     t.queue = [.txReport 2 0x40 .flushed 0] ∧ (t.desc 5).phase = .free ∧ t.busy = none) ∧
    (after .flushLine (sending 2)).busy = some (.flush 2) := by decide

theorem test_setModemOutputs :
    let t := after .setModemOutputs (params 2 2 0 0 two)
    (t.line 2).flow.manualRts = .asserted ∧ rtsLevel (t.line 2) = .asserted ∧
      (after .setModemOutputs (params 2 0 1 0 two)).result = .badParam := by decide

theorem test_getModemStatus :
    let t := after .getModemStatus two
    (t.param0, t.param1, t.param2, t.param3) = (0, 0, 0, 1) := by decide

theorem test_setMatchEntry :
    let t := after .setMatchEntry (params 7 0x0D 0xFF 6)
    (t.matchEntry 7).direction = .either ∧ (t.matchEntry 7).action = .delimit ∧ (t.matchEntry 7).value = 0x0D ∧
      (after .setMatchEntry (params 7 0 0 3)).result = .badParam := by decide

theorem test_setMatchLines : ((after .setMatchLines (params 0 0x28 0x80 0)).matchEntry 0).lines = 0x8028 := by
  decide

theorem test_enableMatchEntry :
    ((after .enableMatchEntry (params 7 0 0 0)).matchEntry 7).enabled = true ∧
      (after .enableMatchEntry (params 8 0 0 0)).result = .badParam := by decide

theorem test_disableMatchEntry :
    ((after .disableMatchEntry (params 3 0 0 0 (matching .post two))).matchEntry 3).enabled = false := by decide

theorem test_readMatchEntry :
    let t := after .readMatchEntry (params 3 0 0 0 (matching .hold two))
    (t.param0, t.param1, t.param2, t.param3) = (29, 0x0D, 0xFF, 0) := by decide

theorem test_readCapture :
    let c : CaptureRecord := { state := .locked, entry := 0, line := 3, direction := .rx, char := 0x0D, position := 11
                               tag := none, laterHits := 1 }
    (let t := after .readCapture { State.reset with capture := c }
     (t.param0, t.param1, t.param2, t.param3) = (1, 3, 0x0D, 11)) ∧
    (let t := after .readCapture { params 1 0 0 0 with capture := c }
     (t.param0, t.param1, t.param2, t.param3) = (1, 0, 0, 1)) := by decide

theorem test_clearCapture :
    (after .clearCapture { State.reset with capture := { CaptureRecord.empty with state := .locked } }).capture.state
      = .unlocked ∧ (after .clearCapture State.reset).capture.state = .empty := by decide

/-- Section 9.8's last row. -/
theorem test_readLineCounters :
    let s := State.reset.setLine 6 { Line.reset with counters := ⟨1, 0, 1, 0⟩ }
    let t := after .readLineCounters { s with param0 := 6 }
    (t.param0, t.param1, t.param2, t.param3) = (1, 0, 1, 0) ∧ (t.line 6).counters = ⟨1, 0, 1, 0⟩ := by decide

theorem test_readAndClearLineCounters :
    let s := State.reset.setLine 6 { Line.reset with counters := ⟨1, 0, 1, 0⟩ }
    let t := after .readAndClearLineCounters { s with param0 := 6 }
    (t.param0, t.param1, t.param2, t.param3) = (1, 0, 1, 0) ∧ (t.line 6).counters = ⟨0, 0, 0, 0⟩ := by decide

theorem test_readErrorSet :
    let t := after .readErrorSet { State.reset with errorSet := 0x0142, suppressMinor := true }
    (t.param0, t.param1, t.param2, t.param3) = (0x42, 1, 1, 0) := by decide

theorem test_clearErrorSet :
    (after .clearErrorSet { params 0x42 0 0 0 with errorSet := 0x0142 }).errorSet = 0x0100 := by decide

theorem test_readErrorRecord :
    let r : ErrorRecord := { state := .locked, firstKind := .overrun, firstSeverity := .severe, line := 6, char := none
                             severeAfter := false, further := 1 }
    let t := after .readErrorRecord { State.reset with errorRec := r }
    (t.param0, t.param1, t.param2, t.param3) = (0x19, 6, 0, 1) := by decide

theorem test_clearErrorRecord :
    let r : ErrorRecord := { state := .locked, firstKind := .overrun, firstSeverity := .severe, line := 6, char := none
                             severeAfter := false, further := 1 }
    (after .clearErrorRecord { State.reset with errorRec := r }).errorRec = { r with state := .unlocked, further := 0 } := by
  decide

theorem test_setErrorOptions :
    (after .setErrorOptions (params 1 0 0 0)).suppressMinor = true ∧
      (after .setErrorOptions (params 2 0 0 0)).result = .badParam := by decide

theorem test_softReset :
    let t := after .softReset { opened 1 [9] with busy := some (.flush 2) }
    t.busy = none ∧ t.windowLost = true ∧ t.pendWindow = true ∧ (t.line 2).state = .disabled ∧ t.freeList.length = 128 := by
  decide +kernel

theorem test_badCommand :
    (after (.badCommand 0x13) State.reset).result = .badCommand ∧ (after (.badCommand 0xFF) State.reset).pendCommand = true
    := by decide

theorem test_commandLost :
    let t := after (.commandLost 0x21) { State.reset with busy := some (.flush 2) }
    t.commandLost = true ∧ t.param0 = 0 := by decide

/-- Section 3.8: the byte at count 0 is taken at a free count of 17 and refused at 16. -/
theorem test_txdataWrite :
    (let t := after (.txdataWrite 0x55) { opened 0 [] with freeList := allCells.drop 111 }
     (t.desc 5).length = 1 ∧ (t.desc 5).cells = [111] ∧ t.mem = [(1776, 0x55)] ∧ t.freeList.length = 16) ∧
    (let t := after (.txdataWrite 0x55) { opened 0 [] with freeList := allCells.drop 112 }
     t.lastRefused = true ∧ t.noCell = true ∧ (t.desc 5).length = 0) := by decide

theorem test_rxdataRead :
    (let t := after .rxdataRead { headed two with readPtr := 1 }
     t.readData = 0x42 ∧ t.readPtr = 2) ∧
    (let t := after .rxdataRead { headed two with readPtr := 2 }
     t.readData = 0 ∧ t.rxPastEnd = true ∧ t.readPtr = 2) := by decide

theorem test_intpendWrite :
    let t := after (.intpendWrite 0x0A) { State.reset with pendCommand := true, pendCapture := true, pendError := true }
    t.pendCommand = false ∧ t.pendCapture = true ∧ t.pendError = false := by decide

theorem test_intenWrite :
    let t := after (.intenWrite 0xC2) { State.reset with pendCommand := true }
    t.inten = 2 ∧ irqLow t = true ∧ irqLow { State.reset with pendCommand := true } = false := by decide

theorem test_registerWrite :
    (after (.registerWrite 5 0x77) State.reset).param3 = 0x77 ∧ after (.registerWrite 9 0x77) State.reset = State.reset := by
  decide

theorem test_hardwareReset :
    let t := after .hardwareReset (sending 2)
    t.resetHeld = true ∧ t.freeList.length = 128 ∧ (t.line 2).state = .disabled ∧ readRegister t 9 = 0 := by decide +kernel

theorem test_resetEnd : after .resetEnd { State.reset with resetHeld := true } = State.reset := by decide

/-- Section 9.8's second row: an overrun loads the record although a framing error before it did not. -/
theorem test_arrival :
    (let t := after (.arrival 2 ⟨0x41, false, true⟩) (inFrame)
     (t.line 2).rx.fifo = [.char 0x41 .ok] ∧ (t.line 2).rx.framer = .hunting) ∧
    (let t := after (.arrival 2 ⟨0x41, false, true⟩)
        (rxTwo (fun r => { r with fifo := List.replicate 4 .breakMarker }) inFrame)
     (t.line 2).counters.overrun = 1 ∧ t.errorSet = 4 ∧ t.errorRec.firstKind = .overrun ∧ (t.line 2).rx.lostTally = 1) := by
  decide

theorem test_arrival_of_break_start :
    let t := after (.arrival 2 ⟨0, false, false⟩) inFrame
    (t.line 2).rx.fifo = [.breakMarker] ∧ (t.line 2).rx.framer = .awaitingMark ∧ t.errorSet = 0 := by decide

theorem test_qualifiedChange :
    let t := after (.qualifiedChange 2 .cts .asserted) (cfgTwo (fun c => { c with maskCts := true }) (ctsTwo .asserted two))
    (t.line 2).flow.cts.level = .asserted ∧ t.queue = [.lineEvent 2 ⟨true, false, false, false⟩ .asserted .negated] := by
  decide

theorem test_leadEnd :
    let t := after (.leadEnd 2) (txTwo (fun x => { x with leadTimer := some 0, keyed := true })
      (withBlock .keying (block .active 1 0 [9])))
    (t.line 2).tx.state = .sending ∧ (t.line 2).tx.leadTimer = none ∧ (t.line 2).tx.keyed = true := by decide

theorem test_breakTimerExpiry :
    let t := after (.breakTimerExpiry 2) (txTwo (fun x => { x with breakTimer := .space 0 })
      (withBlock .breaking (block .active 1 0 [9])))
    (t.line 2).tx.breakTimer = .mark ∧ txdLine (t.line 2) = .mark := by decide

/-- A reported block of length 0 finishes at the break's end; the block that follows it, of length 0 and without a break,
finishes in the same event, and so does the FINISHED block behind. -/
theorem test_breakEnd :
    (let t := after (.breakEnd 2) (txTwo (fun x => { x with breakTimer := .mark })
      (withBlock .breaking (block .active 0 0 [] true 5)))
     t.queue = [.txReport 2 0x40 .sent 0] ∧ (t.line 2).tx.state = .idle) ∧
    (let s := txTwo (fun x => { x with breakTimer := .mark, queue := [5, 6, 7] })
        (withBlock .breaking (block .active 0 0 [] true 5))
     let t := after (.breakEnd 2) ((s.setDesc 6 (block .queued 0 0 [] false)).setDesc 7 (block .finished 3 1 []))
     t.queue = [.txReport 2 0x40 .sent 0, .txReport 2 0x40 .sent 1] ∧ (t.line 2).tx.queue = [] ∧
        (t.line 2).tx.state = .idle) := by decide

theorem test_trailEnd :
    let t := after (.trailEnd 2) (txTwo (fun x => { x with state := .trailing, trailTimer := some 0, keyed := true }) two)
    (t.line 2).tx.state = .idle ∧ (t.line 2).tx.keyed = false := by decide

/-- With FLUSH the LINE_EVENT stands somewhere among the reports (R29): with one report, before it or behind it. -/
theorem test_holdExpiry :
    (let t := after (.holdExpiry 2) (txTwo (fun x => { x with holdTimer := some 0, remoteHold := true, inHold := true })
      (withBlock .held (block .active 1 0 [9])))
     (t.line 2).tx.state = .held ∧ t.queue = [.lineEvent 2 ⟨false, false, true, false⟩ .negated .negated]) ∧
    (let t := after (.holdExpiry 2) (cfgTwo (fun c => { c with holdAction := .flush })
        (txTwo (fun x => { x with holdTimer := some 0, inHold := true }) (full (withBlock .held (block .active 1 0 [9])))))
     (t.line 2).tx.state = .idle ∧ (t.desc 5).outcome = some .flushed ∧ (t.desc 5).sent = 0 ∧ t.queue.length = 48 ∧
        (t.line 2).changes = holdExpiredChange) := by decide

/-- An idle gap that ends with an empty FIFO closes the record. -/
theorem test_idleExpiry :
    let t := after (.idleExpiry 2) (rxTwo (fun r => { r with idleTimer := some 0 }) (assembling 3 [9] []))
    t.queue = [.rxRecord 2 3 .idle false none [9]] ∧ (t.line 2).rx.state = .idle := by decide

/-- The take of a break marker before the idle expiry that meets it (R110, third row). -/
theorem test_idleExpiry_after_break :
    let s := rxTwo (fun r => { r with idleTimer := some 0 }) (assembling 3 [9] [.breakMarker])
    (after (.idleExpiry 2) (after (.assemblerTake 2) s)).queue = [.rxRecord 2 3 .brk false none [9]] := by decide

/-- The expiry before the take: the record closes with IDLE (R110) or the timer is loaded again (R109), drawn (log 27). -/
theorem test_idleExpiry_before_break :
    let s := cfgTwo (fun c => { c with idleGap := 5 })
      (rxTwo (fun r => { r with idleTimer := some 0 }) (assembling 3 [9] [.breakMarker]))
    let t := idleExpiry 2 s
    (t.queue = [.rxRecord 2 3 .idle false none [9]] ∧ (t.line 2).rx.state = .idle) ∨
      (t.queue = [] ∧ (t.line 2).rx.idleTimer = some 5) := by
  intro s t
  have h : t = if Config.freeChoice 0 % 2 = 0 then closeOpen 2 .idle { s with freeCtr := 1 }
      else loadIdle 2 { s with freeCtr := 1 } := rfl
  rw [h]
  split
  · exact .inl (by decide)
  · exact .inr (by decide)

/-- The last character frees the block; a flush that waits makes the outcome of an unfinished block FLUSHED. -/
theorem test_characterBoundary :
    (let t := after (.characterBoundary 2) (sending 1)
     t.queue = [.txReport 2 0x40 .sent 1] ∧ (t.desc 5).phase = .free ∧ (t.line 2).tx.state = .idle) ∧
    (let t := after (.characterBoundary 2) (sending 2)
     (t.desc 5).sent = 1 ∧ (t.line 2).tx.state = .sending) ∧
    (let t := after (.characterBoundary 2) (txTwo (fun x => { x with flushDue := true }) (sending 2))
     t.queue = [.txReport 2 0x40 .flushed 1] ∧ (t.desc 5).phase = .free ∧ (t.line 2).tx.flushDue = false) := by decide

/-- Section 5.9: a character refused a cell at position 16 closes the record with STORE_FULL and stays. -/
theorem test_assemblerTake :
    (let t := after (.assemblerTake 2) { assembling 16 [9] [.char 0x41 .ok] with freeList := [] }
     t.queue = [.rxRecord 2 16 .storeFull false none [9]] ∧ (t.line 2).rx.fifo = [.char 0x41 .ok] ∧
        (t.line 2).rx.state = .idle) ∧
    (let t := after (.assemblerTake 2) (assembling 1 [9] [.char 0x41 .ok])
     t.mem = [(145, 0x41)] ∧ (t.line 2).rx.openRec = some ⟨2, false, [9]⟩) := by decide

theorem test_postGrant :
    let s := two.setLine 2 { two.line 2 with changes := ⟨true, false, false, false⟩ }
    let t := after .postGrant { s with pointer := 2 }
    t.queue = [.lineEvent 2 ⟨true, false, false, false⟩ .negated .negated] ∧ t.pointer = 2 ∧
      (t.line 2).changes = noChanges := by decide

theorem test_frameStart :
    ((after (.frameStart 2) (rxTwo (fun r => { r with framer := .hunting }) two)).line 2).rx.framer = .inFrame := by
  decide

theorem test_frameAbandonedAsNoise :
    ((after (.frameAbandonedAsNoise 2) inFrame).line 2).rx.framer = .hunting := by decide

theorem test_rxdReturnsToMark : ((after (.rxdReturnsToMark 2) two).line 2).rx.framer = .hunting := by decide

theorem test_modemInputSample :
    (let t := after (.modemInputSample 2 .asserted .negated) sampleTwo
     (t.line 2).flow.cts = ⟨.negated, .asserted, false⟩ ∧ (t.line 2).flow.dcd = ⟨.negated, .negated, false⟩) ∧
    (after (.modemInputSample 2 .asserted .negated) two).line 2 = two.line 2 := by decide

/-- An empty queue is one tick: a running timer counts down and the samples are due. The next tick waits for the samples. -/
theorem test_tick :
    let s := txTwo (fun x => { x with holdTimer := some 200 }) two
    ((ticked s).line 2).tx.holdTimer = some 199 ∧ ((ticked s).line 2).flow.cts.sampleDue = true ∧
      ((ticked (sampleTwo s)).line 2).tx.holdTimer = some 200 := by decide +kernel

/-- A tick waits for a timer that has expired (R192): the idle timer of an open record. -/
theorem test_tick_waits :
    let s := rxTwo (fun r => { r with idleTimer := some 0 }) (assembling 3 [9] [])
    TickOpen (s.line 2) ∧ ((ticked (txTwo (fun x => { x with holdTimer := some 200 }) s)).line 2).tx.holdTimer = some 200 ∧
      ¬TickOpen (two.line 2) := by decide +kernel

/-- An expiry row before its timer has expired changes nothing; so it is for the idle timer that a take has loaded again
(R110, second row). -/
theorem test_expiry_before_its_time :
    let s := cfgTwo (fun c => { c with idleGap := 5 }) (assembling 3 [9] [.char 0x41 .ok])
    let s := rxTwo (fun r => { r with idleTimer := some 0 }) s
    let t := after (.assemblerTake 2) s
    (t.line 2).rx.idleTimer = some 5 ∧ (after (.idleExpiry 2) t).line 2 = t.line 2 ∧
      ((after (.idleExpiry 2) s).line 2).rx.idleTimer = some 5 := by decide

/-! ## Hypotheses that hold somewhere

For each statement with hypotheses, states and operands that meet them, one conjunct or more for each clause. -/

theorem test_hyps_CommandWriteByItsCode :
    State.reset.resetHeld = false ∧ State.reset.busy = none ∧ { State.reset with busy := some (.flush 0) }.busy.isSome ∧
    (∀ p ∈ commandRows, p.1 ≠ 0x13) ∧ (0x13 : Byte) ≠ 0xA5 ∧ (∀ p ∈ commandRows, p.1 ≠ 0x00) ∧
    ∀ p ∈ commandRows, p.1 ≠ 0xFF := by decide

/-- `resetHeld` is clear after reset: SOFT RESET, the register writes and reads; it is set while RESET_N is low. -/
theorem test_hyps_resets_and_registers :
    State.reset.resetHeld = false ∧ (after .hardwareReset State.reset).resetHeld = true ∧ State.reset.pending = [] ∧
    Instr.openBlock ≠ .hardwareReset ∧ Instr.openBlock ≠ .resetEnd ∧ Instr.openBlock ≠ .rxdataRead ∧
    (1 : BitVec 4) ∉ ([0, 2, 3, 4, 5, 6, 14, 15] : List (BitVec 4)) ∧
    (13 : BitVec 4) ∉ ([0, 2, 3, 4, 5, 6, 14, 15] : List (BitVec 4)) := by decide

/-- A tick that may happen. -/
theorem test_hyps_EmptyQueueStepIsOneTick :
    two.pending = [] ∧ two.resetHeld = false ∧ ∀ l, ¬TickOpen (two.line l) := by decide

/-- Each thing that holds a tick back. -/
theorem test_hyps_EmptyQueueStep_waits :
    (∀ x ∈ [{ two.line 2 with tx.state := .keying, tx.leadTimer := some 0 },
        { two.line 2 with tx.state := .trailing, tx.trailTimer := some 0 },
        { two.line 2 with tx.state := .breaking, tx.breakTimer := .space 0 },
        { two.line 2 with tx.state := .held, tx.holdTimer := some 0 },
        { two.line 2 with rx.state := .assembling, rx.idleTimer := some 0 },
        { two.line 2 with flow.cts.sampleDue := true }, { two.line 2 with flow.dcd.sampleDue := true }], TickOpen x) ∧
    { two with resetHeld := true }.resetHeld = true := by decide

theorem test_hyps_RegistersShowTheState :
    State.reset.window = none ∧ (opened 64 [9, 10, 11, 12]).window = some 5 ∧
    (opened 64 [9, 10, 11, 12]).resetHeld = false := by decide

theorem test_hyps_HeadRegistersPresentTheOldestEntry :
    State.reset.queue = [] ∧
    { two with queue := [.rxRecord 15 0 .brk false none []] }.queue = .rxRecord 15 0 .brk false none [] :: [] ∧
    { two with queue := [.rxRecord 0 64 .length true (some 255) [1, 2, 3, 4]] }.queue
      = .rxRecord 0 64 .length true (some 255) [1, 2, 3, 4] :: [] ∧
    (full two).queue = .txReport 0 0 .sent 0 :: List.replicate 47 (.txReport 0 0 .sent 0) ∧
    { two with queue := [.lineEvent 2 noChanges .asserted .negated] }.queue
      = .lineEvent 2 noChanges .asserted .negated :: [] ∧
    { two with queue := [.matched 2 7 .tx 0 255] }.queue = .matched 2 7 .tx 0 255 :: [] := by decide

theorem test_hyps_PoolCommands :
    Ready State.reset ∧ (params 64 127 0 0).param0.toNat ≤ 64 ∧ (params 64 127 0 0).param1.toNat ≤ 127 ∧
    65 ≤ (params 65 0 0 0).param0.toNat ∧ 128 ≤ (params 0 128 0 0).param1.toNat ∧ Ready (params 65 128 0 0) := by
  decide

theorem test_hyps_OpenBlock :
    Ready two ∧ 16 ≤ (params 16 0 0 0).param0.toNat ∧ 2 ≤ (params 0 0 2 0).param2.toNat ∧ Names two.param0 2 ∧
    two.param2.toNat < 2 ∧ (opened 0 []).window.isSome ∧ two.window = none ∧ (State.reset.line 2).state = .disabled ∧
    ((stateTwo .restarting).line 2).state = .restarting ∧ ((stateTwo .disabling).line 2).state = .disabling ∧
    (two.line 2).state = .enabled ∧
    (let s := txTwo (fun t => { t with queue := [0, 1, 2, 3] }) two
     (s.line 2).cfg.quota ≤ (s.line 2).tx.queue.length) ∧
    (let s := txTwo (fun t => { t with queue := [0, 1, 2] }) two
     (s.line 2).tx.queue.length < (s.line 2).cfg.quota) ∧
    (∀ d, ({ two with descs := Vector.replicate 32 (block .finished 0 0 []) }.desc d).phase ≠ .free) ∧
    (two.desc 0).phase = .free ∧ (∀ e : DescNo, e < 0 → (two.desc e).phase ≠ .free) ∧
    ((params 2 0 0 0).param2, false) ∈ boolCodes ∧ ((params 2 0 1 0).param2, true) ∈ boolCodes ∧
    (let s := (List.finRange 31).foldl (fun s d => s.setDesc (d.castLE (by decide)) (block .finished 0 0 [])) two
     (s.desc 31).phase = .free ∧ ∀ e : DescNo, e < 31 → (s.desc e).phase ≠ .free) := by decide

theorem test_hyps_TxdataWrite :
    two.resetHeld = false ∧ two.window = none ∧ (opened 64 [1, 2, 3, 4]).window = some 5 ∧
    64 ≤ ((opened 64 [1, 2, 3, 4]).desc 5).length ∧ ((opened 0 []).desc 5).length % 16 = 0 ∧
    (let s := { opened 48 [1, 2, 3] with freeList := allCells.drop 112 }
     (s.desc 5).length < 64 ∧ (s.desc 5).length % 16 = 0 ∧ s.freeList.length ≤ s.reserve) ∧
    (let s := opened 63 [1, 2, 3, 4]
     Memory.wf s.mem = true ∧ (s.desc 5).length < 64 ∧ (s.desc 5).length % 16 ≠ 0 ∧ [1, 2, 3, 4] = (s.desc 5).cells ∧
      allCells = s.freeList ∧ false = s.pendPool) ∧
    (let s := opened 0 []
     (s.desc 5).length % 16 = 0 ∧ s.reserve < s.freeList.length ∧
      (s.freeList = 0 :: allCells.tail ∧ [0] = (s.desc 5).cells ++ [0]) ∧
      false = (s.pendPool || decide (s.freeList.length = s.poolLow))) ∧
    (let s := { opened 16 [9] with freeList := allCells.drop 120, reserve := 0 }
     (s.desc 5).length % 16 = 0 ∧ s.reserve < s.freeList.length ∧
      (s.freeList = 120 :: allCells.drop 121 ∧ [9, 120] = (s.desc 5).cells ++ [120]) ∧
      true = (s.pendPool || decide (s.freeList.length = s.poolLow))) := by decide

theorem test_hyps_CloseBlockCommits :
    Ready two ∧ two.window = none ∧ (opened 1 [9]).window = some 5 ∧ ((opened 1 [9]).desc 5).line = 2 ∧
    (let s := txTwo (fun t => { t with state := .halted }) (opened 1 [9])
     (s.line 2).tx.state ≠ .idle ∧ (s.line 2).tx.state ≠ .trailing) ∧
    ((txTwo (fun t => { t with state := .trailing }) (opened 1 [9])).line 2).tx.state = .trailing ∧
    ¬MeetsDcdFlush ((txTwo (fun t => { t with state := .trailing }) (opened 1 [9])).line 2) ∧
    (let s := cfgTwo (fun c => { c with dcdAction := .closeAndFlush }) (dcdTwo .negated (opened 1 [9]))
     (s.line 2).tx.state = .idle ∧ MeetsDcdFlush (s.line 2)) ∧
    (let s := opened 0 []
     Ready s ∧ ¬MeetsDcdFlush (s.line 2) ∧ (s.line 2).tx.state = .idle ∧ (s.line 2).tx.haltRequest = false ∧ (s.line 2).tx.keyed = false ∧
      (s.line 2).tx.pendingPriority = none ∧ (s.line 2).tx.queue = [] ∧ (s.desc 5).length = 0 ∧
      (s.desc 5).breakBefore = 0 ∧ (s.desc 5).cells = [] ∧ (s.desc 5).report = true ∧ SlotFree s) := by decide

/-- The next-step choice comes to blocks of length 0: the first of two unreported ones, in TX_TRAILING and in TX_HALTED. -/
theorem test_hyps_Chooses_zero :
    ∀ st ∈ [TxState.idle, .trailing, .halted],
      let s := (txTwo (fun t => { t with state := st, queue := [5, 6] }) two).setDesc 5 (block .queued 0 0 [] false)
      ZeroBlock 2 5 (s.setDesc 6 (block .queued 0 0 [] false)) := by decide

/-- The clauses of one making of the choice: a halt, an ACTIVE block, a block to take on a line that must key and on one that
need not. -/
theorem test_hyps_ChoiceMade_halt :
    let s := txTwo (fun t => { t with haltRequest := true }) (withBlock .sending (block .active 1 0 [9]))
    (s.line 2).tx.haltRequest = true ∧ ∀ d, ¬ZeroBlock 2 d s := by decide

theorem test_hyps_ChoiceMade_active :
    let s := withBlock .sending (block .active 1 0 [9])
    (s.line 2).tx.haltRequest = false ∧ Working s 2 5 ∧ ∀ d, ¬ZeroBlock 2 d s := by decide

theorem test_hyps_ChoiceMade_take :
    let s := withBlock .idle (block .queued 0 0 [] true 1)
    NoneActive s 2 ∧ OldestQueued s 2 5 ∧ (s.desc 5).breakBefore ≠ 0 ∧ ¬Unkeyed (s.line 2) ∧ ∀ d, ¬ZeroBlock 2 d s := by
  decide

theorem test_hyps_ChoiceMade_keying :
    let s := cfgTwo (fun c => { c with rtsMode := .keyed }) (withBlock .idle (block .queued 1 0 [9]))
    NoneActive s 2 ∧ OldestQueued s 2 5 ∧ (s.desc 5).length ≠ 0 ∧ Unkeyed (s.line 2) ∧ (s.line 2).cfg.rtsLead = 0 ∧
      ((cfgTwo (fun c => { c with rtsLead := 1 }) s).line 2).cfg.rtsLead ≠ 0 := by decide

/-- The clauses without a block: a priority character alone, nothing to send. -/
theorem test_hyps_ChoiceMade_no_block :
    (let s := txTwo (fun t => { t with pendingPriority := some .xon }) two
     NoneActive s 2 ∧ NoneQueued s 2 ∧ (s.line 2).tx.pendingPriority = some .xon ∧ ¬Unkeyed (s.line 2) ∧
      Unkeyed ((cfgTwo (fun c => { c with rtsMode := .keyed }) s).line 2)) ∧
    NoneActive two 2 ∧ NoneQueued two 2 ∧ (two.line 2).tx.pendingPriority = none ∧ (two.line 2).tx.keyed = false ∧
    (two.line 2).cfg.rtsTrail = 0 ∧ ((txTwo (fun t => { t with keyed := true }) two).line 2).tx.keyed = true ∧
    ((cfgTwo (fun c => { c with rtsTrail := 1 }) two).line 2).cfg.rtsTrail ≠ 0 := by decide

/-- The clauses of the choice with an ACTIVE block: the hold, with and without a priority character, the priority character,
the break, the character with its break sent. -/
theorem test_hyps_BlockChoice :
    let s := withBlock .sending (block .active 1 0 [9] true 2)
    let held := cfgTwo (fun c => { c with txFlow := .xonXoff }) (txTwo (fun t => { t with remoteHold := true }) s)
    let asks := txTwo (fun t => { t with pendingPriority := some .xoff })
    (Held (held.line 2) ∧ (held.line 2).tx.pendingPriority = none) ∧
    (Held ((asks held).line 2) ∧ ((asks held).line 2).tx.pendingPriority = some .xoff) ∧
    (¬Held ((asks s).line 2) ∧ ((asks s).line 2).tx.pendingPriority = some .xoff) ∧
    (¬Held (s.line 2) ∧ (s.line 2).tx.breakSent = false ∧ (s.desc 5).breakBefore ≠ 0) ∧
    ((txTwo (fun t => { t with breakSent := true }) s).line 2).tx.breakSent = true := by decide

theorem test_hyps_DiscardBlockAbandons : Ready (opened 17 [9, 10]) ∧ (opened 17 [9, 10]).window = some 5 ∧
    two.window = none := by decide

theorem test_hyps_ReleaseHead :
    Ready State.reset ∧ State.reset.queue = [] ∧ Ready (headed two) ∧
    (headed two).queue = .rxRecord 4 2 .idle false none [9] :: [] ∧ ∀ src, ¬Waits { two with queue := [] } src := by
  decide

theorem test_hyps_RewindHeadAndRxdataRead :
    (let s := { headed two with readPtr := 1 }
     s.resetHeld = false ∧ s.queue = .rxRecord 4 2 .idle false none [9] :: [] ∧ s.readPtr < 2 ∧
      ([9] : List CellNo)[s.readPtr / 16]? = some 9) ∧
    ∀ (l : LineNo) (n : Nat) (c : Cause) (e : Bool) (lost : Option Byte) (cells : List CellNo) (rest : List Entry),
      { headed two with readPtr := 2 }.queue = .rxRecord l n c e lost cells :: rest →
        n ≤ { headed two with readPtr := 2 }.readPtr := by
  refine ⟨by decide, ?_⟩
  intro l n c e lost cells rest h
  injection h with h _
  injection h with _ hn
  exact Nat.le_of_eq hn.symm

/-- A line waits with a change set, with a report, with a stalled record, and the match unit waits. -/
theorem test_hyps_PostGrant_nothing : two.resetHeld = false ∧ ¬SlotFree (full two) ∧ ∀ src, ¬Waits two src := by
  decide

theorem test_hyps_PostGrant_changes :
    let s := two.setLine 2 { two.line 2 with changes := ⟨true, false, false, false⟩ }
    SlotFree s ∧ Chosen s 2 ∧ (s.line 2).changes ≠ noChanges := by decide

theorem test_hyps_PostGrant_report :
    let s := withBlock .idle (block .finished 1 1 [])
    SlotFree s ∧ Chosen s 2 ∧ (s.line 2).changes = noChanges ∧ (s.line 2).tx.queue = 5 :: [] ∧ ReportWaits s 2 5 ∧
      (s.desc 5).outcome = some .sent := by decide

/-- After a grant the reports behind it are posted too, as far as slots are free (R32). -/
theorem test_PostGrant_goes_on :
    let s := txTwo (fun x => { x with queue := [5, 6, 7] }) (withBlock .idle (block .finished 1 1 []))
    let s := (s.setDesc 6 (block .finished 2 2 [] false)).setDesc 7 (block .finished 3 3 [])
    (after .postGrant s).queue = [.txReport 2 0x40 .sent 1, .txReport 2 0x40 .sent 3] ∧
      ((after .postGrant { s with queue := List.replicate 47 (.txReport 0 0 .sent 0) }).line 2).tx.queue = [7] := by
  decide

theorem test_hyps_PostGrant_record :
    let r : ClosedRecord := { cause := .length, length := 64, errorFlag := true, cells := [1, 2, 3, 4] }
    let s := rxTwo (fun x => { x with state := .stalled, closedRec := some r }) two
    SlotFree s ∧ Chosen s 2 ∧ (s.line 2).changes = noChanges ∧ (∀ d, ¬ReportWaits s 2 d) ∧
      (s.line 2).rx.closedRec = some r := by decide

theorem test_hyps_PostGrant_match :
    let p : PendingPost := { line := 5, direction := .rx, char := 0x0D, count := 2 }
    let s := State.reset.setMatch 3 { MatchEntry.reset with pendingPost := some p }
    SlotFree s ∧ Chosen s 16 ∧ (s.matchEntry 3).pendingPost = some p ∧
      ∀ k : MatchNo, k < 3 → (s.matchEntry k).pendingPost = none := by decide

theorem test_hyps_ConfigurationAccepted_format :
    let s := params 2 9 7 5
    Ready s ∧ Names s.param0 2 ∧ (s.line 2).state = .disabled ∧ (s.line 2).tx.queue = [] ∧
      s.param1.toNat = (9 : Fin 10).val ∧ (s.param2, DataBits.seven) ∈ dataBitsCodes ∧
      (s.param3, Parity.odd, StopBits.two) ∈ parityStopCodes := by decide

theorem test_hyps_ConfigurationAccepted_others :
    1 ≤ (params 2 1 0 0).param1.toNat ∧ (params 2 64 0 2).param1.toNat ≤ 64 ∧
    ((params 2 64 0 2).param3, ErrorPolicy.drop) ∈ errorPolicyCodes ∧
    ((params 2 3 2 1).param1, TxFlow.both) ∈ txFlowCodes ∧ ((params 2 3 2 1).param2, RtsMode.flow) ∈ rtsModeCodes ∧
    ((params 2 3 2 1).param3, true) ∈ boolCodes ∧ ((params 2 1 2 3).param1, DtrMode.auto) ∈ dtrModeCodes ∧
    ((params 2 1 2 3).param2, DcdAction.closeAndFlush) ∈ dcdActionCodes ∧
    ((params 2 1 2 3).param3, true, true) ∈ eventMaskCodes ∧ (params 2 8 1 0).param1.toNat ≤ 8 ∧
    ((params 2 8 1 0).param2, HoldAction.flush) ∈ holdActionCodes := by decide

theorem test_hyps_ConfigurationRefused :
    Ready (params 16 0 0 0) ∧ Instr.setLineFormat ∈ configRows ∧ 16 ≤ (params 16 0 0 0).param0.toNat ∧
    badlyCoded .setLineFormat 10 7 0 = true ∧ badlyCoded .setLineRecord 65 0 0 = true ∧
    badlyCoded .setLineFlow 0 3 0 = true ∧ badlyCoded .setLineModem 0 0 4 = true ∧ badlyCoded .setLineQueue 0 0 0 = true ∧
    badlyCoded .setLineTimers 255 255 255 = false ∧ Names two.param0 2 ∧ badlyCoded .setLineFormat 9 8 5 = false ∧
    ((stateTwo .restarting).line 2).state = .restarting ∧ ((stateTwo .disabling).line 2).state = .disabling ∧
    (two.line 2).state = .enabled ∧
    (let s := stateTwo .disabled (withBlock .off (block .finished 0 0 []))
     (s.line 2).state = .disabled ∧ (s.line 2).tx.queue ≠ []) := by decide

theorem test_hyps_GetLineConfig :
    Ready two ∧ 16 ≤ (params 16 0 0 0).param0.toNat ∧ 6 ≤ (params 0 6 0 0).param1.toNat ∧ Names two.param0 2 ∧
    two.param1 = 0 ∧ (8, (two.line 2).cfg.dataBits) ∈ dataBitsCodes ∧
    (0, (two.line 2).cfg.parity, (two.line 2).cfg.stopBits) ∈ parityStopCodes ∧
    (0, (two.line 2).cfg.errorPolicy) ∈ errorPolicyCodes ∧ (0, (two.line 2).cfg.txFlow) ∈ txFlowCodes ∧
    (0, (two.line 2).cfg.rtsMode) ∈ rtsModeCodes ∧ (0, (two.line 2).cfg.rxXoff) ∈ boolCodes ∧
    (1, (two.line 2).cfg.dtrMode) ∈ dtrModeCodes ∧ (0, (two.line 2).cfg.dcdAction) ∈ dcdActionCodes ∧
    (0, (two.line 2).cfg.maskCts, (two.line 2).cfg.maskDcd) ∈ eventMaskCodes ∧
    (0, (two.line 2).cfg.holdAction) ∈ holdActionCodes ∧ (params 2 5 0 0).param1 = 5 := by decide

/-- The line states that the line commands check; PARAM0 names line 2, or no line. -/
theorem test_hyps_line_states :
    Ready two ∧ Names two.param0 2 ∧ 16 ≤ (params 16 0 0 0 two).param0.toNat ∧ Ready (params 16 0 0 0 two) ∧
    Names (params 2 0 0 0).param0 2 ∧ ((params 2 0 0 0).line 2).state = .disabled ∧ (two.line 2).state = .enabled ∧
    Ready (stateTwo .restarting) ∧ ((stateTwo .restarting).line 2).state = .restarting ∧
    Ready (stateTwo .disabling) ∧ ((stateTwo .disabling).line 2).state = .disabling ∧
    Names (params 15 0 0 0).param0 15 := by decide

theorem test_hyps_RestartAndDisable :
    (Ready two ∧ Names two.param0 2 ∧ (two.line 2).state = .enabled ∧ (two.line 2).tx.inFlight = none) ∧
    (let s := sending 2
     Ready s ∧ Names s.param0 2 ∧ (s.line 2).state = .enabled ∧ (s.line 2).tx.inFlight = some (.block 0x41) ∧
      Working s 2 5 ∧ s.window ≠ some 5) ∧
    (let s := stateTwo .restarting (sending 2)
     s.resetHeld = false ∧ (s.line 2).tx.inFlight = some (.block 0x41) ∧ (s.line 2).state = .restarting ∧
      (s.line 2).rx.state = .idle ∧ Working s 2 5) ∧
    ((stateTwo .disabling (sending 2)).line 2).state = .disabling ∧
    ((opened 1 [9]).window = some 5 ∧ ((opened 1 [9]).desc 5).line = 2 ∧ two.window = none) := by decide

/-- Blocks that a restart finishes: their cells return oldest first, their reports are posted in commit order. -/
theorem test_restartLine_of_blocks :
    let s := txTwo (fun x => { x with queue := [6, 5, 7] }) (withBlock .halted (block .active 33 1 [9, 30]))
    let s := (s.setDesc 6 (block .finished 4 4 [])).setDesc 7 (block .queued 1 0 [31] false)
    let t := after .restartLine s
    t.queue = [.txReport 2 0x40 .sent 4, .txReport 2 0x40 .restarted 1, .lineEvent 2 lineClearedChange .negated .negated] ∧
      t.freeList.drop 128 = [9, 30, 31] ∧ (t.line 2).tx.queue = [] := by decide

theorem test_hyps_HaltAndResumeLine :
    Ready two ∧ (two.line 2).tx.state = .idle ∧ ((withBlock .held (block .active 1 0 [9])).line 2).tx.state = .held ∧
    ((txTwo (fun t => { t with state := .trailing }) two).line 2).tx.state = .trailing ∧
    ((sending 2).line 2).tx.state = .sending ∧ ((withBlock .breaking (block .active 1 0 [9])).line 2).tx.state = .breaking ∧
    ((withBlock .keying (block .active 1 0 [9])).line 2).tx.state = .keying ∧
    ((withBlock .halted (block .active 1 0 [9])).line 2).tx.state = .halted := by decide

theorem test_hyps_FlushLine :
    (let s := withBlock .held (block .active 1 0 [9])
     Ready s ∧ Names s.param0 2 ∧ (s.line 2).state = .enabled ∧ (s.line 2).tx.flushDue = false ∧
      (s.line 2).tx.inFlight = none ∧ (s.line 2).tx.state = .held) ∧
    ((two.line 2).tx.inFlight = none ∧ (two.line 2).tx.state ≠ .breaking ∧ (two.line 2).tx.state ≠ .held) ∧
    (let s := sending 2
     Ready s ∧ (s.line 2).tx.flushDue = false ∧ (s.line 2).tx.inFlight = some (.block 0x41) ∧ Working s 2 5) ∧
    (let s := txTwo (fun x => { x with state := .sending, inFlight := some (.priority .xon) }) two
     Ready s ∧ (s.line 2).tx.flushDue = false ∧ (s.line 2).tx.inFlight = some (.priority .xon) ∧ NoneActive s 2) := by
  decide

theorem test_hyps_transmitter_timers :
    (let s := txTwo (fun x => { x with leadTimer := some 0 }) (withBlock .keying (block .active 1 0 [9]))
     s.resetHeld = false ∧ (s.line 2).tx.state = .keying ∧ (s.line 2).tx.leadTimer = some 0) ∧
    (two.line 2).tx.state ≠ .keying ∧
    ((txTwo (fun x => { x with state := .keying, leadTimer := some 1 }) two).line 2).tx.leadTimer ≠ some 0 ∧
    (let s := txTwo (fun x => { x with state := .trailing, trailTimer := some 0 }) two
     (s.line 2).tx.state = .trailing ∧ (s.line 2).tx.trailTimer = some 0) ∧
    (two.line 2).tx.state ≠ .trailing ∧ (two.line 2).tx.trailTimer ≠ some 0 ∧
    (let s := txTwo (fun x => { x with breakTimer := .space 0 }) (withBlock .breaking (block .active 1 0 [9]))
     (s.line 2).tx.state = .breaking ∧ (s.line 2).tx.breakTimer = .space 0) ∧ (two.line 2).tx.state ≠ .breaking ∧
    ((txTwo (fun x => { x with breakTimer := .space 1 }) two).line 2).tx.breakTimer ≠ .space 0 := by
  decide

theorem test_hyps_BreakEnd :
    (two.line 2).tx.state ≠ .breaking ∧ (two.line 2).tx.breakTimer ≠ .mark ∧
    (let s := txTwo (fun x => { x with breakTimer := .mark, queue := [] }) (withBlock .breaking (block .free 0 0 []))
     s.resetHeld = false ∧ (s.line 2).tx.state = .breaking ∧ (s.line 2).tx.breakTimer = .mark ∧ NoneActive s 2) ∧
    (let s := txTwo (fun x => { x with breakTimer := .mark }) (withBlock .breaking (block .active 1 0 [9]))
     Working s 2 5 ∧ (s.desc 5).length ≠ 0) ∧
    (let s := txTwo (fun x => { x with breakTimer := .mark }) (withBlock .breaking (block .active 0 0 [] false 5))
     Working s 2 5 ∧ (s.desc 5).length = 0) := by decide

theorem test_hyps_HoldExpiry :
    ¬HoldUp (two.line 2) ∧
    (let s := txTwo (fun x => { x with holdTimer := some 0 }) (withBlock .held (block .active 1 0 [9]))
     s.resetHeld = false ∧ HoldUp (s.line 2) ∧ (s.line 2).tx.state = .held ∧ (s.line 2).cfg.holdAction = .report ∧
      ¬HoldUp ((stateTwo .restarting s).line 2) ∧
      ¬HoldUp ((txTwo (fun x => { x with holdTimer := some 1 }) s).line 2)) ∧
    (let s := cfgTwo (fun c => { c with holdAction := .flush })
        (txTwo (fun x => { x with holdTimer := some 0 }) (withBlock .held (block .active 1 0 [9])))
     HoldUp (s.line 2) ∧ (s.line 2).tx.state = .held ∧ (s.line 2).cfg.holdAction = .flush) ∧
    (let s := txTwo (fun x => { x with holdTimer := some 0, inHold := true, inFlight := some (.priority .xoff) })
        (withBlock .sending (block .active 1 0 [9]))
     HoldUp (s.line 2) ∧ (s.line 2).tx.state ≠ .held) := by decide

theorem test_hyps_CharacterBoundary :
    (two.resetHeld = false ∧ (two.line 2).tx.inFlight = none) ∧
    (let s := txTwo (fun x => { x with state := .sending, inFlight := some (.priority .xon) }) two
     (s.line 2).state = .enabled ∧ (s.line 2).tx.flushDue = false ∧ (s.line 2).tx.holdDue = false ∧
      s.busy ≠ some (.flush 2) ∧ (s.line 2).tx.inFlight = some (.priority .xon)) ∧
    (let s := sending 2
     (s.line 2).state = .enabled ∧ (s.line 2).tx.inFlight = some (.block 0x41) ∧ Working s 2 5 ∧
      (s.desc 5).sent + 1 ≠ (s.desc 5).length ∧ (s.desc 5).sent % 16 ≠ 15) ∧
    (let s := sending 17 true 15
     (s.line 2).tx.inFlight = some (.block 0x41) ∧ Working s 2 5 ∧ (s.desc 5).sent + 1 ≠ (s.desc 5).length ∧
      (s.desc 5).sent % 16 = 15 ∧ (s.desc 5).cells = 9 :: []) ∧
    (let s := sending 1 false
     s.resetHeld = false ∧ (s.line 2).state = .enabled ∧ (s.line 2).tx.flushDue = false ∧ (s.line 2).tx.holdDue = false ∧
      s.busy ≠ some (.flush 2) ∧ (s.line 2).tx.inFlight = some (.block 0x41) ∧ Working s 2 5 ∧
      (s.desc 5).sent + 1 = (s.desc 5).length) := by decide

/-- The last character of a block between FINISHED ones: the front is handled from the first report on; with no slot it
stops there. -/
theorem test_characterBoundary_in_a_queue :
    let s := txTwo (fun x => { x with queue := [6, 5, 7] }) (sending 1)
    let s := (s.setDesc 6 (block .finished 4 4 [])).setDesc 7 (block .finished 2 2 [] false)
    let t := after (.characterBoundary 2) s
    let u := after (.characterBoundary 2) (full s)
    t.queue = [.txReport 2 0x40 .sent 4, .txReport 2 0x40 .sent 1] ∧ (t.line 2).tx.queue = [] ∧
      (u.line 2).tx.queue = [6, 5, 7] ∧ (u.desc 5).outcome = some .sent := by decide

/-- Every boundary of the statement: a flush of FLUSH LINE and one of a DCD action, a hold expiry with REPORT and with FLUSH,
the last with a flush that waits too. -/
theorem test_hyps_CharacterBoundaryCompletesFlush :
    (let s := { txTwo (fun x => { x with flushDue := true }) (sending 2) with busy := some (.flush 2) }
     s.resetHeld = false ∧ (s.line 2).state = .enabled ∧ (s.line 2).tx.inFlight = some (.block 0x41) ∧
      (s.line 2).tx.flushDue = true ∧ (s.line 2).tx.holdDue = false ∧ s.busy = some (.flush 2) ∧ Working s 2 5) ∧
    (let s := txTwo (fun x => { x with flushDue := true }) (sending 2)
     (s.line 2).tx.flushDue = true ∧ s.busy ≠ some (.flush 2)) ∧
    (let s := txTwo (fun x => { x with inHold := true, holdDue := true, inFlight := some (.priority .xoff) })
        (withBlock .sending (block .active 2 0 [9]))
     (s.line 2).state = .enabled ∧ (s.line 2).tx.inFlight = some (.priority .xoff) ∧ (s.line 2).tx.holdDue = true ∧
      (s.line 2).cfg.holdAction = .report ∧ (s.line 2).tx.flushDue = false ∧
      ((cfgTwo (fun c => { c with holdAction := .flush }) s).line 2).cfg.holdAction = .flush ∧
      ((txTwo (fun x => { x with flushDue := true }) s).line 2).tx.flushDue = true) := by decide

theorem test_hyps_FramerConditions :
    two.resetHeld = false ∧ (two.line 2).rx.framer = .awaitingMark ∧ (two.line 2).rx.framer ≠ .hunting ∧
    (two.line 2).rx.framer ≠ .inFrame ∧ (inFrame.line 2).rx.framer = .inFrame ∧
    (inFrame.line 2).rx.framer ≠ .awaitingMark ∧
    ((rxTwo (fun r => { r with framer := .hunting }) two).line 2).rx.framer = .hunting := by decide

theorem test_hyps_ArrivalDiscardedOrConsumed :
    two.resetHeld = false ∧ (two.line 2).rx.framer ≠ .inFrame ∧
    (let s := stateTwo .restarting inFrame
     (s.line 2).rx.framer = .inFrame ∧ (s.line 2).state = .restarting ∧
      BreakStart (s.line 2).cfg ⟨0, false, false⟩ ∧ ¬BreakStart (s.line 2).cfg ⟨0x41, false, true⟩) ∧
    (let s := cfgTwo (fun c => { c with txFlow := .xonXoff }) inFrame
     (s.line 2).state = .enabled ∧ Consumed (s.line 2).cfg ⟨0x13, false, true⟩ ∧ (s.line 2).tx.state ≠ .held) ∧
    (let s := cfgTwo (fun c => { c with txFlow := .both }) (flowTwo (fun fl => { fl with cts := ⟨.asserted, .asserted, false⟩ })
        (inFrame (withBlock .held (block .active 1 0 [9]))))
     Consumed (s.line 2).cfg ⟨0x11, false, true⟩ ∧ (s.line 2).tx.state = .held ∧
      ¬Held ((onLineOf s 2 fun ln => { ln with tx.remoteHold := false }).line 2) ∧
      Held ((onLineOf s 2 fun ln => { ln with tx.remoteHold := true }).line 2)) := by decide

/-- FIFOs of 0, 1 and 4 items; characters of each status, and a break marker. -/
theorem test_hyps_ArrivalOfferedToTheFifo :
    (inFrame.resetHeld = false ∧ (inFrame.line 2).rx.framer = .inFrame ∧ (inFrame.line 2).state = .enabled ∧
      ¬Consumed (inFrame.line 2).cfg ⟨0x13, false, true⟩ ∧ (inFrame.line 2).rx.fifo.length < 4 ∧
      (inFrame.line 2).rx.fifo.length ≠ 1) ∧
    ((rxTwo (fun r => { r with fifo := [.breakMarker] }) inFrame).line 2).rx.fifo.length = 1 ∧
    4 ≤ ((rxTwo (fun r => { r with fifo := List.replicate 4 .breakMarker }) inFrame).line 2).rx.fifo.length ∧
    itemOf { LineConfig.default with parity := .even } ⟨0x41, false, true⟩ = .char 0x41 .ok ∧
    itemOf { LineConfig.default with parity := .even } ⟨0x41, true, true⟩ = .char 0x41 .parity ∧
    itemOf LineConfig.default ⟨0x41, false, false⟩ = .char 0x41 .framing ∧
    itemOf LineConfig.default ⟨0, false, false⟩ = .breakMarker := by decide

/-- A new record, a record at a cell's end, a record one short of its maximum. -/
theorem test_hyps_AssemblerTakeStores :
    (let s := rxTwo (fun r => { r with fifo := [.char 0x41 .ok] }) two
     s.resetHeld = false ∧ Memory.wf s.mem = true ∧ (s.line 2).state = .enabled ∧
      (s.line 2).rx.state = .idle ∧ (s.line 2).rx.fifo = .char 0x41 .ok :: [] ∧ (s.line 2).rx.openRec = none ∧
      false = (s.pendPool || decide (s.freeList.length = s.poolLow)) ∧ s.freeList = 0 :: allCells.tail ∧
      0 + 1 ≠ (s.line 2).cfg.maxLength) ∧
    (let s := cfgTwo (fun c => { c with maxLength := 17, errorPolicy := .close })
        { assembling 16 [9] [.char 0x41 .parity] with freeList := allCells.drop 120 }
     Memory.wf s.mem = true ∧ (s.line 2).rx.state = .assembling ∧ (s.line 2).rx.openRec = some ⟨16, false, [9]⟩ ∧
      16 % 16 = 0 ∧ true = (s.pendPool || decide (s.freeList.length = s.poolLow)) ∧
      s.freeList = 120 :: allCells.drop 121 ∧ (s.line 2).cfg.errorPolicy ≠ .drop ∧ CharStatus.parity ≠ .ok ∧
      (s.line 2).cfg.errorPolicy = .close ∧ 16 + 1 = (s.line 2).cfg.maxLength) ∧
    (let s := assembling 63 [9, 10, 11, 12] [.char 0x41 .ok]
     (s.line 2).rx.openRec = some ⟨63, false, [9, 10, 11, 12]⟩ ∧ 63 % 16 ≠ 0 ∧ 63 + 1 = (s.line 2).cfg.maxLength ∧
      (s.line 2).cfg.errorPolicy ≠ .close) := by decide +kernel

/-- No entry hits, and an entry hits with each action. -/
theorem test_hyps_AssemblerTakeStores_match :
    (∀ a ∈ [MatchAction.capture, .delimit, .post, .hold], ∀ n, ¬HitWith ⟨2, .rx, 0x0D, 11, none⟩ a two n) ∧
    ∀ a ∈ [MatchAction.capture, .delimit, .post, .hold],
      HitWith ⟨2, .rx, 0x0D, 11, none⟩ a (matching a two) 3 ∧ ¬HitWith ⟨2, .rx, 0x0C, 11, none⟩ a (matching a two) 3 := by
  decide

/-- Match entries 3 and 6 hit 0D hex with POST, entry 4 with DELIMIT: the record closes with ERROR, which comes before
DELIMITER, before both MATCH entries or behind both (R106, R157, R160). -/
theorem test_assemblerTake_of_several_hits :
    let e := (matching .post two).matchEntry 3
    let s := cfgTwo (fun c => { c with errorPolicy := .close }) (assembling 11 [9] [.char 0x0D .parity])
    let s := ((s.setMatch 3 e).setMatch 6 e).setMatch 4 { e with action := .delimit }
    let t := after (.assemblerTake 2) (full s)
    (t.line 2).rx.closedRec = some ⟨.error, 12, false, [9]⟩ ∧ (t.line 2).rx.state = .stalled ∧
      (t.matchEntry 3).pendingPost = some ⟨2, .rx, 0x0D, 1⟩ ∧ (t.matchEntry 6).pendingPost = some ⟨2, .rx, 0x0D, 1⟩ ∧
      (t.matchEntry 4).hitCount = 1 ∧ (t.matchEntry 4).pendingPost = none ∧ (t.matchEntry 5).hitCount = 0 := by decide

theorem test_hyps_AssemblerTakeStoresNothing :
    two.resetHeld = false ∧ (two.line 2).rx.fifo = [] ∧ (State.reset.line 2).state ≠ .enabled ∧
    (State.reset.line 2).rx.state = .off ∧ ((rxTwo (fun r => { r with state := .stalled }) two).line 2).rx.state = .stalled ∧
    (let s := cfgTwo (fun c => { c with errorPolicy := .drop }) (rxTwo (fun r => { r with fifo := [.char 0x41 .framing] }) two)
     (s.line 2).state = .enabled ∧ (s.line 2).rx.state = .idle ∧ (s.line 2).rx.fifo = .char 0x41 .framing :: [] ∧
      CharStatus.framing ≠ .ok ∧ (s.line 2).cfg.errorPolicy = .drop) ∧
    (let s := rxTwo (fun r => { r with fifo := [.breakMarker] }) two
     (s.line 2).rx.fifo = .breakMarker :: [] ∧ (s.line 2).rx.openRec = none) ∧
    (let s := assembling 64 [1, 2, 3, 4] [.breakMarker]
     (s.line 2).rx.fifo = .breakMarker :: [] ∧ (s.line 2).rx.openRec = some ⟨64, false, [1, 2, 3, 4]⟩) ∧
    (let s := { rxTwo (fun r => { r with fifo := [.char 0x41 .ok] }) two with freeList := [] }
     (s.line 2).rx.fifo = .char 0x41 .ok :: [] ∧ s.freeList = [] ∧ (s.line 2).rx.openRec = none) ∧
    (let s := { assembling 48 [1, 2, 3] [.char 0x41 .ok] with freeList := [] }
     (s.line 2).rx.state = .assembling ∧ s.freeList = [] ∧ (s.line 2).rx.openRec = some ⟨48, false, [1, 2, 3]⟩ ∧
      48 % 16 = 0) := by decide

theorem test_hyps_IdleExpiry :
    (two.line 2).rx.state ≠ .assembling ∧
    ((rxTwo (fun r => { r with idleTimer := some 1 }) (assembling 1 [9] [])).line 2).rx.idleTimer ≠ some 0 ∧
    (let s := rxTwo (fun r => { r with idleTimer := some 0 }) (assembling 1 [9] [.char 0x41 .ok])
     s.resetHeld = false ∧ (s.line 2).rx.state = .assembling ∧ (s.line 2).rx.idleTimer = some 0 ∧
      (s.line 2).rx.fifo = .char 0x41 .ok :: []) ∧
    (let s := rxTwo (fun r => { r with idleTimer := some 0 }) (assembling 1 [9] [.breakMarker])
     (s.line 2).rx.state = .assembling ∧ (s.line 2).rx.idleTimer = some 0 ∧ (s.line 2).rx.fifo = .breakMarker :: [] ∧
      (s.line 2).rx.openRec = some ⟨1, false, [9]⟩) ∧
    (let s := rxTwo (fun r => { r with idleTimer := some 0 }) (assembling 1 [9] [])
     (s.line 2).rx.state = .assembling ∧ (s.line 2).rx.idleTimer = some 0 ∧ (s.line 2).rx.fifo = [] ∧
      (s.line 2).rx.openRec = some ⟨1, false, [9]⟩) := by decide

/-- The hypotheses of the append hold with each action of the entry, with and without a free slot or a waiting post. -/
theorem test_hyps_MatchActionsAtAnAppend :
    ∀ a ∈ [MatchAction.capture, .delimit, .post, .hold],
      let s := matching a (assembling 11 [9] [.char 0x0D .ok])
      s.resetHeld = false ∧ (s.line 2).state = .enabled ∧ (s.line 2).rx.state = .assembling ∧
        (s.line 2).rx.fifo = .char 0x0D .ok :: [] ∧ (s.line 2).rx.openRec = some ⟨11, false, [9]⟩ ∧ 11 % 16 ≠ 0 ∧
        11 + 1 ≠ (s.line 2).cfg.maxLength ∧ (s.line 2).flow.congested = false ∧
        (∀ k, k ≠ 3 → (s.matchEntry k).enabled = false) ∧ (s.matchEntry 3).enabled = true ∧
        (s.matchEntry 3).lines.getLsbD 2 = true ∧ (s.matchEntry 3).direction = .either ∧
        (0x0D : Byte) &&& (s.matchEntry 3).mask = (s.matchEntry 3).value &&& (s.matchEntry 3).mask ∧
        (s.matchEntry 3).action = a ∧ (s.matchEntry 3).pendingPost = none ∧ SlotFree s ∧ ¬SlotFree (full s) ∧
        s.capture.state ≠ .locked ∧ (s.line 2).tx.state = .idle := by decide

/-- POST at an append without a free slot waits, and a later hit is counted into the post that waits (R35). -/
theorem test_assemblerTake_post_waits :
    let s := full (matching .post (assembling 11 [9] [.char 0x0D .ok, .char 0x0D .ok]))
    let t := after (.assemblerTake 2) s
    (t.matchEntry 3).pendingPost = some ⟨2, .rx, 0x0D, 1⟩ ∧ t.queue = s.queue ∧
      ((after (.assemblerTake 2) t).matchEntry 3).pendingPost = some ⟨2, .rx, 0x0D, 2⟩ := by decide

/-- The hypotheses of the transmission start hold with each action of the entry, with and without a free slot. -/
theorem test_hyps_MatchActionsAtATransmissionStart :
    ∀ a ∈ [MatchAction.capture, .delimit, .post, .hold],
      let s := matching a { txTwo (fun x => { x with leadTimer := some 0 }) (withBlock .keying (block .active 3 0 [9])) with
        mem := [(144, 0x0D)] }
      s.resetHeld = false ∧ (s.line 2).tx.state = .keying ∧ (s.line 2).tx.leadTimer = some 0 ∧
        (s.line 2).tx.haltRequest = false ∧ Working s 2 5 ∧ ¬Held (s.line 2) ∧ (s.line 2).tx.pendingPriority = none ∧
        (s.desc 5).breakBefore = 0 ∧ (s.desc 5).cells = 9 :: [] ∧
        (0x0D : Byte) = onWire (s.line 2).cfg (Memory.read s.mem (16 * (9 : CellNo).val + (s.desc 5).sent % 16)) ∧
        (∀ k, k ≠ 3 → (s.matchEntry k).enabled = false) ∧ (s.matchEntry 3).enabled = true ∧
        (s.matchEntry 3).lines.getLsbD 2 = true ∧ (s.matchEntry 3).direction = .either ∧
        (0x0D : Byte) &&& (s.matchEntry 3).mask = (s.matchEntry 3).value &&& (s.matchEntry 3).mask ∧
        (s.matchEntry 3).action = a ∧ (s.matchEntry 3).pendingPost = none ∧ SlotFree s ∧ ¬SlotFree (full s) ∧
        s.capture.state ≠ .locked := by decide

theorem test_hyps_ModemInputsAreQualified :
    (State.reset.line 2).state = .disabled ∧ State.reset.resetHeld = false ∧ (two.line 2).state ≠ .disabled ∧
    ¬Due (qualifierOf (two.line 2) .cts) ∧ Due (qualifierOf (sampleTwo.line 2) .cts) ∧ Due (sampleTwo.line 2).flow.dcd ∧
    ¬Qualifies (qualifierOf (sampleTwo.line 2) .cts) .asserted ∧ ¬Qualifies (sampleTwo.line 2).flow.cts .asserted ∧
    ¬Qualifies (sampleTwo.line 2).flow.dcd .negated ∧ (sampleTwo.line 2).tx.commitDue = false ∧
    ((txTwo (fun x => { x with commitDue := true }) sampleTwo).line 2).tx.commitDue = true ∧
    (sampleTwo.line 2).tx.state = .idle ∧
    (let s := ctsTwo .asserted (dcdTwo .asserted two)
     Due (s.line 2).flow.cts ∧ Qualifies (s.line 2).flow.cts .asserted ∧ Due (s.line 2).flow.dcd ∧
      Qualifies (s.line 2).flow.dcd .asserted) := by decide

theorem test_hyps_QualifiedChangeOfCts :
    (let s := ctsTwo .asserted two
     s.resetHeld = false ∧ (s.line 2).state ≠ .disabled ∧ Due (s.line 2).flow.cts ∧ Qualifies (s.line 2).flow.cts .asserted ∧
      (s.line 2).tx.state ≠ .held) ∧
    (let s := cfgTwo (fun c => { c with txFlow := .cts }) (ctsTwo .asserted (withBlock .held (block .active 1 0 [9])))
     Due (s.line 2).flow.cts ∧ Qualifies (s.line 2).flow.cts .asserted ∧ (s.line 2).state = .enabled ∧
      (s.line 2).tx.state = .held ∧ ¬Held ((requalified 2 .cts .asserted s).line 2) ∧ (s.line 2).cfg.maskCts = false ∧
      ((cfgTwo (fun c => { c with maskCts := true }) s).line 2).cfg.maskCts = true) := by decide

theorem test_hyps_QualifiedChangeOfDcd :
    (let s := dcdTwo .asserted two
     s.resetHeld = false ∧ (s.line 2).state ≠ .disabled ∧ Due (s.line 2).flow.dcd ∧
      Qualifies (s.line 2).flow.dcd .asserted) ∧
    (let s := cfgTwo (fun c => { c with dcdAction := .closeRecord }) (dcdTwo .negated (assembling 1 [9] []))
     Qualifies (s.line 2).flow.dcd .negated ∧ (s.line 2).state = .enabled ∧ dcdRecord (s.line 2) = some ⟨1, false, [9]⟩ ∧
      dcdFlushStage s 2 = .absent ∧ dcdRecord (two.line 2) = none) ∧
    (let s := cfgTwo (fun c => { c with dcdAction := .closeAndFlush, maskDcd := true })
        (dcdTwo .negated (assembling 1 [9] [] (sending 2)))
     Qualifies (s.line 2).flow.dcd .negated ∧ (s.line 2).tx.inFlight = some (.block 0x41) ∧
      dcdFlushStage s 2 = .due ∧ dcdRecord (s.line 2) = some ⟨1, false, [9]⟩ ∧ (s.line 2).cfg.maskDcd = true ∧
      ¬MeetsExpiry (s.line 2)) ∧
    (let s := cfgTwo (fun c => { c with dcdAction := .closeAndFlush })
        (dcdTwo .negated (withBlock .held (block .active 1 0 [9])))
     dcdFlushStage s 2 = .due ∧ ¬MeetsExpiry (s.line 2) ∧
      MeetsExpiry ((txTwo (fun x => { x with holdTimer := some 0 }) s).line 2)) := by decide

/-- A DCD flush of a keyed held line with a trail to run: TX_TRAILING by R84; where it meets a hold expiry, TX_IDLE by the last
row of R79. -/
theorem test_qualifiedChange_of_dcd_in_a_hold :
    let s := cfgTwo (fun c => { c with dcdAction := .closeAndFlush, rtsMode := .keyed, rtsTrail := 5 })
      (dcdTwo .negated (txTwo (fun x => { x with keyed := true, inHold := true }) (withBlock .held (block .active 1 0 [9]))))
    let t := after (.qualifiedChange 2 .dcd .negated) s
    let u := after (.qualifiedChange 2 .dcd .negated) (txTwo (fun x => { x with holdTimer := some 0 }) s)
    (t.line 2).tx.state = .trailing ∧ t.queue = [.txReport 2 0x40 .flushed 0] ∧
      (u.line 2).tx.state = .idle ∧ (u.line 2).tx.keyed = false ∧ u.queue = [.txReport 2 0x40 .flushed 0] ∧
      (after (.holdExpiry 2) u).queue = u.queue := by decide

theorem test_hyps_SetModemOutputs :
    Ready two ∧ 16 ≤ (params 16 0 0 0).param0.toNat ∧ 3 ≤ (params 0 3 0 0).param1.toNat ∧
    3 ≤ (params 0 0 3 0).param2.toNat ∧ Names two.param0 2 ∧ (params 2 2 2 0).param1.toNat < 3 ∧
    (params 2 2 2 0).param2.toNat < 3 ∧
    (let s := params 2 1 0 0 (cfgTwo (fun c => { c with rtsMode := .flow }) two)
     s.param1 ≠ 0 ∧ (s.line 2).cfg.rtsMode ≠ .manual) ∧
    (let s := params 2 0 1 0 two
     s.param2 ≠ 0 ∧ (s.line 2).cfg.dtrMode ≠ .manual) ∧
    two.param1 = 0 ∧ (two.line 2).cfg.rtsMode = .manual ∧ two.param2 = 0 ∧
    ((stateTwo .restarting).line 2).state = .restarting ∧ ((params 2 1 0 0).line 2).state = .disabled ∧
    (params 2 1 0 0).param1 ≠ 0 ∧ (two.line 2).state = .enabled := by decide

theorem test_hyps_ModemStatusAndOutputs :
    ((State.reset.line 2).state = .disabled ∧ (two.line 2).state ≠ .disabled ∧ (two.line 2).cfg.rtsMode = .manual ∧
      (two.line 2).cfg.dtrMode = .auto) ∧
    ((cfgTwo (fun c => { c with rtsMode := .keyed, dtrMode := .manual }) two).line 2).cfg.rtsMode = .keyed ∧
    ((cfgTwo (fun c => { c with rtsMode := .flow, dtrMode := .manual }) two).line 2).cfg.rtsMode = .flow ∧
    ((cfgTwo (fun c => { c with rtsMode := .flow, dtrMode := .manual }) two).line 2).cfg.dtrMode = .manual ∧
    ((sending 1).line 2).tx.inFlight = some (.block 0x41) ∧
    ((txTwo (fun x => { x with inFlight := some (.priority .xoff) }) two).line 2).tx.inFlight = some (.priority .xoff) ∧
    (two.line 2).tx.inFlight = none ∧ (∀ n, (two.line 2).tx.breakTimer ≠ .space n) ∧
    ((txTwo (fun x => { x with breakTimer := .space 10 }) two).line 2).tx.breakTimer = .space 10 := by
  refine ⟨by decide, by decide, by decide, by decide, by decide, by decide, by decide, fun n => ?_, by decide⟩
  have h : (two.line 2).tx.breakTimer = .stopped := by decide
  rw [h]
  exact BreakTimer.noConfusion

/-- The frame of 41 hex with 7 data bits, even parity and two stop bits, and with 8 data bits and no parity (R70). -/
theorem test_frameLevels :
    frameLevels { LineConfig.default with dataBits := .seven, parity := .even, stopBits := .two } 0x41 =
      [false, true, false, false, false, false, false, true, false, true, true] ∧
    frameLevels LineConfig.default 0x41 = [false, true, false, false, false, false, false, true, false, true] ∧
    frameLevels { LineConfig.default with parity := .odd } 0x41 =
      [false, true, false, false, false, false, false, true, false, true, true] := by decide

theorem test_hyps_MatchTableCommands :
    Ready two ∧ 8 ≤ (params 8 0 0 0).param0.toNat ∧ 16 ≤ (params 0 0 0 16).param3.toNat ∧
    (params 0 0 0 15).param3.toNat % 4 = 3 ∧ 3 ≤ (params 0 3 0 0).param1.toNat ∧
    (params 7 0 0 14).param0.toNat = (7 : MatchNo).val ∧
    (params 7 0 0 14).param3 = ((2, MatchDirection.either) : Byte × MatchDirection).1
      + 4 * ((3, MatchAction.hold) : Byte × MatchAction).1 ∧
    two.param1 = 0 ∧ (0, (two.matchEntry 0).direction) ∈ directionCodes ∧ (0, (two.matchEntry 0).action) ∈ actionCodes ∧
    (params 0 1 0 0).param1 = 1 ∧ (params 0 2 0 0).param1 = 2 ∧ (two.matchEntry 0).pendingPost = none ∧
    (let p : PendingPost := { line := 15, direction := .tx, char := 0xFF, count := 255 }
     ((State.reset.setMatch 3 { MatchEntry.reset with pendingPost := some p }).matchEntry 3).pendingPost = some p) := by
  decide

theorem test_hyps_records_and_counters :
    Ready State.reset ∧ 2 ≤ (params 2 0 0 0).param0.toNat ∧ State.reset.param0 = 0 ∧ (params 1 0 0 0).param0 = 1 ∧
    State.reset.capture.state ≠ .locked ∧ { CaptureRecord.empty with state := .locked }.state = .locked ∧
    16 ≤ (params 16 0 0 0).param0.toNat ∧ Names (params 15 0 0 0).param0 15 ∧ State.reset.errorRec.state ≠ .locked ∧
    { ErrorRecord.empty with state := .locked }.state = .locked ∧ ((params 1 0 0 0).param0, true) ∈ boolCodes := by
  decide

theorem test_hyps_RowsOfALineLeaveTheRestAlone :
    lineOfEvent (.characterBoundary 2) = some 2 ∧ lineOfEvent (.modemInputSample 15 .asserted .negated) = some 15 ∧
    Ready two ∧ Names two.param0 2 ∧ Instr.flushLine ∈ [Instr.haltLine, .resumeLine, .flushLine] ∧
    Instr.disableLine ∈ [Instr.restartLine, .disableLine] ∧ Instr.leadEnd 2 ≠ .assemblerTake 2 ∧
    ((headed two).queue ≠ [] ∧ (6 : DescNo) ∉ ((sending 2).line 2).tx.queue ∧ (sending 2).window ≠ some 6) := by
  decide

theorem test_hyps_RecordsAndPendingBitsStay :
    (let s := { State.reset with
        capture := { CaptureRecord.empty with state := .locked }
        errorRec := { ErrorRecord.empty with state := .locked, firstSeverity := .severe }
        pendCommand := true, pendCapture := true, pendError := true, pendPool := true, pendWindow := true }
     s.capture.state = .locked ∧ s.errorRec.state = .locked ∧ s.errorRec.firstSeverity = .severe ∧ s.pendCommand = true ∧
      s.pendCapture = true ∧ s.pendError = true ∧ s.pendPool = true ∧ s.pendWindow = true) ∧
    Instr.wellFormed .postGrant = true ∧ Instr.postGrant ≠ .softReset ∧ Instr.postGrant ≠ .hardwareReset ∧
    Instr.postGrant ≠ .clearCapture ∧ Instr.postGrant ≠ .clearErrorRecord ∧ Instr.postGrant ≠ .releaseHead := by
  decide

theorem test_hyps_PostGrant_is_no_write :
    (∀ code, Instr.postGrant = .commandLost code → State.reset.busy.isSome) ∧
    ∀ v, Instr.postGrant ≠ .intpendWrite v := ⟨fun _ h => (nomatch h), fun _ h => (nomatch h)⟩

/-- The invariants of the step hold in a state with traffic. -/
theorem test_hyps_StepKeepsTheBounds :
    let s := full two
    s.queue.length ≤ 48 ∧ (∀ l, (s.line l).rx.fifo.length ≤ 4) ∧ Memory.wf s.mem = true := by decide

/-- A state with a block in flight, and the four invariants at it clause by clause. -/
theorem test_hyps_StepKeepsTheDescriptors :
    let s := { sending 2 with freeList := allCells.filter (· ≠ 9) }
    (∀ l, (s.line l).tx.queue.Nodup) ∧
    (∀ l, ∀ d ∈ (s.line l).tx.queue,
      (s.desc d).line = l ∧ ((s.desc d).phase = .queued ∨ (s.desc d).phase = .active ∨ (s.desc d).phase = .finished)) ∧
    (∀ d, ((s.desc d).phase = .queued ∨ (s.desc d).phase = .active ∨ (s.desc d).phase = .finished) →
      d ∈ (s.line (s.desc d).line).tx.queue) ∧
    (∀ d, (s.desc d).phase = .opened ↔ s.window = some d) ∧
    (∀ d, s.window = some d → (s.line (s.desc d).line).state = .enabled) ∧
    (∀ l, quotaCount s l ≤ (s.line l).cfg.quota) ∧ (cellPlaces s).length = 128 := by decide +kernel

theorem test_hyps_StepKeepsTheLineStates : linesFit two := by
  intro l
  have h : two.line l = if l = 2 then enabledLine .reset else .reset := by revert l; decide
  rw [h]
  split
  · exact ⟨⟨rfl, rfl⟩, fun h => (nomatch h), by decide, by decide⟩
  · exact ⟨⟨rfl, rfl⟩, fun h => (nomatch h), rfl, rfl, rfl, rfl⟩

theorem test_hyps_StepKeepsEveryCellInOnePlace : cellsConserved two ∧ descriptorsHeld two :=
  ⟨⟨by decide, by decide⟩, by constructor <;> decide⟩

end Sys2Proof.Tests
end

section
/-! PROOFS. The pool commands: SET POOL LIMITS (R17) and GET POOL STATUS (R18). -/

namespace Sys2Proof.Machine

/-! ## A command that completes in the event of its acceptance (R184, R185) -/

/-- The completion of a just accepted command is the state the statements call `done`. -/
theorem complete_accepted (r : ResultCode) (s : State) :
    complete r { s with commandLost := false } = Claims.done r s := rfl

/-- The same for a command that returns four values. -/
theorem completeWith_accepted (a b c d : Byte) (s : State) :
    completeWith a b c d { s with commandLost := false } = Claims.doneWith a b c d s := rfl

/-! ## A count within its accepted range -/

theorem rangeOf_eq_some {lo hi : Nat} {p : Byte} (hlo : lo ≤ p.toNat) (hhi : p.toNat ≤ hi) :
    rangeOf lo hi p = some p.toNat := if_pos ⟨hlo, hhi⟩

theorem rangeOf_eq_none_iff {lo hi : Nat} {p : Byte} : rangeOf lo hi p = none ↔ p.toNat < lo ∨ hi < p.toNat := by
  unfold rangeOf
  split <;> simp only [reduceCtorEq, false_iff, true_iff] <;> omega

/-! ## What the two commands do -/

theorem exec_setPoolLimits (s : State) : exec .setPoolLimits s = .next (hostCommand cmdSetPoolLimits s) := rfl

theorem exec_getPoolStatus (s : State) : exec .getPoolStatus s = .next (hostCommand cmdGetPoolStatus s) := rfl

/-- What GET POOL STATUS answers once accepted: the two counts do not depend on COMMAND_LOST (R18). -/
theorem cmdGetPoolStatus_accepted (s : State) :
    cmdGetPoolStatus { s with commandLost := false } =
      Claims.doneWith (byte s.freeList.length) (byte ((List.finRange 32).countP fun d => (s.desc d).phase = .free))
        (byte s.reserve) (byte s.poolLow) s := completeWith_accepted ..

/-- Both values in range replace both limits (R17). -/
theorem cmdSetPoolLimits_in_range {s : State} (h0 : s.param0.toNat ≤ 64) (h1 : s.param1.toNat ≤ 127) :
    cmdSetPoolLimits s = complete .ok { s with reserve := s.param0.toNat, poolLow := s.param1.toNat } := by
  simp only [cmdSetPoolLimits, rangeOf_eq_some (Nat.zero_le _) h0, rangeOf_eq_some (Nat.zero_le _) h1]

/-- Either value out of range leaves both limits (R17). -/
theorem cmdSetPoolLimits_out_of_range {s : State} (h : 64 < s.param0.toNat ∨ 127 < s.param1.toNat) :
    cmdSetPoolLimits s = complete .badParam s := by
  unfold cmdSetPoolLimits
  obtain h0 | h1 := h
  · rw [rangeOf_eq_none_iff.mpr (.inr h0)]
  · rw [rangeOf_eq_none_iff.mpr (.inr h1)]
    cases rangeOf 0 64 s.param0 <;> rfl

end Sys2Proof.Machine

namespace Sys2Proof.Claims

open Sys2Proof.Machine

/-- Settles O12: each command is its action on the accepted state, and SET POOL LIMITS splits on the two ranges. -/
theorem poolCommands : Obligations.PoolCommands := by
  rintro s ⟨hreset, hbusy⟩
  rw [exec_setPoolLimits, exec_getPoolStatus, hostCommand_ready hreset hbusy, hostCommand_ready hreset hbusy]
  refine ⟨fun h0 h1 => ?inRange, fun h => ?outOfRange, ?status⟩
  case inRange =>
    rw [cmdSetPoolLimits_in_range]
    · exact congrArg _ (complete_accepted .ok { s with reserve := s.param0.toNat, poolLow := s.param1.toNat })
    · exact h0
    · exact h1
  case outOfRange =>
    rw [cmdSetPoolLimits_out_of_range, complete_accepted]
    exact h
  case status => rw [cmdGetPoolStatus_accepted]

end Sys2Proof.Claims
end

section
/-! PROOFS. The head of the event queue: REWIND HEAD (R43) and the read of RXDATA (R41). -/

namespace Sys2Proof.Machine

/-! ## REWIND HEAD (R43) -/

theorem exec_rewindHead (s : State) : exec .rewindHead s = .next (hostCommand cmdRewindHead s) := rfl

/-- What REWIND HEAD does once accepted: it looks at neither the queue nor COMMAND_LOST. -/
theorem cmdRewindHead_accepted (s : State) :
    cmdRewindHead { s with commandLost := false } = Claims.done .ok { s with readPtr := 0, rxPastEnd := false } :=
  complete_accepted .ok { s with readPtr := 0, rxPastEnd := false }

/-! ## The character at the read pointer (R2, R41) -/

/-- A position whose cell is `c` holds the character of place pos mod 16 of that cell (R2). -/
theorem charAt_of_cell {m : List Host.Cell} {cells : List CellNo} {pos : Nat} {c : CellNo}
    (h : cells[pos / 16]? = some c) : charAt m cells pos = Memory.read m (16 * c.val + pos % 16) := by
  have haddr : positionAddress cells pos = some (16 * c.val + pos % 16) := by
    simp [positionAddress, placeAddress, Config.cellSize, h]
  rw [charAt, haddr]

/-- With the read pointer inside the head record, the next character is the one at the pointer. -/
theorem rxdataNext_of_record {s : State} {l : LineNo} {n : Nat} {c : Cause} {e : Bool} {lost : Option Byte}
    {cells : List CellNo} {rest : List Entry} (hq : s.queue = .rxRecord l n c e lost cells :: rest)
    (hptr : s.readPtr < n) : rxdataNext s = some (charAt s.mem cells s.readPtr) := by
  simp only [rxdataNext, hq, if_pos hptr]

/-- No character is available exactly when a head record, if there is one, is read to its end. -/
theorem rxdataNext_eq_none_iff (s : State) :
    rxdataNext s = none ↔
      ∀ l n c e lost cells rest, s.queue = .rxRecord l n c e lost cells :: rest → n ≤ s.readPtr := by
  constructor
  · intro hnone l n c e lost cells rest hq
    refine Nat.le_of_not_lt fun hptr => ?_
    rw [rxdataNext_of_record hq hptr] at hnone
    cases hnone
  · intro hend
    unfold rxdataNext
    split
    · next hq => exact if_neg (Nat.not_lt.mpr (hend _ _ _ _ _ _ _ hq))
    · rfl

/-! ## The read of RXDATA (R41) -/

theorem exec_rxdataRead_running {s : State} (h : s.resetHeld = false) : exec .rxdataRead s = .next (rxdataRead s) := by
  change execRxdataRead s = _
  simp [execRxdataRead, h]

theorem rxdataRead_of_some {s : State} {v : Byte} (h : rxdataNext s = some v) :
    rxdataRead s = { s with readData := v, readPtr := s.readPtr + 1 } := by
  rw [rxdataRead, h]

theorem rxdataRead_of_none {s : State} (h : rxdataNext s = none) :
    rxdataRead s = { s with readData := 0, rxPastEnd := true } := by
  rw [rxdataRead, h]

end Sys2Proof.Machine

namespace Sys2Proof.Claims

open Sys2Proof.Machine

/-- Settles O18: REWIND HEAD is its action on the accepted state, and a read of RXDATA splits on whether a character is
available. -/
theorem rewindHeadAndRxdataRead : Obligations.RewindHeadAndRxdataRead := by
  refine fun s => ⟨?rewind, fun hrun => ⟨?available, ?pastEnd⟩⟩
  case rewind =>
    rintro ⟨hreset, hbusy⟩
    rw [exec_rewindHead, hostCommand_ready hreset hbusy, cmdRewindHead_accepted]
  case available =>
    intro l n c e lost cells rest a hq hptr hcell
    rw [exec_rxdataRead_running hrun, rxdataRead_of_some (rxdataNext_of_record hq hptr), charAt_of_cell hcell]
  case pastEnd =>
    intro hend
    rw [exec_rxdataRead_running hrun, rxdataRead_of_none ((rxdataNext_eq_none_iff s).mpr hend)]

end Sys2Proof.Claims
end

section
/-! PROOFS. The transmit window's own accesses: the write of TXDATA (R53 to R56) and DISCARD BLOCK (R60). -/

namespace Sys2Proof.Machine

/-! ## A character stored in the store (R2) -/

/-- The place of a position: in cell pos / 16 of the list, place pos mod 16 (R2). -/
theorem positionAddress_eq (cells : List CellNo) (pos : Nat) :
    positionAddress cells pos = cells[pos / 16]?.map fun c => 16 * c.val + pos % 16 := by
  simp [positionAddress, placeAddress, Config.cellSize]

theorem read_storeChar_of_cell {cells : List CellNo} {pos : Nat} {v : Byte} {s : State} {c : CellNo}
    (hm : Memory.wf s.mem) (hc : cells[pos / 16]? = some c) :
    Memory.read (storeChar cells pos v s).mem (16 * c.val + pos % 16) = v := by
  rw [← charAt_of_cell hc]
  refine charAt_storeChar hm (a := 16 * c.val + pos % 16) ?_
  rw [positionAddress_eq, hc, Option.map_some]

theorem read_storeChar_other {cells : List CellNo} {pos a : Nat} {v : Byte} {s : State}
    (ha : ∀ c, cells[pos / 16]? = some c → a ≠ 16 * c.val + pos % 16) :
    Memory.read (storeChar cells pos v s).mem a = Memory.read s.mem a := by
  rw [storeChar, positionAddress_eq]
  cases hc : cells[pos / 16]? with
  | none => rfl
  | some c => exact read_write_other (ha c hc)

/-! ## The window's take (R3, R4, R11) -/

/-- A fall by 1 goes from the threshold or above to below it exactly when it starts at the threshold (R11). -/
theorem falls_below_iff (n low : Nat) : (low ≤ n + 1 ∧ n < low) ↔ n + 1 = low := by omega

/-- With the free count above the reserve the window gets the head cell, and POOL pending is set if the free count was the
threshold (R4, R11). -/
theorem takeCell_above_reserve {s : State} {c : CellNo} {rest : List CellNo} (hl : s.freeList = c :: rest)
    (hr : s.reserve < s.freeList.length) :
    takeCell (decide (s.reserve < s.freeCount)) s =
      some (c, { s with freeList := rest, pendPool := s.pendPool || decide (s.freeList.length = s.poolLow) }) := by
  rw [decide_eq_true (p := s.reserve < s.freeCount) hr]
  simp only [takeCell, hl, if_true, List.length_cons, ← Bool.decide_and, falls_below_iff]

/-- With the free count at or below the reserve the window's take is refused (R4). -/
theorem takeCell_at_reserve {s : State} (hr : s.freeList.length ≤ s.reserve) :
    takeCell (decide (s.reserve < s.freeCount)) s = none :=
  (takeCell_none_iff ..).mpr (.inr (decide_eq_false (Nat.not_lt.mpr hr)))

/-! ## An accepted byte (R56) -/

/-- The state with the cells of a block, the free list and POOL pending as a byte's take leaves them. -/
def roomMade (d : DescNo) (cells free : List CellNo) (pool : Bool) (s : State) : State :=
  { s.setDesc d { s.desc d with cells := cells } with freeList := free, pendPool := pool }

/-- Without a take nothing changes. -/
theorem roomMade_self (d : DescNo) (s : State) : roomMade d (s.desc d).cells s.freeList s.pendPool s = s := by
  have hself : s.descs.set d.val (s.desc d) = s.descs := Vector.set_getElem_self _
  rw [roomMade, State.setDesc, hself]

theorem desc_roomMade (d : DescNo) (cells free : List CellNo) (pool : Bool) (s : State) :
    (roomMade d cells free pool s).desc d = { s.desc d with cells := cells } := desc_setDesc_self ..

theorem setDesc_roomMade (d : DescNo) (cells free : List CellNo) (pool : Bool) (s : State) (ds : Descriptor) :
    (roomMade d cells free pool s).setDesc d ds = { s.setDesc d ds with freeList := free, pendPool := pool } :=
  congrArg (fun t : State => { t with freeList := free, pendPool := pool }) (setDesc_setDesc s d _ ds)

theorem acceptByte_eq (d : DescNo) (v : Byte) (s : State) :
    acceptByte d v s =
      { s.setDesc d { s.desc d with length := (s.desc d).length + 1 } with
        mem := (storeChar (s.desc d).cells (s.desc d).length v s).mem, lastRefused := false, noCell := false
        blockFull := s.blockFull || decide ((s.desc d).length + 1 = 64) } := by
  rw [acceptByte, storeChar_eq]
  rfl

/-- A byte accepted into a block whose room has been made: where it is stored, and all that changes besides. -/
theorem acceptByte_roomMade (d : DescNo) (cells free : List CellNo) (pool : Bool) (v : Byte) (s : State) :
    acceptByte d v (roomMade d cells free pool s) =
      { s.setDesc d { s.desc d with length := (s.desc d).length + 1, cells := cells } with
        mem := (storeChar cells (s.desc d).length v (roomMade d cells free pool s)).mem
        freeList := free, pendPool := pool, lastRefused := false, noCell := false
        blockFull := s.blockFull || decide ((s.desc d).length + 1 = 64) } := by
  rw [acceptByte_eq, desc_roomMade, setDesc_roomMade]
  rfl

/-! ## The write of TXDATA, case by case (R53 to R56) -/

theorem exec_txdataWrite_running {s : State} (v : Byte) (h : s.resetHeld = false) :
    exec (.txdataWrite v) s = .next (writeTxdata v s) := by
  change execTxdataWrite v s = _
  rw [execTxdataWrite, unlessReset_running h]

theorem writeTxdata_closed {s : State} (v : Byte) (hw : s.window = none) :
    writeTxdata v s = refuseByte false s := by
  rw [writeTxdata, hw]

section
variable {s : State} {d : DescNo} (v : Byte) (hw : s.window = some d)
include hw

theorem writeTxdata_full (h64 : 64 ≤ (s.desc d).length) : writeTxdata v s = refuseByte false s := by
  simp only [writeTxdata, hw, if_pos h64]

/-- Inside a cell the byte is accepted whatever the free count (R55). -/
theorem writeTxdata_in_cell (hlt : (s.desc d).length < 64) (hmod : (s.desc d).length % 16 ≠ 0) :
    writeTxdata v s = acceptByte d v s := by
  simp only [writeTxdata, hw, if_neg (Nat.not_le.mpr hlt), if_neg hmod]

theorem writeTxdata_no_cell (hlt : (s.desc d).length < 64) (hmod : (s.desc d).length % 16 = 0)
    (hr : s.freeList.length ≤ s.reserve) : writeTxdata v s = refuseByte true s := by
  simp only [writeTxdata, hw, if_neg (Nat.not_le.mpr hlt), if_pos hmod, takeCell_at_reserve hr]

/-- At a cell boundary with the free count above the reserve the block gets the head cell first (R55). -/
theorem writeTxdata_new_cell {c : CellNo} {rest : List CellNo} (hlt : (s.desc d).length < 64)
    (hmod : (s.desc d).length % 16 = 0) (hl : s.freeList = c :: rest) (hr : s.reserve < s.freeList.length) :
    writeTxdata v s = acceptByte d v (roomMade d ((s.desc d).cells ++ [c]) rest
      (s.pendPool || decide (s.freeList.length = s.poolLow)) s) := by
  rw [writeTxdata, hw]
  simp only [if_neg (Nat.not_le.mpr hlt), if_pos hmod, takeCell_above_reserve hl hr]
  rfl

end

/-! ## DISCARD BLOCK (R60) -/

theorem exec_discardBlock (s : State) : exec .discardBlock s = .next (hostCommand cmdDiscardBlock s) := rfl

theorem cmdDiscardBlock_closed {s : State} (hw : s.window = none) : cmdDiscardBlock s = complete .noWindow s := by
  rw [cmdDiscardBlock, hw]

theorem cmdDiscardBlock_open {s : State} {d : DescNo} (hw : s.window = some d) :
    cmdDiscardBlock s = complete .ok
      { s.setDesc d .unused with
        freeList := s.freeList ++ (s.desc d).cells, window := none, blockFull := false } := by
  simp only [cmdDiscardBlock, hw]
  rfl

end Sys2Proof.Machine

namespace Sys2Proof.Claims

open Sys2Proof.Machine

/-- Settles O14: each refusal is its case of the write; both ways to be accepted are one acceptance into a block whose room
has been made, with a take or without. -/
theorem txdataWrite : Obligations.TxdataWrite := by
  intro s v hrun
  rw [exec_txdataWrite_running v hrun]
  refine ⟨fun hw => ?closed, fun d hw => ⟨fun h64 => ?full, fun hlt hmod hr => ?noCell, ?accepted⟩⟩
  case closed => rw [writeTxdata_closed v hw, refuseByte]
  case full => rw [writeTxdata_full v hw h64, refuseByte]
  case noCell => rw [writeTxdata_no_cell v hw hlt hmod hr, refuseByte]
  case accepted =>
    intro cells free pool hm hlt hroom
    have hwrite : writeTxdata v s = acceptByte d v (roomMade d cells free pool s) := by
      obtain ⟨hmod, rfl, rfl, rfl⟩ | ⟨hmod, hr, ⟨c, hl, rfl⟩, rfl⟩ := hroom
      · rw [writeTxdata_in_cell v hw hlt hmod, roomMade_self]
      · exact writeTxdata_new_cell v hw hlt hmod hl hr
    rw [hwrite, acceptByte_roomMade]
    exact ⟨_, rfl, fun _ hc => read_storeChar_of_cell hm hc, fun _ ha => read_storeChar_other ha⟩

/-- Settles O16: the command is its action on the accepted state, which splits on whether the window is open; the freed
descriptor is the unused one. -/
theorem discardBlockAbandons : Obligations.DiscardBlockAbandons := by
  rintro s ⟨hreset, hbusy⟩
  rw [exec_discardBlock, hostCommand_ready hreset hbusy]
  refine ⟨fun hw => ?closed, fun d hw => ⟨.unused, rfl, ?opened⟩⟩
  case closed => exact congrArg _ (cmdDiscardBlock_closed (s := { s with commandLost := false }) hw)
  case opened => exact congrArg _ (cmdDiscardBlock_open (s := { s with commandLost := false }) hw)

end Sys2Proof.Claims
end

section
/-! PROOFS. The commands of the modem signals, SET MODEM OUTPUTS (R134, R135) and GET MODEM STATUS (R136), and what the output
pins RTS, DTR and TXD of a line carry (R68, R70, R126, R130). -/

namespace Sys2Proof.Machine

/-! ## The line a command names in PARAM0 -/

theorem lineOf_eq_some_iff {p : Byte} {l : LineNo} : lineOf p = some l ↔ p.toNat = l.val := by
  unfold lineOf
  split
  · simp [Fin.ext_iff]
  · have := l.isLt
    simp only [reduceCtorEq, false_iff]
    omega

theorem lineOf_eq_none_iff {p : Byte} : lineOf p = none ↔ 16 ≤ p.toNat := by
  simp [lineOf]

theorem withLine_of_line {k : LineNo → State → State} {s : State} {l : LineNo} (hl : s.param0.toNat = l.val) :
    withLine k s = k l s := by
  rw [withLine, lineOf_eq_some_iff.mpr hl]

theorem withLine_no_line {k : LineNo → State → State} {s : State} (h : 16 ≤ s.param0.toNat) :
    withLine k s = complete .badParam s := by
  rw [withLine, lineOf_eq_none_iff.mpr h]

/-! ## SET MODEM OUTPUTS, check by check (R134) -/

theorem exec_setModemOutputs (s : State) : exec .setModemOutputs s = .next (hostCommand cmdSetModemOutputs s) := rfl

theorem manualAction_eq_afterAction : manualAction = Claims.afterAction := rfl

/-- Check 1 (R134): the line and both actions are in range. -/
theorem cmdSetModemOutputs_out_of_range {s : State}
    (h : 16 ≤ s.param0.toNat ∨ 3 ≤ s.param1.toNat ∨ 3 ≤ s.param2.toNat) :
    cmdSetModemOutputs s = complete .badParam s := by
  obtain h0 | hact := h
  · exact withLine_no_line h0
  · cases hl : lineOf s.param0 with
    | none => exact withLine_no_line (lineOf_eq_none_iff.mp hl)
    | some l => exact (withLine_of_line (lineOf_eq_some_iff.mp hl)).trans (if_pos hact)

section
variable {s : State} {l : LineNo} (hl : s.param0.toNat = l.val) (h1 : s.param1.toNat < 3) (h2 : s.param2.toNat < 3)
include hl h1 h2

/-- With the parameters in range, checks 2 to 4 decide in their order (R134). -/
theorem cmdSetModemOutputs_in_range :
    cmdSetModemOutputs s =
      if (s.param1 ≠ 0 ∧ (s.line l).cfg.rtsMode ≠ .manual) ∨ (s.param2 ≠ 0 ∧ (s.line l).cfg.dtrMode ≠ .manual) then
        complete .badParam s
      else if (s.line l).state = .restarting ∨ (s.line l).state = .disabling then complete .lineBusy s
      else if s.param1 ≠ 0 ∧ (s.line l).state = .disabled then complete .lineDisabled s
      else complete .ok (Claims.onLineOf s l fun ln =>
        { ln with
          flow.manualRts := Claims.afterAction s.param1 ln.flow.manualRts
          flow.manualDtr := Claims.afterAction s.param2 ln.flow.manualDtr }) := by
  have hrange : ¬(s.param1.toNat ≥ 3 ∨ s.param2.toNat ≥ 3) := by omega
  rw [cmdSetModemOutputs, withLine_of_line hl, manualAction_eq_afterAction]
  exact if_neg hrange

theorem cmdSetModemOutputs_not_manual
    (hmode : (s.param1 ≠ 0 ∧ (s.line l).cfg.rtsMode ≠ .manual) ∨ (s.param2 ≠ 0 ∧ (s.line l).cfg.dtrMode ≠ .manual)) :
    cmdSetModemOutputs s = complete .badParam s := by
  rw [cmdSetModemOutputs_in_range hl h1 h2, if_pos hmode]

/-- Check 2 passed: checks 3 and 4 are left (R134). -/
theorem cmdSetModemOutputs_manual (hrts : s.param1 = 0 ∨ (s.line l).cfg.rtsMode = .manual)
    (hdtr : s.param2 = 0 ∨ (s.line l).cfg.dtrMode = .manual) :
    cmdSetModemOutputs s =
      if (s.line l).state = .restarting ∨ (s.line l).state = .disabling then complete .lineBusy s
      else if s.param1 ≠ 0 ∧ (s.line l).state = .disabled then complete .lineDisabled s
      else complete .ok (Claims.onLineOf s l fun ln =>
        { ln with
          flow.manualRts := Claims.afterAction s.param1 ln.flow.manualRts
          flow.manualDtr := Claims.afterAction s.param2 ln.flow.manualDtr }) := by
  have hmanual : ¬((s.param1 ≠ 0 ∧ (s.line l).cfg.rtsMode ≠ .manual) ∨
      (s.param2 ≠ 0 ∧ (s.line l).cfg.dtrMode ≠ .manual)) := by
    rintro (⟨hact, hmode⟩ | ⟨hact, hmode⟩)
    · exact hrts.elim hact hmode
    · exact hdtr.elim hact hmode
  rw [cmdSetModemOutputs_in_range hl h1 h2, if_neg hmanual]

variable (hrts : s.param1 = 0 ∨ (s.line l).cfg.rtsMode = .manual)
  (hdtr : s.param2 = 0 ∨ (s.line l).cfg.dtrMode = .manual)
include hrts hdtr

theorem cmdSetModemOutputs_busy (hst : (s.line l).state = .restarting ∨ (s.line l).state = .disabling) :
    cmdSetModemOutputs s = complete .lineBusy s := by
  rw [cmdSetModemOutputs_manual hl h1 h2 hrts hdtr, if_pos hst]

theorem cmdSetModemOutputs_disabled (hst : (s.line l).state = .disabled) (hact : s.param1 ≠ 0) :
    cmdSetModemOutputs s = complete .lineDisabled s := by
  have hidle : ¬((s.line l).state = .restarting ∨ (s.line l).state = .disabling) := by
    simp only [hst, reduceCtorEq, or_self, not_false_eq_true]
  rw [cmdSetModemOutputs_manual hl h1 h2 hrts hdtr, if_neg hidle, if_pos ⟨hact, hst⟩]

/-- Every check passed, the actions act on the manual levels (R134, R135). -/
theorem cmdSetModemOutputs_ok
    (hst : (s.line l).state = .enabled ∨ ((s.line l).state = .disabled ∧ s.param1 = 0)) :
    cmdSetModemOutputs s = complete .ok (Claims.onLineOf s l fun ln =>
      { ln with
        flow.manualRts := Claims.afterAction s.param1 ln.flow.manualRts
        flow.manualDtr := Claims.afterAction s.param2 ln.flow.manualDtr }) := by
  have hidle : ¬((s.line l).state = .restarting ∨ (s.line l).state = .disabling) := by
    obtain h | ⟨h, -⟩ := hst <;> simp [h]
  have hable : ¬(s.param1 ≠ 0 ∧ (s.line l).state = .disabled) := by
    obtain h | ⟨-, h⟩ := hst <;> simp [h]
  rw [cmdSetModemOutputs_manual hl h1 h2 hrts hdtr, if_neg hidle, if_neg hable]

end

/-! ## GET MODEM STATUS (R136) -/

theorem exec_getModemStatus (s : State) : exec .getModemStatus s = .next (hostCommand cmdGetModemStatus s) := rfl

theorem levelCode_eq_asValue : levelCode = Claims.asValue := by
  funext v
  cases v <;> rfl

theorem cmdGetModemStatus_of_line {s : State} {l : LineNo} (hl : s.param0.toNat = l.val) :
    cmdGetModemStatus s = completeWith (Claims.asValue (s.line l).flow.cts.level)
      (Claims.asValue (s.line l).flow.dcd.level) (Claims.asValue (rtsLevel (s.line l)))
      (Claims.asValue (dtrLevel (s.line l))) s := by
  rw [cmdGetModemStatus, withLine_of_line hl, levelCode_eq_asValue]

theorem cmdGetModemStatus_no_line {s : State} (h : 16 ≤ s.param0.toNat) :
    cmdGetModemStatus s = complete .badParam s := withLine_no_line h

/-! ## RTS and DTR (R126, R130) -/

theorem levelOf_eq_asserted_iff {b : Bool} : levelOf b = .asserted ↔ b = true := by
  cases b <;> simp [levelOf]

section
variable {ln : Line}

theorem rtsLevel_disabled (h : ln.state = .disabled) : rtsLevel ln = .negated := by
  simp only [rtsLevel, h]

/-- On a line that is not DISABLED the RTS mode alone decides (R126). -/
theorem rtsLevel_not_disabled (h : ln.state ≠ .disabled) :
    (ln.cfg.rtsMode = .manual → rtsLevel ln = ln.flow.manualRts) ∧
    (ln.cfg.rtsMode = .keyed → rtsLevel ln = levelOf ln.tx.keyed) ∧
    (ln.cfg.rtsMode = .flow → rtsLevel ln = levelOf (!ln.flow.congested)) := by
  cases hst : ln.state with
  | disabled => exact absurd hst h
  | enabled | restarting | disabling =>
    refine ⟨fun hm => ?_, fun hm => ?_, fun hm => ?_⟩ <;> simp only [rtsLevel, hst, hm]

theorem rtsLevel_manual (h : ln.state ≠ .disabled) (hm : ln.cfg.rtsMode = .manual) :
    rtsLevel ln = ln.flow.manualRts := by
  obtain ⟨hmanual, -, -⟩ := rtsLevel_not_disabled h
  exact hmanual hm

theorem rtsLevel_keyed_iff (h : ln.state ≠ .disabled) (hm : ln.cfg.rtsMode = .keyed) :
    rtsLevel ln = .asserted ↔ ln.tx.keyed = true := by
  obtain ⟨-, hkeyed, -⟩ := rtsLevel_not_disabled h
  rw [hkeyed hm, levelOf_eq_asserted_iff]

theorem rtsLevel_flow_iff (h : ln.state ≠ .disabled) (hm : ln.cfg.rtsMode = .flow) :
    rtsLevel ln = .asserted ↔ ln.flow.congested = false := by
  obtain ⟨-, -, hflow⟩ := rtsLevel_not_disabled h
  rw [hflow hm, levelOf_eq_asserted_iff, Bool.not_eq_true']

theorem dtrLevel_manual (h : ln.cfg.dtrMode = .manual) : dtrLevel ln = ln.flow.manualDtr := by
  simp only [dtrLevel, h]

theorem dtrLevel_auto_iff (h : ln.cfg.dtrMode = .auto) : dtrLevel ln = .asserted ↔ ln.state ≠ .disabled := by
  cases hst : ln.state <;> simp [dtrLevel, h, hst]

end

/-! ## The frame of a character (R70) -/

/-- Adding the bits one by one keeps the parity of the 1 bits so far. -/
theorem foldl_bne_eq (bits : List Bool) (p : Bool) :
    bits.foldl (fun q b => q != b) p = (p != decide (bits.count true % 2 = 1)) := by
  induction bits generalizing p with
  | nil => simp
  | cons b bits ih =>
    have hcarry : decide ((List.count true bits + 1) % 2 = 1) = !decide (List.count true bits % 2 = 1) := by
      rw [← decide_not]
      exact decide_eq_decide.mpr (by omega)
    rw [List.foldl_cons, ih]
    cases b
    · simp
    · rw [List.count_cons_self, hcarry]
      cases p <;> simp

theorem oddOnes_eq (bits : List Bool) : oddOnes bits = decide (bits.count true % 2 = 1) := by
  simp [oddOnes, foldl_bne_eq]

theorem parityBits_even (bits : List Bool) : Claims.parityBits .even bits = [oddOnes bits] := by
  rw [oddOnes_eq, Claims.parityBits]

theorem parityBits_odd (bits : List Bool) : Claims.parityBits .odd bits = [!oddOnes bits] := by
  have hodd : decide (bits.count true % 2 = 0) = !decide (bits.count true % 2 = 1) := by
    rw [← decide_not]
    exact decide_eq_decide.mpr (by omega)
  rw [oddOnes_eq, Claims.parityBits, hodd]

theorem dataBitList_eq (cfg : LineConfig) (v : Byte) :
    dataBitList cfg v = (List.range (if cfg.dataBits = .seven then 7 else 8)).map v.getLsbD := by
  cases h : cfg.dataBits <;> simp [dataBitList, h]

/-- The two frames agree part by part: the data bits, the parity bit by the parity, the stop bits by their number (R70). -/
theorem frameLevels_eq_frameOf (cfg : LineConfig) (v : Byte) : frameLevels cfg v = Claims.frameOf cfg v := by
  simp only [frameLevels, Claims.frameOf, dataBitList_eq]
  cases cfg.parity with
  | none => cases cfg.stopBits <;> rfl
  | even => rw [parityBits_even]; cases cfg.stopBits <;> rfl
  | odd => rw [parityBits_odd]; cases cfg.stopBits <;> rfl

theorem flowChar_value_eq (c : FlowChar) : c.value = Claims.flowCharValue c := by
  cases c <;> rfl

/-! ## TXD (R68) -/

section
variable {ln : Line}

theorem txdLine_block {v : Byte} (h : ln.tx.inFlight = some (.block v)) :
    txdLine ln = .frame (Claims.frameOf ln.cfg v) := by
  simp only [txdLine, h, frameLevels_eq_frameOf]

theorem txdLine_priority {c : FlowChar} (h : ln.tx.inFlight = some (.priority c)) :
    txdLine ln = .frame (Claims.frameOf ln.cfg (Claims.flowCharValue c)) := by
  simp only [txdLine, h, frameLevels_eq_frameOf, flowChar_value_eq]

theorem txdLine_break {n : Nat} (h : ln.tx.inFlight = none) (hb : ln.tx.breakTimer = .space n) :
    txdLine ln = .space := by
  simp only [txdLine, h, hb]

theorem txdLine_mark (h : ln.tx.inFlight = none) (hb : ∀ n, ln.tx.breakTimer ≠ .space n) :
    txdLine ln = .mark := by
  cases ht : ln.tx.breakTimer with
  | space n => exact absurd ht (hb n)
  | mark | stopped => simp only [txdLine, h, ht]

end

end Sys2Proof.Machine

namespace Sys2Proof.Claims

open Sys2Proof.Machine

/-- Settles O48: the command is its action on the accepted state, and each clause is one of its checks, in their order. -/
theorem setModemOutputs : Obligations.SetModemOutputs := by
  rintro s ⟨hreset, hbusy⟩
  rw [exec_setModemOutputs, hostCommand_ready hreset hbusy]
  refine ⟨fun h => ?range, fun l hl h1 h2 => ⟨fun hmode => ?mode, fun hrts hdtr =>
    ⟨fun hst => ?busy, fun hst hact => ?disabled, fun hst => ?accepted⟩⟩⟩
  case range => exact congrArg _ (cmdSetModemOutputs_out_of_range (s := { s with commandLost := false }) h)
  case mode => exact congrArg _ (cmdSetModemOutputs_not_manual (s := { s with commandLost := false }) hl h1 h2 hmode)
  case busy =>
    exact congrArg _ (cmdSetModemOutputs_busy (s := { s with commandLost := false }) hl h1 h2 hrts hdtr hst)
  case disabled =>
    exact congrArg _ (cmdSetModemOutputs_disabled (s := { s with commandLost := false }) hl h1 h2 hrts hdtr hst hact)
  case accepted =>
    exact congrArg _ (cmdSetModemOutputs_ok (s := { s with commandLost := false }) hl h1 h2 hrts hdtr hst)

/-- Settles O49: the command is its action on the accepted state, which splits on the line; each pin is one function of the
line, taken case by case. -/
theorem modemStatusAndOutputs : Obligations.ModemStatusAndOutputs := by
  refine ⟨?command, fun ln => ⟨rtsLevel_disabled, fun hst => ⟨rtsLevel_manual hst, rtsLevel_keyed_iff hst,
    rtsLevel_flow_iff hst⟩, dtrLevel_auto_iff, dtrLevel_manual, fun _ => txdLine_block, fun _ => txdLine_priority,
    fun hnone => ⟨fun _ => txdLine_break hnone, txdLine_mark hnone⟩⟩⟩
  case command =>
    rintro s ⟨hreset, hbusy⟩
    rw [exec_getModemStatus, hostCommand_ready hreset hbusy]
    refine ⟨fun h => ?noLine, fun l hl => ?status⟩
    case noLine => exact congrArg _ (cmdGetModemStatus_no_line (s := { s with commandLost := false }) h)
    case status => exact congrArg _ (cmdGetModemStatus_of_line (s := { s with commandLost := false }) hl)

end Sys2Proof.Claims
end

section
/-! PROOFS. The commands that report on a line: GET LINE CONFIG (R142) and GET LINE STATUS (R151). -/

namespace Sys2Proof.Claims

open Sys2Proof.Machine

/-! ## The tables of codes list the model's codes (R141) -/

theorem mem_dataBitsCodes_iff {p : Byte} {b : DataBits} : (p, b) ∈ dataBitsCodes ↔ p = b.code := by
  cases b <;> simp [dataBitsCodes, DataBits.code]

theorem mem_parityStopCodes_iff {p : Byte} {a : Parity} {b : StopBits} :
    (p, a, b) ∈ parityStopCodes ↔ p = parityStopCode a b := by
  cases a <;> cases b <;> simp [parityStopCodes, parityStopCode]

theorem mem_errorPolicyCodes_iff {p : Byte} {e : ErrorPolicy} : (p, e) ∈ errorPolicyCodes ↔ p = e.code := by
  cases e <;> simp [errorPolicyCodes, ErrorPolicy.code]

theorem mem_txFlowCodes_iff {p : Byte} {f : TxFlow} : (p, f) ∈ txFlowCodes ↔ p = f.code := by
  cases f <;> simp [txFlowCodes, TxFlow.code]

theorem mem_rtsModeCodes_iff {p : Byte} {m : RtsMode} : (p, m) ∈ rtsModeCodes ↔ p = m.code := by
  cases m <;> simp [rtsModeCodes, RtsMode.code]

theorem mem_boolCodes_iff {p : Byte} {b : Bool} : (p, b) ∈ boolCodes ↔ p = boolCode b := by
  cases b <;> simp [boolCodes, boolCode]

theorem mem_dtrModeCodes_iff {p : Byte} {m : DtrMode} : (p, m) ∈ dtrModeCodes ↔ p = m.code := by
  cases m <;> simp [dtrModeCodes, DtrMode.code]

theorem mem_dcdActionCodes_iff {p : Byte} {a : DcdAction} : (p, a) ∈ dcdActionCodes ↔ p = a.code := by
  cases a <;> simp [dcdActionCodes, DcdAction.code]

theorem mem_eventMaskCodes_iff {p : Byte} {cts dcd : Bool} :
    (p, cts, dcd) ∈ eventMaskCodes ↔ p = eventMaskCode cts dcd := by
  cases cts <;> cases dcd <;> simp [eventMaskCodes, eventMaskCode, boolCode]

theorem mem_holdActionCodes_iff {p : Byte} {a : HoldAction} : (p, a) ∈ holdActionCodes ↔ p = a.code := by
  cases a <;> simp [holdActionCodes, HoldAction.code]

end Sys2Proof.Claims

namespace Sys2Proof.Machine

/-! ## The group of a selector (R142) -/

/-- The six groups are selectors 0 to 5. -/
theorem configGroup_eq_none {p : Byte} (cfg : LineConfig) (h : 6 ≤ p.toNat) : configGroup cfg p = none := by
  have hne (k : Byte) (hk : k.toNat < 6) : p ≠ k := by
    rintro rfl
    omega
  simp [configGroup, hne]

section
variable {cfg : LineConfig}

theorem configGroup_format {d p : Byte} (hd : (d, cfg.dataBits) ∈ Claims.dataBitsCodes)
    (hp : (p, cfg.parity, cfg.stopBits) ∈ Claims.parityStopCodes) :
    configGroup cfg 0 = some (byte cfg.baud.val, d, p) := by
  rw [Claims.mem_dataBitsCodes_iff.mp hd, Claims.mem_parityStopCodes_iff.mp hp]
  rfl

theorem configGroup_record {e : Byte} (he : (e, cfg.errorPolicy) ∈ Claims.errorPolicyCodes) :
    configGroup cfg 1 = some (byte cfg.maxLength, byte cfg.idleGap, e) := by
  rw [Claims.mem_errorPolicyCodes_iff.mp he]
  rfl

theorem configGroup_flow {f m x : Byte} (hf : (f, cfg.txFlow) ∈ Claims.txFlowCodes)
    (hm : (m, cfg.rtsMode) ∈ Claims.rtsModeCodes) (hx : (x, cfg.rxXoff) ∈ Claims.boolCodes) :
    configGroup cfg 2 = some (f, m, x) := by
  rw [Claims.mem_txFlowCodes_iff.mp hf, Claims.mem_rtsModeCodes_iff.mp hm, Claims.mem_boolCodes_iff.mp hx]
  rfl

theorem configGroup_modem {m a e : Byte} (hm : (m, cfg.dtrMode) ∈ Claims.dtrModeCodes)
    (ha : (a, cfg.dcdAction) ∈ Claims.dcdActionCodes) (he : (e, cfg.maskCts, cfg.maskDcd) ∈ Claims.eventMaskCodes) :
    configGroup cfg 3 = some (m, a, e) := by
  rw [Claims.mem_dtrModeCodes_iff.mp hm, Claims.mem_dcdActionCodes_iff.mp ha, Claims.mem_eventMaskCodes_iff.mp he]
  rfl

theorem configGroup_timers :
    configGroup cfg 4 = some (byte cfg.rtsLead, byte cfg.rtsTrail, byte cfg.holdLimit) := rfl

theorem configGroup_queue {a : Byte} (ha : (a, cfg.holdAction) ∈ Claims.holdActionCodes) :
    configGroup cfg 5 = some (byte cfg.quota, a, 0) := by
  rw [Claims.mem_holdActionCodes_iff.mp ha]
  rfl

end

/-! ## GET LINE CONFIG (R142) -/

theorem exec_getLineConfig (s : State) : exec .getLineConfig s = .next (hostCommand cmdGetLineConfig s) := rfl

theorem cmdGetLineConfig_out_of_range {s : State} (h : 16 ≤ s.param0.toNat ∨ 6 ≤ s.param1.toNat) :
    cmdGetLineConfig s = complete .badParam s := by
  obtain h0 | h1 := h
  · exact withLine_no_line h0
  · cases hl : lineOf s.param0 with
    | none => exact withLine_no_line (lineOf_eq_none_iff.mp hl)
    | some l =>
      rw [cmdGetLineConfig, withLine_of_line (lineOf_eq_some_iff.mp hl), configGroup_eq_none _ h1]

theorem cmdGetLineConfig_of_group {s : State} {l : LineNo} {selector a b c : Byte} (hl : s.param0.toNat = l.val)
    (hsel : s.param1 = selector) (hgroup : configGroup (s.line l).cfg selector = some (a, b, c)) :
    cmdGetLineConfig s = completeWith selector a b c s := by
  subst hsel
  rw [cmdGetLineConfig, withLine_of_line hl, hgroup]

section
variable {s : State} (hready : Claims.Ready s)
include hready

theorem exec_getLineConfig_accepted :
    exec .getLineConfig s = .next (cmdGetLineConfig { s with commandLost := false }) := by
  obtain ⟨hreset, hbusy⟩ := hready
  rw [exec_getLineConfig, hostCommand_ready hreset hbusy]

theorem exec_getLineConfig_out_of_range (h : 16 ≤ s.param0.toNat ∨ 6 ≤ s.param1.toNat) :
    exec .getLineConfig s = .next (Claims.done .badParam s) :=
  (exec_getLineConfig_accepted hready).trans
    (congrArg _ (cmdGetLineConfig_out_of_range (s := { s with commandLost := false }) h))

theorem exec_getLineConfig_of_group {l : LineNo} {selector a b c : Byte} (hl : s.param0.toNat = l.val)
    (hsel : s.param1 = selector) (hgroup : configGroup (s.line l).cfg selector = some (a, b, c)) :
    exec .getLineConfig s = .next (Claims.doneWith selector a b c s) :=
  (exec_getLineConfig_accepted hready).trans
    (congrArg _ (cmdGetLineConfig_of_group (s := { s with commandLost := false }) hl hsel hgroup))

end

/-! ## GET LINE STATUS (R151) -/

theorem exec_getLineStatus (s : State) : exec .getLineStatus s = .next (hostCommand cmdGetLineStatus s) := rfl

theorem mul_boolCode (n : Byte) (b : Bool) : n * boolCode b = if b then n else 0 := by
  cases b <;> simp [boolCode]

theorem cmdGetLineStatus_no_line {s : State} (h : 16 ≤ s.param0.toNat) :
    cmdGetLineStatus s = complete .badParam s := withLine_no_line h

/-- The three states by their codes, and the three flags as the weights they add to the length of the queue (R151). -/
theorem cmdGetLineStatus_of_line {s : State} {l : LineNo} (hl : s.param0.toNat = l.val) :
    cmdGetLineStatus s = completeWith (s.line l).state.code (s.line l).tx.state.code
      ((s.line l).rx.state.code + 4 * byte (s.line l).rx.fifo.length)
      (byte (s.line l).tx.queue.length + (if (s.line l).tx.remoteHold then 16 else 0)
        + (if (s.line l).tx.haltRequest then 32 else 0) + (if (s.line l).flow.congested then 64 else 0)) s := by
  simp only [cmdGetLineStatus, withLine_of_line hl, mul_boolCode]

end Sys2Proof.Machine

namespace Sys2Proof.Claims

open Sys2Proof.Machine

/-- Settles O22: a parameter out of range is refused; a selector in range answers its group of the record, whose fields are
in their coding. -/
theorem getLineConfig : Obligations.GetLineConfig := by
  intro s hready
  refine ⟨fun h => ?range, fun l hl => ⟨fun hsel _ hd _ hp => ?format, fun hsel _ he => ?record,
    fun hsel _ hf _ hm _ hx => ?flow, fun hsel _ hm _ ha _ he => ?modem, fun hsel => ?timers, fun hsel _ ha => ?queue⟩⟩
  case range => exact exec_getLineConfig_out_of_range hready h
  case format => exact exec_getLineConfig_of_group hready hl hsel (configGroup_format hd hp)
  case record => exact exec_getLineConfig_of_group hready hl hsel (configGroup_record he)
  case flow => exact exec_getLineConfig_of_group hready hl hsel (configGroup_flow hf hm hx)
  case modem => exact exec_getLineConfig_of_group hready hl hsel (configGroup_modem hm ha he)
  case timers => exact exec_getLineConfig_of_group hready hl hsel configGroup_timers
  case queue => exact exec_getLineConfig_of_group hready hl hsel (configGroup_queue ha)

/-- Settles O27: the command is its action on the accepted state, which splits on the line; the statement's three matches are
the codes of the three states. -/
theorem getLineStatus : Obligations.GetLineStatus := by
  rintro s ⟨hreset, hbusy⟩
  rw [exec_getLineStatus, hostCommand_ready hreset hbusy]
  refine ⟨fun h => ?noLine, fun l hl => ?status⟩
  case noLine => exact congrArg _ (cmdGetLineStatus_no_line (s := { s with commandLost := false }) h)
  case status => exact congrArg _ (cmdGetLineStatus_of_line (s := { s with commandLost := false }) hl)

end Sys2Proof.Claims
end

section
/-! PROOFS. The five commands of the match table: SET MATCH ENTRY and SET MATCH LINES (R163), ENABLE, DISABLE and READ
MATCH ENTRY (R164). -/

namespace Sys2Proof.Claims

open Sys2Proof.Machine

/-! ## The tables of codes list the model's codes (R163 to R165) -/

theorem mem_directionCodes_iff {p : Byte} {d : MatchDirection} : (p, d) ∈ directionCodes ↔ p = d.code := by
  cases d <;> simp [directionCodes, MatchDirection.code]

theorem mem_actionCodes_iff {p : Byte} {a : MatchAction} : (p, a) ∈ actionCodes ↔ p = a.code := by
  cases a <;> simp [actionCodes, MatchAction.code]

theorem code_eq_asCode (d : Direction) : d.code = asCode d := by
  cases d <;> rfl

end Sys2Proof.Claims

namespace Sys2Proof.Machine

/-! ## The entry a command names in PARAM0 -/

theorem matchOf_eq_some_iff {p : Byte} {n : MatchNo} : matchOf p = some n ↔ p.toNat = n.val := by
  unfold matchOf
  split
  · simp [Fin.ext_iff]
  · have := n.isLt
    simp only [reduceCtorEq, false_iff]
    omega

theorem matchOf_eq_none_iff {p : Byte} : matchOf p = none ↔ 8 ≤ p.toNat := by
  simp [matchOf]

theorem withMatch_of_entry {k : MatchNo → State → State} {s : State} {n : MatchNo} (hn : s.param0.toNat = n.val) :
    withMatch k s = k n s := by
  rw [withMatch, matchOf_eq_some_iff.mpr hn]

theorem withMatch_no_entry {k : MatchNo → State → State} {s : State} (h : 8 ≤ s.param0.toNat) :
    withMatch k s = complete .badParam s := by
  rw [withMatch, matchOf_eq_none_iff.mpr h]

/-! ## Bytes past the last code of a table -/

theorem ne_of_toNat_lt {p k : Byte} (h : k.toNat < p.toNat) : p ≠ k := fun heq => absurd h (heq ▸ Nat.lt_irrefl _)

/-! ## PARAM3 of SET MATCH ENTRY: direction plus 4 × action (R163) -/

theorem matchDirectionOf_code (d : MatchDirection) : matchDirectionOf d.code = some d := by
  cases d <;> rfl

theorem matchActionOf_code (a : MatchAction) : matchActionOf a.code = some a := by
  cases a <;> rfl

theorem matchDirectionOf_eq_none {p : Byte} (h : 3 ≤ p.toNat) : matchDirectionOf p = none := by
  have hne (k : Byte) (hk : k.toNat < 3) : p ≠ k := ne_of_toNat_lt (Nat.lt_of_lt_of_le hk h)
  simp [matchDirectionOf, hne]

theorem matchActionOf_eq_none {p : Byte} (h : 4 ≤ p.toNat) : matchActionOf p = none := by
  have hne (k : Byte) (hk : k.toNat < 4) : p ≠ k := ne_of_toNat_lt (Nat.lt_of_lt_of_le hk h)
  simp [matchActionOf, hne]

theorem toNat_and_three (p : Byte) : (p &&& 3).toNat = p.toNat % 4 := by
  rw [BitVec.toNat_and]
  exact Nat.and_two_pow_sub_one_eq_mod p.toNat 2

theorem toNat_shiftRight_two (p : Byte) : (p >>> 2).toNat = p.toNat / 4 := by
  rw [BitVec.toNat_ushiftRight]
  exact Nat.shiftRight_eq_div_pow p.toNat 2

/-- The two low bits of a coded pair are the direction, which is below 4. -/
theorem direction_bits (d : MatchDirection) (a : MatchAction) : (d.code + 4 * a.code) &&& 3 = d.code := by
  cases d <;> cases a <;> rfl

/-- The bits above them are the action. -/
theorem action_bits (d : MatchDirection) (a : MatchAction) : (d.code + 4 * a.code) >>> 2 = a.code := by
  cases d <;> cases a <;> rfl

theorem directionActionOf_code (d : MatchDirection) (a : MatchAction) :
    directionActionOf (d.code + 4 * a.code) = some (d, a) := by
  rw [directionActionOf, direction_bits, action_bits, matchDirectionOf_code, matchActionOf_code]

/-- A byte of 16 or more has an action of 4 or more; a remainder of 3 is no direction (R163). -/
theorem directionActionOf_eq_none {p : Byte} (h : 16 ≤ p.toNat ∨ p.toNat % 4 = 3) : directionActionOf p = none := by
  unfold directionActionOf
  obtain haction | hdirection := h
  · rw [matchActionOf_eq_none (by rw [toNat_shiftRight_two]; omega)]
    cases matchDirectionOf (p &&& 3) <;> rfl
  · rw [matchDirectionOf_eq_none (by rw [toNat_and_three]; omega)]

/-! ## A line set as two registers (R163, R164) -/

theorem getLsbD_linesOf_low {low high : Byte} {i : Nat} (h : i < 8) : (linesOf low high).getLsbD i = low.getLsbD i := by
  rw [linesOf, BitVec.getLsbD_append, if_pos h]

theorem getLsbD_linesOf_high (low high : Byte) (i : Nat) : (linesOf low high).getLsbD (8 + i) = high.getLsbD i := by
  rw [linesOf, BitVec.getLsbD_append, if_neg (by omega), Nat.add_sub_cancel_left]

theorem linesLow_eq_setWidth (set : BitVec 16) : linesLow set = set.setWidth 8 :=
  (BitVec.setWidth_eq_extractLsb' (by decide)).symm

theorem linesHigh_eq_setWidth (set : BitVec 16) : linesHigh set = (set >>> 8).setWidth 8 :=
  BitVec.eq_of_toNat_eq (by simp [linesHigh])

/-! ## The five commands as COMMAND writes (R184) -/

theorem exec_setMatchEntry (s : State) : exec .setMatchEntry s = .next (hostCommand cmdSetMatchEntry s) := rfl

theorem exec_setMatchLines (s : State) : exec .setMatchLines s = .next (hostCommand cmdSetMatchLines s) := rfl

theorem exec_enableMatchEntry (s : State) : exec .enableMatchEntry s = .next (hostCommand cmdEnableMatchEntry s) := rfl

theorem exec_disableMatchEntry (s : State) :
    exec .disableMatchEntry s = .next (hostCommand cmdDisableMatchEntry s) := rfl

theorem exec_readMatchEntry (s : State) : exec .readMatchEntry s = .next (hostCommand cmdReadMatchEntry s) := rfl

/-! ## SET MATCH ENTRY and SET MATCH LINES (R163) -/

theorem cmdSetMatchEntry_out_of_range {s : State}
    (h : 8 ≤ s.param0.toNat ∨ 16 ≤ s.param3.toNat ∨ s.param3.toNat % 4 = 3) :
    cmdSetMatchEntry s = complete .badParam s := by
  unfold cmdSetMatchEntry
  obtain hentry | hcode := h
  · rw [matchOf_eq_none_iff.mpr hentry]
  · rw [directionActionOf_eq_none hcode]
    cases matchOf s.param0 <;> rfl

section
variable {s : State} {n : MatchNo} (hn : s.param0.toNat = n.val)
include hn

theorem cmdSetMatchEntry_of_entry {d : MatchDirection} {a : MatchAction} (hcode : s.param3 = d.code + 4 * a.code) :
    cmdSetMatchEntry s = complete .ok (Claims.onEntryOf s n fun m =>
      { m with value := s.param1, mask := s.param2, direction := d, action := a
               hitCount := 0, pendingPost := none }) := by
  rw [cmdSetMatchEntry, matchOf_eq_some_iff.mpr hn, hcode, directionActionOf_code]
  rfl

theorem cmdSetMatchLines_of_entry :
    cmdSetMatchLines s = complete .ok (Claims.onEntryOf s n fun m =>
      { m with lines := linesOf s.param1 s.param2, hitCount := 0, pendingPost := none }) := withMatch_of_entry hn

/-! ## ENABLE and DISABLE MATCH ENTRY (R164) -/

theorem cmdEnableMatchEntry_of_entry :
    cmdEnableMatchEntry s = complete .ok (Claims.onEntryOf s n fun m => { m with enabled := true }) :=
  withMatch_of_entry hn

theorem cmdDisableMatchEntry_of_entry :
    cmdDisableMatchEntry s = complete .ok (Claims.onEntryOf s n fun m => { m with enabled := false }) :=
  withMatch_of_entry hn

/-! ## READ MATCH ENTRY (R164), part by part -/

theorem cmdReadMatchEntry_behaviour (hpart : s.param1 = 0) :
    cmdReadMatchEntry s = completeWith
      ((if (s.matchEntry n).enabled then 1 else 0) + 2 * (s.matchEntry n).direction.code
        + 8 * (s.matchEntry n).action.code)
      (s.matchEntry n).value (s.matchEntry n).mask (s.matchEntry n).hitCount s :=
  (withMatch_of_entry hn).trans (if_pos hpart)

theorem cmdReadMatchEntry_lines (hpart : s.param1 = 1) :
    cmdReadMatchEntry s = completeWith ((s.matchEntry n).lines.setWidth 8)
      (((s.matchEntry n).lines >>> 8).setWidth 8) 0 0 s := by
  simp [cmdReadMatchEntry, withMatch_of_entry hn, hpart, linesLow_eq_setWidth, linesHigh_eq_setWidth]

theorem cmdReadMatchEntry_no_post (hpart : s.param1 = 2) (hpost : (s.matchEntry n).pendingPost = none) :
    cmdReadMatchEntry s = completeWith 0 0 0 0 s := by
  simp [cmdReadMatchEntry, withMatch_of_entry hn, hpart, hpost]

theorem cmdReadMatchEntry_post {p : PendingPost} (hpart : s.param1 = 2)
    (hpost : (s.matchEntry n).pendingPost = some p) :
    cmdReadMatchEntry s =
      completeWith (1 + 2 * Claims.asCode p.direction + 4 * byte p.line.val) p.char p.count 0 s := by
  simp [cmdReadMatchEntry, withMatch_of_entry hn, hpart, hpost, Claims.code_eq_asCode]

theorem cmdReadMatchEntry_no_part (hpart : 3 ≤ s.param1.toNat) :
    cmdReadMatchEntry s = complete .badParam s := by
  have hne (k : Byte) (hk : k.toNat < 3) : s.param1 ≠ k := ne_of_toNat_lt (Nat.lt_of_lt_of_le hk hpart)
  simp [cmdReadMatchEntry, withMatch_of_entry hn, hne]

end

theorem cmdReadMatchEntry_out_of_range {s : State} (h : 8 ≤ s.param0.toNat ∨ 3 ≤ s.param1.toNat) :
    cmdReadMatchEntry s = complete .badParam s := by
  obtain hentry | hpart := h
  · exact withMatch_no_entry hentry
  · cases hn : matchOf s.param0 with
    | none => exact withMatch_no_entry (matchOf_eq_none_iff.mp hn)
    | some n => exact cmdReadMatchEntry_no_part (matchOf_eq_some_iff.mp hn) hpart

end Sys2Proof.Machine

namespace Sys2Proof.Claims

open Sys2Proof.Machine

/-- Settles O50: each command is its action on the accepted state; a parameter out of range is refused, and an entry in
range is changed in its named fields, or read part by part, with the direction and action in their coding. -/
theorem matchTableCommands : Obligations.MatchTableCommands := by
  rintro s ⟨hreset, hbusy⟩
  simp only [exec_setMatchEntry, exec_setMatchLines, exec_enableMatchEntry, exec_disableMatchEntry, exec_readMatchEntry,
    hostCommand_ready hreset hbusy, Host.Outcome.next.injEq]
  refine ⟨fun h => ?setRange, fun h => ?readRange, fun h => ⟨?linesRange, ?enableRange, ?disableRange⟩,
    fun n hn => ⟨?set, ⟨linesOf s.param1 s.param2, ?bits, ?lines⟩, ?enable, ?disable, ?part0, fun hpart => ?part1,
      fun hpart => ⟨fun hpost => ?noPost, fun p hpost => ?post⟩⟩⟩
  case setRange => exact cmdSetMatchEntry_out_of_range h
  case readRange => exact cmdReadMatchEntry_out_of_range h
  case linesRange | enableRange | disableRange => exact withMatch_no_entry h
  case set =>
    intro d hd a ha hcode
    rw [mem_directionCodes_iff.mp hd, mem_actionCodes_iff.mp ha] at hcode
    exact cmdSetMatchEntry_of_entry (s := { s with commandLost := false }) hn hcode
  case bits => exact fun i hi => ⟨getLsbD_linesOf_low hi, getLsbD_linesOf_high ..⟩
  case lines => exact cmdSetMatchLines_of_entry hn
  case enable => exact cmdEnableMatchEntry_of_entry hn
  case disable => exact cmdDisableMatchEntry_of_entry hn
  case part0 =>
    intro hpart d hd a ha
    rw [mem_directionCodes_iff.mp hd, mem_actionCodes_iff.mp ha]
    exact cmdReadMatchEntry_behaviour hn hpart
  case part1 => exact cmdReadMatchEntry_lines hn hpart
  case noPost => exact cmdReadMatchEntry_no_post hn hpart hpost
  case post => exact cmdReadMatchEntry_post (s := { s with commandLost := false }) hn hpart hpost

end Sys2Proof.Claims
end

section
/-! PROOFS. The counters of a line (R176), the line error set (R177), the error record (R178) and suppress-minor (R179): the
commands that read and clear them. -/

namespace Sys2Proof.Machine

/-! ## READ LINE COUNTERS and READ AND CLEAR LINE COUNTERS (R176) -/

theorem exec_readLineCounters (s : State) : exec .readLineCounters s = .next (hostCommand cmdReadLineCounters s) := rfl

theorem exec_readAndClearLineCounters (s : State) :
    exec .readAndClearLineCounters s = .next (hostCommand cmdReadAndClearLineCounters s) := rfl

section
variable {s : State} {l : LineNo} (hl : s.param0.toNat = l.val)
include hl

theorem cmdReadLineCounters_of_line :
    cmdReadLineCounters s = completeWith (s.line l).counters.parity (s.line l).counters.framing
      (s.line l).counters.overrun (s.line l).counters.discarded s := withLine_of_line hl

/-- The values returned are those before the counters are cleared. -/
theorem cmdReadAndClearLineCounters_of_line :
    cmdReadAndClearLineCounters s = completeWith (s.line l).counters.parity (s.line l).counters.framing
      (s.line l).counters.overrun (s.line l).counters.discarded
      (Claims.onLineOf s l fun ln => { ln with counters := .zero }) := withLine_of_line hl

end

/-! ## READ ERROR SET and CLEAR ERROR SET (R177) -/

theorem exec_readErrorSet (s : State) : exec .readErrorSet s = .next (hostCommand cmdReadErrorSet s) := rfl

theorem exec_clearErrorSet (s : State) : exec .clearErrorSet s = .next (hostCommand cmdClearErrorSet s) := rfl

theorem cmdReadErrorSet_eq (s : State) :
    cmdReadErrorSet s = completeWith (s.errorSet.setWidth 8) ((s.errorSet >>> 8).setWidth 8)
      (if s.suppressMinor then 1 else 0) 0 s := by
  rw [cmdReadErrorSet, linesLow_eq_setWidth, linesHigh_eq_setWidth, boolCode]

theorem getLsbD_removeLines {set lines : BitVec 16} {i : Nat} (h : i < 16) :
    (set &&& ~~~lines).getLsbD i = (set.getLsbD i && !lines.getLsbD i) := by
  rw [BitVec.getLsbD_and, BitVec.getLsbD_not, decide_eq_true h, Bool.true_and]

/-- Removing the lines of two registers, on the lines 0 to 7. -/
theorem getLsbD_removeLines_low {set : BitVec 16} {low high : Byte} {i : Nat} (h : i < 8) :
    (set &&& ~~~(linesOf low high)).getLsbD i = (set.getLsbD i && !low.getLsbD i) := by
  rw [getLsbD_removeLines (by omega), getLsbD_linesOf_low h]

/-- The same on the lines 8 to 15. -/
theorem getLsbD_removeLines_high {set : BitVec 16} {low high : Byte} {i : Nat} (h : i < 8) :
    (set &&& ~~~(linesOf low high)).getLsbD (8 + i) = (set.getLsbD (8 + i) && !high.getLsbD i) := by
  rw [getLsbD_removeLines (by omega), getLsbD_linesOf_high]

/-! ## READ ERROR RECORD and CLEAR ERROR RECORD (R178) -/

theorem exec_readErrorRecord (s : State) : exec .readErrorRecord s = .next (hostCommand cmdReadErrorRecord s) := rfl

theorem exec_clearErrorRecord (s : State) : exec .clearErrorRecord s = .next (hostCommand cmdClearErrorRecord s) := rfl

theorem lockStateCode_eq_asState : LockState.code = Claims.asState := by
  funext st
  cases st <;> rfl

theorem mul_severityCode (n : Byte) (v : Severity) : n * v.code = if v = .severe then n else 0 := by
  cases v <;> simp [Severity.code]

/-- The three flags of PARAM0 as the weights they add. -/
theorem cmdReadErrorRecord_eq (s : State) :
    cmdReadErrorRecord s = completeWith
      (Claims.asState s.errorRec.state + 4 * s.errorRec.firstKind.code
        + (if s.errorRec.firstSeverity = .severe then 16 else 0) + (if s.errorRec.severeAfter then 32 else 0)
        + (if s.errorRec.char.isSome then 64 else 0))
      (byte s.errorRec.line.val) (s.errorRec.char.getD 0) s.errorRec.further s := by
  simp only [cmdReadErrorRecord, lockStateCode_eq_asState, mul_severityCode, mul_boolCode]

theorem cmdClearErrorRecord_of_locked {s : State} (h : s.errorRec.state = .locked) :
    cmdClearErrorRecord s =
      complete .ok { s with errorRec := { s.errorRec with state := .unlocked, further := 0 } } := by
  rw [cmdClearErrorRecord, h]

theorem cmdClearErrorRecord_of_not_locked {s : State} (h : s.errorRec.state ≠ .locked) :
    cmdClearErrorRecord s = complete .ok s := by
  unfold cmdClearErrorRecord
  cases hst : s.errorRec.state with
  | locked => exact absurd hst h
  | empty | unlocked => rfl

/-! ## SET ERROR OPTIONS (R179) -/

theorem exec_setErrorOptions (s : State) : exec .setErrorOptions s = .next (hostCommand cmdSetErrorOptions s) := rfl

theorem boolOf_boolCode (b : Bool) : boolOf (boolCode b) = some b := by
  cases b <;> rfl

theorem boolOf_eq_none {p : Byte} (h : 2 ≤ p.toNat) : boolOf p = none := by
  have hne (k : Byte) (hk : k.toNat < 2) : p ≠ k := ne_of_toNat_lt (Nat.lt_of_lt_of_le hk h)
  simp [boolOf, hne]

theorem cmdSetErrorOptions_of_code {s : State} {b : Bool} (h : s.param0 = boolCode b) :
    cmdSetErrorOptions s = complete .ok { s with suppressMinor := b } := by
  rw [cmdSetErrorOptions, h, boolOf_boolCode]

theorem cmdSetErrorOptions_out_of_range {s : State} (h : 2 ≤ s.param0.toNat) :
    cmdSetErrorOptions s = complete .badParam s := by
  rw [cmdSetErrorOptions, boolOf_eq_none h]

end Sys2Proof.Machine

namespace Sys2Proof.Claims

open Sys2Proof.Machine

/-- Settles O53: each command is its action on the accepted state; the set is masked line by line, the record is read flag by
flag, and the option is taken from its coding. -/
theorem errorCommands : Obligations.ErrorCommands := by
  rintro s ⟨hreset, hbusy⟩
  simp only [exec_readErrorSet, exec_clearErrorSet, exec_readErrorRecord, exec_clearErrorRecord, exec_setErrorOptions,
    hostCommand_ready hreset hbusy, Host.Outcome.next.injEq]
  refine ⟨?readSet, ⟨s.errorSet &&& ~~~(linesOf s.param0 s.param1), fun i hi => ?bits, ?clearSet⟩, ?readRecord,
    fun hlocked => ?unlock, fun hlocked => ?keep, fun h => ?range, fun b hb => ?option⟩
  case readSet => exact cmdReadErrorSet_eq _
  case bits => exact ⟨getLsbD_removeLines_low hi, getLsbD_removeLines_high hi⟩
  case clearSet => rfl
  case readRecord =>
    rw [cmdReadErrorRecord_eq]
    cases s.errorRec.firstKind <;> rfl
  case unlock => exact cmdClearErrorRecord_of_locked (s := { s with commandLost := false }) hlocked
  case keep => exact cmdClearErrorRecord_of_not_locked (s := { s with commandLost := false }) hlocked
  case range => exact cmdSetErrorOptions_out_of_range h
  case option =>
    exact cmdSetErrorOptions_of_code (s := { s with commandLost := false }) (mem_boolCodes_iff.mp hb)

/-- Settles O52: each command is its action on the accepted state, which splits on the line; the four values are taken before
the counters are cleared. -/
theorem counterCommands : Obligations.CounterCommands := by
  rintro s ⟨hreset, hbusy⟩
  rw [exec_readLineCounters, exec_readAndClearLineCounters, hostCommand_ready hreset hbusy,
    hostCommand_ready hreset hbusy]
  refine ⟨fun h => ⟨?readRange, ?clearRange⟩, fun l hl => ⟨?read, ?readAndClear⟩⟩
  case readRange | clearRange => exact congrArg _ (withLine_no_line (s := { s with commandLost := false }) h)
  case read => exact congrArg _ (cmdReadLineCounters_of_line (s := { s with commandLost := false }) hl)
  case readAndClear =>
    exact congrArg _ (cmdReadAndClearLineCounters_of_line (s := { s with commandLost := false }) hl)

end Sys2Proof.Claims
end

section
/-! PROOFS. Where the cells and the blocks of a line go in one operation: one relation, `TrafficStep`, beside `LineStep`, with
one lemma for each operation of a line; and with it, in `FitStep`, what the line state says of the line (R143). -/

namespace Sys2Proof.Machine

/-! ## The places of the cells (R1) -/

theorem flatMap_eq_of_mem {α β : Type} {xs : List α} {f g : α → List β} (h : ∀ a ∈ xs, f a = g a) :
    xs.flatMap f = xs.flatMap g := by
  rw [List.flatMap_def, List.flatMap_def, List.map_congr_left h]

/-- Changing one member of a family of lists changes the number of each cell in it by that list's alone. -/
theorem count_flatMap_update {n : Nat} {f g : Fin n → List CellNo} (i : Fin n) (h : ∀ k, k ≠ i → g k = f k) (c : CellNo) :
    ((List.finRange n).flatMap g).count c + (f i).count c = ((List.finRange n).flatMap f).count c + (g i).count c := by
  have hsplit (u : Fin n → List CellNo) : ((List.finRange n).flatMap u).count c =
      (u i).count c + (((List.finRange n).erase i).flatMap u).count c := by
    rw [((List.perm_cons_erase (List.mem_finRange i)).flatMap_right u).count_eq, List.flatMap_cons, List.count_append]
  have hrest : ((List.finRange n).erase i).flatMap g = ((List.finRange n).erase i).flatMap f :=
    flatMap_eq_of_mem fun k hk => h k ((List.nodup_finRange n).mem_erase_iff.mp hk).1
  rw [hsplit g, hsplit f, hrest]
  omega

/-- The cells of all descriptors. -/
def blockCells (s : State) : List CellNo := allDescs.flatMap fun d => (s.desc d).cells

/-- The cells of all records of the lines. -/
def lineCells (s : State) : List CellNo := (List.finRange 16).flatMap fun l => recordCells (s.line l).rx

/-- The cells of all entries. -/
def entryCells (s : State) : List CellNo := s.queue.flatMap Entry.cells

theorem count_cellPlaces (c : CellNo) (s : State) :
    (cellPlaces s).count c =
      s.freeList.count c + (blockCells s).count c + (lineCells s).count c + (entryCells s).count c := by
  simp only [cellPlaces, List.count_append]
  rfl

theorem count_blockCells_update {s t : State} (d : DescNo) (h : ∀ e, e ≠ d → t.desc e = s.desc e) (c : CellNo) :
    (blockCells t).count c + (s.desc d).cells.count c = (blockCells s).count c + (t.desc d).cells.count c :=
  count_flatMap_update d (fun e he => congrArg _ (h e he)) c

theorem count_lineCells_update {s t : State} (l : LineNo) (h : ∀ k, k ≠ l → t.line k = s.line k) (c : CellNo) :
    (lineCells t).count c + (recordCells (s.line l).rx).count c =
      (lineCells s).count c + (recordCells (t.line l).rx).count c :=
  count_flatMap_update l (fun k hk => congrArg (fun ln : Line => recordCells ln.rx) (h k hk)) c

/-! ## The relation -/

/-- The head entry stays at the head, read as far as it was (R22, R40). -/
def HeadStays (s t : State) : Prop :=
  s.queue ≠ [] → t.queue ≠ [] ∧ t.readPtr = s.readPtr ∧ t.rxPastEnd = s.rxPastEnd

theorem HeadStays.trans {s t u : State} (h : HeadStays s t) (k : HeadStays t u) : HeadStays s u := fun hs => by
  obtain ⟨ht, hptr, hpast⟩ := h hs
  obtain ⟨hu, kptr, kpast⟩ := k ht
  exact ⟨hu, kptr.trans hptr, kpast.trans hpast⟩

theorem HeadStays.of_eq {s t : State} (hqueue : t.queue = s.queue) (hptr : t.readPtr = s.readPtr)
    (hpast : t.rxPastEnd = s.rxPastEnd) : HeadStays s t := fun h => ⟨hqueue ▸ h, hptr, hpast⟩

theorem headStays_postEntry (e : Entry) (s : State) : HeadStays s (postEntry e s) := fun h => by
  rw [postEntry_eq]
  exact ⟨by simp, if_neg h, if_neg h⟩

/-- The blocks of a line's queue: each once, of this line, in a phase of a committed block (R13). -/
structure BlocksFit (l : LineNo) (s : State) : Prop where
  nodup : (s.line l).tx.queue.Nodup
  held : ∀ d ∈ (s.line l).tx.queue,
    (s.desc d).line = l ∧ ((s.desc d).phase = .queued ∨ (s.desc d).phase = .active ∨ (s.desc d).phase = .finished)

/-- The FINISHED blocks of a line's queue hold no cells (R8, R9). -/
def Settled (l : LineNo) (s : State) : Prop :=
  ∀ d ∈ (s.line l).tx.queue, (s.desc d).phase = .finished → (s.desc d).cells = []

/-- The records of a receiver: an open one and a closed one are not there together, and the assembler at work holds no closed
one (R92, R93). -/
structure RecordFits (r : Receiver) : Prop where
  one : r.openRec.isSome → r.closedRec = none
  assembler : r.state = .idle ∨ r.state = .assembling → r.closedRec = none

theorem recordFits_of_fits {r : Receiver} (h : receiverFits r) : RecordFits r := by
  cases hst : r.state <;> simp only [receiverFits, hst] at h <;> obtain ⟨ho, hc⟩ := h
  case stalled => exact ⟨fun hs => by simp [ho] at hs, fun hs => by simp [hst] at hs⟩
  all_goals exact ⟨fun _ => hc, fun _ => hc⟩

/-- What an operation of line `l` does to the places of the cells and to the blocks: every other line, the configuration, the
window and every descriptor outside the line's queue are as they were; a descriptor that leaves the queue is FREE; the blocks
of the queue, the blocks that have finished and the receiver's records stay what they have to be; the places hold the same
cells as before; the head entry stays. -/
structure TrafficStep (l : LineNo) (s t : State) : Prop where
  others : ∀ k, k ≠ l → t.line k = s.line k
  cfg : (t.line l).cfg = (s.line l).cfg
  window : t.window = s.window
  front : (t.line l).tx.queue <:+ (s.line l).tx.queue
  descs : ∀ d, d ∉ (s.line l).tx.queue → t.desc d = s.desc d
  blocks : BlocksFit l s → BlocksFit l t
  gone : ∀ d ∈ (s.line l).tx.queue, d ∉ (t.line l).tx.queue → t.desc d = .unused
  settled : Settled l s → Settled l t
  rx : RecordFits (s.line l).rx → RecordFits (t.line l).rx
  cells : RecordFits (s.line l).rx → Settled l s → (cellPlaces t).Perm (cellPlaces s)
  head : HeadStays s t

theorem TrafficStep.refl (l : LineNo) (s : State) : TrafficStep l s s where
  others _ _ := rfl
  cfg := rfl
  window := rfl
  front := List.suffix_refl _
  descs _ _ := rfl
  blocks := id
  gone _ hd hn := absurd hd hn
  settled := id
  rx := id
  cells _ _ := List.Perm.refl _
  head := .of_eq rfl rfl rfl

theorem TrafficStep.trans {l : LineNo} {s t u : State} (h : TrafficStep l s t) (k : TrafficStep l t u) :
    TrafficStep l s u where
  others j hj := (k.others j hj).trans (h.others j hj)
  cfg := k.cfg.trans h.cfg
  window := k.window.trans h.window
  front := k.front.trans h.front
  descs d hd := (k.descs d fun hm => hd (h.front.subset hm)).trans (h.descs d hd)
  blocks hb := k.blocks (h.blocks hb)
  gone d hd hn := by
    by_cases hm : d ∈ (t.line l).tx.queue
    · exact k.gone d hm hn
    · exact (k.descs d hm).trans (h.gone d hd hm)
  settled hs := k.settled (h.settled hs)
  rx hr := k.rx (h.rx hr)
  cells hr hs := (k.cells (h.rx hr) (h.settled hs)).trans (h.cells hr hs)
  head := h.head.trans k.head

/-- An operation that leaves the descriptors and the transmit queue alone, given how it moves the cells of the free list, the
line's record and the entries among one another. -/
theorem TrafficStep.ofLine {l : LineNo} {s t : State} (hothers : ∀ k, k ≠ l → t.line k = s.line k)
    (hcfg : (t.line l).cfg = (s.line l).cfg) (hwindow : t.window = s.window) (hdescs : t.descs = s.descs)
    (hqueue : (t.line l).tx.queue = (s.line l).tx.queue)
    (hrx : RecordFits (s.line l).rx → RecordFits (t.line l).rx)
    (hcells : RecordFits (s.line l).rx → ∀ c : CellNo,
      t.freeList.count c + (recordCells (t.line l).rx).count c + (entryCells t).count c =
        s.freeList.count c + (recordCells (s.line l).rx).count c + (entryCells s).count c)
    (hhead : HeadStays s t := by exact HeadStays.of_eq rfl rfl rfl) : TrafficStep l s t := by
  have hdesc (d : DescNo) : t.desc d = s.desc d := congrArg (fun v : Vector Descriptor 32 => v[d.val]) hdescs
  refine { others := hothers, cfg := hcfg, window := hwindow, front := hqueue ▸ List.suffix_refl _
           descs := fun d _ => hdesc d, gone := fun d hd hn => absurd (hqueue ▸ hd) hn, rx := hrx, head := hhead
           blocks := fun hb => ?_, settled := fun hs => ?_, cells := fun hr _ => ?_ }
  · exact ⟨hqueue ▸ hb.nodup, fun d hd => hdesc d ▸ hb.held d (hqueue ▸ hd)⟩
  · exact fun d hd hf => hdesc d ▸ hs d (hqueue ▸ hd) (hdesc d ▸ hf)
  · refine List.perm_iff_count.mpr fun c => ?_
    have hline := count_lineCells_update l hothers c
    have hblock : blockCells t = blockCells s := by simp only [blockCells, hdesc]
    have := hcells hr c
    rw [count_cellPlaces, count_cellPlaces, hblock]
    omega

/-- A block of the queue gets a new descriptor; cells that it held no longer are returned (R7). -/
theorem TrafficStep.setDesc {l : LineNo} {s : State} {d : DescNo} {ds : Descriptor} {out : List CellNo}
    (hd : d ∈ (s.line l).tx.queue) (hline : ds.line = (s.desc d).line)
    (hphase : ds.phase = .queued ∨ ds.phase = .active ∨ ds.phase = .finished)
    (hfin : ds.phase = .finished → ds.cells = []) (hcells : out ++ ds.cells = (s.desc d).cells) :
    TrafficStep l s ((returnCells out s).setDesc d ds) := by
  have hother (e : DescNo) (he : e ≠ d) : ((returnCells out s).setDesc d ds).desc e = s.desc e :=
    desc_setDesc_ne _ d e ds he
  refine { others := fun _ _ => rfl, cfg := rfl, window := rfl, front := List.suffix_refl _
           descs := fun e he => hother e fun h => he (h ▸ hd), gone := fun e he hn => absurd he hn, rx := id, head := .of_eq rfl rfl rfl
           blocks := fun hb => ⟨hb.nodup, fun e he => ?_⟩, settled := fun hs e he => ?_, cells := fun _ _ => ?_ }
  · by_cases h : e = d
    · subst h
      rw [desc_setDesc_self]
      exact ⟨hline.trans (hb.held e he).1, hphase⟩
    · exact hother e h ▸ hb.held e he
  · by_cases h : e = d
    · subst h
      rw [desc_setDesc_self]
      exact hfin
    · exact hother e h ▸ hs e he
  · refine List.perm_iff_count.mpr fun c => ?_
    have hblock := count_blockCells_update (t := (returnCells out s).setDesc d ds) d hother c
    have hfree : ((returnCells out s).setDesc d ds).freeList = s.freeList ++ out := rfl
    have hentry : entryCells ((returnCells out s).setDesc d ds) = entryCells s := rfl
    have hrec : lineCells ((returnCells out s).setDesc d ds) = lineCells s := rfl
    rw [desc_setDesc_self, ← hcells, List.count_append] at hblock
    rw [count_cellPlaces, count_cellPlaces, hfree, hentry, hrec, List.count_append]
    omega

/-- The FINISHED head leaves the queue (R16). -/
theorem TrafficStep.dropHeadBlock {l : LineNo} {s : State} {d : DescNo} {rest : List DescNo}
    (hq : (s.line l).tx.queue = d :: rest) (hfin : (s.desc d).phase = .finished) :
    TrafficStep l s (dropHeadBlock l d s) := by
  have hqueue : ((Machine.dropHeadBlock l d s).line l).tx.queue = rest := by
    simp [Machine.dropHeadBlock, freeDesc, hq]
  have hrx : ((Machine.dropHeadBlock l d s).line l).rx = (s.line l).rx := by
    simp [Machine.dropHeadBlock, freeDesc]
  have hself : (Machine.dropHeadBlock l d s).desc d = .unused := desc_setDesc_self ..
  have hother (e : DescNo) (he : e ≠ d) : (Machine.dropHeadBlock l d s).desc e = s.desc e :=
    desc_setDesc_ne _ d e _ he
  have hothers (k : LineNo) (hk : k ≠ l) : (Machine.dropHeadBlock l d s).line k = s.line k := line_setLine_ne s l k _ hk
  refine { others := hothers, cfg := by simp [Machine.dropHeadBlock, freeDesc], window := rfl
           front := by rw [hqueue, hq]; exact List.suffix_cons d rest
           descs := fun e he => hother e fun h => he (by simp [hq, h]), gone := ?gone, rx := fun h => hrx ▸ h
           head := .of_eq rfl rfl rfl
           blocks := ?blocks, settled := ?settled, cells := ?cells }
  case gone =>
    intro e he hn
    rw [hqueue] at hn
    rw [hq] at he
    obtain rfl | he := List.mem_cons.mp he
    · exact hself
    · exact absurd he hn
  case blocks =>
    intro hb
    have hnd := hb.nodup
    rw [hq, List.nodup_cons] at hnd
    refine ⟨hqueue ▸ hnd.2, fun e he => ?_⟩
    rw [hqueue] at he
    rw [hother e fun h => hnd.1 (h ▸ he)]
    exact hb.held e (by simp [hq, he])
  case settled =>
    intro hs e he
    by_cases h : e = d
    · subst h
      exact fun _ => hself ▸ rfl
    · rw [hqueue] at he
      exact hother e h ▸ hs e (by simp [hq, he])
  case cells =>
    refine fun _ hs => List.perm_iff_count.mpr fun c => ?_
    have hblock := count_blockCells_update (t := Machine.dropHeadBlock l d s) d hother c
    have hline := count_lineCells_update (t := Machine.dropHeadBlock l d s) l hothers c
    have hfree : (Machine.dropHeadBlock l d s).freeList = s.freeList := rfl
    have hentry : entryCells (Machine.dropHeadBlock l d s) = entryCells s := rfl
    have hempty : (s.desc d).cells = [] := hs d (by simp [hq]) hfin
    have hunused : Descriptor.unused.cells = [] := rfl
    rw [hself, hempty, hunused] at hblock
    rw [hrx] at hline
    rw [count_cellPlaces, count_cellPlaces, hfree, hentry]
    omega

/-! ## The relation with the line's fit -/

/-- An operation of line `l` that does not take it out of ENABLED and keeps it fitting its line state (R143). -/
structure FitStep (l : LineNo) (s t : State) : Prop extends TrafficStep l s t where
  enabled : (s.line l).state = .enabled → (t.line l).state = .enabled
  fits : lineFits (s.line l) → lineFits (t.line l)

theorem FitStep.refl (l : LineNo) (s : State) : FitStep l s s := { TrafficStep.refl l s with enabled := id, fits := id }

theorem FitStep.trans {l : LineNo} {s t u : State} (h : FitStep l s t) (k : FitStep l t u) : FitStep l s u :=
  { h.toTrafficStep.trans k.toTrafficStep with enabled := fun he => k.enabled (h.enabled he), fits := fun hf => k.fits (h.fits hf) }

/-- The line state and the parts of the line that it speaks of decide whether the line fits. -/
theorem lineFits_of_eq {a b : Line} (hstate : b.state = a.state) (hrx : b.rx = a.rx) (htx : b.tx.state = a.tx.state)
    (hfl : b.tx.inFlight = a.tx.inFlight) (h : lineFits a) : lineFits b := by
  simpa only [lineFits, hstate, hrx, htx, hfl] using h

theorem lineFits_enabled_iff {a : Line} (h : a.state = .enabled) : lineFits a ↔
    receiverFits a.rx ∧ (a.tx.inFlight.isSome → a.tx.state = .sending) ∧ a.tx.state ≠ .off ∧ a.rx.state ≠ .off := by
  simp only [lineFits, h]

theorem lineFits_disabled {a : Line} (h : lineFits a) (hst : a.state = .disabled) :
    a.tx.state = .off ∧ a.tx.inFlight = none ∧ a.rx.state = .off ∧ a.rx.fifo = [] := by
  obtain ⟨-, -, hm⟩ := h
  simpa only [hst] using hm

theorem lineFits_leaving {a : Line} (h : lineFits a) (hst : a.state = .restarting ∨ a.state = .disabling) :
    a.tx.inFlight.isSome ∧ a.rx.state = .idle ∧ a.rx.fifo = [] := by
  obtain ⟨-, -, hm⟩ := h
  obtain hst | hst := hst <;> simpa only [hst] using hm

/-- The transmitter is in a state in which it can make the next-step choice: not TX_OFF, with no character in flight. -/
def TxFree (ln : Line) : Prop := ln.tx.inFlight = none ∧ ln.tx.state ≠ .off

/-- A line that fits its state and can make the choice is ENABLED (R143). -/
theorem enabled_of_txFree {a : Line} (h : lineFits a) (hf : TxFree a) : a.state = .enabled := by
  obtain ⟨hnone, hoff⟩ := hf
  cases hst : a.state with
  | enabled => rfl
  | disabled => exact absurd (lineFits_disabled h hst).1 hoff
  | restarting | disabling =>
    have hsome := (lineFits_leaving h (by simp [hst])).1
    simp [hnone] at hsome

/-- From there the transmitter may enter any state but TX_OFF, with a character in flight only in TX_SENDING. -/
theorem lineFits_enter {a b : Line} (h : lineFits a) (hf : TxFree a) (hstate : b.state = a.state) (hrx : b.rx = a.rx)
    (hoff : b.tx.state ≠ .off) (hfl : b.tx.inFlight.isSome → b.tx.state = .sending) : lineFits b := by
  have hen := enabled_of_txFree h hf
  obtain ⟨hrec, -, -, hrxoff⟩ := (lineFits_enabled_iff hen).mp h
  exact (lineFits_enabled_iff (hstate.trans hen)).mpr ⟨hrx ▸ hrec, hfl, hoff, hrx ▸ hrxoff⟩

/-- In a state other than TX_OFF and TX_SENDING a fitting line can make the choice. -/
theorem txFree_of_state {a : Line} (h : lineFits a) (hoff : a.tx.state ≠ .off) (hsend : a.tx.state ≠ .sending) :
    TxFree a := by
  obtain ⟨-, hfl, -⟩ := h
  refine ⟨?_, hoff⟩
  cases hin : a.tx.inFlight with
  | none => rfl
  | some c => exact absurd (hfl (by simp [hin])) hsend

/-- An open record is open on an ENABLED line, with no closed one beside it (R93, R143). -/
theorem open_of_lineFits {a : Line} (h : lineFits a) {r : OpenRecord} (ho : a.rx.openRec = some r) :
    a.state = .enabled := by
  have hrx := h.1
  cases hst : a.state with
  | enabled => rfl
  | disabled => simp [receiverFits, (lineFits_disabled h hst).2.2.1, ho] at hrx
  | restarting | disabling => simp [receiverFits, (lineFits_leaving h (by simp [hst])).2.1, ho] at hrx

end Sys2Proof.Machine
end

section
/-! PROOFS. `FitStep` for the shared operations, the match unit, the transmitter's choice, the flow logic and the receiver. -/

namespace Sys2Proof.Machine

/-! ## Changes of the line, of its fields, and of what the traffic does not see -/

section shared

variable (l : LineNo) (s : State)

theorem TrafficStep.setLine {ln : Line} (hcfg : ln.cfg = (s.line l).cfg) (hqueue : ln.tx.queue = (s.line l).tx.queue)
    (hrx : RecordFits (s.line l).rx → RecordFits ln.rx)
    (hcells : RecordFits (s.line l).rx → recordCells ln.rx = recordCells (s.line l).rx) :
    TrafficStep l s (s.setLine l ln) := by
  refine .ofLine (fun k hk => line_setLine_ne s l k ln hk) ?_ rfl rfl ?_ ?_ fun hr c => ?_
  · rw [line_setLine_self, hcfg]
  · rw [line_setLine_self, hqueue]
  · rw [line_setLine_self]; exact hrx
  · rw [line_setLine_self, hcells hr]; rfl

theorem FitStep.setLine {ln : Line} (hstate : ln.state = (s.line l).state) (hcfg : ln.cfg = (s.line l).cfg)
    (hqueue : ln.tx.queue = (s.line l).tx.queue) (hrx : RecordFits (s.line l).rx → RecordFits ln.rx)
    (hcells : RecordFits (s.line l).rx → recordCells ln.rx = recordCells (s.line l).rx)
    (hfits : lineFits (s.line l) → lineFits ln) : FitStep l s (s.setLine l ln) :=
  { TrafficStep.setLine l s hcfg hqueue hrx hcells with
    enabled := by rw [line_setLine_self, hstate]; exact id
    fits := by rw [line_setLine_self]; exact hfits }

/-- A change of the line beside the receiver, the transmit queue, the transmitter's state and the character in flight. -/
theorem FitStep.side {ln : Line} (hstate : ln.state = (s.line l).state := by rfl)
    (hcfg : ln.cfg = (s.line l).cfg := by rfl) (hqueue : ln.tx.queue = (s.line l).tx.queue := by rfl)
    (hrx : ln.rx = (s.line l).rx := by rfl) (htx : ln.tx.state = (s.line l).tx.state := by rfl)
    (hfl : ln.tx.inFlight = (s.line l).tx.inFlight := by rfl) : FitStep l s (s.setLine l ln) :=
  .setLine l s hstate hcfg hqueue (fun h => hrx ▸ h) (fun _ => hrx ▸ rfl) (lineFits_of_eq hstate hrx htx hfl)

/-- The transmitter enters a state from one in which it can make the choice. -/
theorem FitStep.enter {ln : Line} (hf : lineFits (s.line l) → TxFree (s.line l)) (hoff : ln.tx.state ≠ .off)
    (hfl : ln.tx.inFlight.isSome → (s.line l).tx.inFlight = none → ln.tx.state = .sending)
    (hstate : ln.state = (s.line l).state := by rfl) (hcfg : ln.cfg = (s.line l).cfg := by rfl)
    (hqueue : ln.tx.queue = (s.line l).tx.queue := by rfl) (hrx : ln.rx = (s.line l).rx := by rfl) :
    FitStep l s (s.setLine l ln) :=
  .setLine l s hstate hcfg hqueue (fun h => hrx ▸ h) (fun _ => hrx ▸ rfl) fun h =>
    lineFits_enter h (hf h) hstate hrx hoff fun hs => hfl hs (hf h).1

/-- The fields that hold cells and blocks. -/
def State.traffic (s : State) := (s.freeList, s.descs, s.queue, s.window, s.lines)

theorem line_of_traffic {s t : State} (h : t.traffic = s.traffic) (k : LineNo) : t.line k = s.line k :=
  congrArg (fun v : Vector Line 16 => v[k.val]) (Prod.mk.inj (Prod.mk.inj (Prod.mk.inj (Prod.mk.inj h).2).2).2).2

/-- An operation that leaves those fields alone. -/
theorem FitStep.other {s t : State} (h : t.traffic = s.traffic)
    (hhead : t.readPtr = s.readPtr ∧ t.rxPastEnd = s.rxPastEnd := by exact ⟨rfl, rfl⟩) : FitStep l s t := by
  have hline := line_of_traffic h
  simp only [State.traffic, Prod.mk.injEq] at h
  obtain ⟨hfree, hdescs, hqueue, hwindow, -⟩ := h
  refine { TrafficStep.ofLine (l := l) (fun k _ => hline k) (by rw [hline]) hwindow hdescs (by rw [hline]) (by rw [hline]; exact id)
    (fun _ c => ?_) (.of_eq hqueue hhead.1 hhead.2) with enabled := by rw [hline]; exact id, fits := by rw [hline]; exact id }
  rw [hline, hfree, entryCells, entryCells, hqueue]

theorem TrafficStep.other {s t : State} (h : t.traffic = s.traffic)
    (hhead : t.readPtr = s.readPtr ∧ t.rxPastEnd = s.rxPastEnd := by exact ⟨rfl, rfl⟩) : TrafficStep l s t :=
  (FitStep.other l h hhead).toTrafficStep

theorem FitStep.draw : FitStep l s (draw s).2 := .other l rfl

theorem FitStep.complete {r : ResultCode} : FitStep l s (complete r s) := .other l rfl

theorem FitStep.setMatch {n : MatchNo} {m : MatchEntry} : FitStep l s (s.setMatch n m) := .other l rfl

/-- Posting an entry that holds no cells. -/
theorem FitStep.postEntry {e : Entry} (he : e.cells = []) : FitStep l s (postEntry e s) := by
  have hcells : entryCells (Machine.postEntry e s) = entryCells s := by simp [entryCells, he]
  refine { TrafficStep.ofLine (l := l) (fun k _ => line_postEntry e s k) (by simp) ?_ ?_ (by simp) (by simp)
    (fun _ c => ?_) (headStays_postEntry e s) with enabled := by simp, fits := by simp }
  · rw [postEntry_eq]
  · rw [postEntry_eq]
  · simp [hcells]

theorem FitStep.joinChanges {c : ChangeSet} : FitStep l s (joinChanges l c s) := by
  rcases joinChanges_cases l c s with ⟨h, -⟩ | ⟨h, -, -⟩ | h <;> rw [h]
  · exact .refl l s
  · exact .postEntry l s rfl
  · exact .side l s

/-! ## The front of the queue and blocks that finish -/

/-- The front of the queue changes nothing of its line but the queue (R16). -/
theorem line_frontStep : ∃ q, (frontStep l s).line l = { s.line l with tx.queue := q } := by
  rcases frontStep_cases l s with h | ⟨d, rest, -, -, ⟨-, h⟩ | ⟨-, -, h⟩⟩ <;> rw [h]
  · exact ⟨_, rfl⟩
  · exact ⟨_, line_setLine_self ..⟩
  · exact ⟨(s.line l).tx.queue.tail, by simp [Machine.dropHeadBlock, freeDesc]⟩

theorem line_frontSteps (n : Nat) : ∃ q, (frontSteps l n s).line l = { s.line l with tx.queue := q } := by
  induction n generalizing s with
  | zero => exact ⟨_, rfl⟩
  | succ n ih =>
    obtain ⟨q, hq⟩ := line_frontStep l s
    obtain ⟨q', hq'⟩ := ih (frontStep l s)
    exact ⟨q', by rw [frontSteps, hq', hq]⟩

theorem line_handleFront : ∃ q, (handleFront l s).line l = { s.line l with tx.queue := q } := line_frontSteps l s _

/-- An operation on the blocks of the queue that leaves the rest of the line alone. -/
theorem FitStep.ofBlocks {t : State} (h : TrafficStep l s t) (hline : ∃ q, t.line l = { s.line l with tx.queue := q }) :
    FitStep l s t := by
  obtain ⟨q, hq⟩ := hline
  exact { h with enabled := by rw [hq]; exact id, fits := lineFits_of_eq (by rw [hq]) (by rw [hq]) (by rw [hq]) (by rw [hq]) }

theorem FitStep.frontStep : FitStep l s (frontStep l s) := by
  refine .ofBlocks l s ?_ (line_frontStep l s)
  rcases frontStep_cases l s with h | ⟨d, rest, hq, hfin, ⟨-, h⟩ | ⟨-, -, h⟩⟩ <;> rw [h]
  · exact .refl l s
  · exact .dropHeadBlock hq hfin
  · exact (FitStep.postEntry l s rfl).toTrafficStep.trans
      (.dropHeadBlock (rest := rest) (by simpa using hq) (by simpa using hfin))

theorem FitStep.frontSteps (n : Nat) : FitStep l s (frontSteps l n s) := by
  induction n generalizing s with
  | zero => exact .refl l s
  | succ n ih => exact (FitStep.frontStep l s).trans (ih _)

theorem FitStep.handleFront : FitStep l s (handleFront l s) := .frontSteps l s _

theorem txFree_handleFront : TxFree ((handleFront l s).line l) ↔ TxFree (s.line l) := by
  obtain ⟨q, hq⟩ := line_handleFront l s
  rw [hq]
  rfl

/-- A block of the queue gets a new descriptor. -/
theorem FitStep.setDesc {d : DescNo} {ds : Descriptor} {out : List CellNo} (hd : d ∈ (s.line l).tx.queue)
    (hline : ds.line = (s.desc d).line) (hphase : ds.phase = .queued ∨ ds.phase = .active ∨ ds.phase = .finished)
    (hfin : ds.phase = .finished → ds.cells = []) (hcells : out ++ ds.cells = (s.desc d).cells) :
    FitStep l s ((Machine.returnCells out s).setDesc d ds) :=
  .ofBlocks l s (.setDesc hd hline hphase hfin hcells) ⟨_, rfl⟩

theorem returnCells_nil : returnCells [] s = s := by
  simp [returnCells]

theorem FitStep.finishBlock {d : DescNo} {o : BlockOutcome} (hd : d ∈ (s.line l).tx.queue) :
    FitStep l s (finishBlock d o s) :=
  .setDesc l s hd rfl (.inr (.inr rfl)) (fun _ => rfl) (List.append_nil _)

theorem FitStep.finishIf {ps : List Phase} {d : DescNo} {o : BlockOutcome} (hd : d ∈ (s.line l).tx.queue) :
    FitStep l s (finishIf ps o s d) := by
  unfold Machine.finishIf
  split
  · exact .finishBlock l s hd
  · exact .refl l s

theorem FitStep.foldFinish {ps : List Phase} {o : BlockOutcome} (ds : List DescNo)
    (hd : ∀ d ∈ ds, d ∈ (s.line l).tx.queue) : FitStep l s (ds.foldl (Machine.finishIf ps o) s) := by
  induction ds generalizing s with
  | nil => exact .refl l s
  | cons d ds ih =>
    refine (FitStep.finishIf l s (hd d (by simp))).trans (ih _ fun e he => ?_)
    simpa using hd e (by simp [he])

theorem FitStep.finishBlocks {ps : List Phase} {o : BlockOutcome} : FitStep l s (finishBlocks ps l o s) :=
  .foldFinish l s _ fun _ h => h

/-- Blocks that finish leave every line alone. -/
theorem line_finishBlocks (ps : List Phase) (o : BlockOutcome) (k : LineNo) :
    (finishBlocks ps l o s).line k = s.line k := by
  unfold Machine.finishBlocks
  generalize (s.line l).tx.queue = ds
  induction ds generalizing s with
  | nil => rfl
  | cons d ds ih => rw [List.foldl_cons, ih, line_finishIf]

/-- Acts in turn, each an operation of the line. -/
theorem FitStep.runAll (acts : List (State → State)) (h : ∀ f ∈ acts, ∀ t, FitStep l t (f t)) :
    FitStep l s (runAll acts s) := by
  induction acts generalizing s with
  | nil => exact .refl l s
  | cons f acts ih => exact (h f (by simp) s).trans (ih _ fun g hg t => h g (by simp [hg]) t)

end shared

/-! ## The match unit -/

section matching

variable (l : LineNo) (s : State)

theorem FitStep.countHits (ns : List MatchNo) : FitStep l s (countHits ns s) := by
  induction ns generalizing s with
  | nil => exact .refl l s
  | cons n ns ih => exact (FitStep.setMatch l s).trans (ih _)

theorem FitStep.captureAction {c : TestedChar} {ns : List MatchNo} : FitStep l s (captureAction c ns s) := by
  unfold Machine.captureAction
  split
  · exact .refl l s
  · split <;> exact .other l rfl

theorem FitStep.postHit {c : TestedChar} {n : MatchNo} : FitStep l s (postHit c n s) := by
  unfold Machine.postHit
  split
  · exact .setMatch l s
  · split
    · exact .postEntry l s rfl
    · exact .setMatch l s

theorem FitStep.postHits {c : TestedChar} (ns : List MatchNo) : FitStep l s (postHits c ns s) := by
  induction ns generalizing s with
  | nil => exact .refl l s
  | cons n ns ih => exact (FitStep.postHit l s).trans (ih _)

theorem FitStep.setHaltRequest : FitStep l s (setHaltRequest l s) := .side l s

theorem FitStep.txTest {c : TestedChar} (hc : c.line = l) : FitStep l s (txTest c s) := by
  subst hc
  unfold Machine.txTest
  simp only
  split
  · exact ((FitStep.countHits c.line s _).trans (.captureAction c.line _)).trans (.postHits c.line _ _)
  · exact (((FitStep.countHits c.line s _).trans (.captureAction c.line _)).trans (.postHits c.line _ _)).trans
      (.setHaltRequest c.line _)

end matching

/-! ## The transmitter's choice -/

section choice

variable (l : LineNo) (s : State)

theorem FitStep.takeHalt (hf : lineFits (s.line l) → TxFree (s.line l)) : FitStep l s (takeHalt l s) :=
  .enter l s hf TxState.noConfusion fun hsome hnone => by simp [Transmitter.enter, hnone] at hsome

/-- A change of the transmitter's flags and timers. -/
theorem FitStep.updTx {f : Transmitter → Transmitter} (hqueue : (f (s.line l).tx).queue = (s.line l).tx.queue := by rfl)
    (hstate : (f (s.line l).tx).state = (s.line l).tx.state := by rfl)
    (hfl : (f (s.line l).tx).inFlight = (s.line l).tx.inFlight := by rfl) : FitStep l s (s.updTx l f) :=
  .side l s rfl rfl hqueue rfl hstate hfl

theorem line_updTx (f : Transmitter → Transmitter) : (s.updTx l f).line l = { s.line l with tx := f (s.line l).tx } :=
  line_setLine_self ..

theorem FitStep.takeBlock {d : DescNo} (hd : d ∈ (s.line l).tx.queue) : FitStep l s (takeBlock l d s) := by
  have h := FitStep.setDesc l s (ds := { s.desc d with phase := .active, sent := 0 }) (out := []) hd rfl (.inr (.inl rfl))
    (fun h => nomatch h) rfl
  rw [returnCells_nil] at h
  exact h.trans (.updTx l _)

theorem line_takeBlock (d : DescNo) : (takeBlock l d s).line l =
    { s.line l with tx := { (s.line l).tx with breakSent := false, inHold := false } } := line_setLine_self ..

theorem FitStep.startKeying (hf : lineFits (s.line l) → TxFree (s.line l)) : FitStep l s (startKeying l s) :=
  .enter l s hf TxState.noConfusion fun hsome hnone => by simp [Transmitter.enter, hnone] at hsome

/-- A line in TX_KEYING that fits its state can make the choice. -/
theorem txFree_startKeying (h : lineFits ((startKeying l s).line l)) : TxFree ((startKeying l s).line l) := by
  have hst : ((startKeying l s).line l).tx.state = .keying := by rw [Machine.startKeying, line_updTx]; rfl
  exact txFree_of_state h (by rw [hst]; decide) (by rw [hst]; decide)

theorem FitStep.startPriority {c : FlowChar} (hf : lineFits (s.line l) → TxFree (s.line l)) :
    FitStep l s (startPriority l c s) := .enter l s hf TxState.noConfusion fun _ _ => rfl

theorem FitStep.enterHold (hf : lineFits (s.line l) → TxFree (s.line l)) : FitStep l s (enterHold l s) := by
  unfold Machine.enterHold
  simp only
  split
  · exact (FitStep.startPriority l s hf).trans (.updTx l _)
  · exact .enter l s hf TxState.noConfusion fun hsome hnone => by simp [Transmitter.enter, hnone] at hsome

theorem FitStep.startBlockChar {d : DescNo} (hf : lineFits (s.line l) → TxFree (s.line l)) :
    FitStep l s (startBlockChar l d s) :=
  (FitStep.enter l s hf TxState.noConfusion fun _ _ => rfl).trans (.txTest l _ rfl)

theorem FitStep.blockWork {d : DescNo} (hf : lineFits (s.line l) → TxFree (s.line l)) :
    FitStep l s (blockWork l d s) := by
  unfold Machine.blockWork
  split
  · exact .enter l s hf TxState.noConfusion fun hsome hnone => by simp [Transmitter.enter, hnone] at hsome
  · exact .startBlockChar l s hf

theorem FitStep.nothingToSend (hf : lineFits (s.line l) → TxFree (s.line l)) : FitStep l s (nothingToSend l s) := by
  refine .enter l s hf ?_ (fun hsome hnone => ?_) rfl rfl ?_ rfl <;> simp only
  · split
    · split <;> exact TxState.noConfusion
    · exact TxState.noConfusion
  · exfalso
    revert hsome
    simp only [Bool.not_eq_true, Option.isSome_eq_false_iff, imp_false, Option.isNone_iff_eq_none]
    split
    · split <;> exact hnone
    · exact hnone
  · split
    · split <;> rfl
    · rfl

theorem FitStep.choose (n : Nat) (hf : lineFits (s.line l) → TxFree (s.line l)) : FitStep l s (choose l n s) := by
  induction n generalizing s with
  | zero => exact .refl l s
  | succ n ih =>
    unfold Machine.choose
    split
    · exact .takeHalt l s hf
    · split
      · split
        · exact .enterHold l s hf
        · split
          · exact .startPriority l s hf
          · exact .blockWork l s hf
      · split
        · next d hd =>
          have hmem := oldestQueued_mem hd
          have ht := FitStep.takeBlock l s hmem
          have hfree (h : lineFits ((Machine.takeBlock l d s).line l)) : TxFree ((Machine.takeBlock l d s).line l) := by
            rw [line_takeBlock] at h ⊢
            exact hf (lineFits_of_eq rfl rfl rfl rfl h)
          split
          · have hfin := FitStep.finishBlock l (Machine.takeBlock l d s) (o := .sent) (by rwa [queue_takeBlock])
            refine ((ht.trans hfin).trans (.handleFront l _)).trans (ih _ fun h => ?_)
            rw [txFree_handleFront, line_finishBlock]
            obtain ⟨q, hq⟩ := line_handleFront l (Machine.finishBlock d .sent (Machine.takeBlock l d s))
            rw [hq] at h
            exact hfree (lineFits_of_eq rfl rfl rfl rfl h)
          · split
            · have hkey := FitStep.startKeying l (Machine.takeBlock l d s) hfree
              split
              · exact (ht.trans hkey).trans (ih _ (txFree_startKeying l _))
              · exact ht.trans hkey
            · exact ht.trans (ih _ hfree)
        · split
          · split
            · split
              · exact (FitStep.startKeying l s hf).trans (ih _ (txFree_startKeying l s))
              · exact .startKeying l s hf
            · exact .startPriority l s hf
          · exact .nothingToSend l s hf

theorem FitStep.nextStepChoice (hf : lineFits (s.line l) → TxFree (s.line l)) : FitStep l s (nextStepChoice l s) :=
  .choose l s _ hf

/-- A moment of choice in states other than TX_OFF and TX_SENDING. -/
theorem FitStep.choiceIn {sts : List TxState} (hoff : TxState.off ∉ sts) (hsend : TxState.sending ∉ sts) :
    FitStep l s (choiceIn sts l s) := by
  unfold Machine.choiceIn
  split
  · next h =>
    have hmem : (s.line l).tx.state ∈ sts := by simpa using h
    exact .nextStepChoice l s fun hfit => txFree_of_state hfit (fun e => hoff (e ▸ hmem)) fun e => hsend (e ▸ hmem)
  · exact .refl l s

theorem FitStep.requestHalt : FitStep l s (requestHalt l s) := by
  unfold Machine.requestHalt
  split
  · exact .refl l s
  · exact (FitStep.setHaltRequest l s).trans (.choiceIn l _ (by decide) (by decide))

theorem FitStep.requestPriority {c : FlowChar} : FitStep l s (requestPriority l c s) :=
  (FitStep.updTx l s).trans (.choiceIn l _ (by decide) (by decide))

theorem FitStep.releaseHold : FitStep l s (releaseHold l s) := by
  unfold Machine.releaseHold
  split
  · exact .refl l s
  · exact .choiceIn l s (by decide) (by decide)

end choice

/-! ## Flow logic, errors, receiver -/

section receiver

variable (l : LineNo) (s : State)

theorem FitStep.consumeFlowChar {x : Bool} : FitStep l s (consumeFlowChar l x s) :=
  (FitStep.updTx l s).trans (.releaseHold l _)

theorem FitStep.withdrawPriority : FitStep l s (withdrawPriority l s) := .updTx l s

theorem FitStep.receiveXoff : FitStep l s (receiveXoff l s) := by
  unfold Machine.receiveXoff
  split
  · split
    · exact .requestPriority l s
    · exact .withdrawPriority l s
    · exact .refl l s
  · exact .refl l s

theorem FitStep.receiveXon : FitStep l s (receiveXon l s) := by
  unfold Machine.receiveXon
  split
  · split
    · exact .withdrawPriority l s
    · exact .requestPriority l s
    · exact .refl l s
  · exact .refl l s

theorem FitStep.becomeCongested : FitStep l s (becomeCongested l s) := by
  unfold Machine.becomeCongested
  split
  · exact .refl l s
  · exact (FitStep.side l s).trans (.receiveXoff l _)

theorem FitStep.uncongestIfClear : FitStep l s (uncongestIfClear l s) := by
  unfold Machine.uncongestIfClear
  split
  · exact (FitStep.side l s).trans (.receiveXon l _)
  · exact .refl l s

theorem FitStep.errorReport {k : ErrorKind} {v : Option Byte} : FitStep l s (errorReport k l v s) := by
  unfold Machine.errorReport Machine.reachErrorRecord
  refine (FitStep.side l s (ln := { s.line l with counters := countError k (s.line l).counters })).trans ?_
  simp only
  split
  · exact .other l rfl
  all_goals
    split
    · exact .other l rfl
    · exact .other l rfl

theorem FitStep.addDiscarded {n : Nat} : FitStep l s (addDiscarded l n s) := .side l s

/-- A change of the receiver that leaves its state and its records alone. -/
theorem FitStep.updRx {f : Receiver → Receiver}
    (hfifo : (s.line l).state ≠ .enabled → (s.line l).rx.fifo = [] → (f (s.line l).rx).fifo = [])
    (hstate : (f (s.line l).rx).state = (s.line l).rx.state := by rfl)
    (hopen : (f (s.line l).rx).openRec = (s.line l).rx.openRec := by rfl)
    (hclosed : (f (s.line l).rx).closedRec = (s.line l).rx.closedRec := by rfl) : FitStep l s (s.updRx l f) := by
  have hrec (h : RecordFits (s.line l).rx) : RecordFits (f (s.line l).rx) :=
    ⟨fun ho => hclosed.trans (h.one (hopen ▸ ho)), fun ha => hclosed.trans (h.assembler (hstate ▸ ha))⟩
  have hrx (h : receiverFits (s.line l).rx) : receiverFits (f (s.line l).rx) := by
    simpa only [receiverFits, hstate, hopen, hclosed] using h
  refine .setLine l s rfl rfl rfl hrec (fun _ => by simp only [recordCells, hopen, hclosed]) fun h => ?_
  obtain ⟨hr, hfl, hm⟩ := h
  refine ⟨hrx hr, hfl, ?_⟩
  cases hst : (s.line l).state with
  | enabled => simpa only [hst, hstate] using hm
  | disabled | restarting | disabling =>
    simp only [hst] at hm ⊢
    simpa [hm, hstate] using hfifo (by simp [hst]) (by simp [hm])

theorem FitStep.placeItem {i : FifoItem} (hen : (s.line l).state = .enabled) : FitStep l s (placeItem l i s) := by
  unfold Machine.placeItem
  simp only
  split
  · have hu := FitStep.updRx l s (f := fun r => { r with fifo := r.fifo ++ [i] }) fun h => absurd hen h
    split
    · exact hu.trans (.becomeCongested l _)
    · exact hu
  · exact (FitStep.updRx l s fun _ => id).trans (.errorReport l _)

theorem FitStep.reportStatus {v : Byte} {st : CharStatus} : FitStep l s (reportStatus l v st s) := by
  unfold Machine.reportStatus
  split
  · exact .refl l s
  · exact .errorReport l s
  · exact .errorReport l s

theorem FitStep.receiveChar {v : Byte} {st : CharStatus} (hen : (s.line l).state = .enabled) :
    FitStep l s (receiveChar l v st s) := by
  unfold Machine.receiveChar
  split
  · exact .consumeFlowChar l s
  · split
    · exact .consumeFlowChar l s
    · have h := FitStep.reportStatus l s (v := v) (st := st)
      exact h.trans (.placeItem l _ (h.enabled hen))

theorem FitStep.arrival {f : RxFrame} : FitStep l s (arrival l f s) := by
  unfold Machine.arrival
  split
  · simp only
    split
    · have h := FitStep.updRx l s (f := fun r => { r with framer := .awaitingMark }) fun _ => id
      split
      · next hen => exact h.trans (.placeItem l _ hen)
      all_goals exact h
    · have h := FitStep.updRx l s (f := fun r => { r with framer := .hunting }) fun _ => id
      split
      · next hen => exact h.trans (.receiveChar l _ hen)
      · exact h.trans (.addDiscarded l _)
      · exact h.trans (.addDiscarded l _)
      · exact h
  · exact .refl l s

/-- The receiver of a fitting ENABLED line gets another state that fits its records. -/
theorem lineFits_receiver {a b : Line} (h : lineFits a) (hen : a.state = .enabled) (hstate : b.state = a.state)
    (htx : b.tx = a.tx) (hrx : receiverFits b.rx) (hoff : b.rx.state ≠ .off) : lineFits b := by
  obtain ⟨-, hfl, htxoff, -⟩ := (lineFits_enabled_iff hen).mp h
  exact (lineFits_enabled_iff (hstate.trans hen)).mpr ⟨hrx, htx ▸ hfl, htx ▸ htxoff, hoff⟩

/-- The cells of the record that a line holds are all of the record cells of the line. -/
theorem recordCells_idle {r : Receiver} (ho : r.openRec = none) (hc : r.closedRec = none) : recordCells r = [] := by
  simp [recordCells, ho, hc]

theorem FitStep.postRecord {c : Cause} {n : Nat} {e : Bool} {cells : List CellNo}
    (hen : lineFits (s.line l) → (s.line l).state = .enabled)
    (hcells : RecordFits (s.line l).rx → recordCells (s.line l).rx = cells) :
    FitStep l s (postRecord l c n e cells s) := by
  have hline : (Machine.postRecord l c n e cells s).line l = { s.line l with rx := { (s.line l).rx with
      state := .idle, openRec := none, closedRec := none, idleTimer := none, lostTally := 0 } } := by
    simp [Machine.postRecord, State.updRx]
  have hentry : entryCells (Machine.postRecord l c n e cells s) = entryCells s ++ cells := by
    simp [Machine.postRecord, State.updRx, entryCells, Entry.cells]
  have hhead : HeadStays s (Machine.postRecord l c n e cells s) :=
    (headStays_postEntry _ s).trans (.of_eq (s := Machine.postEntry _ s) rfl rfl rfl)
  refine { TrafficStep.ofLine (l := l) (fun k hk => ?_) (by rw [hline]) ?_ ?_ (by rw [hline])
    (fun _ => by rw [hline]; exact ⟨fun _ => rfl, fun _ => rfl⟩) (fun hr k => ?_)
    hhead with
      enabled := by rw [hline]; exact id, fits := fun h => ?_ }
  · simp [Machine.postRecord, State.updRx, line_setLine_ne _ _ _ _ hk]
  · simp [Machine.postRecord, State.updRx, postEntry_eq]
  · simp [Machine.postRecord, State.updRx, postEntry_eq]
  · rw [hentry, hline, hcells hr, recordCells_idle rfl rfl, List.count_append]
    simp [Machine.postRecord, State.updRx]
    omega
  · rw [hline]
    exact lineFits_receiver h (hen h) rfl rfl ⟨rfl, rfl⟩ RxState.noConfusion

theorem FitStep.closeRecord {c : Cause} {n : Nat} {e : Bool} {cells : List CellNo}
    (hen : lineFits (s.line l) → (s.line l).state = .enabled)
    (hcells : RecordFits (s.line l).rx → recordCells (s.line l).rx = cells) :
    FitStep l s (closeRecord l c n e cells s) := by
  unfold Machine.closeRecord
  split
  · exact .postRecord l s hen hcells
  · refine FitStep.trans (.setLine l s (ln := { s.line l with rx := { (s.line l).rx with
        state := .stalled, openRec := none, idleTimer := none
        closedRec := some { cause := c, length := n, errorFlag := e, cells := cells } } }) rfl rfl rfl
      (fun _ => ⟨by simp, by simp⟩) (fun h => ?_) fun h => ?_) (.becomeCongested l _)
    · rw [hcells h]; rfl
    · exact lineFits_receiver h (hen h) rfl rfl ⟨rfl, rfl⟩ RxState.noConfusion

theorem recordCells_open {r : Receiver} {o : OpenRecord} (h : RecordFits r) (ho : r.openRec = some o) :
    recordCells r = o.cells := by
  simp [recordCells, ho, h.one (by simp [ho])]

theorem FitStep.closeOpen {c : Cause} : FitStep l s (closeOpen l c s) := by
  unfold Machine.closeOpen
  split
  · next r hr => exact .closeRecord l s (fun h => open_of_lineFits h hr) fun h => recordCells_open h hr
  · exact .refl l s

theorem FitStep.loadIdle : FitStep l s (loadIdle l s) := by
  unfold Machine.loadIdle
  exact .updRx l s fun _ => id

theorem FitStep.afterAppend {c : TestedChar} {st : CharStatus} (hc : c.line = l) : FitStep l s (afterAppend c st s) := by
  subst hc
  unfold Machine.afterAppend
  simp only
  have hcap := (FitStep.countHits c.line s (hitters s c.line .rx c.char)).trans
    (.captureAction c.line _ (c := c) (ns := hittersWith s .capture (hitters s c.line .rx c.char)))
  generalize Machine.captureAction c (hittersWith s .capture (hitters s c.line .rx c.char))
    (Machine.countHits (hitters s c.line .rx c.char) s) = s1 at hcap ⊢
  have h2 : FitStep c.line s
      (if (!(hittersWith s .hold (hitters s c.line .rx c.char)).isEmpty) = true then Machine.requestHalt c.line s1
        else s1) := by
    split
    · exact hcap.trans (.requestHalt c.line _)
    · exact hcap
  generalize (if (!(hittersWith s .hold (hitters s c.line .rx c.char)).isEmpty) = true
    then Machine.requestHalt c.line s1 else s1) = s2 at h2 ⊢
  split
  · exact (h2.trans (.postHits c.line _ _)).trans (.loadIdle c.line _)
  · split
    · refine h2.trans ((FitStep.draw c.line _).trans (.runAll c.line _ _ fun f hf t => ?_))
      rcases mem_insertAct hf with rfl | h
      · exact .closeOpen c.line t
      · rw [List.mem_singleton.mp h]; exact .postHits c.line t _
    · exact (h2.trans (.postHits c.line _ _)).trans (.closeOpen c.line _)

/-- The assembler is at work: the line is ENABLED with the receiver RX_IDLE or RX_ASSEMBLING (R102). -/
structure Assembles (ln : Line) : Prop where
  enabled : ln.state = .enabled
  working : ln.rx.state = .idle ∨ ln.rx.state = .assembling

theorem assembles_iff (ln : Line) :
    Assembles ln ↔ ln.state = .enabled ∧ (ln.rx.state = .idle ∨ ln.rx.state = .assembling) :=
  ⟨fun h => ⟨h.enabled, h.working⟩, fun ⟨h, k⟩ => ⟨h, k⟩⟩

theorem assemblerRuns_iff (ln : Line) : assemblerRuns ln = true ↔ Assembles ln := by
  simp [assemblerRuns, assembles_iff]

/-- The assembler holds no closed record (R93). -/
theorem closedRec_of_assembles {ln : Line} (ha : Assembles ln) (h : RecordFits ln.rx) : ln.rx.closedRec = none :=
  h.assembler ha.2

/-- The line while a record is under assembly, with the items of the FIFO that are left. -/
def Line.assembling (o : OpenRecord) (fifo : List FifoItem) (ln : Line) : Line :=
  { ln with rx := { ln.rx with state := .assembling, fifo := fifo, openRec := some o } }

/-- The record grows by cells that the free list has given. -/
theorem FitStep.assembling {t : State} {o : OpenRecord} {fifo : List FifoItem} (ha : Assembles (s.line l))
    (hlines : t.lines = s.lines) (hdescs : t.descs = s.descs) (hqueue : t.queue = s.queue) (hwindow : t.window = s.window)
    (hcells : RecordFits (s.line l).rx → ∀ c : CellNo,
      t.freeList.count c + o.cells.count c = s.freeList.count c + (recordCells (s.line l).rx).count c)
    (hread : t.readPtr = s.readPtr ∧ t.rxPastEnd = s.rxPastEnd := by exact ⟨rfl, rfl⟩) :
    FitStep l s (t.setLine l ((s.line l).assembling o fifo)) := by
  have hrx (h : RecordFits (s.line l).rx) := closedRec_of_assembles ha h
  refine { TrafficStep.ofLine (l := l) (t := t.setLine l ((s.line l).assembling o fifo)) (fun k hk => ?_) ?_ hwindow hdescs
    ?_ (fun h => ?_) (fun h k => ?_) (.of_eq hqueue hread.1 hread.2) with enabled := ?_, fits := fun h => ?_ }
  · rw [line_setLine_ne _ _ _ _ hk]
    exact congrArg (fun v : Vector Line 16 => v[k.val]) hlines
  · rw [line_setLine_self]; rfl
  · rw [line_setLine_self]; rfl
  · rw [line_setLine_self]; exact ⟨fun _ => hrx h, fun _ => hrx h⟩
  · have hrec : recordCells ((s.line l).assembling o fifo).rx = o.cells := by
      simp [recordCells, Line.assembling, hrx h]
    have hentry : entryCells (t.setLine l ((s.line l).assembling o fifo)) = entryCells s :=
      congrArg (fun q : List Entry => q.flatMap Entry.cells) hqueue
    rw [line_setLine_self, hrec, hentry, setLine_freeList, hcells h k]
  · rw [line_setLine_self]; exact id
  · rw [line_setLine_self]
    exact lineFits_receiver h ha.1 rfl rfl ⟨rfl, hrx (recordFits_of_fits h.1)⟩ RxState.noConfusion

/-- An append: the free list gives the cells that the record gains, and the character is stored. -/
theorem FitStep.appendChar {t : State} {v : Byte} {st : CharStatus} {pos : Nat} {flag : Bool} {cells : List CellNo}
    (ha : Assembles (s.line l)) (hlines : t.lines = s.lines) (hdescs : t.descs = s.descs) (hqueue : t.queue = s.queue)
    (hwindow : t.window = s.window)
    (hcells : RecordFits (s.line l).rx → ∀ c : CellNo,
      t.freeList.count c + cells.count c = s.freeList.count c + (recordCells (s.line l).rx).count c)
    (hread : t.readPtr = s.readPtr ∧ t.rxPastEnd = s.rxPastEnd := by exact ⟨rfl, rfl⟩) :
    FitStep l s (appendChar l v st pos flag cells t) := by
  have hline : t.line l = s.line l := congrArg (fun v : Vector Line 16 => v[l.val]) hlines
  unfold Machine.appendChar
  refine FitStep.trans ?_ (.afterAppend l _ rfl)
  rw [storeChar_eq, hline]
  have h := FitStep.assembling l s (t := { t with mem := (storeChar cells pos v t).mem }) (fifo := (s.line l).rx.fifo.tail)
    (o := ⟨pos + 1, flag || (decide (st ≠ .ok) && decide ((s.line l).cfg.errorPolicy = .keep)), cells⟩)
    ha hlines hdescs hqueue hwindow hcells hread
  rw [← hline] at h ⊢
  exact h

theorem FitStep.takeChar {v : Byte} {st : CharStatus} (ha : Assembles (s.line l)) : FitStep l s (takeChar l v st s) := by
  unfold Machine.takeChar
  split
  · next r hr =>
    split
    · split
      · next c s' h =>
        obtain ⟨rest, hl, -, rfl⟩ := takeCell_eq_some h
        refine .appendChar l s ha rfl rfl rfl rfl fun hrx k => ?_
        simp only [recordCells_open hrx hr, hl, List.count_append, List.count_cons, List.count_nil]
        omega
      · exact .closeRecord l s (fun _ => ha.1) fun h => recordCells_open h hr
    · exact .appendChar l s ha rfl rfl rfl rfl fun hrx k => by rw [recordCells_open hrx hr]
  · next hr =>
    split
    · next c s' h =>
      obtain ⟨rest, hl, -, rfl⟩ := takeCell_eq_some h
      refine .appendChar l s ha rfl rfl rfl rfl fun hrx k => ?_
      simp only [recordCells_idle hr (closedRec_of_assembles ha hrx), hl, List.count_cons, List.count_nil]
      omega
    · exact .refl l s

theorem FitStep.dropHeadItem : FitStep l s (dropHeadItem l s) := .updRx l s fun _ h => by rw [h]; rfl

theorem FitStep.takeMarker (ha : Assembles (s.line l)) : FitStep l s (takeMarker l s) := by
  unfold Machine.takeMarker
  have hdrop := FitStep.dropHeadItem l s
  have ha' : Assembles ((Machine.dropHeadItem l s).line l) := by
    simpa [Machine.dropHeadItem, State.updRx, assembles_iff] using ha
  simp only
  split
  · next r hr => exact hdrop.trans (.closeRecord l _ (fun _ => ha'.1) fun h => recordCells_open h hr)
  · next hr =>
    exact hdrop.trans (.closeRecord l _ (fun _ => ha'.1) fun h => recordCells_idle hr (closedRec_of_assembles ha' h))

theorem FitStep.takeItem (ha : Assembles (s.line l)) : FitStep l s (takeItem l s) := by
  unfold Machine.takeItem
  split
  · exact .refl l s
  · exact .takeMarker l s ha
  · split
    · exact (FitStep.dropHeadItem l s).trans (.addDiscarded l _)
    · exact .takeChar l s ha

theorem FitStep.assemblerTake : FitStep l s (assemblerTake l s) := by
  unfold Machine.assemblerTake
  split
  · next h =>
    have ha : Assembles (s.line l) := (assemblerRuns_iff _).mp (Bool.and_eq_true_iff.mp h).1
    exact (FitStep.takeItem l s ha).trans (.uncongestIfClear l _)
  · exact .refl l s

theorem FitStep.idleExpiry : FitStep l s (idleExpiry l s) := by
  unfold Machine.idleExpiry
  split
  · split
    · exact .closeOpen l s
    · simp only
      split
      · exact (FitStep.draw l s).trans (.closeOpen l _)
      · exact (FitStep.draw l s).trans (.loadIdle l _)
    · exact .loadIdle l s
  · exact .refl l s

theorem FitStep.frameStart : FitStep l s (frameStart l s) := by
  unfold Machine.frameStart
  split
  · exact .updRx l s fun _ => id
  · exact .refl l s

theorem FitStep.frameAbandoned : FitStep l s (frameAbandoned l s) := by
  unfold Machine.frameAbandoned
  split
  · exact .updRx l s fun _ => id
  · exact .refl l s

theorem FitStep.rxdAtMark : FitStep l s (rxdAtMark l s) := by
  unfold Machine.rxdAtMark
  split
  · exact .updRx l s fun _ => id
  · exact .refl l s

end receiver

/-! ## The transmitter's events -/

section transmitter

variable (l : LineNo) (s : State)

theorem FitStep.flushBlocks : FitStep l s (flushBlocks l s) := by
  unfold Machine.flushBlocks
  split <;> exact (FitStep.finishBlocks l s).trans (.updTx l _)

theorem FitStep.flushChoice : FitStep l s (flushChoice l s) := by
  unfold Machine.flushChoice
  split
  · exact .choiceIn l s (by decide) (by decide)
  · exact .refl l s

theorem FitStep.flush : FitStep l s (flush l s) :=
  ((FitStep.flushBlocks l s).trans (.handleFront l _)).trans (.flushChoice l _)

theorem FitStep.mem_flushActs {ps : List Phase} {f : State → State} (h : f ∈ flushActs ps l s) (t : State) :
    FitStep l t (f t) := by
  rcases List.mem_cons.mp h with rfl | h
  · exact .finishBlocks l t
  · rw [mem_frontActs l s h]; exact .frontStep l t

theorem FitStep.expireHold {acts : List (State → State)} (h : ∀ f ∈ acts, ∀ t, FitStep l t (f t)) :
    FitStep l s (expireHold acts l s) := by
  unfold Machine.expireHold
  split
  · refine (FitStep.draw l s).trans (.runAll l _ _ fun f hf t => ?_)
    rcases mem_insertAct hf with rfl | hf
    · exact .joinChanges l t
    · exact h f hf t
  · exact (FitStep.joinChanges l s).trans (.runAll l _ _ h)

theorem FitStep.idleAfterExpiry (hf : lineFits (s.line l) → TxFree (s.line l)) : FitStep l s (idleAfterExpiry l s) := by
  unfold Machine.idleAfterExpiry
  have h : FitStep l s (s.updTx l fun t => { t.enter .idle with keyed := false }) :=
    .enter l s hf TxState.noConfusion fun hsome hnone => by simp [Transmitter.enter, hnone] at hsome
  simp only
  split
  · refine h.trans (.takeHalt l _ fun hfit => txFree_of_state hfit ?_ ?_) <;> rw [line_updTx] <;> exact TxState.noConfusion
  · exact h

/-! ## What acts on the blocks and the change set leave of their line -/

/-- Two values of a line that differ in the transmit queue and the change set alone. -/
structure SameBut (a b : Line) : Prop where
  queue_changes : ∃ q c, b = { a with tx.queue := q, changes := c }

theorem SameBut.refl (a : Line) : SameBut a a := ⟨_, _, rfl⟩

theorem SameBut.trans {a b c : Line} (h : SameBut a b) (k : SameBut b c) : SameBut a c := by
  obtain ⟨q, x, rfl⟩ := h
  obtain ⟨q', x', rfl⟩ := k
  exact ⟨q', x', rfl⟩

theorem SameBut.frontStep : SameBut (s.line l) ((frontStep l s).line l) := by
  obtain ⟨q, hq⟩ := line_frontStep l s
  exact ⟨q, _, hq⟩

theorem SameBut.handleFront : SameBut (s.line l) ((handleFront l s).line l) := by
  obtain ⟨q, hq⟩ := line_handleFront l s
  exact ⟨q, _, hq⟩

theorem SameBut.finishBlocks (ps : List Phase) (o : BlockOutcome) :
    SameBut (s.line l) ((finishBlocks ps l o s).line l) := by
  rw [line_finishBlocks]
  exact .refl _

theorem SameBut.joinChanges (c : ChangeSet) : SameBut (s.line l) ((joinChanges l c s).line l) := by
  rcases joinChanges_cases l c s with ⟨h, -⟩ | ⟨h, -, -⟩ | h <;> rw [h]
  · exact .refl _
  · rw [line_postEntry]
    exact .refl _
  · rw [line_setLine_self]
    exact ⟨_, _, rfl⟩

theorem SameBut.mem_flushActs {ps : List Phase} {f : State → State} (h : f ∈ flushActs ps l s) (t : State) :
    SameBut (t.line l) ((f t).line l) := by
  rcases List.mem_cons.mp h with rfl | h
  · exact .finishBlocks l t _ _
  · rw [mem_frontActs l s h]; exact .frontStep l t

theorem SameBut.runAll (acts : List (State → State)) (h : ∀ f ∈ acts, ∀ t, SameBut (t.line l) ((f t).line l)) :
    SameBut (s.line l) ((runAll acts s).line l) := by
  induction acts generalizing s with
  | nil => exact .refl _
  | cons f acts ih => exact (h f (by simp) s).trans (ih _ fun g hg t => h g (by simp [hg]) t)

theorem SameBut.expireHold {acts : List (State → State)} (h : ∀ f ∈ acts, ∀ t, SameBut (t.line l) ((f t).line l)) :
    SameBut (s.line l) ((expireHold acts l s).line l) := by
  unfold Machine.expireHold
  split
  · refine .runAll l (Machine.draw s).2 _ fun f hf t => ?_
    rcases mem_insertAct hf with rfl | hf
    · exact .joinChanges l t _
    · exact h f hf t
  · exact (SameBut.joinChanges l s _).trans (.runAll l _ _ h)

theorem SameBut.state {a b : Line} (h : SameBut a b) : b.state = a.state := by
  obtain ⟨q, c, rfl⟩ := h
  rfl

theorem SameBut.rx {a b : Line} (h : SameBut a b) : b.rx = a.rx := by
  obtain ⟨q, c, rfl⟩ := h
  rfl

theorem SameBut.inFlight {a b : Line} (h : SameBut a b) : b.tx.inFlight = a.tx.inFlight := by
  obtain ⟨q, c, rfl⟩ := h
  rfl

theorem SameBut.txState {a b : Line} (h : SameBut a b) : b.tx.state = a.tx.state := by
  obtain ⟨q, c, rfl⟩ := h
  rfl

theorem SameBut.txFree {a b : Line} (h : SameBut a b) : TxFree b ↔ TxFree a := by
  obtain ⟨q, c, rfl⟩ := h
  rfl

theorem SameBut.lineFits {a b : Line} (h : SameBut a b) : lineFits b ↔ lineFits a := by
  obtain ⟨q, c, rfl⟩ := h
  exact ⟨lineFits_of_eq rfl rfl rfl rfl, lineFits_of_eq rfl rfl rfl rfl⟩

/-- What holds of a fitting line for the choice holds of a line that differs in the queue and the change set. -/
theorem SameBut.ready {a b : Line} (h : SameBut a b) (hf : Machine.lineFits a → TxFree a) : Machine.lineFits b → TxFree b :=
  fun hb => h.txFree.mpr (hf (h.lineFits.mp hb))

/-! ## Events -/

theorem FitStep.holdExpiry : FitStep l s (holdExpiry l s) := by
  unfold Machine.holdExpiry
  split
  · simp only
    have h := FitStep.updTx l s (f := fun t => { t with holdTimer := none })
    split
    · next hheld =>
      split
      · exact h.trans (.expireHold l _ fun f hf => by cases hf)
      · refine (h.trans (.expireHold l _ fun f hf t => .mem_flushActs l _ hf t)).trans (.idleAfterExpiry l _ ?_)
        refine (SameBut.expireHold l _ fun f hf t => .mem_flushActs l _ hf t).ready fun hfit => ?_
        rw [line_updTx] at hfit ⊢
        exact txFree_of_state hfit (by simp [hheld]) (by simp [hheld])
    · exact h.trans (.updTx l _)
  · exact .refl l s

theorem FitStep.leadEnd : FitStep l s (leadEnd l s) := by
  unfold Machine.leadEnd
  split
  · next h =>
    obtain ⟨hst, -⟩ := (leadDue_iff _).mp h
    refine (FitStep.updTx l s).trans (.nextStepChoice l _ fun hfit => ?_)
    rw [line_updTx] at hfit ⊢
    exact txFree_of_state hfit (by simp [hst]) (by simp [hst])
  · exact .refl l s

theorem FitStep.trailEnd : FitStep l s (trailEnd l s) := by
  unfold Machine.trailEnd
  split
  · next h =>
    obtain ⟨hst, -⟩ := (trailDue_iff _).mp h
    exact .enter l s (fun hfit => txFree_of_state hfit (by simp [hst]) (by simp [hst])) TxState.noConfusion
      fun hsome hnone => by simp [Transmitter.enter, hnone] at hsome
  · exact .refl l s

theorem FitStep.breakTimerExpiry : FitStep l s (breakTimerExpiry l s) := by
  unfold Machine.breakTimerExpiry
  split
  · exact .updTx l s
  · exact .refl l s

theorem FitStep.finishIfEmpty : FitStep l s (finishIfEmpty l s) := by
  unfold Machine.finishIfEmpty
  split
  · next h =>
    split
    · exact (FitStep.finishBlock l s (activeDesc_mem h)).trans (.handleFront l _)
    · exact .refl l s
  · exact .refl l s

theorem SameBut.finishIfEmpty : SameBut (s.line l) ((finishIfEmpty l s).line l) := by
  unfold Machine.finishIfEmpty
  split
  · next d h =>
    split
    · have := SameBut.handleFront l (finishBlock d .sent s)
      rwa [line_finishBlock] at this
    · exact .refl _
  · exact .refl _

theorem FitStep.breakEnd : FitStep l s (breakEnd l s) := by
  unfold Machine.breakEnd
  split
  · next h =>
    obtain ⟨hst, -⟩ := h
    refine ((FitStep.updTx l s).trans (.finishIfEmpty l _)).trans (.nextStepChoice l _ ?_)
    refine (SameBut.finishIfEmpty l _).ready fun hfit => ?_
    rw [line_updTx] at hfit ⊢
    exact txFree_of_state hfit (by simp [hst]) (by simp [hst])
  · exact .refl l s

/-- A character of the ACTIVE block counted (R8, R70). -/
theorem FitStep.countSent {d : DescNo} (hd : d ∈ (s.line l).tx.queue) (hact : (s.desc d).phase = .active) :
    FitStep l s (countSent d s) := by
  unfold Machine.countSent
  simp only
  have hcount : FitStep l s (if ((s.desc d).sent + 1) % Config.cellSize = 0 ∨ lastChar (s.desc d) = true then
      (Machine.returnCells ((s.desc d).cells.take 1) s).setDesc d
        { s.desc d with sent := (s.desc d).sent + 1, cells := (s.desc d).cells.drop 1 }
      else s.setDesc d { s.desc d with sent := (s.desc d).sent + 1 }) := by
    split
    · exact .setDesc l s hd rfl (.inr (.inl hact)) (fun h => by simp [hact] at h) (List.take_append_drop 1 _)
    · have h := FitStep.setDesc l s (ds := { s.desc d with sent := (s.desc d).sent + 1 }) (out := []) hd rfl
        (.inr (.inl hact)) (fun h => by simp [hact] at h) rfl
      rwa [returnCells_nil] at h
  split
  · refine hcount.trans (.finishBlock l _ ?_)
    split <;> exact hd
  · exact hcount

theorem line_countSent (d : DescNo) (k : LineNo) : (countSent d s).line k = s.line k := by
  unfold Machine.countSent
  simp only
  split <;> split <;> rfl

/-- The effects of the character itself; the character is in flight no more. -/
theorem TrafficStep.ownEffects {c : InFlight} : TrafficStep l s (ownEffects l c s) := by
  unfold Machine.ownEffects
  simp only
  have h : TrafficStep l s (s.updTx l fun t => { t with inFlight := none }) := .setLine l s rfl rfl id fun _ => rfl
  split
  · split
    · next hd =>
      have hc := h.trans (FitStep.countSent l _ (activeDesc_mem hd) (activeDesc_active hd)).toTrafficStep
      split
      · exact hc.trans (FitStep.handleFront l _).toTrafficStep
      · exact hc
    · exact h
  · exact h

/-- The line with no character in flight. -/
def landedLine (ln : Line) : Line := { ln with tx.inFlight := none }

theorem SameBut.ownEffects (c : InFlight) : SameBut (landedLine (s.line l)) ((ownEffects l c s).line l) := by
  unfold Machine.ownEffects
  simp only
  have hline : (s.updTx l fun t => { t with inFlight := none }).line l = landedLine (s.line l) := line_updTx ..
  split
  · split
    · split
      · have h := SameBut.handleFront l (Machine.countSent ‹_› (s.updTx l fun t => { t with inFlight := none }))
        rwa [line_countSent, hline] at h
      · rw [line_countSent, hline]
        exact .refl _
    · rw [hline]
      exact .refl _
  · rw [hline]
    exact .refl _

/-- An act put among acts with one more at their end comes before that one, or after them all. -/
theorem insertAct_concat (n : Nat) (f g : State → State) (acts : List (State → State)) :
    (∃ k, insertAct n f (acts ++ [g]) = (acts.take k ++ f :: acts.drop k) ++ [g]) ∨
      insertAct n f (acts ++ [g]) = acts ++ [g, f] := by
  unfold insertAct
  have hlt := Nat.mod_lt n (show 0 < (acts ++ [g]).length + 1 by omega)
  generalize n % ((acts ++ [g]).length + 1) = k at hlt ⊢
  rw [List.length_append, List.length_singleton] at hlt
  by_cases hk : k ≤ acts.length
  · refine .inl ⟨k, ?_⟩
    rw [List.take_append_of_le_length hk, List.drop_append_of_le_length hk, List.append_assoc, List.cons_append]
  · have hk' : k = (acts ++ [g]).length := by simp only [List.length_append, List.length_singleton]; omega
    refine .inr ?_
    rw [hk', List.take_length, List.drop_length, List.append_assoc, List.singleton_append]

theorem runAll_append (as bs : List (State → State)) : runAll (as ++ bs) s = runAll bs (runAll as s) :=
  List.foldl_append ..

/-- A hold expiry with REPORT at a boundary: acts on the blocks, then the choice. -/
theorem FitStep.expireHold_choice {acts : List (State → State)} (hf : lineFits (s.line l) → TxFree (s.line l))
    (hfit : ∀ f ∈ acts, ∀ t, FitStep l t (f t)) (hsame : ∀ f ∈ acts, ∀ t, SameBut (t.line l) ((f t).line l)) :
    FitStep l s (Machine.expireHold (acts ++ [Machine.nextStepChoice l]) l s) := by
  have hchoice (as : List (State → State)) (u : State) (hu : lineFits (u.line l) → TxFree (u.line l))
      (h1 : ∀ f ∈ as, ∀ t, FitStep l t (f t)) (h2 : ∀ f ∈ as, ∀ t, SameBut (t.line l) ((f t).line l)) :
      FitStep l u (Machine.runAll (as ++ [Machine.nextStepChoice l]) u) := by
    rw [runAll_append]
    exact (FitStep.runAll l u as h1).trans (.nextStepChoice l _ ((SameBut.runAll l u as h2).ready hu))
  unfold Machine.expireHold
  split
  · have hd := FitStep.draw l s
    obtain ⟨k, hk⟩ | hk := insertAct_concat (Machine.draw s).1 (Machine.joinChanges l holdExpired)
      (Machine.nextStepChoice l) acts
    · have hmem {f : State → State} (h : f ∈ acts.take k ++ Machine.joinChanges l holdExpired :: acts.drop k) :
          f = Machine.joinChanges l holdExpired ∨ f ∈ acts := by
        rcases List.mem_append.mp h with h | h
        · exact .inr (List.mem_of_mem_take h)
        · exact (List.mem_cons.mp h).imp id List.mem_of_mem_drop
      simp only [hk]
      refine hd.trans (hchoice _ _ hf (fun f h t => ?_) fun f h t => ?_)
      · obtain rfl | h := hmem h
        · exact .joinChanges l t
        · exact hfit f h t
      · obtain rfl | h := hmem h
        · exact .joinChanges l t _
        · exact hsame f h t
    · simp only [hk]
      rw [List.append_cons, runAll_append]
      exact (hd.trans (hchoice _ _ hf hfit hsame)).trans (.joinChanges l _ (c := holdExpired))
  · exact (FitStep.joinChanges l s).trans (hchoice _ _ ((SameBut.joinChanges l s _).ready hf) hfit hsame)

theorem FitStep.completeFlush : FitStep l s (completeFlush l s) := by
  unfold Machine.completeFlush
  split
  · exact .complete l s
  · exact .refl l s

theorem line_completeFlush (k : LineNo) : (completeFlush l s).line k = s.line k := by
  unfold Machine.completeFlush
  split <;> rfl

theorem FitStep.afterBoundary (hf : lineFits (s.line l) → TxFree (s.line l)) : FitStep l s (afterBoundary l s) := by
  unfold Machine.afterBoundary
  simp only
  have h := (FitStep.updTx l s (f := fun t => { t with flushDue := false, holdDue := false })).trans (.completeFlush l _)
  have hf' : lineFits ((Machine.completeFlush l (s.updTx l fun t => { t with flushDue := false, holdDue := false })).line l)
      → TxFree ((Machine.completeFlush l (s.updTx l fun t => { t with flushDue := false, holdDue := false })).line l) := by
    rw [line_completeFlush, line_updTx]
    exact fun hfit => hf (lineFits_of_eq rfl rfl rfl rfl hfit)
  split
  · split
    · refine h.trans (.expireHold_choice l _ hf' (fun f hm t => ?_) fun f hm t => ?_) <;> split at hm
      · exact .mem_flushActs l _ hm t
      · cases hm
      · exact .mem_flushActs l _ hm t
      · cases hm
    · refine (h.trans (.expireHold l _ fun f hm t => .mem_flushActs l _ hm t)).trans (.idleAfterExpiry l _ ?_)
      exact (SameBut.expireHold l _ fun f hm t => .mem_flushActs l _ hm t).ready hf'
  · split
    · refine ((h.trans (.finishBlocks l _)).trans (.handleFront l _)).trans (.nextStepChoice l _ ?_)
      exact ((SameBut.finishBlocks l _ _ _).trans (.handleFront l _)).ready hf'
    · exact h.trans (.nextStepChoice l _ hf')

end transmitter

/-! ## The modem logic -/

section modem

variable (l : LineNo) (s : State)

theorem FitStep.updFlow {f : FlowLogic → FlowLogic} : FitStep l s (s.updFlow l f) := .side l s

theorem FitStep.ctsEffects {c : ChangeSet} : FitStep l s (ctsEffects l c s) := by
  unfold Machine.ctsEffects
  simp only
  have hrel (t : State) : FitStep l t ((if (s.line l).state = .enabled then Machine.releaseHold l else id) t) := by
    split
    · exact .releaseHold l t
    · exact .refl l t
  split
  · refine (FitStep.draw l s).trans (.runAll l _ _ fun f hf t => ?_)
    rcases mem_insertAct hf with rfl | h
    · exact .joinChanges l t
    · rw [List.mem_singleton.mp h]; exact hrel t
  · exact (hrel s).trans (.joinChanges l _)

theorem FitStep.dcdFlushEnds {met : Bool} : FitStep l s (dcdFlushEnds met l s) := by
  unfold Machine.dcdFlushEnds
  split
  · next h =>
    have hheld : (s.line l).tx.state = .held := of_decide_eq_true (Bool.and_eq_true_iff.mp h).2
    exact .idleAfterExpiry l s fun hfit => txFree_of_state hfit (by simp [hheld]) (by simp [hheld])
  · exact .flushChoice l s

theorem FitStep.dcdNegated {c : ChangeSet} : FitStep l s (dcdNegated l c s) := by
  unfold Machine.dcdNegated
  simp only
  have hclose (t : State) : FitStep l t ((if dcdCloses (s.line l) = true then Machine.closeOpen l .carrier else id) t) := by
    split
    · exact .closeOpen l t
    · exact .refl l t
  have hflush (f : State → State) (hf : f ∈ (if dcdFlushes s l = true then Machine.flushBlocks l :: frontActs l s else []))
      (t : State) : FitStep l t (f t) := by
    split at hf
    · rcases List.mem_cons.mp hf with rfl | h
      · exact .flushBlocks l t
      · rw [mem_frontActs l s h]; exact .frontStep l t
    · cases hf
  have hends (t : State) : FitStep l t
      ((if dcdFlushes s l = true then Machine.dcdFlushEnds (meetsHoldExpiry (s.line l).tx) l else id) t) := by
    split
    · exact .dcdFlushEnds l t
    · exact .refl l t
  split
  · refine (((FitStep.draw l s).trans (.draw l _)).trans (.runAll l _ _ fun f hf t => ?_)).trans (hends _)
    rcases mem_insertAct hf with rfl | h
    · exact .joinChanges l t
    · rcases mem_insertAct h with rfl | h
      · exact hclose t
      · exact hflush f h t
  · split
    · exact (((FitStep.runAll l s _ hflush).trans (hclose _)).trans (.joinChanges l _)).trans (hends _)
    · exact .joinChanges l s

theorem FitStep.dcdEffects {v : Level} {c : ChangeSet} : FitStep l s (dcdEffects l v c s) := by
  unfold Machine.dcdEffects
  split
  · exact .dcdNegated l s
  · exact .joinChanges l s

theorem FitStep.settleCommit : FitStep l s (settleCommit l s) := by
  unfold Machine.settleCommit
  split
  · exact .choiceIn l s (by decide) (by decide)
  · exact .refl l s

theorem FitStep.qualifiedChange {i : ModemInput} {v : Level} : FitStep l s (qualifiedChange l i v s) := by
  unfold Machine.qualifiedChange
  split
  · exact (FitStep.updFlow l s).trans (.ctsEffects l _)
  · exact ((FitStep.updFlow l s).trans (.dcdEffects l _)).trans (.settleCommit l _)

theorem FitStep.sampleInput {i : ModemInput} {v : Level} : FitStep l s (sampleInput l i v s) := by
  unfold Machine.sampleInput
  split
  · exact .refl l s
  · split
    · exact .qualifiedChange l s
    · unfold Machine.plainSample
      split
      · exact .updFlow l s
      · exact (FitStep.updFlow l s).trans (.settleCommit l _)

theorem FitStep.bothQualify {c d : Level} : FitStep l s (bothQualify l c d s) := by
  unfold Machine.bothQualify
  simp only
  have hd := FitStep.draw l s
  split
  · exact (hd.trans (.qualifiedChange l _)).trans (.qualifiedChange l _)
  · split
    · exact (hd.trans (.qualifiedChange l _)).trans (.qualifiedChange l _)
    · split
      · exact ((((hd.trans (.updFlow l _)).trans (.updFlow l _)).trans (.ctsEffects l _)).trans (.dcdEffects l _)).trans
          (.settleCommit l _)
      · exact ((((hd.trans (.updFlow l _)).trans (.updFlow l _)).trans (.dcdEffects l _)).trans
          (.settleCommit l _)).trans (.ctsEffects l _)

theorem FitStep.sampleInputs {c d : Level} : FitStep l s (sampleInputs l c d s) := by
  unfold Machine.sampleInputs
  split
  · exact .bothQualify l s
  · exact (FitStep.sampleInput l s).trans (.sampleInput l _)

end modem

end Sys2Proof.Machine
end

section
/-! PROOFS. The ends of a restart or disable, the acceptance, the grant, and every row by what it does. -/

namespace Sys2Proof.Machine

/-! ## Completion of a restart or disable (R148, R149) -/

section completion

variable (l : LineNo) (s : State)

theorem SameBut.completeRestart : SameBut { s.line l with state := .enabled, tx := clearedTransmitter .idle (s.line l).tx }
    ((completeRestart l s).line l) := by
  have h := SameBut.joinChanges l
    (s.setLine l { s.line l with state := .enabled, tx := clearedTransmitter .idle (s.line l).tx }) lineCleared
  rwa [line_setLine_self] at h

/-- The line that a disable's completion leaves, its change set apart (R149). -/
def disabledLine (ln : Line) : Line :=
  { ln with
    state := .disabled
    tx := clearedTransmitter .off ln.tx
    rx := { ln.rx with state := .off, framer := .stopped }
    flow := { ln.flow with manualRts := .negated } }

theorem completeDisable_eq :
    completeDisable l s = complete .ok (joinChanges l lineCleared (s.setLine l (disabledLine (s.line l)))) := rfl

theorem SameBut.completeDisable : SameBut (disabledLine (s.line l)) ((completeDisable l s).line l) := by
  have h := SameBut.joinChanges l (s.setLine l (disabledLine (s.line l))) lineCleared
  rwa [line_setLine_self] at h

theorem TrafficStep.completeRestart : TrafficStep l s (completeRestart l s) := by
  have hline := TrafficStep.setLine l s (ln := { s.line l with
    state := .enabled, tx := clearedTransmitter .idle (s.line l).tx }) rfl rfl id fun _ => rfl
  exact hline.trans ((FitStep.joinChanges l _ (c := lineCleared)).trans (.complete l _ (r := .ok))).toTrafficStep

theorem TrafficStep.completeDisable : TrafficStep l s (completeDisable l s) := by
  have hline := TrafficStep.setLine l s (ln := disabledLine (s.line l)) rfl rfl
    (fun h => ⟨h.one, fun hst => by simp [disabledLine] at hst⟩) fun _ => rfl
  exact hline.trans ((FitStep.joinChanges l _ (c := lineCleared)).trans (.complete l _ (r := .ok))).toTrafficStep

/-- The end of a restart is an ENABLED line that fits, from a receiver that has been cleared. -/
theorem lineFits_completeRestart (hrx : receiverFits (s.line l).rx) (hoff : (s.line l).rx.state ≠ .off)
    (hfl : (s.line l).tx.inFlight = none) : lineFits ((completeRestart l s).line l) := by
  rw [(SameBut.completeRestart l s).lineFits, lineFits_enabled_iff rfl]
  exact ⟨hrx, fun h => by simp [clearedTransmitter, Transmitter.enter, hfl] at h, TxState.noConfusion, hoff⟩

/-- The end of a disable is a DISABLED line that fits. -/
theorem lineFits_completeDisable (hopen : (s.line l).rx.openRec = none) (hclosed : (s.line l).rx.closedRec = none)
    (hfifo : (s.line l).rx.fifo = []) (hfl : (s.line l).tx.inFlight = none) :
    lineFits ((completeDisable l s).line l) := by
  rw [(SameBut.completeDisable l s).lineFits]
  exact ⟨⟨hopen, hclosed⟩, fun h => by simp [disabledLine, clearedTransmitter, Transmitter.enter, hfl] at h,
    rfl, hfl, rfl, hfifo⟩

/-! ## The boundary (R70, R148, R149) -/

theorem FitStep.ownEffects {c : InFlight} (hen : (s.line l).state = .enabled) : FitStep l s (ownEffects l c s) := by
  have hsame := SameBut.ownEffects l s c
  refine { TrafficStep.ownEffects l s with enabled := fun _ => hsame.state.trans hen, fits := fun h => ?_ }
  obtain ⟨hrx, -, htx, hoff⟩ := (lineFits_enabled_iff hen).mp h
  exact hsame.lineFits.mpr ((lineFits_enabled_iff (a := landedLine (s.line l)) hen).mpr
    ⟨hrx, fun h => by simp [landedLine] at h, htx, hoff⟩)

/-- The line at its boundary in RESTARTING or DISABLING, once its blocks are done. -/
theorem SameBut.boundaryBlocks (c : InFlight) : SameBut (landedLine (s.line l))
    ((Machine.handleFront l (Machine.finishBlocks [.active] l .restarted (Machine.ownEffects l c s))).line l) :=
  (SameBut.ownEffects l s c).trans ((SameBut.finishBlocks l _ _ _).trans (.handleFront l _))

theorem FitStep.characterBoundary : FitStep l s (characterBoundary l s) := by
  unfold Machine.characterBoundary
  split
  · exact .refl l s
  · next c _ =>
    have hown := TrafficStep.ownEffects l s (c := c)
    have hstate : ((Machine.ownEffects l c s).line l).state = (s.line l).state := (SameBut.ownEffects l s c).state
    have hblocks := hown.trans
      ((FitStep.finishBlocks l (Machine.ownEffects l c s) (ps := [.active]) (o := .restarted)).trans
        (.handleFront l _)).toTrafficStep
    have hline := SameBut.boundaryBlocks l s c
    have hrx : (landedLine (s.line l)).rx = (s.line l).rx := rfl
    simp only
    split
    · next hen =>
      rw [hstate] at hen
      refine (FitStep.ownEffects l s hen).trans (.afterBoundary l _ ((SameBut.ownEffects l s c).ready fun hfit => ?_))
      exact ⟨rfl, ((lineFits_enabled_iff (a := landedLine (s.line l)) hen).mp hfit).2.2.1⟩
    · next hst =>
      rw [hstate] at hst
      refine { hblocks.trans (.completeRestart l _) with enabled := fun he => by simp [hst] at he, fits := fun hfit => ?_ }
      obtain ⟨-, hidle, -⟩ := lineFits_leaving hfit (.inl hst)
      apply lineFits_completeRestart
      · rw [hline.rx]; exact hfit.1
      · rw [hline.rx, hrx, hidle]; exact RxState.noConfusion
      · rw [hline.inFlight]; rfl
    · next hst =>
      rw [hstate] at hst
      refine { hblocks.trans (.completeDisable l _) with enabled := fun he => by simp [hst] at he, fits := fun hfit => ?_ }
      obtain ⟨-, hidle, hfifo⟩ := lineFits_leaving hfit (.inr hst)
      obtain ⟨hopen, hclosed⟩ : (s.line l).rx.openRec = none ∧ (s.line l).rx.closedRec = none := by
        simpa only [receiverFits, hidle] using hfit.1
      apply lineFits_completeDisable
      · rw [hline.rx]; exact hopen
      · rw [hline.rx]; exact hclosed
      · rw [hline.rx]; exact hfifo
      · rw [hline.inFlight]; rfl
    · next hst =>
      rw [hstate] at hst
      refine { hown with enabled := fun he => by simp [hst] at he, fits := fun hfit => ?_ }
      obtain ⟨-, hnone, -⟩ := lineFits_disabled hfit hst
      exact (SameBut.ownEffects l s c).lineFits.mpr
        (lineFits_of_eq (a := s.line l) (b := landedLine (s.line l)) rfl rfl rfl hnone.symm hfit)

end completion

/-! ## Acceptance of a restart or disable (R146) -/

section acceptance

variable (l : LineNo) (s : State)

theorem TrafficStep.acceptTransmitter : TrafficStep l s (acceptTransmitter l s) := by
  unfold Machine.acceptTransmitter
  have h : TrafficStep l s (s.updTx l stoppedTransmitter) := .setLine l s rfl rfl id fun _ => rfl
  simp only
  split
  · exact h.trans ((FitStep.finishBlocks l _).trans (.handleFront l _)).toTrafficStep
  · exact h.trans ((FitStep.finishBlocks l _).trans (.handleFront l _)).toTrafficStep

theorem SameBut.acceptTransmitter : SameBut { s.line l with tx := stoppedTransmitter (s.line l).tx }
    ((acceptTransmitter l s).line l) := by
  unfold Machine.acceptTransmitter
  simp only
  rw [← line_updTx]
  split
  · exact (SameBut.finishBlocks l _ _ _).trans (.handleFront l _)
  · exact (SameBut.finishBlocks l _ _ _).trans (.handleFront l _)

/-- The line whose record and FIFO an acceptance discards (R114). -/
def emptiedLine (ln : Line) : Line :=
  { ln with
    rx := { ln.rx with state := .idle, fifo := [], openRec := none, closedRec := none, idleTimer := none, lostTally := 0 }
    counters.discarded := satAdd (satAdd ln.counters.discarded (recordLength ln.rx)) (fifoChars ln.rx.fifo) }

theorem acceptReceiver_eq : acceptReceiver l s =
    (returnCells (recordCells (s.line l).rx) s).setLine l (emptiedLine (s.line l)) := by
  simp [acceptReceiver, addDiscarded, State.updRx, emptiedLine]

theorem TrafficStep.acceptReceiver : TrafficStep l s (acceptReceiver l s) := by
  rw [acceptReceiver_eq]
  have hline : ((Machine.returnCells (recordCells (s.line l).rx) s).setLine l (emptiedLine (s.line l))).line l =
    emptiedLine (s.line l) := line_setLine_self ..
  have hrec : recordCells (emptiedLine (s.line l)).rx = [] := recordCells_idle rfl rfl
  refine .ofLine (fun k hk => line_setLine_ne _ l k _ hk) (by rw [hline]; rfl) rfl rfl (by rw [hline]; rfl)
    (fun _ => by rw [hline]; exact ⟨fun _ => rfl, fun _ => rfl⟩) fun _ c => ?_
  have hentry : entryCells ((Machine.returnCells (recordCells (s.line l).rx) s).setLine l (emptiedLine (s.line l))) =
    entryCells s := rfl
  rw [hline, hrec, hentry, setLine_freeList, freeList_returnCells, List.count_append, List.count_nil, Nat.add_zero]

theorem TrafficStep.acceptFlow : TrafficStep l s (acceptFlow l s) := .setLine l s rfl rfl id fun _ => rfl

/-- The acceptance without the loss of the window: the three parts of the line in turn (R146). -/
def acceptParts (st : LineState) (l : LineNo) (s : State) : State :=
  acceptFlow l (acceptReceiver l (acceptTransmitter l (s.setLine l { s.line l with state := st })))

theorem acceptStages_eq (st : LineState) : acceptStages st l s = acceptParts st l (loseWindow l s) := rfl

theorem TrafficStep.acceptParts (st : LineState) : TrafficStep l s (acceptParts st l s) := by
  have h : TrafficStep l s (s.setLine l { s.line l with state := st }) := .setLine l s rfl rfl id fun _ => rfl
  exact ((h.trans (.acceptTransmitter l _)).trans (.acceptReceiver l _)).trans (.acceptFlow l _)

/-- The line that an acceptance leaves, its queue and change set apart. -/
def acceptedLine (st : LineState) (ln : Line) : Line :=
  let ln := emptiedLine { ln with state := st, tx := stoppedTransmitter ln.tx }
  { ln with flow := { ln.flow with congested := false, xoffSent := false } }

theorem SameBut.acceptParts (st : LineState) : SameBut (acceptedLine st (s.line l)) ((acceptParts st l s).line l) := by
  obtain ⟨q, c, hq⟩ := SameBut.acceptTransmitter l (s.setLine l { s.line l with state := st })
  refine ⟨q, c, ?_⟩
  rw [Machine.acceptParts, acceptReceiver_eq, Machine.acceptFlow, line_setLine_self, line_setLine_self, hq,
    line_setLine_self]
  rfl

end acceptance

/-! ## The grant (R37, R38) -/

section grant

variable (l : LineNo) (s : State)

theorem FitStep.grantChanges : FitStep l s (grantChanges l s) := by
  unfold Machine.grantChanges
  have hcells : (lineEventOf s l (s.line l).changes).cells = [] := rfl
  generalize lineEventOf s l (s.line l).changes = e at hcells ⊢
  have h := FitStep.side l (Machine.postEntry e s) (ln := { (Machine.postEntry e s).line l with changes := .empty })
  simp only [line_postEntry] at h
  exact (FitStep.postEntry l s hcells).trans h

/-- A closed record is one of an ENABLED line, and all that its receiver holds (R93, R143). -/
theorem enabled_of_closedRec {a : Line} (h : lineFits a) {r : ClosedRecord} (hc : a.rx.closedRec = some r) :
    a.state = .enabled := by
  have hrx := h.1
  cases hst : a.state with
  | enabled => rfl
  | disabled => simp [receiverFits, (lineFits_disabled h hst).2.2.1, hc] at hrx
  | restarting | disabling => simp [receiverFits, (lineFits_leaving h (by simp [hst])).2.1, hc] at hrx

theorem recordCells_closed {r : Receiver} (h : RecordFits r) {c : ClosedRecord} (hc : r.closedRec = some c) :
    recordCells r = c.cells := by
  have hopen : r.openRec = none := by
    cases ho : r.openRec with
    | none => rfl
    | some o => simp [h.one (by simp [ho])] at hc
  simp [recordCells, hopen, hc]

theorem FitStep.grantRecord : FitStep l s (grantRecord l s) := by
  unfold Machine.grantRecord
  split
  · next r hr =>
    exact (FitStep.postRecord l s (fun h => enabled_of_closedRec h hr) fun h => recordCells_closed h hr).trans
      (.uncongestIfClear l _)
  · exact .refl l s

theorem FitStep.grantLine : FitStep l s (grantLine l s) := by
  unfold Machine.grantLine
  split
  · exact .grantChanges l s
  · split
    · exact .handleFront l s
    · exact .grantRecord l s

theorem FitStep.grantMatch : FitStep l s (grantMatch s) := by
  unfold Machine.grantMatch
  split
  · split
    · exact (FitStep.setMatch l s).trans (.postEntry l _ rfl)
    · exact .refl l s
  · exact .refl l s

/-- A grant is an operation of one line; that of the match unit touches none. -/
theorem FitStep.postGrant : ∃ l, FitStep l s (postGrant s) := by
  unfold Machine.postGrant
  split
  · split
    · next src _ =>
      unfold Machine.grantTo
      split
      · next h => exact ⟨⟨src.val, h⟩, (FitStep.grantLine _ s).trans (.other _ rfl)⟩
      · exact ⟨0, (FitStep.grantMatch 0 s).trans (.other _ rfl)⟩
    · exact ⟨0, .refl 0 s⟩
  · exact ⟨0, .refl 0 s⟩

end grant

end Sys2Proof.Machine
end

section
/-! PROOFS. Every row by what it does: a port access, a command, an operation of a line, a grant, a reset. -/

namespace Sys2Proof.Machine

/-! ## The bounds of R21 and R101 -/

/-- The three bounds look at the queue, the FIFOs and the store alone. -/
theorem withinBounds_of_eq {s t : State} (hq : t.queue.length ≤ s.queue.length)
    (hf : ∀ l, (t.line l).rx.fifo.length ≤ (s.line l).rx.fifo.length) (hm : t.mem = s.mem) (h : withinBounds s) :
    withinBounds t := by
  obtain ⟨hqueue, hfifo, hmem⟩ := h
  exact ⟨Nat.le_trans hq hqueue, fun l => Nat.le_trans (hf l) (hfifo l), hm ▸ hmem⟩

theorem LineStep.withinBounds {l : LineNo} {s t : State} (h : LineStep l s t) (hs : withinBounds s) : withinBounds t := by
  obtain ⟨hqueue, hfifo, hmem⟩ := hs
  refine ⟨h.queueBound hqueue, fun k => ?_, h.mem ▸ hmem⟩
  by_cases hk : k = l
  · subst hk
    exact h.fifoBound (hfifo k)
  · exact h.others k hk ▸ hfifo k

theorem withinBounds_storeChar {s : State} {cells : List CellNo} {pos : Nat} {v : Byte} (h : withinBounds s) :
    withinBounds (storeChar cells pos v s) := by
  obtain ⟨hqueue, hfifo, hmem⟩ := h
  refine ⟨?_, fun l => ?_, storeChar_keeps_wf hmem⟩
  · rw [storeChar_eq]; exact hqueue
  · rw [storeChar_eq]; exact hfifo l

theorem TakeStep.withinBounds {l : LineNo} {s t : State} (h : TakeStep l s t) (hs : Machine.withinBounds s) :
    Machine.withinBounds t := by
  obtain h | ⟨u, cells, pos, v, h1, h2⟩ := h
  · exact h.withinBounds hs
  · exact h2.withinBounds (withinBounds_storeChar (h1.withinBounds hs))

/-! ## What a command does -/

/-- A change that only the host sees: neither the lines, the blocks, the entries nor the store change. -/
def PortOnly (s t : State) : Prop := t.traffic = s.traffic ∧ t.mem = s.mem ∧ t.pending = s.pending

theorem PortOnly.withinBounds {s t : State} (h : PortOnly s t) : Machine.withinBounds s → Machine.withinBounds t := by
  obtain ⟨ht, hm, -⟩ := h
  have hline := line_of_traffic ht
  simp only [State.traffic, Prod.mk.injEq] at ht
  obtain ⟨-, -, hqueue, -, -⟩ := ht
  exact withinBounds_of_eq (Nat.le_of_eq (by rw [hqueue])) (fun l => Nat.le_of_eq (by rw [hline])) hm

/-- What stays until the host clears it: the detail of the locked records, the pending bits, the entries posted (R22, R162,
R172, R187). -/
structure Keeps (s t : State) : Prop where
  capture : CaptureStep s.capture t.capture
  errorRec : ErrorStep s.errorRec t.errorRec
  pendCommand : s.pendCommand = true → t.pendCommand = true
  pendCapture : s.pendCapture = true → t.pendCapture = true
  pendError : s.pendError = true → t.pendError = true
  pendPool : s.pendPool = true → t.pendPool = true
  pendWindow : s.pendWindow = true → t.pendWindow = true
  entries : s.queue <+: t.queue

theorem Keeps.refl (s : State) : Keeps s s :=
  ⟨.refl _, .refl _, id, id, id, id, id, List.prefix_refl _⟩

theorem Keeps.trans {s t u : State} (h : Keeps s t) (k : Keeps t u) : Keeps s u where
  capture := h.capture.trans k.capture
  errorRec := h.errorRec.trans k.errorRec
  pendCommand hp := k.pendCommand (h.pendCommand hp)
  pendCapture hp := k.pendCapture (h.pendCapture hp)
  pendError hp := k.pendError (h.pendError hp)
  pendPool hp := k.pendPool (h.pendPool hp)
  pendWindow hp := k.pendWindow (h.pendWindow hp)
  entries := h.entries.trans k.entries

theorem LineStep.keeps {l : LineNo} {s t : State} (h : LineStep l s t) : Keeps s t := by
  have hkept := h.kept
  simp only [State.kept, Prod.mk.injEq] at hkept
  obtain ⟨-, -, -, -, -, -, -, -, -, -, -, -, -, -, -, hwindow, -⟩ := hkept
  exact ⟨h.capture, h.errorRec, h.pendCommand, h.pendCapture, h.pendError, h.pendPool, fun hp => hwindow.trans hp, h.entries⟩

/-- What a command that acts on the host's side alone does. -/
structure HostStep (s t : State) : Prop where
  traffic : t.traffic = s.traffic := by rfl
  mem : t.mem = s.mem := by rfl
  pending : t.pending = s.pending := by rfl
  capture : t.capture = s.capture := by rfl
  errorRec : t.errorRec = s.errorRec := by rfl
  completed : t.pendCommand = true := by rfl
  pendCapture : t.pendCapture = s.pendCapture := by rfl
  pendError : t.pendError = s.pendError := by rfl
  pendPool : t.pendPool = s.pendPool := by rfl
  pendWindow : t.pendWindow = s.pendWindow := by rfl

theorem HostStep.port {s t : State} (h : HostStep s t) : PortOnly s t := ⟨h.traffic, h.mem, h.pending⟩

theorem HostStep.keeps {s t : State} (h : HostStep s t) : Keeps s t := by
  have ht := h.traffic
  simp only [State.traffic, Prod.mk.injEq] at ht
  obtain ⟨-, -, hqueue, -, -⟩ := ht
  refine ⟨?_, ?_, fun _ => h.completed, fun hp => h.pendCapture.trans hp, fun hp => h.pendError.trans hp,
    fun hp => h.pendPool.trans hp, fun hp => h.pendWindow.trans hp, ⟨[], by rw [List.append_nil, hqueue]⟩⟩
  · rw [h.capture]; exact .refl _
  · rw [h.errorRec]; exact .refl _

/-- A command that has to name a line in PARAM0 (R185). -/
theorem withLine_cases (k : LineNo → State → State) (s : State) :
    (∃ l, s.param0.toNat = l.val ∧ withLine k s = k l s) ∨ withLine k s = complete .badParam s := by
  cases hl : lineOf s.param0 with
  | none => exact .inr (withLine_no_line (lineOf_eq_none_iff.mp hl))
  | some l => exact .inl ⟨l, lineOf_eq_some_iff.mp hl, withLine_of_line (lineOf_eq_some_iff.mp hl)⟩

theorem withMatch_cases (k : MatchNo → State → State) (s : State) :
    (∃ n, withMatch k s = k n s) ∨ withMatch k s = complete .badParam s := by
  cases hn : matchOf s.param0 with
  | none => exact .inr (withMatch_no_entry (matchOf_eq_none_iff.mp hn))
  | some n => exact .inl ⟨n, withMatch_of_entry (matchOf_eq_some_iff.mp hn)⟩

theorem HostStep.withLine {k : LineNo → State → State} {s : State} (h : ∀ l, HostStep s (k l s)) :
    HostStep s (withLine k s) := by
  obtain ⟨l, -, hl⟩ | hl := withLine_cases k s <;> rw [hl]
  · exact h l
  · exact {}

theorem HostStep.withMatch {k : MatchNo → State → State} {s : State} (h : ∀ n, HostStep s (k n s)) :
    HostStep s (withMatch k s) := by
  obtain ⟨n, hn⟩ | hn := withMatch_cases k s <;> rw [hn]
  · exact h n
  · exact {}

/-- The command of a code is an operation of one line or of the host's side alone, or it is one of those that act beside
them. -/
inductive CommandResult (code : Byte) (s : State) : State → Prop
  | host {t : State} (h : HostStep s t) : CommandResult code s t
  | line {t : State} (l : LineNo) (hfit : FitStep l s t) (hstep : LineStep l s t) : CommandResult code s t
  | openBlock : CommandResult code s (cmdOpenBlock s)
  | closeBlock : CommandResult code s (cmdCloseBlock s)
  | discardBlock : CommandResult code s (cmdDiscardBlock s)
  | releaseHead (hcode : code.toNat = 0x18) : CommandResult code s (cmdReleaseHead s)
  | configure (coding : Byte → Byte → Byte → LineConfig → Option LineConfig) : CommandResult code s (cmdConfigure coding s)
  | enableLine : CommandResult code s (cmdEnableLine s)
  | restartLine : CommandResult code s (cmdRestartLine s)
  | disableLine : CommandResult code s (cmdDisableLine s)
  | clearCapture (hcode : code.toNat = 0x59) : CommandResult code s (cmdClearCapture s)
  | readAndClear : CommandResult code s (cmdReadAndClearLineCounters s)
  | clearErrorRecord (hcode : code.toNat = 0x65) : CommandResult code s (cmdClearErrorRecord s)

section commands

variable (code : Byte) (s : State)

theorem CommandResult.setPoolLimits : CommandResult code s (cmdSetPoolLimits s) := by
  unfold cmdSetPoolLimits
  split <;> exact .host {}

theorem CommandResult.getLineConfig : CommandResult code s (cmdGetLineConfig s) := by
  refine .host (.withLine fun l => ?_)
  split <;> exact {}

/-- What HALT, RESUME and FLUSH LINE do on an ENABLED line decides what they are (R82, R83, R85). -/
theorem CommandResult.onEnabled {k : LineNo → State → State}
    (h : ∀ l, FitStep l s (k l s) ∧ LineStep l s (k l s)) : CommandResult code s (withLine (onEnabled k) s) := by
  obtain ⟨l, -, hl⟩ | hl := withLine_cases (Machine.onEnabled k) s <;> rw [hl]
  · unfold Machine.onEnabled
    split
    · exact .host {}
    · exact .host {}
    · exact .host {}
    · exact .line l (h l).1 (h l).2
  · exact .host {}

/-- HALT LINE on an ENABLED line: the two relations (R82). -/
theorem haltLine_steps (l : LineNo) : FitStep l s (complete .ok (requestHalt l s)) ∧
    LineStep l s (complete .ok (requestHalt l s)) :=
  ⟨(FitStep.requestHalt l s).trans (.complete l _), (LineStep.requestHalt l s).trans (.complete l _)⟩

/-- What RESUME LINE does on an ENABLED line, its completion apart (R83). -/
def resumed (l : LineNo) (s : State) : State :=
  if (s.line l).tx.state = .halted then nextStepChoice l s else s.updTx l fun t => { t with haltRequest := false }

theorem resumeLine_steps (l : LineNo) : FitStep l s (complete .ok (resumed l s)) ∧
    LineStep l s (complete .ok (resumed l s)) := by
  unfold resumed
  split
  · next hst =>
    refine ⟨(FitStep.nextStepChoice l s fun hfit => ?_).trans (.complete l _),
      (LineStep.nextStepChoice l s).trans (.complete l _)⟩
    exact txFree_of_state hfit (by simp [hst]) (by simp [hst])
  · exact ⟨(FitStep.updTx l s).trans (.complete l _), (LineStep.updTx l s rfl).trans (.complete l _)⟩

/-- What FLUSH LINE does on an ENABLED line (R85). -/
def flushed (l : LineNo) (s : State) : State :=
  if ((flush l s).line l).tx.flushDue then { flush l s with busy := some (.flush l) } else complete .ok (flush l s)

theorem LineStep.busy (l : LineNo) (b : Option BusyCommand) : LineStep l s { s with busy := b } := {}

theorem flushLine_steps (l : LineNo) : FitStep l s (flushed l s) ∧ LineStep l s (flushed l s) := by
  unfold flushed
  split
  · exact ⟨(FitStep.flush l s).trans (.other l rfl), (LineStep.flush l s).trans (.busy _ l _)⟩
  · exact ⟨(FitStep.flush l s).trans (.complete l _), (LineStep.flush l s).trans (.complete l _)⟩

theorem cmdHaltLine_eq : cmdHaltLine = withLine (onEnabled fun l s => complete .ok (requestHalt l s)) := rfl

theorem cmdResumeLine_eq : cmdResumeLine = withLine (onEnabled fun l s => complete .ok (resumed l s)) := rfl

theorem cmdFlushLine_eq : cmdFlushLine = withLine (onEnabled flushed) := rfl

theorem CommandResult.setModemOutputs : CommandResult code s (cmdSetModemOutputs s) := by
  unfold cmdSetModemOutputs
  obtain ⟨l, -, hl⟩ | hl := withLine_cases _ s <;> rw [hl]
  · simp only
    split
    · exact .host {}
    split
    · exact .host {}
    split
    · exact .host {}
    split
    · exact .host {}
    · exact .line l ((FitStep.updFlow l s).trans (.complete l _)) ((LineStep.updFlow l s).trans (.complete l _))
  · exact .host {}

theorem CommandResult.setMatchEntry : CommandResult code s (cmdSetMatchEntry s) := by
  unfold cmdSetMatchEntry
  split <;> exact .host {}

theorem CommandResult.readMatchEntry : CommandResult code s (cmdReadMatchEntry s) := by
  refine .host (.withMatch fun n => ?_)
  simp only
  split
  · exact {}
  split
  · exact {}
  split
  · split <;> exact {}
  · exact {}

theorem CommandResult.readCapture : CommandResult code s (cmdReadCapture s) := by
  unfold cmdReadCapture
  simp only
  split
  · exact .host {}
  split <;> exact .host {}

theorem CommandResult.setErrorOptions : CommandResult code s (cmdSetErrorOptions s) := by
  unfold cmdSetErrorOptions
  split <;> exact .host {}

/-- Every accepted command, by its code. -/
theorem CommandResult.commandOf : CommandResult code s (commandOf code s) := by
  suffices h : ∀ f, Machine.commandOf code = f → CommandResult code s (f s) from h _ rfl
  intro f hf
  unfold Machine.commandOf at hf
  split at hf <;> subst hf
  · exact .openBlock
  · exact .closeBlock
  · exact .discardBlock
  · exact .releaseHead ‹_›
  · exact .host {}
  · exact .setPoolLimits code s
  · exact .host {}
  · exact .configure _
  · exact .configure _
  · exact .configure _
  · exact .configure _
  · exact .configure _
  · exact .configure _
  · exact .getLineConfig code s
  · exact .enableLine
  · exact .restartLine
  · exact .disableLine
  · exact .host (.withLine fun _ => {})
  · exact .onEnabled code s (haltLine_steps s)
  · exact .onEnabled code s (resumeLine_steps s)
  · exact .onEnabled code s (flushLine_steps s)
  · exact .setModemOutputs code s
  · exact .host (.withLine fun _ => {})
  · exact .setMatchEntry code s
  · exact .host (.withMatch fun _ => {})
  · exact .host (.withMatch fun _ => {})
  · exact .host (.withMatch fun _ => {})
  · exact .readMatchEntry code s
  · exact .readCapture code s
  · exact .clearCapture ‹_›
  · exact .host (.withLine fun _ => {})
  · exact .readAndClear
  · exact .host {}
  · exact .host {}
  · exact .host {}
  · exact .clearErrorRecord ‹_›
  · exact .setErrorOptions code s
  · exact .host {}

end commands

/-! ## What a row does -/

/-- A command row is the host's write of its code (section 10.3). -/
theorem exec_commandRow {p : Byte × Instr} (h : p ∈ Claims.commandRows) (s : State) :
    exec p.2 s = .next (hostCommand (commandOf p.1) s) := by
  simp only [Claims.commandRows, List.cons_append, List.nil_append, List.mem_cons, List.not_mem_nil, or_false] at h
  rcases h with rfl | rfl | rfl | rfl | rfl | rfl | rfl | rfl | rfl | rfl | rfl | rfl | rfl | rfl | rfl | rfl | rfl | rfl |
    rfl | rfl | rfl | rfl | rfl | rfl | rfl | rfl | rfl | rfl | rfl | rfl | rfl | rfl | rfl | rfl | rfl | rfl | rfl <;> rfl

/-- What a row makes of a state: nothing, something that only the host sees, an accepted command, a character of the open
block, an operation of a line, a grant, one of the resets. -/
inductive RowResult (s : State) : State → Prop
  | same : RowResult s s
  | port {t : State} (h : PortOnly s t) : RowResult s t
  | command (code : Byte) (h : s.busy = none) : RowResult s (commandOf code { s with commandLost := false })
  | txdata (v : Byte) : RowResult s (writeTxdata v s)
  | line {t : State} (l : LineNo) (hfit : FitStep l s t) (hstep : TakeStep l s t) : RowResult s t
  | grant : RowResult s (postGrant s)
  | softReset : RowResult s (cmdSoftReset s)
  | hardwareReset : RowResult s (hardwareReset s)

section rows

variable {s : State}

theorem RowResult.unlessReset {f : State → State} (h : RowResult s (f s)) : RowResult s (unlessReset f s) := by
  unfold Machine.unlessReset
  split
  · exact .same
  · exact h

theorem RowResult.hostCommand (code : Byte) : RowResult s (hostCommand (Machine.commandOf code) s) := by
  unfold Machine.hostCommand
  split
  · exact .same
  split
  · exact .port ⟨rfl, rfl, rfl⟩
  · next h => exact .command code (by simpa using h)

theorem RowResult.commandWrite (code : Byte) : RowResult s (commandWrite code s) := by
  unfold Machine.commandWrite
  split
  · exact .unlessReset .softReset
  · exact .hostCommand code

theorem RowResult.writeRegister (address : BitVec 4) (v : Byte) : RowResult s (writeRegister address v s) := by
  unfold Machine.writeRegister
  split
  · exact .commandWrite v
  · exact .unlessReset (.port ⟨rfl, rfl, rfl⟩)
  · exact .unlessReset (.port ⟨rfl, rfl, rfl⟩)
  · exact .unlessReset (.port ⟨rfl, rfl, rfl⟩)
  · exact .unlessReset (.port ⟨rfl, rfl, rfl⟩)
  · exact .unlessReset (.txdata v)
  · exact .unlessReset (.port ⟨rfl, rfl, rfl⟩)
  · exact .unlessReset (.port ⟨rfl, rfl, rfl⟩)
  · exact .same

theorem RowResult.rxdataRead : RowResult s (if s.resetHeld then { s with readData := 0 } else rxdataRead s) := by
  split
  · exact .port ⟨rfl, rfl, rfl⟩
  · unfold Machine.rxdataRead
    split <;> exact .port ⟨rfl, rfl, rfl⟩

/-- A command row does what its code does. -/
theorem RowResult.ofCommandRow {c : Instr} (h : c ∈ Claims.commandRows.map Prod.snd) {t : State}
    (he : exec c s = .next t) : RowResult s t := by
  obtain ⟨p, hp, rfl⟩ := List.mem_map.mp h
  rw [exec_commandRow hp] at he
  cases he
  exact .hostCommand p.1

/-- What a row of line `l` does: an operation of the line, which stores a character only where the assembler takes one. -/
def EventStep (c : Instr) (l : LineNo) (s t : State) : Prop :=
  FitStep l s t ∧ TakeStep l s t ∧ (c ≠ .assemblerTake l → LineStep l s t)

theorem EventStep.refl (c : Instr) (l : LineNo) (s : State) : EventStep c l s s :=
  ⟨.refl l s, .inl (.refl l s), fun _ => .refl l s⟩

theorem EventStep.ofLine {c : Instr} {l : LineNo} {f : State → State} (hfit : FitStep l s (f s)) (hstep : LineStep l s (f s)) :
    EventStep c l s (Machine.unlessReset f s) := by
  unfold Machine.unlessReset
  split
  · exact .refl c l s
  · exact ⟨hfit, .inl hstep, fun _ => hstep⟩

theorem EventStep.ofTake {l : LineNo} : EventStep (.assemblerTake l) l s (Machine.unlessReset (assemblerTake l) s) := by
  unfold Machine.unlessReset
  split
  · exact .refl _ l s
  · exact ⟨.assemblerTake l s, .assemblerTake l s, fun h => absurd rfl h⟩

/-- Every row that is a step of one line. -/
theorem eventStep_of_exec {c : Instr} {l : LineNo} {t : State} (hl : Claims.lineOfEvent c = some l)
    (h : exec c s = .next t) : EventStep c l s t := by
  cases c
  case arrival k f => cases hl; cases h; exact .ofLine (.arrival l s) (.arrival l s)
  case qualifiedChange k i v => cases hl; cases h; exact .ofLine (.sampleInput l s) (.sampleInput l s)
  case leadEnd k => cases hl; cases h; exact .ofLine (.leadEnd l s) (.leadEnd l s)
  case breakTimerExpiry k => cases hl; cases h; exact .ofLine (.breakTimerExpiry l s) (.breakTimerExpiry l s)
  case breakEnd k => cases hl; cases h; exact .ofLine (.breakEnd l s) (.breakEnd l s)
  case trailEnd k => cases hl; cases h; exact .ofLine (.trailEnd l s) (.trailEnd l s)
  case holdExpiry k => cases hl; cases h; exact .ofLine (.holdExpiry l s) (.holdExpiry l s)
  case idleExpiry k => cases hl; cases h; exact .ofLine (.idleExpiry l s) (.idleExpiry l s)
  case characterBoundary k => cases hl; cases h; exact .ofLine (.characterBoundary l s) (.characterBoundary l s)
  case assemblerTake k => cases hl; cases h; exact .ofTake
  case frameStart k => cases hl; cases h; exact .ofLine (.frameStart l s) (.frameStart l s)
  case frameAbandonedAsNoise k => cases hl; cases h; exact .ofLine (.frameAbandoned l s) (.frameAbandoned l s)
  case rxdReturnsToMark k => cases hl; cases h; exact .ofLine (.rxdAtMark l s) (.rxdAtMark l s)
  case modemInputSample k a b => cases hl; cases h; exact .ofLine (.sampleInputs l s) (.sampleInputs l s)
  all_goals cases hl

/-- Every row, by what it does. -/
theorem rowResult_of_exec {c : Instr} {t : State} (h : exec c s = .next t) : RowResult s t := by
  by_cases hev : ∃ l, Claims.lineOfEvent c = some l
  · obtain ⟨l, hl⟩ := hev
    obtain ⟨hfit, hstep, -⟩ := eventStep_of_exec hl h
    exact .line l hfit hstep
  · cases c
    case softReset => cases h; exact .unlessReset .softReset
    case badCommand code => cases h; exact .commandWrite code
    case commandLost code => cases h; exact .commandWrite code
    case txdataWrite v => cases h; exact .unlessReset (.txdata v)
    case rxdataRead => cases h; exact .rxdataRead
    case intpendWrite v => cases h; exact .unlessReset (.port ⟨rfl, rfl, rfl⟩)
    case intenWrite v => cases h; exact .unlessReset (.port ⟨rfl, rfl, rfl⟩)
    case registerWrite a v => cases h; exact .writeRegister a v
    case hardwareReset => cases h; exact .hardwareReset
    case resetEnd => cases h; exact .port ⟨rfl, rfl, rfl⟩
    case postGrant => cases h; exact .unlessReset .grant
    all_goals first | exact absurd ⟨_, rfl⟩ hev | exact .ofCommandRow (by decide) h

end rows

/-- A step on an empty queue is a tick, any other the front row on the rest of the queue (log 2). -/
theorem step_cases {s t : State} (h : step s = .next t) : t = tick s ∨ ∃ rest, RowResult { s with pending := rest } t := by
  unfold step at h
  split at h
  · cases h
    exact .inl rfl
  · exact .inr ⟨_, rowResult_of_exec h⟩

end Sys2Proof.Machine
end

section
/-! PROOFS. The properties of a state that every step keeps (Safety), by what each row does. -/

namespace Sys2Proof.Machine

/-! ## Commands that act beside the lines -/

section specials

variable (s : State)

theorem cmdOpenBlock_cases : (∃ r, cmdOpenBlock s = complete r s) ∨
    ∃ l d tag report units, openRefusal s l = none ∧ s.lowestFree = some d ∧
      cmdOpenBlock s = complete .ok (openWindow l d tag report units s) := by
  unfold cmdOpenBlock
  split
  · next l report _ _ =>
    split
    · exact .inl ⟨_, rfl⟩
    · next hr =>
      split
      · next d hd => exact .inr ⟨l, d, _, report, _, hr, hd, rfl⟩
      · exact .inl ⟨_, rfl⟩
  · exact .inl ⟨_, rfl⟩

/-- What OPEN BLOCK's checks leave (R49): no window, an ENABLED line below its quota. -/
theorem openRefusal_none {l : LineNo} (h : openRefusal s l = none) :
    s.window = none ∧ (s.line l).state = .enabled ∧ (s.line l).tx.queue.length < (s.line l).cfg.quota := by
  unfold openRefusal at h
  split at h
  · cases h
  split at h
  · cases h
  split at h
  · cases h
  split at h
  · cases h
  next hw hdis hbusy hquota =>
  refine ⟨by simpa using hw, ?_, by omega⟩
  cases hst : (s.line l).state <;> simp_all

/-- The open block is QUEUED at the tail of its line's queue (R58), before the choice that follows. -/
def committed (d : DescNo) (s : State) : State :=
  { (s.setDesc d { s.desc d with phase := .queued }).updTx (s.desc d).line fun t => { t with queue := t.queue ++ [d] } with
    window := none, blockFull := false }

theorem cmdCloseBlock_cases : cmdCloseBlock s = complete .noWindow s ∨
    ∃ d, s.window = some d ∧ cmdCloseBlock s = complete .ok (commitChoice (s.desc d).line (committed d s)) := by
  unfold cmdCloseBlock
  split
  · exact .inl rfl
  · next d hd => exact .inr ⟨d, hd, rfl⟩

/-- The open block leaves the window without being committed: its cells are returned and its descriptor is FREE (R60,
R61). -/
def dropWindow (d : DescNo) (s : State) : State := { freeDesc d (returnCells (s.desc d).cells s) with window := none }

theorem cmdDiscardBlock_cases : cmdDiscardBlock s = complete .noWindow s ∨
    ∃ d, s.window = some d ∧ PortOnly (dropWindow d s) (cmdDiscardBlock s) := by
  unfold cmdDiscardBlock
  split
  · exact .inl rfl
  · next d hd => exact .inr ⟨d, hd, rfl, rfl, rfl⟩

/-- The window is lost where the open block is on the line (R61). -/
theorem loseWindow_eq (l : LineNo) :
    (loseWindow l s = s ∧ ∀ d, s.window = some d → (s.desc d).line ≠ l) ∨
    ∃ d, s.window = some d ∧ (s.desc d).line = l ∧ loseWindow l s =
      { s.setDesc d .unused with freeList := s.freeList ++ (s.desc d).cells, window := none, blockFull := false
                                 windowLost := true, pendWindow := true } := by
  unfold loseWindow
  split
  · next d hd =>
    split
    · next hl => exact .inr ⟨d, hd, hl, rfl⟩
    · next hl => exact .inl ⟨rfl, fun e he => by simp_all⟩
  · next hw => exact .inl ⟨rfl, fun e he => by simp [hw] at he⟩

theorem loseWindow_cases (l : LineNo) :
    (loseWindow l s = s ∧ ∀ d, s.window = some d → (s.desc d).line ≠ l) ∨
    ∃ d, s.window = some d ∧ (s.desc d).line = l ∧ PortOnly (dropWindow d s) (loseWindow l s) := by
  obtain h | ⟨d, hd, hl, he⟩ := loseWindow_eq s l
  · exact .inl h
  · exact .inr ⟨d, hd, hl, by rw [he]; exact ⟨rfl, rfl, rfl⟩⟩

theorem line_loseWindow (l k : LineNo) : (loseWindow l s).line k = s.line k := by
  obtain ⟨h, -⟩ | ⟨d, -, -, h⟩ := loseWindow_cases s l
  · rw [h]
  · exact line_of_traffic h.1 k

theorem cmdReleaseHead_cases : cmdReleaseHead s = complete .empty s ∨
    ∃ e rest, s.queue = e :: rest ∧ cmdReleaseHead s = complete .ok (postGrant (dropHeadEntry e rest s)) := by
  unfold cmdReleaseHead
  split
  · exact .inl rfl
  · next e rest hq => exact .inr ⟨e, rest, hq, rfl⟩

/-- A configuration command changes the configuration of a DISABLED line with an empty queue (R140), or nothing. -/
theorem cmdConfigure_cases (coding : Byte → Byte → Byte → LineConfig → Option LineConfig) :
    HostStep s (cmdConfigure coding s) ∨ ∃ l cfg, (s.line l).state = .disabled ∧ (s.line l).tx.queue = [] ∧
      cmdConfigure coding s = complete .ok (s.setLine l { s.line l with cfg := cfg }) := by
  unfold cmdConfigure
  obtain ⟨l, -, hl⟩ | hl := withLine_cases _ s <;> rw [hl]
  · split
    · exact .inl {}
    · next cfg _ =>
      split
      · exact .inl {}
      · exact .inl {}
      · exact .inl {}
      · next hst =>
        split
        · next hq => exact .inr ⟨l, cfg, hst, by simpa using hq, rfl⟩
        · exact .inl {}
  · exact .inl {}

theorem cmdEnableLine_cases : HostStep s (cmdEnableLine s) ∨ ∃ l, (s.line l).state = .disabled ∧
    cmdEnableLine s = complete .ok (s.setLine l (enabledLine (s.line l))) := by
  unfold cmdEnableLine
  obtain ⟨l, -, hl⟩ | hl := withLine_cases _ s <;> rw [hl]
  · split
    · exact .inl {}
    · exact .inl {}
    · exact .inl {}
    · next hst => exact .inr ⟨l, hst, rfl⟩
  · exact .inl {}

theorem port_cmdClearCapture : PortOnly s (cmdClearCapture s) := by
  unfold cmdClearCapture
  split <;> exact ⟨rfl, rfl, rfl⟩

theorem port_cmdClearErrorRecord : PortOnly s (cmdClearErrorRecord s) := by
  unfold cmdClearErrorRecord
  split <;> exact ⟨rfl, rfl, rfl⟩

/-- READ AND CLEAR LINE COUNTERS returns the counters and clears them (R176). -/
theorem cmdReadAndClearLineCounters_cases : HostStep s (cmdReadAndClearLineCounters s) ∨
    ∃ l, cmdReadAndClearLineCounters s =
      (returnCounters l s).setLine l { (returnCounters l s).line l with counters := .zero } := by
  unfold cmdReadAndClearLineCounters
  obtain ⟨l, -, hl⟩ | hl := withLine_cases _ s <;> rw [hl]
  · exact .inr ⟨l, rfl⟩
  · exact .inl {}

/-! ## Restart and disable -/

theorem LineStep.acceptTransmitter (l : LineNo) : LineStep l s (acceptTransmitter l s) := by
  have h : LineStep l s (s.updTx l stoppedTransmitter) := .updTx l s rfl
  unfold Machine.acceptTransmitter
  generalize s.updTx l stoppedTransmitter = u at h ⊢
  simp only
  split
  · exact (h.trans (.finishBlocks l _)).trans (.handleFront l _)
  · exact (h.trans (.finishBlocks l _)).trans (.handleFront l _)

theorem LineStep.acceptReceiver (l : LineNo) : LineStep l s (acceptReceiver l s) := by
  rw [acceptReceiver_eq]
  refine (LineStep.returnCells l s).trans (.setLine l _ rfl (List.suffix_refl _) (fun _ => Nat.zero_le _) ?_)
  exact ⟨BitVec.le_refl _, BitVec.le_refl _, BitVec.le_refl _, BitVec.le_trans (le_satAdd _ _) (le_satAdd _ _)⟩

theorem LineStep.acceptParts (st : LineState) (l : LineNo) : LineStep l s (acceptParts st l s) := by
  have hstate : LineStep l s (s.setLine l { s.line l with state := st }) := .setLine l s rfl (List.suffix_refl _) id
  exact ((hstate.trans (.acceptTransmitter _ l)).trans (.acceptReceiver _ l)).trans
    (.setLine l _ rfl (List.suffix_refl _) id)

/-- What an accepted restart or disable does to an ENABLED line, once the window has been taken from it (R145, R146). -/
structure Leaves (l : LineNo) (s t : State) : Prop where
  enabled : (s.line l).state = .enabled
  traffic : TrafficStep l s t
  bounds : LineStep l s t
  fits : lineFits (s.line l) → lineFits (t.line l)

theorem Leaves.busy {l : LineNo} {t : State} (h : Leaves l s t) (b : Option BusyCommand) :
    Leaves l s { t with busy := b } :=
  ⟨h.enabled, h.traffic.trans (.other l rfl), h.bounds.trans (.busy t l b), h.fits⟩

theorem leaves_accepted {st : LineState} {l : LineNo} (hen : (s.line l).state = .enabled)
    (hst : st = .restarting ∨ st = .disabling) (hfl : ((acceptParts st l s).line l).tx.inFlight.isSome) :
    Leaves l s (acceptParts st l s) := by
  have hsame := SameBut.acceptParts l s st
  refine ⟨hen, .acceptParts l s st, .acceptParts s st l, fun hfit => ?_⟩
  rw [hsame.lineFits]
  rw [hsame.inFlight] at hfl
  refine ⟨⟨rfl, rfl⟩, fun h => ((lineFits_enabled_iff hen).mp hfit).2.1 h, ?_⟩
  obtain rfl | rfl := hst <;> exact ⟨hfl, rfl, rfl⟩

theorem leaves_restarted {l : LineNo} (hen : (s.line l).state = .enabled)
    (hfl : ((acceptParts .restarting l s).line l).tx.inFlight = none) :
    Leaves l s (completeRestart l (acceptParts .restarting l s)) := by
  have hsame := SameBut.acceptParts l s .restarting
  refine ⟨hen, (TrafficStep.acceptParts l s _).trans (.completeRestart l _),
    (LineStep.acceptParts s _ l).trans (.completeRestart l _), fun _ => lineFits_completeRestart l _ ?_ ?_ hfl⟩
  · rw [hsame.rx]; exact ⟨rfl, rfl⟩
  · rw [hsame.rx]; exact RxState.noConfusion

theorem leaves_disabled {l : LineNo} (hen : (s.line l).state = .enabled)
    (hfl : ((acceptParts .disabling l s).line l).tx.inFlight = none) :
    Leaves l s (completeDisable l (acceptParts .disabling l s)) := by
  have hsame := SameBut.acceptParts l s .disabling
  refine ⟨hen, (TrafficStep.acceptParts l s _).trans (.completeDisable l _),
    (LineStep.acceptParts s _ l).trans (.completeDisable l _), fun _ => lineFits_completeDisable l _ ?_ ?_ ?_ hfl⟩ <;>
  · rw [hsame.rx]; rfl

/-- RESTART LINE on an ENABLED line whose window has been taken (R145 to R148). -/
def restartFrom (l : LineNo) (s : State) : State :=
  if ((acceptParts .restarting l s).line l).tx.inFlight.isSome then
    { acceptParts .restarting l s with busy := some (.restart l) }
  else completeRestart l (acceptParts .restarting l s)

/-- DISABLE LINE on an ENABLED line whose window has been taken (R145 to R147, R149). -/
def disableFrom (l : LineNo) (s : State) : State :=
  if ((acceptParts .disabling l s).line l).tx.inFlight.isSome then
    { acceptParts .disabling l s with busy := some (.disable l) }
  else completeDisable l (acceptParts .disabling l s)

theorem leaves_restartFrom {l : LineNo} (hen : (s.line l).state = .enabled) : Leaves l s (restartFrom l s) := by
  unfold restartFrom
  split
  · next hfl => exact (leaves_accepted s hen (.inl rfl) hfl).busy s _
  · next hfl => exact leaves_restarted s hen (by simpa using hfl)

theorem leaves_disableFrom {l : LineNo} (hen : (s.line l).state = .enabled) : Leaves l s (disableFrom l s) := by
  unfold disableFrom
  split
  · next hfl => exact (leaves_accepted s hen (.inr rfl) hfl).busy s _
  · next hfl => exact leaves_disabled s hen (by simpa using hfl)

/-- RESTART LINE on the line that it names. -/
def restartOn (l : LineNo) (s : State) : State :=
  match (s.line l).state with
  | .restarting | .disabling => complete .lineBusy s
  | .disabled => complete .lineDisabled s
  | .enabled => restartFrom l (loseWindow l s)

/-- DISABLE LINE on the line that it names. -/
def disableOn (l : LineNo) (s : State) : State :=
  match (s.line l).state with
  | .restarting | .disabling => complete .lineBusy s
  | .disabled => complete .ok s
  | .enabled => disableFrom l (loseWindow l s)

theorem cmdRestartLine_eq : cmdRestartLine = withLine restartOn := rfl

theorem cmdDisableLine_eq : cmdDisableLine = withLine disableOn := rfl

theorem restartOn_cases (l : LineNo) : (∃ r, restartOn l s = complete r s) ∨ Leaves l (loseWindow l s) (restartOn l s) := by
  unfold restartOn
  split
  · exact .inl ⟨_, rfl⟩
  · exact .inl ⟨_, rfl⟩
  · exact .inl ⟨_, rfl⟩
  · next hen => exact .inr (leaves_restartFrom _ (by rw [line_loseWindow]; exact hen))

theorem disableOn_cases (l : LineNo) : (∃ r, disableOn l s = complete r s) ∨ Leaves l (loseWindow l s) (disableOn l s) := by
  unfold disableOn
  split
  · exact .inl ⟨_, rfl⟩
  · exact .inl ⟨_, rfl⟩
  · exact .inl ⟨_, rfl⟩
  · next hen => exact .inr (leaves_disableFrom _ (by rw [line_loseWindow]; exact hen))

theorem cmdRestartLine_cases : HostStep s (cmdRestartLine s) ∨ ∃ l, Leaves l (loseWindow l s) (cmdRestartLine s) := by
  rw [cmdRestartLine_eq]
  obtain ⟨l, -, hl⟩ | hl := withLine_cases restartOn s <;> rw [hl]
  · obtain ⟨r, he⟩ | h := restartOn_cases s l
    · rw [he]; exact .inl {}
    · exact .inr ⟨l, h⟩
  · exact .inl {}

theorem cmdDisableLine_cases : HostStep s (cmdDisableLine s) ∨ ∃ l, Leaves l (loseWindow l s) (cmdDisableLine s) := by
  rw [cmdDisableLine_eq]
  obtain ⟨l, -, hl⟩ | hl := withLine_cases disableOn s <;> rw [hl]
  · obtain ⟨r, he⟩ | h := disableOn_cases s l
    · rw [he]; exact .inl {}
    · exact .inr ⟨l, h⟩
  · exact .inl {}

end specials

end Sys2Proof.Machine
end

section
/-! PROOFS. The properties of a state that every step keeps (Safety). -/

namespace Sys2Proof.Machine

/-! ## The bounds of R21 and R101 -/

section bounds

variable {s : State}

theorem LineStep.grantChanges {l : LineNo} (h : s.slotFree = true) : LineStep l s (grantChanges l s) := by
  unfold Machine.grantChanges
  generalize lineEventOf s l (s.line l).changes = e
  have hclear := LineStep.setLine l (Machine.postEntry e s) (ln := { (Machine.postEntry e s).line l with changes := .empty })
    rfl (List.suffix_refl _) id
  simp only [line_postEntry] at hclear
  exact (LineStep.postEntry l s h).trans hclear

theorem LineStep.grantRecord {l : LineNo} (h : s.slotFree = true) : LineStep l s (grantRecord l s) := by
  unfold Machine.grantRecord
  split
  · exact (LineStep.postRecord l s h).trans (.uncongestIfClear l _)
  · exact .refl l s

theorem LineStep.grantLine {l : LineNo} (h : s.slotFree = true) : LineStep l s (grantLine l s) := by
  unfold Machine.grantLine
  split
  · exact .grantChanges h
  · split
    · exact .handleFront l s
    · exact .grantRecord h

theorem LineStep.grantMatch (l : LineNo) (h : s.slotFree = true) : LineStep l s (grantMatch s) := by
  unfold Machine.grantMatch
  split
  · next n _ =>
    split
    · exact (LineStep.setMatch l s (m := { s.matchEntry n with pendingPost := none }) rfl).trans (.postEntry l _ h)
    · exact .refl l s
  · exact .refl l s

theorem withinBounds_grantTo (src : SourceNo) (hfree : s.slotFree = true) (h : withinBounds s) : withinBounds (grantTo src s) := by
  unfold grantTo
  split
  · exact (LineStep.grantLine hfree).withinBounds h
  · exact (LineStep.grantMatch 0 hfree).withinBounds h

theorem withinBounds_postGrant (h : withinBounds s) : withinBounds (postGrant s) := by
  unfold postGrant
  split
  · next hfree =>
    split
    · exact withinBounds_of_eq (Nat.le_refl _) (fun _ => Nat.le_refl _) rfl (withinBounds_grantTo _ hfree h)
    · exact h
  · exact h

theorem line_reset (l : LineNo) : State.reset.line l = Line.reset := by simp [State.line, State.reset]

theorem withinBounds_reset : withinBounds State.reset :=
  ⟨Nat.zero_le _, fun l => by rw [line_reset]; exact Nat.zero_le _, rfl⟩

theorem withinBounds_hardwareReset : withinBounds (hardwareReset s) := withinBounds_reset

theorem line_cmdSoftReset (l : LineNo) : (cmdSoftReset s).line l = softLine (s.line l) := line_mapLines s l softLine

theorem withinBounds_cmdSoftReset (h : withinBounds s) : withinBounds (cmdSoftReset s) :=
  ⟨Nat.zero_le _, fun l => by rw [line_cmdSoftReset]; exact Nat.zero_le _, h.2.2⟩

theorem withinBounds_acceptByte {d : DescNo} {v : Byte} (h : withinBounds s) : withinBounds (acceptByte d v s) :=
  withinBounds_of_eq (s := storeChar (s.desc d).cells (s.desc d).length v s) (Nat.le_refl _) (fun _ => Nat.le_refl _) rfl
    (withinBounds_storeChar h)

theorem withinBounds_writeTxdata {v : Byte} (h : withinBounds s) : withinBounds (writeTxdata v s) := by
  unfold writeTxdata
  split
  · exact h
  · simp only
    split
    · exact h
    split
    · split
      · next hc =>
        obtain ⟨rest, -, -, rfl⟩ := takeCell_eq_some hc
        exact withinBounds_acceptByte h
      · exact h
    · exact withinBounds_acceptByte h

theorem withinBounds_committed {d : DescNo} (h : withinBounds s) : withinBounds (committed d s) := by
  refine withinBounds_of_eq (s := s) (Nat.le_refl _) (fun l => ?_) rfl h
  have hline : (committed d s).line l = (s.setLine (s.desc d).line
    { s.line (s.desc d).line with tx.queue := (s.line (s.desc d).line).tx.queue ++ [d] }).line l := rfl
  rw [hline, line_setLine]
  split
  · next hl => subst hl; exact Nat.le_refl _
  · exact Nat.le_refl _

theorem withinBounds_setLine {l : LineNo} {ln : Line} (hf : ln.rx.fifo.length ≤ (s.line l).rx.fifo.length)
    (h : withinBounds s) : withinBounds (s.setLine l ln) := by
  refine withinBounds_of_eq (s := s) (Nat.le_refl _) (fun k => ?_) rfl h
  rw [line_setLine]
  split
  · next hk => subst hk; exact hf
  · exact Nat.le_refl _

theorem withinBounds_loseWindow (l : LineNo) (h : withinBounds s) : withinBounds (loseWindow l s) := by
  obtain ⟨he, -⟩ | ⟨d, -, -, hp⟩ := loseWindow_cases s l
  · rw [he]; exact h
  · exact hp.withinBounds h

theorem LineStep.commitChoice (l : LineNo) : LineStep l s (commitChoice l s) := by
  unfold Machine.commitChoice
  split
  · simp only
    split
    · exact (LineStep.draw l s).trans (.nextStepChoice l _)
    · exact (LineStep.draw l s).trans (.updTx l _ rfl)
  · exact .choiceIn l s

theorem CommandResult.withinBounds {code : Byte} {t : State} (hr : CommandResult code s t) (h : Machine.withinBounds s) : Machine.withinBounds t := by
  cases hr with
  | host hp => exact hp.port.withinBounds h
  | line l hfit hstep => exact hstep.withinBounds h
  | openBlock =>
    obtain ⟨r, he⟩ | ⟨l, d, tag, report, units, -, -, he⟩ := cmdOpenBlock_cases s <;> rw [he] <;> exact h
  | closeBlock =>
    obtain he | ⟨d, -, he⟩ := cmdCloseBlock_cases s <;> rw [he]
    · exact h
    · exact ((LineStep.commitChoice (s := committed d s) _).trans (.complete _ _)).withinBounds (withinBounds_committed h)
  | discardBlock =>
    obtain he | ⟨d, -, hp⟩ := cmdDiscardBlock_cases s
    · rw [he]; exact h
    · exact hp.withinBounds h
  | releaseHead _ =>
    obtain he | ⟨e, rest, hq, he⟩ := cmdReleaseHead_cases s <;> rw [he]
    · exact h
    · exact withinBounds_postGrant (s := dropHeadEntry e rest s) (withinBounds_of_eq (s := s)
        (by rw [hq]; exact Nat.le_succ _) (fun _ => Nat.le_refl _) rfl h)
  | configure coding =>
    obtain hp | ⟨l, cfg, -, -, he⟩ := cmdConfigure_cases s coding
    · exact hp.port.withinBounds h
    · rw [he]; exact withinBounds_setLine (s := s) (Nat.le_refl _) h
  | enableLine =>
    obtain hp | ⟨l, -, he⟩ := cmdEnableLine_cases s
    · exact hp.port.withinBounds h
    · rw [he]; exact withinBounds_setLine (s := s) (Nat.zero_le _) h
  | restartLine =>
    obtain hp | ⟨l, hl⟩ := cmdRestartLine_cases s
    · exact hp.port.withinBounds h
    · exact hl.bounds.withinBounds (withinBounds_loseWindow l h)
  | disableLine =>
    obtain hp | ⟨l, hl⟩ := cmdDisableLine_cases s
    · exact hp.port.withinBounds h
    · exact hl.bounds.withinBounds (withinBounds_loseWindow l h)
  | clearCapture _ => exact (port_cmdClearCapture s).withinBounds h
  | clearErrorRecord _ => exact (port_cmdClearErrorRecord s).withinBounds h
  | readAndClear =>
    obtain hp | ⟨l, he⟩ := cmdReadAndClearLineCounters_cases s
    · exact hp.port.withinBounds h
    · rw [he]; exact withinBounds_setLine (s := returnCounters l s) (Nat.le_refl _) h

theorem RowResult.withinBounds {t : State} (hr : RowResult s t) (h : Machine.withinBounds s) : Machine.withinBounds t := by
  cases hr with
  | same => exact h
  | port hp => exact hp.withinBounds h
  | command code _ => exact (CommandResult.commandOf code { s with commandLost := false }).withinBounds h
  | txdata v => exact withinBounds_writeTxdata h
  | line l hfit hstep => exact hstep.withinBounds h
  | grant => exact withinBounds_postGrant h
  | softReset => exact withinBounds_cmdSoftReset h
  | hardwareReset => exact withinBounds_hardwareReset

theorem withinBounds_tick (h : withinBounds s) : withinBounds (tick s) := by
  obtain ⟨he, -⟩ | ⟨he, -, -⟩ := tick_cases s <;> rw [he]
  · exact h
  · exact withinBounds_of_eq (s := s) (Nat.le_refl _) (fun l => by rw [line_mapLines]; exact Nat.le_refl _) rfl h

end bounds

/-! ## The line states (R143) -/

section states

variable {s : State}

theorem linesFit_of_line {t : State} {l : LineNo} (hothers : ∀ k, k ≠ l → t.line k = s.line k)
    (hl : lineFits (s.line l) → lineFits (t.line l)) (h : linesFit s) : linesFit t := fun k => by
  by_cases hk : k = l
  · subst hk; exact hl (h k)
  · rw [hothers k hk]; exact h k

theorem linesFit_of_eq {t : State} (hline : ∀ k, t.line k = s.line k) (h : linesFit s) : linesFit t :=
  fun k => hline k ▸ h k

theorem FitStep.linesFit {l : LineNo} {t : State} (h : FitStep l s t) : linesFit s → linesFit t :=
  linesFit_of_line h.others h.fits

theorem Leaves.linesFit {l : LineNo} {t : State} (h : Leaves l s t) : Machine.linesFit s → Machine.linesFit t :=
  linesFit_of_line h.traffic.others h.fits

theorem PortOnly.linesFit {t : State} (h : PortOnly s t) : Machine.linesFit s → Machine.linesFit t :=
  linesFit_of_eq (line_of_traffic h.1)

theorem linesFit_setLine {l : LineNo} {ln : Line} (hl : lineFits (s.line l) → lineFits ln) (h : linesFit s) :
    linesFit (s.setLine l ln) :=
  linesFit_of_line (fun k hk => line_setLine_ne s l k ln hk) (by rw [line_setLine_self]; exact hl) h

/-- The commit's choice is made in TX_IDLE or TX_TRAILING (R72). -/
theorem FitStep.commitChoice (l : LineNo) (s : State) : FitStep l s (commitChoice l s) := by
  unfold Machine.commitChoice
  split
  · next hmeets =>
    have hst : (s.line l).tx.state = .idle ∨ (s.line l).tx.state = .trailing := by
      simp only [meetsDcdFlush, Bool.and_eq_true, decide_eq_true_eq] at hmeets
      exact hmeets.1.1
    simp only
    split
    · refine (FitStep.draw l s).trans (.nextStepChoice l _ fun hfit => txFree_of_state hfit ?_ ?_) <;>
      · show (s.line l).tx.state ≠ _
        obtain h | h := hst <;> rw [h] <;> exact TxState.noConfusion
    · exact (FitStep.draw l s).trans (.updTx l _)
  · exact .choiceIn l s (by decide) (by decide)

theorem line_storeChar (cells : List CellNo) (pos : Nat) (v : Byte) (s : State) (l : LineNo) :
    (storeChar cells pos v s).line l = s.line l := by rw [storeChar_eq]; rfl

theorem line_acceptByte (d : DescNo) (v : Byte) (s : State) (l : LineNo) : (acceptByte d v s).line l = s.line l :=
  line_storeChar _ _ v s l

theorem line_writeTxdata (v : Byte) (s : State) (l : LineNo) : (writeTxdata v s).line l = s.line l := by
  unfold writeTxdata
  split
  · rfl
  · simp only
    split
    · rfl
    split
    · split
      · next hc =>
        obtain ⟨rest, -, -, rfl⟩ := takeCell_eq_some hc
        exact line_acceptByte ..
      · rfl
    · exact line_acceptByte ..

theorem line_committed_self (d : DescNo) : (committed d s).line (s.desc d).line =
    { s.line (s.desc d).line with tx.queue := (s.line (s.desc d).line).tx.queue ++ [d] } :=
  line_setLine_self ..

theorem line_committed_ne (d : DescNo) {k : LineNo} (hk : k ≠ (s.desc d).line) : (committed d s).line k = s.line k :=
  line_setLine_ne _ _ k _ hk

theorem linesFit_committed {d : DescNo} : linesFit s → linesFit (committed d s) :=
  linesFit_of_line (fun _ hk => line_committed_ne d hk) fun h => by
    rw [line_committed_self]
    exact lineFits_of_eq rfl rfl rfl rfl h

theorem linesFit_loseWindow (l : LineNo) : linesFit s → linesFit (loseWindow l s) :=
  linesFit_of_eq (line_loseWindow s l)

theorem linesFit_postGrant (h : linesFit s) : linesFit (postGrant s) := by
  obtain ⟨l, hl⟩ := FitStep.postGrant s
  exact hl.linesFit h

/-- A line that enters ENABLED fits (R144). -/
theorem lineFits_enabledLine {ln : Line} (h : lineFits ln) (hst : ln.state = .disabled) : lineFits (enabledLine ln) := by
  obtain ⟨-, hnone, -, -⟩ := lineFits_disabled h hst
  refine (lineFits_enabled_iff rfl).mpr ⟨⟨rfl, rfl⟩, fun hs => ?_, TxState.noConfusion, RxState.noConfusion⟩
  have hfl : (enabledLine ln).tx.inFlight = ln.tx.inFlight := rfl
  simp [hfl, hnone] at hs

theorem lineFits_reset : lineFits Line.reset := ⟨⟨rfl, rfl⟩, fun h => absurd h (by decide), rfl, rfl, rfl, rfl⟩

theorem linesFit_reset : linesFit State.reset := fun l => line_reset l ▸ lineFits_reset

theorem linesFit_cmdSoftReset : linesFit (cmdSoftReset s) := fun l => by
  rw [line_cmdSoftReset]
  exact lineFits_of_eq (a := Line.reset) rfl rfl rfl rfl lineFits_reset

theorem CommandResult.linesFit {code : Byte} {t : State} (hr : CommandResult code s t) (h : Machine.linesFit s) : Machine.linesFit t := by
  cases hr with
  | host hp => exact hp.port.linesFit h
  | line l hfit _ => exact hfit.linesFit h
  | openBlock =>
    obtain ⟨r, he⟩ | ⟨l, d, tag, report, units, -, -, he⟩ := cmdOpenBlock_cases s <;> rw [he] <;> exact h
  | closeBlock =>
    obtain he | ⟨d, -, he⟩ := cmdCloseBlock_cases s <;> rw [he]
    · exact h
    · exact ((FitStep.commitChoice _ (committed d s)).trans (.complete _ _)).linesFit (linesFit_committed h)
  | discardBlock =>
    obtain he | ⟨d, -, hp⟩ := cmdDiscardBlock_cases s
    · rw [he]; exact h
    · exact hp.linesFit h
  | releaseHead _ =>
    obtain he | ⟨e, rest, -, he⟩ := cmdReleaseHead_cases s <;> rw [he]
    · exact h
    · exact linesFit_postGrant (s := dropHeadEntry e rest s) h
  | configure coding =>
    obtain hp | ⟨l, cfg, -, -, he⟩ := cmdConfigure_cases s coding
    · exact hp.port.linesFit h
    · rw [he]; exact linesFit_setLine (s := s) (lineFits_of_eq rfl rfl rfl rfl) h
  | enableLine =>
    obtain hp | ⟨l, hst, he⟩ := cmdEnableLine_cases s
    · exact hp.port.linesFit h
    · rw [he]; exact linesFit_setLine (s := s) (fun hl => lineFits_enabledLine hl hst) h
  | restartLine =>
    obtain hp | ⟨l, hl⟩ := cmdRestartLine_cases s
    · exact hp.port.linesFit h
    · exact hl.linesFit (linesFit_loseWindow l h)
  | disableLine =>
    obtain hp | ⟨l, hl⟩ := cmdDisableLine_cases s
    · exact hp.port.linesFit h
    · exact hl.linesFit (linesFit_loseWindow l h)
  | clearCapture _ => exact (port_cmdClearCapture s).linesFit h
  | clearErrorRecord _ => exact (port_cmdClearErrorRecord s).linesFit h
  | readAndClear =>
    obtain hp | ⟨l, he⟩ := cmdReadAndClearLineCounters_cases s
    · exact hp.port.linesFit h
    · rw [he]; exact linesFit_setLine (s := returnCounters l s) (lineFits_of_eq rfl rfl rfl rfl) h

theorem RowResult.linesFit {t : State} (hr : RowResult s t) (h : Machine.linesFit s) : Machine.linesFit t := by
  cases hr with
  | same => exact h
  | port hp => exact hp.linesFit h
  | command code _ => exact (CommandResult.commandOf code { s with commandLost := false }).linesFit h
  | txdata v => exact linesFit_of_eq (line_writeTxdata v s) h
  | line l hfit hstep => exact hfit.linesFit h
  | grant => exact linesFit_postGrant h
  | softReset => exact linesFit_cmdSoftReset
  | hardwareReset => exact linesFit_reset

theorem linesFit_tick (h : linesFit s) : linesFit (tick s) := by
  obtain ⟨he, -⟩ | ⟨he, -, -⟩ := tick_cases s <;> rw [he]
  · exact h
  · intro l
    rw [line_mapLines]
    exact h l

end states

end Sys2Proof.Machine
end

section
/-! PROOFS. The holders of the descriptors and the places of the cells, which every step keeps. -/

namespace Sys2Proof.Machine

/-! ## The descriptors (R13, R47, R58) -/

section held

variable {s t : State}

/-- A block that is not committed is in no queue. -/
theorem descriptorsHeld.not_mem (h : descriptorsHeld s) {d : DescNo} (hp : (s.desc d).phase = .free ∨ (s.desc d).phase = .opened)
    (l : LineNo) : d ∉ (s.line l).tx.queue := fun hd => by
  obtain ⟨-, hq⟩ := h.queued l d hd
  obtain hp | hp := hp <;> simp [hp] at hq

/-- The block of a line's queue is in no other line's. -/
theorem descriptorsHeld.line_unique (h : descriptorsHeld s) {d : DescNo} {k l : LineNo} (hk : d ∈ (s.line k).tx.queue)
    (hl : d ∈ (s.line l).tx.queue) : k = l := (h.queued k d hk).1.symm.trans (h.queued l d hl).1

theorem descriptorsHeld.blocksFit (h : descriptorsHeld s) (l : LineNo) : BlocksFit l s := ⟨h.nodup l, h.queued l⟩

/-- The count against the quota is the queue's, and the open block's on its own line (R47). -/
theorem quotaCount_of_window {d : DescNo} (h : s.window = some d) (l : LineNo) :
    quotaCount s l = (s.line l).tx.queue.length + if (s.desc d).line = l then 1 else 0 := by simp [quotaCount, h]

theorem quotaCount_of_no_window (h : s.window = none) (l : LineNo) :
    quotaCount s l = (s.line l).tx.queue.length := by simp [quotaCount, h]

/-- The quota counts do not rise where the queues do not grow and the window's line stays. -/
theorem quotaCount_le (hqueue : ∀ l, (t.line l).tx.queue.length ≤ (s.line l).tx.queue.length) (hwindow : t.window = s.window)
    (hline : ∀ d, s.window = some d → (t.desc d).line = (s.desc d).line) (l : LineNo) : quotaCount t l ≤ quotaCount s l := by
  cases hw : s.window with
  | none =>
    rw [quotaCount_of_no_window hw, quotaCount_of_no_window (hwindow.trans hw)]
    exact hqueue l
  | some d =>
    rw [quotaCount_of_window hw, quotaCount_of_window (hwindow.trans hw), hline d hw]
    exact Nat.add_le_add_right (hqueue l) _

/-- The operations of a line keep the holders (R13), if the line of an open block stays ENABLED. -/
theorem TrafficStep.descriptorsHeld {l : LineNo} (h : TrafficStep l s t) (hs : Machine.descriptorsHeld s)
    (hen : ∀ d, s.window = some d → (s.desc d).line = l → (t.line l).state = .enabled) : Machine.descriptorsHeld t := by
  have hblocks := h.blocks (hs.blocksFit l)
  have hdesc {k : LineNo} (hk : k ≠ l) {d : DescNo} (hd : d ∈ (s.line k).tx.queue) : t.desc d = s.desc d :=
    h.descs d fun hl => hk (hs.line_unique hd hl)
  have hopen {d : DescNo} (hd : s.window = some d) : t.desc d = s.desc d :=
    h.descs d (hs.not_mem (.inr ((hs.opened d).mpr hd)) l)
  refine { nodup := fun k => ?nodup, queued := fun k d hd => ?queued, inQueue := fun d hp => ?inQueue
           opened := fun d => ?opened, windowLine := fun d hd => ?windowLine, quota := fun k => ?quota }
  case nodup =>
    by_cases hk : k = l
    · subst hk; exact hblocks.nodup
    · rw [h.others k hk]; exact hs.nodup k
  case queued =>
    by_cases hk : k = l
    · subst hk; exact hblocks.held d hd
    · rw [h.others k hk] at hd
      rw [hdesc hk hd]
      exact hs.queued k d hd
  case inQueue =>
    by_cases hd : d ∈ (s.line l).tx.queue
    · by_cases hd' : d ∈ (t.line l).tx.queue
      · rw [(hblocks.held d hd').1]; exact hd'
      · simp [h.gone d hd hd', Descriptor.unused] at hp
    · rw [h.descs d hd] at hp ⊢
      have hmem := hs.inQueue d hp
      rwa [h.others _ fun hl => hd (hl ▸ hmem)]
  case opened =>
    rw [h.window]
    by_cases hd : d ∈ (s.line l).tx.queue
    · have hclosed : s.window ≠ some d := fun hw => hs.not_mem (.inr ((hs.opened d).mpr hw)) l hd
      refine iff_of_false (fun hp => ?_) hclosed
      by_cases hd' : d ∈ (t.line l).tx.queue
      · simpa [hp] using (hblocks.held d hd').2
      · simp [h.gone d hd hd', Descriptor.unused] at hp
    · rw [h.descs d hd]; exact hs.opened d
  case windowLine =>
    rw [h.window] at hd
    rw [hopen hd]
    by_cases hk : (s.desc d).line = l
    · rw [hk]; exact hen d hd hk
    · rw [h.others _ hk]; exact hs.windowLine d hd
  case quota =>
    have hcfg : (t.line k).cfg = (s.line k).cfg := by
      by_cases hk : k = l
      · subst hk; exact h.cfg
      · rw [h.others k hk]
    rw [hcfg]
    refine Nat.le_trans (quotaCount_le (fun j => ?_) h.window (fun d hd => by rw [hopen hd]) k) (hs.quota k)
    by_cases hj : j = l
    · subst hj; exact h.front.length_le
    · exact Nat.le_of_eq (by rw [h.others j hj])

theorem FitStep.descriptorsHeld {l : LineNo} (h : FitStep l s t) (hs : Machine.descriptorsHeld s) :
    Machine.descriptorsHeld t :=
  h.toTrafficStep.descriptorsHeld hs fun d hd hl => h.enabled (hl ▸ hs.windowLine d hd)

/-- The holders depend on the queues, on the lines and phases of the descriptors and on the window. A line in ENABLED must stay
so, and a quota may change on a line with no blocks. -/
theorem descriptorsHeld_of_eq (hqueue : ∀ l, (t.line l).tx.queue = (s.line l).tx.queue)
    (hstate : ∀ l, (s.line l).state = .enabled → (t.line l).state = .enabled)
    (hquota : ∀ l, (t.line l).cfg.quota = (s.line l).cfg.quota ∨ quotaCount s l = 0)
    (hdesc : ∀ d, (t.desc d).line = (s.desc d).line ∧ (t.desc d).phase = (s.desc d).phase)
    (hwindow : t.window = s.window) (h : descriptorsHeld s) : descriptorsHeld t := by
  have hline (d : DescNo) := (hdesc d).1
  have hphase (d : DescNo) := (hdesc d).2
  refine { nodup := fun l => ?_, queued := fun l d hd => ?_, inQueue := fun d hp => ?_, opened := fun d => ?_
           windowLine := fun d hd => ?_, quota := fun l => ?_ }
  · rw [hqueue]; exact h.nodup l
  · rw [hline, hphase]; exact h.queued l d (hqueue l ▸ hd)
  · rw [hline, hqueue]; exact h.inQueue d (hphase d ▸ hp)
  · rw [hphase, hwindow]; exact h.opened d
  · rw [hline]; exact hstate _ (h.windowLine d (hwindow ▸ hd))
  · have hle := quotaCount_le (fun j => Nat.le_of_eq (by rw [hqueue])) hwindow (fun d _ => hline d) l
    obtain hq | hq := hquota l
    · rw [hq]; exact Nat.le_trans hle (h.quota l)
    · omega

theorem descriptorsHeld_of_traffic (h : t.traffic = s.traffic) (hs : descriptorsHeld s) : descriptorsHeld t := by
  have hline := line_of_traffic h
  simp only [State.traffic, Prod.mk.injEq] at h
  obtain ⟨-, hdescs, -, hwindow, -⟩ := h
  have hdesc (d : DescNo) : t.desc d = s.desc d := congrArg (fun v : Vector Descriptor 32 => v[d.val]) hdescs
  exact descriptorsHeld_of_eq (fun l => by rw [hline]) (fun l hl => by rwa [hline]) (fun l => .inl (by rw [hline]))
    (fun d => by rw [hdesc]; exact ⟨rfl, rfl⟩) hwindow hs

theorem PortOnly.descriptorsHeld (h : PortOnly s t) : Machine.descriptorsHeld s → Machine.descriptorsHeld t :=
  descriptorsHeld_of_traffic h.1

/-- The window's descriptor is freed (R60, R61). -/
theorem descriptorsHeld_dropWindow {d : DescNo} (hd : s.window = some d) (h : descriptorsHeld s) :
    descriptorsHeld (dropWindow d s) := by
  have hself : (dropWindow d s).desc d = .unused := desc_setDesc_self ..
  have hother {e : DescNo} (he : e ≠ d) : (dropWindow d s).desc e = s.desc e := desc_setDesc_ne _ d e _ he
  have hline (l : LineNo) : (dropWindow d s).line l = s.line l := rfl
  have hopen := (h.opened d).mpr hd
  have hmem (l : LineNo) {e : DescNo} (he : e ∈ (s.line l).tx.queue) : e ≠ d := fun hed =>
    h.not_mem (.inr hopen) l (hed ▸ he)
  refine { nodup := h.nodup, queued := fun l e he => ?_, inQueue := fun e hp => ?_, opened := fun e => ?_
           windowLine := fun e he => (nomatch he), quota := fun l => ?_ }
  · rw [hother (hmem l he)]; exact h.queued l e he
  · have he : e ≠ d := fun hed => by subst hed; simp [hself, Descriptor.unused] at hp
    rw [hother he] at hp ⊢
    exact h.inQueue e hp
  · refine iff_of_false (fun hp => ?_) (fun he => (nomatch he))
    by_cases he : e = d
    · subst he; simp [hself, Descriptor.unused] at hp
    · rw [hother he, h.opened, hd, Option.some.injEq] at hp
      exact he hp.symm
  · refine (Nat.le_trans ?_ (h.quota l))
    rw [quotaCount_of_no_window rfl, quotaCount_of_window hd, hline]
    exact Nat.le_add_right _ _

theorem descriptorsHeld_loseWindow (l : LineNo) (h : descriptorsHeld s) : descriptorsHeld (loseWindow l s) := by
  obtain ⟨he, -⟩ | ⟨d, hd, -, hp⟩ := loseWindow_cases s l
  · rw [he]; exact h
  · exact hp.descriptorsHeld (descriptorsHeld_dropWindow hd h)

/-- After the loss no open block is on the line. -/
theorem loseWindow_window (l : LineNo) {d : DescNo} (h : (loseWindow l s).window = some d) :
    ((loseWindow l s).desc d).line ≠ l := by
  obtain ⟨he, hno⟩ | ⟨e, he, -, hp⟩ := loseWindow_cases s l
  · rw [he] at h ⊢; exact hno d h
  · have hw : (loseWindow l s).window = none := (Prod.mk.inj (Prod.mk.inj (Prod.mk.inj (Prod.mk.inj hp.1).2).2).2).1
    simp [hw] at h

/-- OPEN BLOCK takes a FREE descriptor for an ENABLED line below its quota (R49, R50). -/
theorem descriptorsHeld_openWindow {l : LineNo} {d : DescNo} {tag : Byte} {report : Bool} {units : Nat}
    (hr : openRefusal s l = none) (hfree : (s.desc d).phase = .free) (h : descriptorsHeld s) :
    descriptorsHeld (openWindow l d tag report units s) := by
  obtain ⟨hw, hen, hquota⟩ := openRefusal_none s hr
  have hself : (openWindow l d tag report units s).desc d =
    { phase := .opened, line := l, tag := tag, report := report, breakBefore := units, length := 0, cells := [], sent := 0
      outcome := none } := desc_setDesc_self ..
  have hother {e : DescNo} (he : e ≠ d) : (openWindow l d tag report units s).desc e = s.desc e :=
    desc_setDesc_ne _ d e _ he
  have hline (k : LineNo) : (openWindow l d tag report units s).line k = s.line k := rfl
  have hwindow : (openWindow l d tag report units s).window = some d := rfl
  have hmem (k : LineNo) {e : DescNo} (he : e ∈ (s.line k).tx.queue) : e ≠ d := fun hed =>
    h.not_mem (.inl hfree) k (hed ▸ he)
  refine { nodup := h.nodup, queued := fun k e he => ?_, inQueue := fun e hp => ?_, opened := fun e => ?_
           windowLine := fun e he => ?_, quota := fun k => ?_ }
  · rw [hother (hmem k he)]; exact h.queued k e he
  · have he : e ≠ d := fun hed => by subst hed; simp [hself] at hp
    rw [hother he] at hp ⊢
    exact h.inQueue e hp
  · rw [hwindow, Option.some.injEq]
    by_cases he : e = d
    · subst he; simp [hself]
    · rw [hother he, h.opened, hw]
      exact iff_of_false (fun h => (nomatch h)) fun hed => he hed.symm
  · obtain rfl : d = e := by rw [hwindow] at he; simpa using he
    rw [hself]; exact hen
  · have hk := h.quota k
    rw [quotaCount_of_no_window hw] at hk
    rw [quotaCount_of_window hwindow, hself, hline]
    simp only
    split
    · next he => subst he; omega
    · omega

/-- The open block moves to the tail of its line's queue (R58). -/
theorem descriptorsHeld_committed {d : DescNo} (hd : s.window = some d) (h : descriptorsHeld s) :
    descriptorsHeld (committed d s) := by
  have hopen := (h.opened d).mpr hd
  have hself : (committed d s).desc d = { s.desc d with phase := .queued } := desc_setDesc_self ..
  have hother {e : DescNo} (he : e ≠ d) : (committed d s).desc e = s.desc e := desc_setDesc_ne _ d e _ he
  have hqself : ((committed d s).line (s.desc d).line).tx.queue = (s.line (s.desc d).line).tx.queue ++ [d] := by
    rw [line_committed_self]
  have hqother {k : LineNo} (hk : k ≠ (s.desc d).line) := line_committed_ne (s := s) d hk
  have hmem (k : LineNo) {e : DescNo} (he : e ∈ (s.line k).tx.queue) : e ≠ d := fun hed =>
    h.not_mem (.inr hopen) k (hed ▸ he)
  have hold (k : LineNo) {e : DescNo} (he : e ∈ (s.line k).tx.queue) : ((committed d s).desc e).line = k ∧
      (((committed d s).desc e).phase = .queued ∨ ((committed d s).desc e).phase = .active ∨
        ((committed d s).desc e).phase = .finished) := by
    rw [hother (hmem k he)]
    exact h.queued k e he
  refine { nodup := fun k => ?nodup, queued := fun k e he => ?queued, inQueue := fun e hp => ?inQueue
           opened := fun e => ?opened, windowLine := fun e he => (nomatch he), quota := fun k => ?quota }
  case nodup =>
    by_cases hk : k = (s.desc d).line
    · subst hk
      rw [hqself, List.nodup_append]
      exact ⟨h.nodup _, List.nodup_cons.mpr ⟨List.not_mem_nil, List.nodup_nil⟩, fun a ha b hb => List.mem_singleton.mp hb ▸ hmem _ ha⟩
    · rw [hqother hk]; exact h.nodup k
  case queued =>
    by_cases hk : k = (s.desc d).line
    · subst hk
      rw [hqself] at he
      obtain he | he := List.mem_append.mp he
      · exact hold _ he
      · obtain rfl := List.mem_singleton.mp he
        rw [hself]; exact ⟨rfl, .inl rfl⟩
    · rw [hqother hk] at he; exact hold k he
  case inQueue =>
    by_cases he : e = d
    · subst he
      rw [hself, hqself]
      exact List.mem_append_right _ (List.mem_singleton_self e)
    · rw [hother he] at hp ⊢
      have hin := h.inQueue e hp
      by_cases hk : (s.desc e).line = (s.desc d).line
      · rw [hk] at hin ⊢
        rw [hqself]; exact List.mem_append_left _ hin
      · rw [hqother hk]; exact hin
  case opened =>
    refine iff_of_false (fun hp => ?_) (fun he => (nomatch he))
    by_cases he : e = d
    · subst he; simp [hself] at hp
    · rw [hother he, h.opened, hd, Option.some.injEq] at hp
      exact he hp.symm
  case quota =>
    have hk := h.quota k
    rw [quotaCount_of_window hd] at hk
    rw [quotaCount_of_no_window rfl]
    by_cases he : k = (s.desc d).line
    · subst he
      rw [line_committed_self]
      simpa using hk
    · rw [hqother he]; omega

/-- With every descriptor FREE, no window and empty queues nothing is held. -/
theorem descriptorsHeld_of_unused (hdesc : ∀ d, s.desc d = .unused) (hwindow : s.window = none)
    (hqueue : ∀ l, (s.line l).tx.queue = []) : descriptorsHeld s := by
  refine { nodup := fun l => by simp [hqueue], queued := fun l d hd => by simp [hqueue] at hd
           inQueue := fun d hp => by simp [hdesc, Descriptor.unused] at hp
           opened := fun d => by simp [hdesc, hwindow, Descriptor.unused]
           windowLine := fun d hd => by simp [hwindow] at hd, quota := fun l => ?_ }
  rw [quotaCount_of_no_window hwindow, hqueue]
  exact Nat.zero_le _

theorem desc_reset (d : DescNo) : State.reset.desc d = .unused := by simp [State.desc, State.reset]

theorem desc_cmdSoftReset (d : DescNo) : (cmdSoftReset s).desc d = .unused := by simp [State.desc, cmdSoftReset]

theorem descriptorsHeld_reset : descriptorsHeld State.reset :=
  descriptorsHeld_of_unused desc_reset rfl fun l => by rw [line_reset]; rfl

theorem descriptorsHeld_cmdSoftReset : descriptorsHeld (cmdSoftReset s) :=
  descriptorsHeld_of_unused desc_cmdSoftReset rfl fun l => by rw [line_cmdSoftReset]; rfl

theorem descriptorsHeld_postGrant (h : descriptorsHeld s) : descriptorsHeld (postGrant s) := by
  obtain ⟨l, hl⟩ := FitStep.postGrant s
  exact hl.descriptorsHeld h

/-! ## A byte written to the window (R56) -/

/-- What a write to TXDATA that reaches the store does to the places of the cells and the holders of the blocks. -/
structure ByteStored (d : DescNo) (s t : State) : Prop where
  line : ∀ l, t.line l = s.line l
  window : t.window = s.window
  queue : t.queue = s.queue
  others : ∀ e, e ≠ d → t.desc e = s.desc e
  self : (t.desc d).line = (s.desc d).line ∧ (t.desc d).phase = (s.desc d).phase
  cells : ∀ c, t.freeList.count c + (t.desc d).cells.count c = s.freeList.count c + (s.desc d).cells.count c

theorem byteStored_acceptByte (d : DescNo) (v : Byte) (s : State) : ByteStored d s (acceptByte d v s) := by
  have hself : (acceptByte d v s).desc d = { s.desc d with length := (s.desc d).length + 1 } := desc_setDesc_self ..
  refine { line := line_acceptByte d v s, window := ?_, queue := ?_, others := fun e he => ?_, self := by rw [hself]; exact ⟨rfl, rfl⟩
           cells := fun c => ?_ }
  · show (storeChar _ _ v s).window = _
    rw [storeChar_eq]
  · show (storeChar _ _ v s).queue = _
    rw [storeChar_eq]
  · refine (desc_setDesc_ne (storeChar (s.desc d).cells (s.desc d).length v s) d e _ he).trans ?_
    rw [storeChar_eq]; rfl
  · have hfree : (acceptByte d v s).freeList = s.freeList := by
      show (storeChar _ _ v s).freeList = _
      rw [storeChar_eq]
    rw [hself, hfree]

theorem ByteStored.trans {d : DescNo} {u : State} (h : ByteStored d s t) (k : ByteStored d t u) : ByteStored d s u where
  line l := (k.line l).trans (h.line l)
  window := k.window.trans h.window
  queue := k.queue.trans h.queue
  others e he := (k.others e he).trans (h.others e he)
  self := ⟨k.self.1.trans h.self.1, k.self.2.trans h.self.2⟩
  cells c := (k.cells c).trans (h.cells c)

/-- A cell of the free list is added to the block (R4, R56). -/
theorem byteStored_take {d : DescNo} {allowed : Bool} {c : CellNo} (h : takeCell allowed s = some (c, t)) :
    ByteStored d s (t.setDesc d { s.desc d with cells := (s.desc d).cells ++ [c] }) := by
  obtain ⟨rest, hfree, -, rfl⟩ := takeCell_eq_some h
  refine { line := fun _ => rfl, window := rfl, queue := rfl, others := fun e he => desc_setDesc_ne _ d e _ he
           self := by rw [desc_setDesc_self]; exact ⟨rfl, rfl⟩, cells := fun k => ?_ }
  have hcons : (c :: rest).count k = [c].count k + rest.count k := List.count_append (l₁ := [c])
  rw [desc_setDesc_self, hfree, List.count_append, hcons]
  change rest.count k + _ = _
  omega

theorem writeTxdata_cases (v : Byte) (s : State) : PortOnly s (writeTxdata v s) ∨
    ∃ d, s.window = some d ∧ ByteStored d s (writeTxdata v s) := by
  unfold writeTxdata
  split
  · exact .inl ⟨rfl, rfl, rfl⟩
  · next d hd =>
    simp only
    split
    · exact .inl ⟨rfl, rfl, rfl⟩
    split
    · split
      · next hc => exact .inr ⟨d, hd, (byteStored_take hc).trans (byteStored_acceptByte d v _)⟩
      · exact .inl ⟨rfl, rfl, rfl⟩
    · exact .inr ⟨d, hd, byteStored_acceptByte d v s⟩

theorem ByteStored.descriptorsHeld {d : DescNo} (h : ByteStored d s t) : Machine.descriptorsHeld s →
    Machine.descriptorsHeld t := by
  refine descriptorsHeld_of_eq (s := s) (fun l => by rw [h.line]) (fun l hl => by rwa [h.line]) (fun l => .inl (by rw [h.line]))
    (fun e => ?_) h.window
  by_cases he : e = d
  · subst he; exact h.self
  · rw [h.others e he]; exact ⟨rfl, rfl⟩

/-! ## Every row keeps the holders -/

theorem descriptorsHeld_setLine {l : LineNo} {ln : Line} (hqueue : ln.tx.queue = (s.line l).tx.queue)
    (hst : (s.line l).state = .disabled)
    (hquota : ln.cfg.quota = (s.line l).cfg.quota ∨ (s.line l).tx.queue = []) (h : descriptorsHeld s) :
    descriptorsHeld (s.setLine l ln) := by
  refine descriptorsHeld_of_eq (s := s) (fun k => ?_) (fun k hk => ?_) (fun k => ?_) (fun _ => ⟨rfl, rfl⟩) rfl h
  · rw [line_setLine]
    split
    · next he => subst he; exact hqueue
    · rfl
  · rwa [line_setLine_ne s l k ln fun he => by subst he; simp [hst] at hk]
  · by_cases hk : k = l
    · subst hk
      rw [line_setLine_self]
      obtain hq | hq := hquota
      · exact .inl hq
      · refine .inr ?_
        cases hw : s.window with
        | none => rw [quotaCount_of_no_window hw, hq]; rfl
        | some d =>
          have hne : (s.desc d).line ≠ k := fun he => by
            have hen := h.windowLine d hw
            simp [he, hst] at hen
          rw [quotaCount_of_window hw, hq, if_neg hne]
          rfl
    · rw [line_setLine_ne s l k ln hk]; exact .inl rfl

theorem Leaves.descriptorsHeld {l : LineNo} (hl : Leaves l (loseWindow l s) t) (h : Machine.descriptorsHeld s) :
    Machine.descriptorsHeld t :=
  hl.traffic.descriptorsHeld (descriptorsHeld_loseWindow l h) fun _ hd hdl => absurd hdl (loseWindow_window l hd)

theorem lowestFree_free {d : DescNo} (h : s.lowestFree = some d) : (s.desc d).phase = .free := by
  simpa using List.find?_some h

theorem CommandResult.descriptorsHeld {code : Byte} (hr : CommandResult code s t) (h : Machine.descriptorsHeld s) :
    Machine.descriptorsHeld t := by
  cases hr with
  | host hp => exact hp.port.descriptorsHeld h
  | line l hfit _ => exact hfit.descriptorsHeld h
  | openBlock =>
    obtain ⟨r, he⟩ | ⟨l, d, tag, report, units, hr, hd, he⟩ := cmdOpenBlock_cases s <;> rw [he]
    · exact (FitStep.complete 0 s).descriptorsHeld h
    · exact (FitStep.complete 0 _).descriptorsHeld (descriptorsHeld_openWindow hr (lowestFree_free hd) h)
  | closeBlock =>
    obtain he | ⟨d, hd, he⟩ := cmdCloseBlock_cases s <;> rw [he]
    · exact (FitStep.complete 0 s).descriptorsHeld h
    · exact ((FitStep.commitChoice _ _).trans (.complete _ _)).descriptorsHeld (descriptorsHeld_committed hd h)
  | discardBlock =>
    obtain he | ⟨d, hd, hp⟩ := cmdDiscardBlock_cases s
    · rw [he]; exact (FitStep.complete 0 s).descriptorsHeld h
    · exact hp.descriptorsHeld (descriptorsHeld_dropWindow hd h)
  | releaseHead _ =>
    obtain he | ⟨e, rest, -, he⟩ := cmdReleaseHead_cases s <;> rw [he]
    · exact (FitStep.complete 0 s).descriptorsHeld h
    · refine (FitStep.complete 0 _).descriptorsHeld (descriptorsHeld_postGrant ?_)
      exact descriptorsHeld_of_eq (s := s) (fun _ => rfl) (fun _ => id) (fun _ => .inl rfl) (fun _ => ⟨rfl, rfl⟩) rfl h
  | configure coding =>
    obtain hp | ⟨l, cfg, hst, hq, he⟩ := cmdConfigure_cases s coding
    · exact hp.port.descriptorsHeld h
    · rw [he]; exact (FitStep.complete 0 _).descriptorsHeld (descriptorsHeld_setLine rfl hst (.inr hq) h)
  | enableLine =>
    obtain hp | ⟨l, hst, he⟩ := cmdEnableLine_cases s
    · exact hp.port.descriptorsHeld h
    · rw [he]; exact (FitStep.complete 0 _).descriptorsHeld (descriptorsHeld_setLine rfl hst (.inl rfl) h)
  | restartLine =>
    obtain hp | ⟨l, hl⟩ := cmdRestartLine_cases s
    · exact hp.port.descriptorsHeld h
    · exact hl.descriptorsHeld h
  | disableLine =>
    obtain hp | ⟨l, hl⟩ := cmdDisableLine_cases s
    · exact hp.port.descriptorsHeld h
    · exact hl.descriptorsHeld h
  | clearCapture _ => exact (port_cmdClearCapture s).descriptorsHeld h
  | clearErrorRecord _ => exact (port_cmdClearErrorRecord s).descriptorsHeld h
  | readAndClear =>
    obtain hp | ⟨l, he⟩ := cmdReadAndClearLineCounters_cases s
    · exact hp.port.descriptorsHeld h
    · rw [he]; exact (FitStep.side l (returnCounters l s)).descriptorsHeld
        (descriptorsHeld_of_traffic (s := s) rfl h)

theorem RowResult.descriptorsHeld (hr : RowResult s t) (h : Machine.descriptorsHeld s) : Machine.descriptorsHeld t := by
  cases hr with
  | same => exact h
  | port hp => exact hp.descriptorsHeld h
  | command code _ =>
    exact (CommandResult.commandOf code { s with commandLost := false }).descriptorsHeld
      (descriptorsHeld_of_traffic (s := s) rfl h)
  | txdata v =>
    obtain hp | ⟨d, -, hb⟩ := writeTxdata_cases v s
    · exact hp.descriptorsHeld h
    · exact hb.descriptorsHeld h
  | line l hfit hstep => exact hfit.descriptorsHeld h
  | grant => exact descriptorsHeld_postGrant h
  | softReset => exact descriptorsHeld_cmdSoftReset
  | hardwareReset => exact descriptorsHeld_of_traffic (s := State.reset) rfl descriptorsHeld_reset

theorem descriptorsHeld_tick (h : descriptorsHeld s) : descriptorsHeld (tick s) := by
  obtain ⟨he, -⟩ | ⟨he, -, -⟩ := tick_cases s <;> rw [he]
  · exact h
  · exact descriptorsHeld_of_eq (s := s) (fun l => by rw [line_mapLines]; rfl) (fun l hl => by rw [line_mapLines]; exact hl)
      (fun l => by rw [line_mapLines]; exact .inl rfl) (fun _ => ⟨rfl, rfl⟩) rfl h

end held

/-! ## The cells (R1) -/

section cells

variable {s t : State}

theorem cellsConserved_of_count (hcount : ∀ c, (cellPlaces t).count c = (cellPlaces s).count c)
    (hempty : ∀ d, ((t.desc d).phase = .free ∨ (t.desc d).phase = .finished) → (t.desc d).cells = [])
    (h : cellsConserved s) : cellsConserved t :=
  ⟨(List.perm_iff_count.mpr hcount).trans h.1, hempty⟩

theorem lineCells_of_records (h : ∀ l, recordCells (t.line l).rx = recordCells (s.line l).rx) : lineCells t = lineCells s :=
  flatMap_eq_of_mem fun l _ => h l

theorem blockCells_of_desc (h : ∀ d, t.desc d = s.desc d) : blockCells t = blockCells s :=
  flatMap_eq_of_mem fun d _ => by rw [h d]

/-- Where the descriptors stay, only the other places have to be counted. -/
theorem cellsConserved_of_desc (hdesc : ∀ d, t.desc d = s.desc d)
    (hcount : ∀ c, t.freeList.count c + (lineCells t).count c + (entryCells t).count c =
      s.freeList.count c + (lineCells s).count c + (entryCells s).count c) (h : cellsConserved s) : cellsConserved t := by
  refine cellsConserved_of_count (fun c => ?_) (fun d hd => ?_) h
  · have := hcount c
    rw [count_cellPlaces, count_cellPlaces, blockCells_of_desc hdesc]
    omega
  · rw [hdesc] at hd ⊢
    exact h.2 d hd

/-- Where one descriptor changes and the lines and entries stay, its cells and the free list have to be counted. -/
theorem cellsConserved_of_setDesc {d : DescNo} (hdesc : ∀ e, e ≠ d → t.desc e = s.desc e)
    (hline : ∀ l, recordCells (t.line l).rx = recordCells (s.line l).rx) (hqueue : t.queue = s.queue)
    (hcount : ∀ c, t.freeList.count c + (t.desc d).cells.count c = s.freeList.count c + (s.desc d).cells.count c)
    (hempty : ((t.desc d).phase = .free ∨ (t.desc d).phase = .finished) → (t.desc d).cells = [])
    (h : cellsConserved s) : cellsConserved t := by
  refine cellsConserved_of_count (fun c => ?_) (fun e he => ?_) h
  · have hblock := count_blockCells_update d hdesc c
    have hfree := hcount c
    rw [count_cellPlaces, count_cellPlaces, lineCells_of_records hline, entryCells, entryCells, hqueue]
    omega
  · by_cases hed : e = d
    · subst hed; exact hempty he
    · rw [hdesc e hed] at he ⊢
      exact h.2 e he

/-- The operations of a line keep every cell in one place. -/
theorem TrafficStep.cellsConserved {l : LineNo} (h : TrafficStep l s t) (hc : Machine.cellsConserved s)
    (hl : lineFits (s.line l)) (hs : Machine.descriptorsHeld s) : Machine.cellsConserved t := by
  obtain ⟨hperm, hempty⟩ := hc
  have hsettled : Settled l s := fun d _ hf => hempty d (.inr hf)
  refine ⟨(h.cells (recordFits_of_fits hl.1) hsettled).trans hperm, fun d hd => ?_⟩
  by_cases hin : d ∈ (s.line l).tx.queue
  · by_cases hin' : d ∈ (t.line l).tx.queue
    · obtain hd | hd := hd
      · have hheld := ((h.blocks (hs.blocksFit l)).held d hin').2
        simp [hd] at hheld
      · exact h.settled hsettled d hin' hd
    · rw [h.gone d hin hin']; rfl
  · rw [h.descs d hin] at hd ⊢
    exact hempty d hd

/-- The three properties together: what a step has to keep so that the cells stay in their places. -/
def Conserves (s : State) : Prop := cellsConserved s ∧ linesFit s ∧ descriptorsHeld s

theorem FitStep.cellsConserved {l : LineNo} (h : FitStep l s t) (hs : Conserves s) : Machine.cellsConserved t :=
  h.toTrafficStep.cellsConserved hs.1 (hs.2.1 l) hs.2.2

theorem FitStep.conserves {l : LineNo} (h : FitStep l s t) (hs : Conserves s) : Conserves t :=
  ⟨h.cellsConserved hs, h.linesFit hs.2.1, h.descriptorsHeld hs.2.2⟩

theorem cellsConserved_complete {r : ResultCode} (h : cellsConserved s) : cellsConserved (complete r s) :=
  cellsConserved_of_desc (s := s) (fun _ => rfl) (fun _ => rfl) h

theorem cellsConserved_of_traffic (ht : t.traffic = s.traffic) (h : cellsConserved s) : cellsConserved t := by
  have hline := line_of_traffic ht
  simp only [State.traffic, Prod.mk.injEq] at ht
  obtain ⟨hfree, hdescs, hqueue, -, -⟩ := ht
  refine cellsConserved_of_desc (s := s) (fun d => ?_) (fun c => ?_) h
  · rw [State.desc, hdescs]; rfl
  · rw [hfree, lineCells_of_records (s := s) fun l => by rw [hline], entryCells, entryCells, hqueue]

theorem PortOnly.cellsConserved (h : PortOnly s t) : Machine.cellsConserved s → Machine.cellsConserved t :=
  cellsConserved_of_traffic h.1

theorem conserves_of_traffic (ht : t.traffic = s.traffic) (h : Conserves s) : Conserves t :=
  ⟨cellsConserved_of_traffic ht h.1, linesFit_of_eq (line_of_traffic ht) h.2.1, descriptorsHeld_of_traffic ht h.2.2⟩

theorem cellsConserved_dropWindow {d : DescNo} (h : cellsConserved s) : cellsConserved (dropWindow d s) := by
  have hself : (dropWindow d s).desc d = .unused := desc_setDesc_self ..
  refine cellsConserved_of_setDesc (s := s) (d := d) (fun e he => desc_setDesc_ne _ d e _ he) (fun _ => rfl) rfl (fun c => ?_)
    (fun _ => by rw [hself]; rfl) h
  have hfree : (dropWindow d s).freeList = s.freeList ++ (s.desc d).cells := rfl
  rw [hself, hfree, List.count_append]
  rfl

theorem cellsConserved_loseWindow (l : LineNo) (h : cellsConserved s) : cellsConserved (loseWindow l s) := by
  obtain ⟨he, -⟩ | ⟨d, -, -, hp⟩ := loseWindow_cases s l
  · rw [he]; exact h
  · exact hp.cellsConserved (cellsConserved_dropWindow h)

theorem cellsConserved_openWindow {l : LineNo} {d : DescNo} {tag : Byte} {report : Bool} {units : Nat}
    (hfree : (s.desc d).phase = .free) (h : cellsConserved s) : cellsConserved (openWindow l d tag report units s) := by
  have hcells : ((openWindow l d tag report units s).desc d).cells = [] :=
    congrArg Descriptor.cells (desc_setDesc_self (s := s) ..)
  refine cellsConserved_of_setDesc (s := s) (d := d) (fun e he => desc_setDesc_ne _ d e _ he) (fun _ => rfl) rfl (fun c => ?_)
    (fun _ => hcells) h
  rw [hcells, h.2 d (.inl hfree)]
  rfl

theorem cellsConserved_committed {d : DescNo} (h : cellsConserved s) : cellsConserved (committed d s) := by
  have hself : (committed d s).desc d = { s.desc d with phase := .queued } := desc_setDesc_self ..
  refine cellsConserved_of_setDesc (s := s) (d := d) (fun e he => desc_setDesc_ne _ d e _ he) (fun l => ?_) rfl (fun c => ?_)
    (fun hp => by simp [hself] at hp) h
  · by_cases hl : l = (s.desc d).line
    · subst hl; rw [line_committed_self]
    · rw [line_committed_ne d hl]
  · rw [hself]; rfl

theorem cellsConserved_dropHeadEntry {e : Entry} {rest : List Entry} (hq : s.queue = e :: rest) (h : cellsConserved s) :
    cellsConserved (dropHeadEntry e rest s) := by
  refine cellsConserved_of_desc (s := s) (fun _ => rfl) (fun c => ?_) h
  have hfree : (dropHeadEntry e rest s).freeList = s.freeList ++ e.cells := rfl
  have hentry : entryCells (dropHeadEntry e rest s) = rest.flatMap Entry.cells := rfl
  have hline : lineCells (dropHeadEntry e rest s) = lineCells s := rfl
  rw [hfree, hentry, hline, entryCells, hq, List.flatMap_cons, List.count_append, List.count_append]
  omega

/-- A change of a line's side that leaves its records alone. -/
theorem cellsConserved_setLine {l : LineNo} {ln : Line} (hrec : recordCells ln.rx = recordCells (s.line l).rx)
    (h : cellsConserved s) : cellsConserved (s.setLine l ln) := by
  refine cellsConserved_of_desc (s := s) (fun _ => rfl) (fun c => ?_) h
  rw [lineCells_of_records (s := s) fun k => ?_]
  · rfl
  · rw [line_setLine]
    split
    · next hk => subst hk; exact hrec
    · rfl

/-- A DISABLED line has no record (R143). -/
theorem recordCells_disabled {ln : Line} (h : lineFits ln) (hst : ln.state = .disabled) : recordCells ln.rx = [] := by
  have hrx := h.1
  simp only [receiverFits, (lineFits_disabled h hst).2.2.1] at hrx
  exact recordCells_idle hrx.1 hrx.2

theorem conserves_postGrant (h : Conserves s) : Conserves (postGrant s) := by
  obtain ⟨l, hl⟩ := FitStep.postGrant s
  exact hl.conserves h

/-- With every descriptor FREE, no record and no entry, the free list alone holds the cells. -/
theorem cellsConserved_of_free (hdesc : ∀ d, s.desc d = .unused) (hline : ∀ l, recordCells (s.line l).rx = [])
    (hqueue : s.queue = []) (hfree : s.freeList = allCells) : cellsConserved s := by
  refine ⟨List.perm_iff_count.mpr fun c => ?_, fun d _ => by rw [hdesc]; rfl⟩
  have hblock : blockCells s = [] := List.flatMap_eq_nil_iff.mpr fun d _ => by rw [hdesc]; rfl
  have hrec : lineCells s = [] := List.flatMap_eq_nil_iff.mpr fun l _ => hline l
  rw [count_cellPlaces, hblock, hrec, entryCells, hqueue, hfree]
  rfl

theorem cellsConserved_reset : cellsConserved State.reset :=
  cellsConserved_of_free desc_reset (fun l => by rw [line_reset]; rfl) rfl rfl

theorem cellsConserved_cmdSoftReset : cellsConserved (cmdSoftReset s) :=
  cellsConserved_of_free desc_cmdSoftReset (fun l => by rw [line_cmdSoftReset]; rfl) rfl rfl

theorem Leaves.cellsConserved {l : LineNo} (hl : Leaves l (loseWindow l s) t) (h : Conserves s) : Machine.cellsConserved t :=
  hl.traffic.cellsConserved (cellsConserved_loseWindow l h.1) (linesFit_loseWindow l h.2.1 l)
    (descriptorsHeld_loseWindow l h.2.2)

theorem CommandResult.cellsConserved {code : Byte} (hr : CommandResult code s t) (h : Conserves s) : Machine.cellsConserved t := by
  obtain ⟨hcells, hfit, hheld⟩ := h
  cases hr with
  | host hp => exact hp.port.cellsConserved hcells
  | line l hf _ => exact hf.cellsConserved ⟨hcells, hfit, hheld⟩
  | openBlock =>
    obtain ⟨r, he⟩ | ⟨l, d, tag, report, units, -, hd, he⟩ := cmdOpenBlock_cases s <;> rw [he]
    · exact cellsConserved_complete hcells
    · exact cellsConserved_complete (cellsConserved_openWindow (lowestFree_free hd) hcells)
  | closeBlock =>
    obtain he | ⟨d, hd, he⟩ := cmdCloseBlock_cases s <;> rw [he]
    · exact cellsConserved_complete hcells
    · exact ((FitStep.commitChoice _ _).trans (.complete _ _)).cellsConserved
        ⟨cellsConserved_committed hcells, linesFit_committed hfit, descriptorsHeld_committed hd hheld⟩
  | discardBlock =>
    obtain he | ⟨d, hd, hp⟩ := cmdDiscardBlock_cases s
    · rw [he]; exact cellsConserved_complete hcells
    · exact hp.cellsConserved (cellsConserved_dropWindow hcells)
  | releaseHead _ =>
    obtain he | ⟨e, rest, hq, he⟩ := cmdReleaseHead_cases s <;> rw [he]
    · exact cellsConserved_complete hcells
    · refine cellsConserved_complete (conserves_postGrant ⟨cellsConserved_dropHeadEntry hq hcells, hfit, ?_⟩).1
      exact descriptorsHeld_of_eq (s := s) (fun _ => rfl) (fun _ => id) (fun _ => .inl rfl) (fun _ => ⟨rfl, rfl⟩) rfl hheld
  | configure coding =>
    obtain hp | ⟨l, cfg, -, -, he⟩ := cmdConfigure_cases s coding
    · exact hp.port.cellsConserved hcells
    · rw [he]; exact cellsConserved_complete (cellsConserved_setLine rfl hcells)
  | enableLine =>
    obtain hp | ⟨l, hst, he⟩ := cmdEnableLine_cases s
    · exact hp.port.cellsConserved hcells
    · rw [he]; exact cellsConserved_complete (cellsConserved_setLine (recordCells_disabled (hfit l) hst).symm hcells)
  | restartLine =>
    obtain hp | ⟨l, hl⟩ := cmdRestartLine_cases s
    · exact hp.port.cellsConserved hcells
    · exact hl.cellsConserved ⟨hcells, hfit, hheld⟩
  | disableLine =>
    obtain hp | ⟨l, hl⟩ := cmdDisableLine_cases s
    · exact hp.port.cellsConserved hcells
    · exact hl.cellsConserved ⟨hcells, hfit, hheld⟩
  | clearCapture _ => exact (port_cmdClearCapture s).cellsConserved hcells
  | clearErrorRecord _ => exact (port_cmdClearErrorRecord s).cellsConserved hcells
  | readAndClear =>
    obtain hp | ⟨l, he⟩ := cmdReadAndClearLineCounters_cases s
    · exact hp.port.cellsConserved hcells
    · rw [he]; exact cellsConserved_setLine (s := returnCounters l s) rfl hcells

theorem ByteStored.cellsConserved {d : DescNo} (hb : ByteStored d s t) (hd : (s.desc d).phase = .opened)
    (h : Machine.cellsConserved s) : Machine.cellsConserved t :=
  cellsConserved_of_setDesc hb.others (fun l => by rw [hb.line]) hb.queue hb.cells
    (fun hp => by simp [hb.self.2, hd] at hp) h

theorem RowResult.cellsConserved (hr : RowResult s t) (h : Conserves s) : Machine.cellsConserved t := by
  cases hr with
  | same => exact h.1
  | port hp => exact hp.cellsConserved h.1
  | command code _ =>
    exact (CommandResult.commandOf code { s with commandLost := false }).cellsConserved
      (conserves_of_traffic (s := s) rfl h)
  | txdata v =>
    obtain hp | ⟨d, hd, hb⟩ := writeTxdata_cases v s
    · exact hp.cellsConserved h.1
    · exact hb.cellsConserved ((h.2.2.opened d).mpr hd) h.1
  | line l hfit hstep => exact hfit.cellsConserved h
  | grant => exact (conserves_postGrant h).1
  | softReset => exact cellsConserved_cmdSoftReset
  | hardwareReset => exact cellsConserved_of_traffic (s := State.reset) rfl cellsConserved_reset

theorem cellsConserved_tick (h : cellsConserved s) : cellsConserved (tick s) := by
  obtain ⟨he, -⟩ | ⟨he, -, -⟩ := tick_cases s <;> rw [he]
  · exact h
  · refine cellsConserved_of_desc (s := s) (fun _ => rfl) (fun c => ?_) h
    rw [lineCells_of_records (s := s) fun l => by rw [line_mapLines]; rfl]
    rfl

end cells

/-! ## Every step -/

/-- What every row and every tick keep, whatever waits in the queue, every step keeps. -/
theorem stepKeeps_of_rows {P : State → Prop} (hpending : ∀ s rest, P s → P { s with pending := rest })
    (htick : ∀ s, P s → P (tick s)) (hrow : ∀ s t, RowResult s t → P s → P t) : stepKeeps P := by
  intro s t hs hstep
  obtain rfl | ⟨rest, hr⟩ := step_cases hstep
  · exact htick s hs
  · exact hrow _ _ hr (hpending s rest hs)

end Sys2Proof.Machine

namespace Sys2Proof.Claims

open Sys2Proof.Machine

/-- Settles O56: a row that changes the queue, a FIFO or the store is an operation of a line, a grant or a byte written. -/
theorem stepKeepsTheBounds : Obligations.StepKeepsTheBounds :=
  stepKeeps_of_rows (fun _ _ h => h) (fun _ => withinBounds_tick) fun _ _ hr => hr.withinBounds

/-- Settles O57. -/
theorem stepKeepsTheLineStates : Obligations.StepKeepsTheLineStates :=
  stepKeeps_of_rows (fun _ _ h => h) (fun _ => linesFit_tick) fun _ _ hr => hr.linesFit

/-- Settles O58. -/
theorem stepKeepsTheDescriptors : Obligations.StepKeepsTheDescriptors :=
  stepKeeps_of_rows (fun s _ h => descriptorsHeld_of_traffic (s := s) rfl h) (fun _ => descriptorsHeld_tick)
    fun _ _ hr => hr.descriptorsHeld

/-- Settles O59: the cells are counted together with what they depend on, the line states and the holders of the
descriptors. -/
theorem stepKeepsEveryCellInOnePlace : Obligations.StepKeepsEveryCellInOnePlace :=
  stepKeeps_of_rows (fun s _ h => conserves_of_traffic (s := s) rfl h)
    (fun _ h => ⟨cellsConserved_tick h.1, linesFit_tick h.2.1, descriptorsHeld_tick h.2.2⟩)
    fun _ _ hr h => ⟨hr.cellsConserved h, hr.linesFit h.2.1, hr.descriptorsHeld h.2.2⟩

/-- Settles O60. -/
theorem resetMeetsTheInvariants : Obligations.ResetMeetsTheInvariants :=
  ⟨withinBounds_reset, linesFit_reset, descriptorsHeld_reset, cellsConserved_reset⟩

end Sys2Proof.Claims
end

section
/-! PROOFS. The step, the port, the registers and the resets. -/

namespace Sys2Proof.Machine

/-! ## Every row goes on -/

theorem exec_goes_on (c : Instr) (s : State) : ∃ t, exec c s = .next t := by
  cases c <;> exact ⟨_, rfl⟩

theorem pending_of_kept {s t : State} (h : t.kept = s.kept) : t.pending = s.pending := by
  simp only [State.kept, Prod.mk.injEq] at h
  obtain ⟨-, -, -, -, -, -, -, -, -, -, -, -, -, -, -, -, -, -, -, hp⟩ := h
  exact hp

theorem TakeStep.pending {l : LineNo} {s t : State} (h : TakeStep l s t) : t.pending = s.pending := by
  obtain h | ⟨u, cells, pos, v, h1, h2⟩ := h
  · exact pending_of_kept h.kept
  · have hstore : (storeChar cells pos v u).pending = u.pending := by rw [storeChar_eq]
    exact (pending_of_kept h2.kept).trans (hstore.trans (pending_of_kept h1.kept))

theorem pending_postGrant (s : State) : (postGrant s).pending = s.pending := by
  unfold postGrant
  split
  · next hfree =>
    split
    · show (grantTo _ s).pending = s.pending
      unfold grantTo
      split
      · exact pending_of_kept (LineStep.grantLine hfree).kept
      · exact pending_of_kept (LineStep.grantMatch 0 hfree).kept
    · rfl
  · rfl

theorem pending_writeTxdata (v : Byte) (s : State) : (writeTxdata v s).pending = s.pending := by
  have hstore (d : DescNo) (u : State) : (acceptByte d v u).pending = u.pending := by
    show (storeChar _ _ v u).pending = _
    rw [storeChar_eq]
  unfold writeTxdata
  split
  · rfl
  · simp only
    split
    · rfl
    split
    · split
      · next hc =>
        obtain ⟨rest, -, -, rfl⟩ := takeCell_eq_some hc
        exact hstore _ _
      · rfl
    · exact hstore _ _

theorem pending_loseWindow (l : LineNo) (s : State) : (loseWindow l s).pending = s.pending := by
  obtain ⟨he, -⟩ | ⟨d, -, -, hp⟩ := loseWindow_cases s l
  · rw [he]
  · exact hp.2.2

theorem CommandResult.pending {code : Byte} {s t : State} (h : CommandResult code s t) : t.pending = s.pending := by
  cases h with
  | host hp => exact hp.pending
  | line l _ hstep => exact pending_of_kept hstep.kept
  | openBlock =>
    obtain ⟨r, he⟩ | ⟨l, d, tag, report, units, -, -, he⟩ := cmdOpenBlock_cases s <;> rw [he] <;> rfl
  | closeBlock =>
    obtain he | ⟨d, -, he⟩ := cmdCloseBlock_cases s <;> rw [he]
    · rfl
    · have hchoice := LineStep.commitChoice (s := committed d s) (s.desc d).line
      exact (pending_of_kept hchoice.kept : (commitChoice _ (committed d s)).pending = (committed d s).pending)
  | discardBlock =>
    obtain he | ⟨d, -, hp⟩ := cmdDiscardBlock_cases s
    · rw [he]; rfl
    · exact hp.2.2
  | releaseHead _ =>
    obtain he | ⟨e, rest, -, he⟩ := cmdReleaseHead_cases s <;> rw [he]
    · rfl
    · exact pending_postGrant (dropHeadEntry e rest s)
  | configure coding =>
    obtain hp | ⟨l, cfg, -, -, he⟩ := cmdConfigure_cases s coding
    · exact hp.pending
    · rw [he]; rfl
  | enableLine =>
    obtain hp | ⟨l, -, he⟩ := cmdEnableLine_cases s
    · exact hp.pending
    · rw [he]; rfl
  | restartLine =>
    obtain hp | ⟨l, hl⟩ := cmdRestartLine_cases s
    · exact hp.pending
    · exact (pending_of_kept hl.bounds.kept).trans (pending_loseWindow l s)
  | disableLine =>
    obtain hp | ⟨l, hl⟩ := cmdDisableLine_cases s
    · exact hp.pending
    · exact (pending_of_kept hl.bounds.kept).trans (pending_loseWindow l s)
  | clearCapture _ => exact (port_cmdClearCapture s).2.2
  | clearErrorRecord _ => exact (port_cmdClearErrorRecord s).2.2
  | readAndClear =>
    obtain hp | ⟨l, he⟩ := cmdReadAndClearLineCounters_cases s
    · exact hp.pending
    · rw [he]; rfl

/-- No row touches the rows that wait. -/
theorem RowResult.pending {s t : State} (h : RowResult s t) : t.pending = s.pending := by
  cases h with
  | same => rfl
  | port hp => exact hp.2.2
  | command code _ => exact (CommandResult.commandOf code { s with commandLost := false }).pending
  | txdata v => exact pending_writeTxdata v s
  | line l _ hstep => exact hstep.pending
  | grant => exact pending_postGrant s
  | softReset => rfl
  | hardwareReset => rfl

/-! ## The tick (R192) -/

theorem tickOpen_iff (ln : Line) : tickOpen ln = true ↔ Claims.TickOpen ln := by
  simp only [tickOpen, Bool.or_eq_true, leadDue_iff, trailDue_iff, breakDue_iff, holdTimeUp_iff, idleDue_iff, samplesDue_iff,
    Claims.TickOpen, or_assoc]

theorem tickTimer_eq (t : Option Nat) : tickTimer t = t.map (· - 1) := by
  cases t <;> rfl

/-! ## The command port (R184) -/

/-- A code that is in no row of the index. -/
theorem commandOf_unknown {code : Byte} (h : ∀ p ∈ Claims.commandRows, p.1 ≠ code) :
    commandOf code = complete .badCommand := by
  have hne (b : Byte) (hb : b ∈ Claims.commandRows.map Prod.fst) : code.toNat ≠ b.toNat := fun he => by
    obtain ⟨p, hp, rfl⟩ := List.mem_map.mp hb
    exact h p hp (BitVec.eq_of_toNat_eq he.symm)
  have hall : ∀ n ∈ (Claims.commandRows.map Prod.fst).map BitVec.toNat, code.toNat ≠ n := fun n hn => by
    obtain ⟨b, hb, rfl⟩ := List.mem_map.mp hn
    exact hne b hb
  unfold commandOf
  split
  case h_38 => rfl
  all_goals
    next hc => exact absurd hc (hall _ (by decide))

theorem commandWrite_ne {code : Byte} (h : code ≠ 0xA5) (s : State) :
    commandWrite code s = hostCommand (commandOf code) s := if_neg h

theorem commandRows_ne {p : Byte × Instr} (h : p ∈ Claims.commandRows) : p.1 ≠ 0xA5 := by
  revert p
  decide

/-! ## RESET_N low (R189) -/

theorem commandWrite_reset {s : State} (h : s.resetHeld = true) (code : Byte) : commandWrite code s = s := by
  unfold commandWrite
  split
  · exact unlessReset_reset h
  · exact hostCommand_reset h

theorem writeRegister_reset {s : State} (h : s.resetHeld = true) (a : BitVec 4) (v : Byte) : writeRegister a v s = s := by
  unfold writeRegister
  split
  · exact commandWrite_reset h v
  all_goals first | exact unlessReset_reset h | rfl

/-- A row other than a reset's and the read of RXDATA. -/
theorem exec_reset_held {s : State} (h : s.resetHeld = true) {c : Instr} (hhard : c ≠ .hardwareReset) (hend : c ≠ .resetEnd)
    (hread : c ≠ .rxdataRead) : exec c s = .next s := by
  by_cases hc : c ∈ Claims.commandRows.map Prod.snd
  · obtain ⟨p, hp, rfl⟩ := List.mem_map.mp hc
    rw [exec_commandRow hp, hostCommand_reset h]
  · cases c
    case hardwareReset => exact absurd rfl hhard
    case resetEnd => exact absurd rfl hend
    case rxdataRead => exact absurd rfl hread
    case badCommand code => exact congrArg _ (commandWrite_reset h code)
    case commandLost code => exact congrArg _ (commandWrite_reset h code)
    case registerWrite a v => exact congrArg _ (writeRegister_reset h a v)
    all_goals first | exact absurd (by decide) hc | exact congrArg _ (unlessReset_reset h)

/-! ## Registers (R182) -/

theorem readRegister_running {s : State} (h : s.resetHeld = false) (a : BitVec 4) :
    readRegister s a = readRegister { s with resetHeld := false } a := by
  rw [← h]

theorem getLsbD_bit {n : Nat} (b : Bool) (hn : n < 8) (i : Nat) : (bit b n).getLsbD i = (decide (n = i) && b) := by
  cases b <;> simp [bit, BitVec.getLsbD_twoPow, hn]

theorem getD_of_length_le (bs : List Bool) {i : Nat} (h : bs.length ≤ i) : bs.getD i false = false := by
  rw [List.getD_eq_getElem?_getD, List.getElem?_eq_none h, Option.getD_none]

/-- The places of a byte's bits. -/
theorem bit_places {i : Nat} (h : i < 8) : i = 0 ∨ i = 1 ∨ i = 2 ∨ i = 3 ∨ i = 4 ∨ i = 5 ∨ i = 6 ∨ i = 7 := by omega

/-- Eight flags as the bits of a byte. -/
theorem getLsbD_bits (b0 b1 b2 b3 b4 b5 b6 b7 : Bool) (i : Nat) :
    (bit b7 7 ||| bit b6 6 ||| bit b5 5 ||| bit b4 4 ||| bit b3 3 ||| bit b2 2 ||| bit b1 1 ||| bit b0 0).getLsbD i =
      [b0, b1, b2, b3, b4, b5, b6, b7].getD i false := by
  simp only [BitVec.getLsbD_or, getLsbD_bit _ (by decide : 7 < 8), getLsbD_bit _ (by decide : 6 < 8),
    getLsbD_bit _ (by decide : 5 < 8), getLsbD_bit _ (by decide : 4 < 8), getLsbD_bit _ (by decide : 3 < 8),
    getLsbD_bit _ (by decide : 2 < 8), getLsbD_bit _ (by decide : 1 < 8), getLsbD_bit _ (by decide : 0 < 8)]
  obtain hi | hi := Nat.lt_or_ge i 8
  · obtain rfl | rfl | rfl | rfl | rfl | rfl | rfl | rfl := bit_places hi
    all_goals simp
  · rw [getD_of_length_le _ hi]
    simp only [Bool.or_eq_false_iff, Bool.and_eq_false_iff, decide_eq_false_iff_not]
    omega

theorem bit_false (n : Nat) : bit false n = 0#8 := rfl

/-- A word is not 0 exactly when one of its bits is set. -/
theorem ne_zero_iff_getLsbD {w : Nat} (x : BitVec w) : x ≠ 0 ↔ ∃ i, x.getLsbD i = true := by
  constructor
  · intro hx
    refine Classical.byContradiction fun hall => ?_
    simp only [not_exists, Bool.not_eq_true] at hall
    exact hx (BitVec.eq_of_getLsbD_eq fun i _ => by simp [hall i])
  · rintro ⟨i, hi⟩ rfl
    simp at hi

/-- The low four bits of TXSTATUS are the window's line, the high four its flags (R64). -/
theorem txstatus_line (a b c d : Bool) (l : Fin 16) :
    (bit a 7 ||| bit b 6 ||| bit c 5 ||| bit d 4 ||| byte l.val).toNat % 16 = l.val := by
  revert a b c d l
  decide

theorem getLsbD_byte_line (l : Fin 16) (i : Nat) : (byte l.val).getLsbD (4 + i) = false := by
  have hl := l.isLt
  have : (byte l.val).toNat < 2 ^ (4 + i) := by
    simp only [byte, BitVec.toNat_ofNat]
    calc l.val % 2 ^ 8 ≤ l.val := Nat.mod_le _ _
      _ < 2 ^ 4 := hl
      _ ≤ 2 ^ (4 + i) := Nat.pow_le_pow_right (by decide) (Nat.le_add_right _ _)
  exact Nat.testBit_lt_two_pow this

theorem getLsbD_txstatus (s : State) (i : Nat) :
    (txstatus s).getLsbD (4 + i) = [s.blockFull, s.lastRefused, s.noCell, s.windowLost].getD i false := by
  rw [txstatus, BitVec.getLsbD_or, getLsbD_byte_line, Bool.or_false]
  have h := getLsbD_bits false false false false s.blockFull s.lastRefused s.noCell s.windowLost (4 + i)
  simpa only [bit_false, BitVec.or_zero, Nat.add_comm 4 i, List.getD_cons_succ] using h

theorem getLsbD_intpend (s : State) (i : Nat) : (intpend s).getLsbD i =
    [!s.queue.isEmpty, s.pendCommand, s.pendCapture, s.pendError, s.pendPool, s.pendWindow].getD i false := by
  have h := getLsbD_bits (!s.queue.isEmpty) s.pendCommand s.pendCapture s.pendError s.pendPool s.pendWindow false false i
  simp only [bit_false, BitVec.zero_or] at h
  refine h.trans ?_
  obtain hi | hi := Nat.lt_or_ge i 8
  · obtain rfl | rfl | rfl | rfl | rfl | rfl | rfl | rfl := bit_places hi
    all_goals rfl
  · rw [getD_of_length_le _ hi, getD_of_length_le _ (Nat.le_trans (by decide : 6 ≤ 8) hi)]

/-- The head registers' codes, which are sums in the spec and unions of bits in the model (section 10.1). -/
theorem recordDetail_eq {n : Nat} (hn : n ≤ 64) (e : Bool) :
    byte n ||| bit e 7 = byte (n + if e = true then 128 else 0) := by
  have hall : ∀ n < 65, ∀ e : Bool, byte n ||| bit e 7 = byte (n + if e = true then 128 else 0) := by decide
  exact hall n (Nat.lt_succ_of_le hn) e

/-- A lost count sets the upper bit beside the cause (R24). -/
theorem causeCode_lost (c : Cause) : c.code ||| bit true 7 = c.code + 128#8 := by
  cases c <;> decide

theorem changeSetCode_eq (c : ChangeSet) : changeSetCode c =
    byte ((if c.cts = true then 1 else 0) + (if c.dcd = true then 2 else 0) + (if c.holdExpired = true then 4 else 0)
      + (if c.lineCleared = true then 8 else 0)) := by
  obtain ⟨cts, dcd, hold, cleared⟩ := c
  revert cts dcd hold cleared
  decide

theorem levelCodes_eq (a b : Level) : levelCode a + 2 * levelCode b =
    byte ((if a = .asserted then 1 else 0) + (if b = .asserted then 2 else 0)) := by
  cases a <;> cases b <;> rfl

theorem matchedDetail_eq (n : MatchNo) (d : Direction) :
    byte n.val + 8 * d.code = byte (n.val + if d = .tx then 8 else 0) := by
  have hall : ∀ n : Fin 8, ∀ b : Bool, byte n.val + 8 * (if b = true then Direction.tx else .rx).code =
    byte (n.val + if b = true then 8 else 0) := by decide
  cases d
  · exact hall n false
  · exact hall n true

theorem kind_eq (k : Nat) (l : LineNo) : byte (l.val + k) = byte (k + l.val) := by rw [Nat.add_comm]

/-- The four head registers with an entry at the head. -/
theorem headRegisters_of_entry {s : State} {e : Entry} {rest : List Entry} (hrun : s.resetHeld = false)
    (hq : s.queue = e :: rest) :
    (readRegister s 10, readRegister s 11, readRegister s 12, readRegister s 13) = entryHead e := by
  have hhead : headRegisters s = entryHead e := by rw [headRegisters, hq]
  simp [readRegister, hrun, hhead]

/-! ## The resets (R189, R190) -/

/-- The state after a hardware reset, whatever of the model's own it keeps: RESET_N, the draw counter, the rows that wait. -/
theorem resetValues (held : Bool) (n : Nat) (rows : List Instr) :
    Claims.ResetValues { State.reset with resetHeld := held, freeCtr := n, pending := rows } where
  freeList := rfl
  descs d := by
    have h : State.desc { State.reset with resetHeld := held, freeCtr := n, pending := rows } d = .unused := desc_reset d
    rw [h]; rfl
  limits := ⟨rfl, rfl⟩
  queue := ⟨rfl, rfl, rfl, rfl⟩
  window := ⟨rfl, rfl, rfl, rfl, rfl, rfl⟩
  lines l := line_reset l
  table k := by simp [State.matchEntry, State.reset]; rfl
  capture := rfl
  errors := ⟨rfl, rfl, rfl⟩
  port := ⟨rfl, rfl, rfl, rfl, rfl, rfl, rfl⟩
  interrupts := ⟨rfl, rfl, rfl, rfl, rfl, rfl⟩
  reads a := by
    cases held
    · have hall : ∀ a : BitVec 4, readRegister State.reset a = 0 := by decide
      exact hall a
    · rfl
  irq := by
    cases held
    · have h : irqLow State.reset = false := by decide
      exact h
    · rfl
  pins l := by
    have h : State.line { State.reset with resetHeld := held, freeCtr := n, pending := rows } l = Line.reset := line_reset l
    rw [h]
    exact ⟨rfl, rfl, rfl⟩

end Sys2Proof.Machine

namespace Sys2Proof.Claims

open Sys2Proof.Machine

/-- Settles O1. -/
theorem stepRunsTheFrontCommand : Obligations.StepRunsTheFrontCommand := fun _ _ _ => rfl

/-- Settles O2: an empty queue makes the step a tick, which waits for the tick before it. -/
theorem emptyQueueStepIsOneTick : Obligations.EmptyQueueStepIsOneTick := by
  intro s hempty
  have hstep : step s = .next (tick s) := by rw [step, hempty]
  have hnone (h : ∀ l, ¬TickOpen (s.line l)) (l : LineNo) : tickOpen (s.line l) = false := by
    rw [← Bool.not_eq_true, tickOpen_iff]
    exact h l
  rw [hstep]
  refine ⟨fun hreset => ?reset, fun hopen => ?waits, fun hrun hclosed => ?ticks⟩
  case reset => rw [tick, unlessReset_reset hreset]
  case waits =>
    obtain ⟨l, hl⟩ := hopen
    obtain ⟨he, -⟩ | ⟨-, -, hclosed⟩ := tick_cases s
    · rw [he]
    · exact absurd ((tickOpen_iff _).mpr hl) (by simp [hclosed l])
  case ticks =>
    obtain ⟨-, hr | ⟨l, hl⟩⟩ | ⟨he, -, -⟩ := tick_cases s
    · simp [hrun] at hr
    · simp [hnone hclosed l] at hl
    · rw [he]
      refine congrArg (fun f : Line → Line => (.next { s with lines := s.lines.map f } : Host.Outcome State Fault Refusal))
        (funext fun ln => ?_)
      simp only [tickLine, tickTimer_eq, tickQualifier]
      cases ln.tx.breakTimer <;> rfl

/-- Settles O3: what a row does leaves the waiting rows alone, row by row. -/
theorem everyRowGoesOn : Obligations.EveryRowGoesOn := fun c s => by
  obtain ⟨t, ht⟩ := exec_goes_on c s
  exact ⟨t, ht, (rowResult_of_exec ht).pending⟩

/-- Settles O4: every COMMAND write is one function of its code. -/
theorem commandWriteByItsCode : Obligations.CommandWriteByItsCode := by
  intro s hrun
  have hlost (code : Byte) : exec (.commandLost code) s = .next (commandWrite code s) := rfl
  have hbad (code : Byte) : exec (.badCommand code) s = .next (commandWrite code s) := rfl
  refine ⟨rfl, fun hbusy => ?busy, fun hfree => ?free⟩
  case busy =>
    obtain ⟨b, hb⟩ := Option.isSome_iff_exists.mp hbusy
    refine ⟨fun p hp => ?_, fun code hc => ?_⟩
    · rw [exec_commandRow hp, hostCommand_busy hrun hb]
    · rw [hlost, hbad, commandWrite_ne hc, hostCommand_busy hrun hb]
      exact ⟨rfl, rfl⟩
  case free =>
    refine ⟨fun p hp => ?_, fun code hknown hc => ?_⟩
    · rw [hlost, exec_commandRow hp, commandWrite_ne (commandRows_ne hp)]
    · rw [hlost, hbad, commandWrite_ne hc, hostCommand_ready hrun hfree, commandOf_unknown hknown]
      exact ⟨rfl, rfl⟩

/-- Settles O5. -/
theorem softResetClearsTheTraffic : Obligations.SoftResetClearsTheTraffic := by
  intro s hrun
  refine ⟨Vector.replicate 32 .unused, fun d => by simp [Descriptor.unused], ?_⟩
  have hexec : exec .softReset s = .next (unlessReset cmdSoftReset s) := rfl
  rw [hexec, unlessReset_running hrun]
  rfl

/-- Settles O6: the reset's state has the reset values whatever RESET_N is. -/
theorem hardwareResetAndItsEnd : Obligations.HardwareResetAndItsEnd :=
  ⟨fun s => ⟨hardwareReset s, rfl, rfl, resetValues true s.freeCtr s.pending, rfl, resetValues false s.freeCtr s.pending, rfl⟩,
    resetValues false 0 [], rfl, rfl⟩

/-- Settles O7. -/
theorem nothingActsWhileResetIsHeld : Obligations.NothingActsWhileResetIsHeld := by
  refine fun s h => ⟨fun c hhard hend hread => exec_reset_held h hhard hend hread, ?_, fun a => ?_, ?_⟩
  · change execRxdataRead s = _
    rw [execRxdataRead, if_pos h]
  · rw [readRegister, if_pos h]
  · rw [irqLow, h]; rfl

/-- Settles O8. -/
theorem interruptRegisterWrites : Obligations.InterruptRegisterWrites := by
  intro s v hrun
  have hpend : exec (.intpendWrite v) s = .next (unlessReset (writeIntpend v) s) := rfl
  have hen : exec (.intenWrite v) s = .next (unlessReset (writeInten v) s) := rfl
  rw [hpend, hen, unlessReset_running hrun, unlessReset_running hrun]
  refine ⟨rfl, rfl, ?_⟩
  have h14 : readRegister s 14 = intpend s := by rw [readRegister, hrun]; rfl
  have h15 : readRegister s 15 = s.inten.setWidth 8 := by rw [readRegister, hrun]; rfl
  rw [h14, h15, irqLow, hrun]
  simp only [Bool.not_false, Bool.true_and, decide_eq_true_eq, ne_zero_iff_getLsbD, BitVec.getLsbD_and, Bool.and_eq_true]

/-- Settles O9. -/
theorem registerWrites : Obligations.RegisterWrites := by
  intro s v hrun
  have hexec (a : BitVec 4) : exec (.registerWrite a v) s = .next (writeRegister a v s) := rfl
  have hparam (f : State → State) : (.next (unlessReset f s) : Host.Outcome State Fault Refusal) = .next (f s) := by
    rw [unlessReset_running hrun]
  refine ⟨hparam fun t => { t with param0 := v }, hparam fun t => { t with param1 := v },
    hparam fun t => { t with param2 := v }, hparam fun t => { t with param3 := v }, fun a ha => ?_, rfl, rfl, rfl, rfl⟩
  rw [hexec]
  have hne : ∀ n ∈ ([0, 2, 3, 4, 5, 6, 14, 15] : List (BitVec 4)).map BitVec.toNat, a.toNat ≠ n := fun n hn he => by
    obtain ⟨b, hb, rfl⟩ := List.mem_map.mp hn
    exact ha (BitVec.eq_of_toNat_eq he ▸ hb)
  unfold writeRegister
  split
  case h_9 => rfl
  all_goals
    next hc => exact absurd hc (hne _ (by decide))

/-- Settles O10: each register is a union of bits, or one value of the state. -/
theorem registersShowTheState : Obligations.RegistersShowTheState := by
  intro s hrun
  have h0 : readRegister s 0 = status s := by rw [readRegister, hrun]; rfl
  have h7 : readRegister s 7 = txstatus s := by rw [readRegister, hrun]; rfl
  have h8 : readRegister s 8 = txcount s := by rw [readRegister, hrun]; rfl
  have h14 : readRegister s 14 = intpend s := by rw [readRegister, hrun]; rfl
  have hread (a : BitVec 4) (v : Byte) (h : readRegister { s with resetHeld := false } a = v) : readRegister s a = v :=
    (readRegister_running hrun a).trans h
  rw [h0, h7, h8, h14]
  refine ⟨fun i => ?status, fun i => ?flags, txstatus_line _ _ _ _ _, fun i => ?pend, ⟨hread _ _ rfl, hread _ _ rfl,
    hread _ _ rfl, hread _ _ rfl⟩, fun hw => ?closed, fun d hd => ?opened, hread _ _ rfl, hread _ _ rfl, hread _ _ ?result⟩
  case status => exact getLsbD_bits _ _ _ _ _ _ _ _ i
  case flags => exact getLsbD_txstatus s i
  case pend => exact getLsbD_intpend s i
  case closed => rw [txcount, hw]
  case opened => rw [txcount, hd]
  case result =>
    change s.result.code = _
    cases s.result <;> rfl

/-- Settles O11: with an entry at the head the registers are its codes. -/
theorem headRegistersPresentTheOldestEntry : Obligations.HeadRegistersPresentTheOldestEntry := by
  intro s hrun
  refine ⟨fun hq => ?_, fun l n c e cells rest hq hn => ?_, fun l n c e k cells rest hq hn => ?_, fun l tag o n rest hq => ?_,
    fun l c cts dcd rest hq => ?_, fun l n dir v hits rest hq => ?_⟩
  · have hhead : headRegisters s = (0, 0, 0, 0) := by rw [headRegisters, hq]
    simp [readRegister, hrun, hhead]
  · rw [headRegisters_of_entry hrun hq, entryHead, kind_eq, recordDetail_eq hn]
    cases c <;> rfl
  · rw [headRegisters_of_entry hrun hq, entryHead, kind_eq, recordDetail_eq hn, Option.isSome_some, causeCode_lost]
    cases c <;> rfl
  · rw [headRegisters_of_entry hrun hq, entryHead, kind_eq]
    cases o <;> rfl
  · rw [headRegisters_of_entry hrun hq, entryHead, kind_eq, changeSetCode_eq, levelCodes_eq]
  · rw [headRegisters_of_entry hrun hq, entryHead, kind_eq, matchedDetail_eq]

end Sys2Proof.Claims
end

section
/-! PROOFS. What rows leave alone, and what stays until the host clears it. -/

namespace Sys2Proof.Machine

/-! ## Commands that the port takes -/

section ready

variable {s : State} {c : Instr}

/-- A command that the port takes acts on the accepted state (R184). -/
theorem exec_ready {run : State → State} (hc : exec c s = .next (hostCommand run s)) (hready : Claims.Ready s) :
    exec c s = .next (run { s with commandLost := false }) := by
  rw [hc, hostCommand_ready hready.1 hready.2]

/-- A command that names a line in PARAM0. -/
theorem exec_lineCommand {k : LineNo → State → State} {l : LineNo} (hc : exec c s = .next (hostCommand (withLine k) s))
    (hready : Claims.Ready s) (hl : Claims.Names s.param0 l) : exec c s = .next (k l { s with commandLost := false }) := by
  rw [exec_ready hc hready, withLine_of_line (s := { s with commandLost := false }) hl]

theorem exec_lineCommand_no_line {k : LineNo → State → State} (hc : exec c s = .next (hostCommand (withLine k) s))
    (hready : Claims.Ready s) (h : 16 ≤ s.param0.toNat) : exec c s = .next (Claims.done .badParam s) := by
  rw [exec_ready hc hready, withLine_no_line (s := { s with commandLost := false }) h]
  rfl

end ready

/-! ## What a row on one line leaves alone -/

/-- What an operation on the side of a line leaves alone even where it stores a character. -/
structure SideStep (l : LineNo) (s t : State) : Prop where
  kept : t.kept = s.kept
  others : ∀ k, k ≠ l → t.line k = s.line k
  cfg : (t.line l).cfg = (s.line l).cfg
  front : (t.line l).tx.queue <:+ (s.line l).tx.queue
  descs : ∀ d, d ∉ (s.line l).tx.queue → t.desc d = s.desc d
  entries : s.queue <+: t.queue
  patterns : ∀ n, (t.matchEntry n).pattern = (s.matchEntry n).pattern

theorem SideStep.trans {l : LineNo} {s t u : State} (h : SideStep l s t) (k : SideStep l t u) : SideStep l s u where
  kept := k.kept.trans h.kept
  others j hj := (k.others j hj).trans (h.others j hj)
  cfg := k.cfg.trans h.cfg
  front := k.front.trans h.front
  descs d hd := (k.descs d fun hm => hd (h.front.subset hm)).trans (h.descs d hd)
  entries := h.entries.trans k.entries
  patterns n := (k.patterns n).trans (h.patterns n)

theorem LineStep.side {l : LineNo} {s t : State} (h : LineStep l s t) : SideStep l s t :=
  ⟨h.kept, h.others, h.cfg, h.front, h.descs, h.entries, h.patterns⟩

theorem sideStep_storeChar (l : LineNo) (cells : List CellNo) (pos : Nat) (v : Byte) (s : State) :
    SideStep l s (storeChar cells pos v s) := by
  rw [storeChar_eq]
  exact ⟨rfl, fun _ _ => rfl, rfl, List.suffix_refl _, fun _ _ => rfl, List.prefix_refl _, fun _ => rfl⟩

theorem TakeStep.side {l : LineNo} {s t : State} (h : TakeStep l s t) : SideStep l s t := by
  obtain h | ⟨u, cells, pos, v, h1, h2⟩ := h
  · exact h.side
  · exact (h1.side.trans (sideStep_storeChar l cells pos v u)).trans h2.side

/-- The patterns field by field. -/
theorem pattern_fields {a b : MatchEntry} (h : b.pattern = a.pattern) : b.enabled = a.enabled ∧ b.value = a.value ∧
    b.mask = a.mask ∧ b.lines = a.lines ∧ b.direction = a.direction ∧ b.action = a.action := by
  simp only [MatchEntry.pattern, MatchEntry.mk.injEq] at h
  obtain ⟨he, hv, hm, hl, hd, ha, -, -⟩ := h
  exact ⟨he, hv, hm, hl, hd, ha⟩

theorem SideStep.leavesTheRest {l : LineNo} {s t : State} (h : SideStep l s t) (hhead : HeadStays s t) :
    Claims.LeavesTheRest l s t := by
  have hkept := h.kept
  simp only [State.kept, Prod.mk.injEq] at hkept
  obtain ⟨hres, hlow, hptr, -, hwl, -, hlr, hnc, -, hsup, h0, h1, h2, h3, -, -, hinten, hread, hheld, hpend⟩ := hkept
  exact ⟨h.others, h.cfg, fun d hd _ => h.descs d hd, h.entries, fun hq => (hhead hq).2, fun n => pattern_fields (h.patterns n),
    ⟨h0, h1, h2, h3⟩, ⟨hres, hlow, hsup, hinten⟩, ⟨hwl, hlr, hnc, hread, hptr, hheld, hpend⟩⟩

theorem SideStep.leavesTheWindow {l : LineNo} {s t : State} (h : SideStep l s t) : Claims.LeavesTheWindow s t := by
  have hkept := h.kept
  simp only [State.kept, Prod.mk.injEq] at hkept
  obtain ⟨-, -, -, hw, -, hbf, -, -, hwl, -, -, -, -, -, -, hpw, -⟩ := hkept
  exact ⟨hw, hbf, hwl, hpw⟩

theorem SideStep.commandLost {l : LineNo} {s t : State} (h : SideStep l s t) : t.commandLost = s.commandLost := by
  have hkept := h.kept
  simp only [State.kept, Prod.mk.injEq] at hkept
  obtain ⟨-, -, -, -, -, -, -, -, -, -, -, -, -, -, hlost, -⟩ := hkept
  exact hlost

/-- COMMAND_LOST is none of what the rows on a line are said to leave alone. -/
theorem leavesTheRest_of_accepted {l : LineNo} {s t : State} (h : Claims.LeavesTheRest l { s with commandLost := false } t) :
    Claims.LeavesTheRest l s t :=
  ⟨h.others, h.cfg, h.descs, h.entries, h.head, h.patterns, h.params, h.settings, h.port⟩

theorem leavesTheWindow_of_accepted {s t : State} (h : Claims.LeavesTheWindow { s with commandLost := false } t) :
    Claims.LeavesTheWindow s t := ⟨h.window, h.flags⟩

/-- The three commands of a transmitter, on the line that they name. -/
theorem onEnabled_steps {k : LineNo → State → State} (h : ∀ l s, FitStep l s (k l s) ∧ LineStep l s (k l s)) (l : LineNo)
    (s : State) : FitStep l s (onEnabled k l s) ∧ LineStep l s (onEnabled k l s) := by
  unfold onEnabled
  split
  · exact ⟨.complete l s, .complete l s⟩
  · exact ⟨.complete l s, .complete l s⟩
  · exact ⟨.complete l s, .complete l s⟩
  · exact h l s

theorem transmitterCommand_steps {c : Instr} (hc : c ∈ [Instr.haltLine, .resumeLine, .flushLine]) {s t : State} {l : LineNo}
    (hready : Claims.Ready s) (hl : s.param0.toNat = l.val) (h : exec c s = .next t) :
    FitStep l { s with commandLost := false } t ∧ LineStep l { s with commandLost := false } t := by
  have hcommand {k : LineNo → State → State} (hk : ∀ l s, FitStep l s (k l s) ∧ LineStep l s (k l s))
      (hc : exec c s = .next (hostCommand (withLine (onEnabled k)) s)) :
      FitStep l { s with commandLost := false } t ∧ LineStep l { s with commandLost := false } t := by
    rw [exec_lineCommand hc hready hl] at h
    cases h
    exact onEnabled_steps hk l _
  simp only [List.mem_cons, List.not_mem_nil, or_false] at hc
  obtain rfl | rfl | rfl := hc
  · exact hcommand (fun l s => haltLine_steps s l) rfl
  · exact hcommand (fun l s => resumeLine_steps s l) rfl
  · exact hcommand (fun l s => flushLine_steps s l) rfl

/-- The loss of the window leaves everything but the window and its block alone. -/
theorem leavesTheRest_loseWindow (l : LineNo) (s : State) : Claims.LeavesTheRest l s (loseWindow l s) := by
  obtain ⟨he, -⟩ | ⟨d, hd, -, he⟩ := loseWindow_eq s l
  · rw [he]
    exact (LineStep.refl l s).side.leavesTheRest (.of_eq rfl rfl rfl)
  · rw [he]
    refine ⟨fun _ _ => rfl, rfl, fun e _ hw => ?_, List.prefix_refl _, fun _ => ⟨rfl, rfl⟩,
      fun _ => ⟨rfl, rfl, rfl, rfl, rfl, rfl⟩, ⟨rfl, rfl, rfl, rfl⟩, ⟨rfl, rfl, rfl, rfl⟩, ⟨rfl, rfl, rfl, rfl, rfl, rfl, rfl⟩⟩
    exact desc_setDesc_ne s d e _ fun hed => hw (hed ▸ hd)

theorem queue_loseWindow (l : LineNo) (s : State) : (loseWindow l s).queue = s.queue := by
  obtain ⟨he, -⟩ | ⟨d, -, -, he⟩ := loseWindow_eq s l
  · rw [he]
  · rw [he]; rfl

theorem mem_loseWindow (l : LineNo) (s : State) : (loseWindow l s).mem = s.mem := by
  obtain ⟨he, -⟩ | ⟨d, -, -, he⟩ := loseWindow_eq s l
  · rw [he]
  · rw [he]; rfl

theorem window_loseWindow (l : LineNo) (s : State) : (loseWindow l s).window = s.window ∨ (loseWindow l s).window = none := by
  obtain ⟨he, -⟩ | ⟨d, -, -, he⟩ := loseWindow_eq s l <;> rw [he]
  · exact .inl rfl
  · exact .inr rfl

theorem Leaves.leavesTheRest {l : LineNo} {s t : State} (h : Leaves l (loseWindow l s) t) : Claims.LeavesTheRest l s t := by
  have hlose := leavesTheRest_loseWindow l s
  have hstep := h.bounds.side.leavesTheRest h.traffic.head
  have hpat (n : MatchNo) := hlose.patterns n
  refine { others := fun k hk => (hstep.others k hk).trans (hlose.others k hk), cfg := hstep.cfg.trans hlose.cfg
           descs := fun d hd hw => ?_, entries := hlose.entries.trans hstep.entries, head := fun hq => ?_, patterns := fun n => ?_
           params := ?_, settings := ?_, port := ?_ }
  · refine (hstep.descs d (by rwa [line_loseWindow]) ?_).trans (hlose.descs d hd hw)
    obtain hsame | hnone := window_loseWindow l s
    · rwa [hsame]
    · simp [hnone]
  · obtain ⟨h1, h2⟩ := hstep.head (by rwa [queue_loseWindow])
    obtain ⟨k1, k2⟩ := hlose.head hq
    exact ⟨h1.trans k1, h2.trans k2⟩
  · obtain ⟨a1, a2, a3, a4, a5, a6⟩ := hstep.patterns n
    obtain ⟨b1, b2, b3, b4, b5, b6⟩ := hlose.patterns n
    exact ⟨a1.trans b1, a2.trans b2, a3.trans b3, a4.trans b4, a5.trans b5, a6.trans b6⟩
  · obtain ⟨a1, a2, a3, a4⟩ := hstep.params
    obtain ⟨b1, b2, b3, b4⟩ := hlose.params
    exact ⟨a1.trans b1, a2.trans b2, a3.trans b3, a4.trans b4⟩
  · obtain ⟨a1, a2, a3, a4⟩ := hstep.settings
    obtain ⟨b1, b2, b3, b4⟩ := hlose.settings
    exact ⟨a1.trans b1, a2.trans b2, a3.trans b3, a4.trans b4⟩
  · obtain ⟨a1, a2, a3, a4, a5, a6, a7⟩ := hstep.port
    obtain ⟨b1, b2, b3, b4, b5, b6, b7⟩ := hlose.port
    exact ⟨a1.trans b1, a2.trans b2, a3.trans b3, a4.trans b4, a5.trans b5, a6.trans b6, a7.trans b7⟩

/-- RESTART LINE and DISABLE LINE, on the line that they name. -/
theorem leavesTheRest_of_leaving {f : State → State} {l : LineNo} {s : State}
    (h : (∃ r, f s = complete r s) ∨ Leaves l (loseWindow l s) (f s)) :
    Claims.LeavesTheRest l s (f s) ∧ (f s).mem = s.mem := by
  obtain ⟨r, he⟩ | h := h
  · rw [he]
    exact ⟨(LineStep.complete l s).side.leavesTheRest (.of_eq rfl rfl rfl), rfl⟩
  · exact ⟨h.leavesTheRest, h.bounds.mem.trans (mem_loseWindow l s)⟩

/-! ## What stays until the host clears it (R22, R162, R172, R187) -/

/-- A change of none of these, COMMAND pending apart. -/
theorem Keeps.same {s t : State} (hcapture : t.capture = s.capture := by rfl) (herror : t.errorRec = s.errorRec := by rfl)
    (hpend : (t.pendCapture, t.pendError, t.pendPool, t.pendWindow) = (s.pendCapture, s.pendError, s.pendPool, s.pendWindow)
      := by rfl)
    (hcommand : s.pendCommand = true → t.pendCommand = true := by exact id) (hqueue : t.queue = s.queue := by rfl) :
    Keeps s t := by
  simp only [Prod.mk.injEq] at hpend
  obtain ⟨h1, h2, h3, h4⟩ := hpend
  exact ⟨hcapture ▸ .refl _, herror ▸ .refl _, hcommand, fun h => h1.trans h, fun h => h2.trans h, fun h => h3.trans h,
    fun h => h4.trans h, ⟨[], by rw [List.append_nil, hqueue]⟩⟩

theorem TakeStep.keeps {l : LineNo} {s t : State} (h : TakeStep l s t) : Keeps s t := by
  obtain h | ⟨u, cells, pos, v, h1, h2⟩ := h
  · exact h.keeps
  · have hstore : Keeps u (storeChar cells pos v u) := by
      rw [storeChar_eq]
      exact .same
    exact (h1.keeps.trans hstore).trans h2.keeps

theorem keeps_loseWindow (l : LineNo) (s : State) : Keeps s (loseWindow l s) := by
  obtain ⟨he, -⟩ | ⟨d, -, -, he⟩ := loseWindow_eq s l <;> rw [he]
  · exact .refl s
  · exact ⟨.refl _, .refl _, id, id, id, id, fun _ => rfl, List.prefix_refl _⟩

theorem keeps_complete (r : ResultCode) (s : State) : Keeps s (complete r s) := (LineStep.complete 0 s).keeps

theorem keeps_postGrant (s : State) : Keeps s (postGrant s) := by
  unfold postGrant
  split
  · next hfree =>
    split
    · next src _ =>
      have hgrant : Keeps s (grantTo src s) := by
        unfold grantTo
        split
        · exact (LineStep.grantLine hfree).keeps
        · exact (LineStep.grantMatch 0 hfree).keeps
      exact hgrant.trans .same
    · exact .refl s
  · exact .refl s

/-- Every command but RELEASE HEAD, CLEAR CAPTURE and CLEAR ERROR RECORD. -/
theorem CommandResult.keeps {code : Byte} {s t : State} (h : CommandResult code s t)
    (hcode : code.toNat ∉ [0x18, 0x59, 0x65]) : Keeps s t := by
  cases h with
  | host hp => exact hp.keeps
  | line l _ hstep => exact hstep.keeps
  | openBlock =>
    obtain ⟨r, he⟩ | ⟨l, d, tag, report, units, -, -, he⟩ := cmdOpenBlock_cases s <;> rw [he]
    · exact keeps_complete r s
    · exact .same (hcommand := fun _ => rfl)
  | closeBlock =>
    obtain he | ⟨d, -, he⟩ := cmdCloseBlock_cases s <;> rw [he]
    · exact keeps_complete _ s
    · have hcommit : Keeps s (committed d s) := .same
      exact (hcommit.trans (LineStep.commitChoice _).keeps).trans (keeps_complete _ _)
  | discardBlock =>
    unfold cmdDiscardBlock
    split
    · exact keeps_complete _ s
    · exact .same (hcommand := fun _ => rfl)
  | releaseHead hc => exact absurd hc (by rintro h; simp [h] at hcode)
  | configure coding =>
    obtain hp | ⟨l, cfg, -, -, he⟩ := cmdConfigure_cases s coding
    · exact hp.keeps
    · rw [he]; exact .same (hcommand := fun _ => rfl)
  | enableLine =>
    obtain hp | ⟨l, -, he⟩ := cmdEnableLine_cases s
    · exact hp.keeps
    · rw [he]; exact .same (hcommand := fun _ => rfl)
  | restartLine =>
    obtain hp | ⟨l, hl⟩ := cmdRestartLine_cases s
    · exact hp.keeps
    · exact (keeps_loseWindow l s).trans hl.bounds.keeps
  | disableLine =>
    obtain hp | ⟨l, hl⟩ := cmdDisableLine_cases s
    · exact hp.keeps
    · exact (keeps_loseWindow l s).trans hl.bounds.keeps
  | clearCapture hc => exact absurd hc (by rintro h; simp [h] at hcode)
  | clearErrorRecord hc => exact absurd hc (by rintro h; simp [h] at hcode)
  | readAndClear =>
    obtain hp | ⟨l, he⟩ := cmdReadAndClearLineCounters_cases s
    · exact hp.keeps
    · rw [he]; exact .same (hcommand := fun _ => rfl)

theorem keeps_hostCommand {code : Byte} (hcode : code.toNat ∉ [0x18, 0x59, 0x65]) (s : State) :
    Keeps s (hostCommand (commandOf code) s) := by
  unfold hostCommand
  split
  · exact .refl s
  split
  · exact .same
  · have hlost : Keeps s { s with commandLost := false } := .same
    exact hlost.trans ((CommandResult.commandOf code _).keeps hcode)

theorem keeps_acceptByte (d : DescNo) (v : Byte) (s : State) : Keeps s (acceptByte d v s) := by
  rw [acceptByte_eq]
  exact .same

theorem keeps_writeTxdata (v : Byte) (s : State) : Keeps s (writeTxdata v s) := by
  have hrefuse (b : Bool) : Keeps s (refuseByte b s) := .same
  unfold writeTxdata
  split
  · exact hrefuse _
  · next d _ =>
    simp only
    split
    · exact hrefuse _
    split
    · split
      · next c u hc =>
        have hset (ds : Descriptor) : Keeps u (u.setDesc d ds) := .same
        exact ((LineStep.takeCell 0 s hc).keeps.trans (hset _)).trans (keeps_acceptByte d v _)
      · exact hrefuse _
    · exact keeps_acceptByte d v s

theorem Keeps.unlessReset {f : State → State} {s : State} (h : Keeps s (f s)) : Keeps s (unlessReset f s) := by
  unfold Machine.unlessReset
  split
  · exact .refl s
  · exact h

/-- The four rows with which the host clears one of these. -/
def Clears (c : Instr) : Prop := c = .clearCapture ∨ c = .clearErrorRecord ∨ c = .releaseHead ∨ ∃ v, c = .intpendWrite v

theorem keeps_of_commandRow {c : Instr} (hrow : c ∈ Claims.commandRows.map Prod.snd) (hclear : ¬Clears c) {s t : State}
    (h : exec c s = .next t) : Keeps s t := by
  obtain ⟨p, hp, rfl⟩ := List.mem_map.mp hrow
  rw [exec_commandRow hp] at h
  cases h
  refine keeps_hostCommand (fun hcode => hclear ?_) s
  have hrows : ∀ p ∈ Claims.commandRows, p.1.toNat ∈ [0x18, 0x59, 0x65] →
      p.2 = .clearCapture ∨ p.2 = .clearErrorRecord ∨ p.2 = .releaseHead := by decide
  obtain hc | hc | hc := hrows p hp hcode
  · exact .inl hc
  · exact .inr (.inl hc)
  · exact .inr (.inr (.inl hc))

/-- A write to a PARAM register or to a read-only address. -/
theorem keeps_writeRegister {a : BitVec 4} (ha : a ∉ ownRowAddresses) (v : Byte) (s : State) :
    Keeps s (writeRegister a v s) := by
  have hne : ∀ n ∈ ownRowAddresses.map BitVec.toNat, a.toNat ≠ n := fun n hn he => by
    obtain ⟨b, hb, rfl⟩ := List.mem_map.mp hn
    exact ha (BitVec.eq_of_toNat_eq he ▸ hb)
  have hparam {f : State → State} (h : Keeps s (f s)) : Keeps s (unlessReset f s) := h.unlessReset
  unfold writeRegister
  split
  case h_1 hc => exact absurd hc (hne 0 (by decide))
  case h_6 hc => exact absurd hc (hne 6 (by decide))
  case h_7 hc => exact absurd hc (hne 14 (by decide))
  case h_8 hc => exact absurd hc (hne 15 (by decide))
  case h_9 => exact .refl s
  all_goals exact hparam .same

/-- Every row that is not one of the four, on its own operands, but for the resets. -/
theorem keeps_of_exec {c : Instr} {s t : State} (h : exec c s = .next t) (hwf : c.wellFormed = true)
    (hlost : ∀ code, c = .commandLost code → s.busy.isSome) (hsoft : c ≠ .softReset) (hhard : c ≠ .hardwareReset)
    (hclear : ¬Clears c) : Keeps s t := by
  by_cases hev : ∃ l, Claims.lineOfEvent c = some l
  · obtain ⟨l, hl⟩ := hev
    obtain ⟨-, hstep, -⟩ := eventStep_of_exec hl h
    exact hstep.keeps
  · by_cases hrow : c ∈ Claims.commandRows.map Prod.snd
    · exact keeps_of_commandRow hrow hclear h
    · have hsame {u : State} (hu : Keeps s u) (he : (.next u : Host.Outcome State Fault Refusal) = .next t) : Keeps s t := by
        cases he
        exact hu
      cases c
      case softReset => exact absurd rfl hsoft
      case hardwareReset => exact absurd rfl hhard
      case intpendWrite v => exact absurd (.inr (.inr (.inr ⟨v, rfl⟩))) hclear
      case badCommand code =>
        have hcode : code ∉ commandCodes := by simpa [Instr.wellFormed] using hwf
        have hne : ∀ n ∈ commandCodes.map BitVec.toNat, code.toNat ≠ n := fun n hn he => by
          obtain ⟨b, hb, rfl⟩ := List.mem_map.mp hn
          exact hcode (BitVec.eq_of_toNat_eq he ▸ hb)
        refine hsame ?_ h
        rw [commandWrite_ne fun he => hcode (by subst he; decide)]
        refine keeps_hostCommand (fun hmem => ?_) s
        have hsub : ∀ n ∈ [0x18, 0x59, 0x65], n ∈ commandCodes.map BitVec.toNat := by decide
        exact hne _ (hsub _ hmem) rfl
      case commandLost code =>
        obtain ⟨b, hb⟩ := Option.isSome_iff_exists.mp (hlost code rfl)
        have hcode : code ≠ 0xA5 := by simpa [Instr.wellFormed] using hwf
        refine hsame ?_ h
        rw [commandWrite_ne hcode]
        unfold hostCommand
        split
        · exact .refl s
        · rw [if_pos (by simp [hb])]
          exact .same
      case registerWrite a v =>
        have ha : a ∉ ownRowAddresses := by simpa [Instr.wellFormed] using hwf
        exact hsame (keeps_writeRegister ha v s) h
      case txdataWrite v => exact hsame (keeps_writeTxdata v s).unlessReset h
      case postGrant => exact hsame (keeps_postGrant s).unlessReset h
      case rxdataRead =>
        refine hsame ?_ h
        split
        · exact .same
        · unfold rxdataRead
          split <;> exact .same
      case intenWrite v =>
        have hw : Keeps s (writeInten v s) := .same
        exact hsame hw.unlessReset h
      case resetEnd => exact hsame (u := resetEnd s) .same h
      all_goals first | exact absurd (by decide) hrow | exact absurd ⟨_, rfl⟩ hev

/-- A capture record that CLEAR CAPTURE leaves alone, and so on: the part of `Keeps` that is none of the row's own. -/
structure KeepsBut (c : Instr) (s t : State) : Prop where
  capture : c ≠ .clearCapture → CaptureStep s.capture t.capture
  errorRec : c ≠ .clearErrorRecord → ErrorStep s.errorRec t.errorRec
  pend : (∀ v, c ≠ .intpendWrite v) → (s.pendCommand = true → t.pendCommand = true) ∧
    (s.pendCapture = true → t.pendCapture = true) ∧ (s.pendError = true → t.pendError = true) ∧
    (s.pendPool = true → t.pendPool = true) ∧ (s.pendWindow = true → t.pendWindow = true)
  entries : c ≠ .releaseHead → s.queue <+: t.queue

theorem Keeps.but {s t : State} (h : Keeps s t) (c : Instr) : KeepsBut c s t :=
  ⟨fun _ => h.capture, fun _ => h.errorRec, fun _ => ⟨h.pendCommand, h.pendCapture, h.pendError, h.pendPool, h.pendWindow⟩,
    fun _ => h.entries⟩

/-- A command row whose command keeps what is none of its own. -/
theorem keepsBut_of_command {c : Instr} {run : State → State} {s t : State} (hc : exec c s = .next (hostCommand run s))
    (hrun : ∀ u, KeepsBut c u (run u)) (h : exec c s = .next t) : KeepsBut c s t := by
  rw [hc] at h
  cases h
  unfold hostCommand
  split
  · exact (Keeps.refl s).but c
  split
  · exact (Keeps.same (t := { s with commandLost := true })).but c
  · obtain ⟨hcap, herr, hpend, hent⟩ := hrun { s with commandLost := false }
    exact ⟨hcap, herr, hpend, hent⟩

theorem keepsBut_clearCapture (s : State) : KeepsBut .clearCapture s (cmdClearCapture s) := by
  unfold cmdClearCapture
  split
  · exact ⟨fun h => absurd rfl h, fun _ => .refl _, fun _ => ⟨fun _ => rfl, id, id, id, id⟩, fun _ => List.prefix_refl _⟩
  · exact (keeps_complete _ s).but _
  · exact (keeps_complete _ s).but _

theorem keepsBut_clearErrorRecord (s : State) : KeepsBut .clearErrorRecord s (cmdClearErrorRecord s) := by
  unfold cmdClearErrorRecord
  split
  · exact ⟨fun _ => .refl _, fun h => absurd rfl h, fun _ => ⟨fun _ => rfl, id, id, id, id⟩, fun _ => List.prefix_refl _⟩
  · exact (keeps_complete _ s).but _
  · exact (keeps_complete _ s).but _

theorem keepsBut_releaseHead (s : State) : KeepsBut .releaseHead s (cmdReleaseHead s) := by
  obtain he | ⟨e, rest, -, he⟩ := cmdReleaseHead_cases s <;> rw [he]
  · exact (keeps_complete _ s).but _
  · have hgrant := (keeps_postGrant (dropHeadEntry e rest s)).trans (keeps_complete .ok _)
    exact ⟨fun _ => hgrant.capture, fun _ => hgrant.errorRec, fun _ => ⟨hgrant.pendCommand, hgrant.pendCapture,
      hgrant.pendError, hgrant.pendPool, hgrant.pendWindow⟩, fun h => absurd rfl h⟩

theorem keepsBut_intpendWrite (v : Byte) (s : State) : KeepsBut (.intpendWrite v) s (unlessReset (writeIntpend v) s) := by
  unfold unlessReset
  split
  · exact (Keeps.refl s).but _
  · exact ⟨fun _ => .refl _, fun _ => .refl _, fun h => absurd rfl (h v), fun _ => List.prefix_refl _⟩

theorem keepsBut_of_clears {c : Instr} {s t : State} (h : exec c s = .next t) (hclear : Clears c) : KeepsBut c s t := by
  obtain rfl | rfl | rfl | ⟨v, rfl⟩ := hclear
  · exact keepsBut_of_command rfl keepsBut_clearCapture h
  · exact keepsBut_of_command rfl keepsBut_clearErrorRecord h
  · exact keepsBut_of_command rfl keepsBut_releaseHead h
  · cases h
    exact keepsBut_intpendWrite v s

end Sys2Proof.Machine

namespace Sys2Proof.Claims

open Sys2Proof.Machine

/-- Settles O54: every such row is an operation of its line; the two commands that leave the line may lose the window first. -/
theorem rowsOfALineLeaveTheRestAlone : Obligations.RowsOfALineLeaveTheRestAlone := by
  intro s t c l h
  refine ⟨fun hl => ?event, fun hready hl hc => ?transmitter, fun hready hl hc => ?leaving⟩
  case event =>
    obtain ⟨hfit, htake, hstep⟩ := eventStep_of_exec hl h
    have hside := htake.side
    exact ⟨hside.leavesTheRest hfit.head, hside.leavesTheWindow, hside.commandLost, fun hc => (hstep hc).mem⟩
  case transmitter =>
    obtain ⟨hfit, hstep⟩ := transmitterCommand_steps hc hready hl h
    exact ⟨leavesTheRest_of_accepted (hstep.side.leavesTheRest hfit.head),
      leavesTheWindow_of_accepted hstep.side.leavesTheWindow, hstep.mem⟩
  case leaving =>
    have hcommand {k : LineNo → State → State}
        (hk : ∀ s, (∃ r, k l s = complete r s) ∨ Leaves l (loseWindow l s) (k l s))
        (hc : exec c s = .next (hostCommand (withLine k) s)) : LeavesTheRest l s t ∧ t.mem = s.mem := by
      rw [exec_lineCommand hc hready hl] at h
      cases h
      obtain ⟨hrest, hmem⟩ := leavesTheRest_of_leaving (hk { s with commandLost := false })
      exact ⟨leavesTheRest_of_accepted hrest, hmem⟩
    simp only [List.mem_cons, List.not_mem_nil, or_false] at hc
    obtain rfl | rfl := hc
    · exact hcommand (fun s => restartOn_cases s l) rfl
    · exact hcommand (fun s => disableOn_cases s l) rfl

/-- Settles O55: every row keeps these but the four with which the host clears one, and each of those keeps the others. -/
theorem recordsAndPendingBitsStay : Obligations.RecordsAndPendingBitsStay := by
  intro s t c h hwf hlost hsoft hhard
  have hbut : KeepsBut c s t := by
    by_cases hclear : Clears c
    · exact keepsBut_of_clears h hclear
    · exact (keeps_of_exec h hwf hlost hsoft hhard hclear).but c
  refine ⟨fun hlocked hc => hbut.capture hc hlocked, fun hlocked hc => ?_, hbut.pend, hbut.entries⟩
  obtain ⟨hstate, hkind, hline, hchar, hsev⟩ := hbut.errorRec hc
  refine ⟨hstate hlocked, hkind hlocked, hline hlocked, hchar hlocked, fun hsevere => ?_⟩
  obtain hsame | ⟨-, hnow⟩ := hsev hlocked
  · exact hsame.trans hsevere
  · exact hnow

end Sys2Proof.Claims
end

section
/-! PROOFS. The commands of the configuration, of the window and of the head, and the events that only move a timer or the
framer. -/

namespace Sys2Proof.Machine

/-- An event row while RESET_N is high. -/
theorem exec_running {c : Instr} {f : State → State} {s : State} (hc : exec c s = .next (unlessReset f s))
    (hrun : s.resetHeld = false) : exec c s = .next (f s) := by
  rw [hc, unlessReset_running hrun]

theorem onLineOf_eq (s : State) (l : LineNo) (f : Line → Line) : Claims.onLineOf s l f = s.setLine l (f (s.line l)) := rfl

theorem setLine_eq_self {s : State} {l : LineNo} {ln : Line} (h : ln = s.line l) : s.setLine l ln = s := by
  rw [h, setLine_line]

/-! ## Timers and the framer (R71, R75, R94) -/

theorem trailEnd_of_not {l : LineNo} {s : State} (h : (s.line l).tx.state ≠ .trailing ∨ (s.line l).tx.trailTimer ≠ some 0) :
    trailEnd l s = s := by
  refine if_neg fun hdue => ?_
  obtain ⟨h1, h2⟩ := (trailDue_iff _).mp hdue
  exact h.elim (fun h => h h1) fun h => h h2

theorem breakTimerExpiry_of_not {l : LineNo} {s : State}
    (h : (s.line l).tx.state ≠ .breaking ∨ (s.line l).tx.breakTimer ≠ .space 0) : breakTimerExpiry l s = s := by
  refine if_neg fun hdue => ?_
  obtain ⟨h1, h2⟩ := (breakDue_iff _).mp hdue
  exact h.elim (fun h => h h1) fun h => h h2

/-! ## Configuration (R140, R141) -/

section codings

theorem baudOf_eq {p : Byte} {b : Fin 10} (h : p.toNat = b.val) : baudOf p = some b := by
  have hlt : p.toNat < 10 := h ▸ b.isLt
  rw [baudOf, dif_pos hlt]
  exact congrArg some (Fin.ext h)

theorem dataBitsOf_code (b : DataBits) : dataBitsOf b.code = some b := by cases b <;> rfl

theorem parityStopOf_code (p : Parity) (st : StopBits) : parityStopOf (parityStopCode p st) = some (p, st) := by
  cases p <;> cases st <;> rfl

theorem errorPolicyOf_code (e : ErrorPolicy) : errorPolicyOf e.code = some e := by cases e <;> rfl

theorem txFlowOf_code (f : TxFlow) : txFlowOf f.code = some f := by cases f <;> rfl

theorem rtsModeOf_code (m : RtsMode) : rtsModeOf m.code = some m := by cases m <;> rfl

theorem dtrModeOf_code (m : DtrMode) : dtrModeOf m.code = some m := by cases m <;> rfl

theorem dcdActionOf_code (a : DcdAction) : dcdActionOf a.code = some a := by cases a <;> rfl

theorem holdActionOf_code (a : HoldAction) : holdActionOf a.code = some a := by cases a <;> rfl

theorem baudOf_none_iff {p : Byte} : baudOf p = none ↔ 10 ≤ p.toNat := by
  unfold baudOf
  split <;> simp only [reduceCtorEq, false_iff, true_iff] <;> omega

theorem dataBitsOf_none_iff {p : Byte} : dataBitsOf p = none ↔ p.toNat ≠ 7 ∧ p.toNat ≠ 8 := by
  revert p; decide

theorem parityStopOf_none_iff {p : Byte} : parityStopOf p = none ↔ 6 ≤ p.toNat := by
  revert p; decide

theorem errorPolicyOf_none_iff {p : Byte} : errorPolicyOf p = none ↔ 3 ≤ p.toNat := by
  revert p; decide

theorem txFlowOf_none_iff {p : Byte} : txFlowOf p = none ↔ 4 ≤ p.toNat := by
  revert p; decide

theorem rtsModeOf_none_iff {p : Byte} : rtsModeOf p = none ↔ 3 ≤ p.toNat := by
  revert p; decide

theorem boolOf_none_iff {p : Byte} : boolOf p = none ↔ 2 ≤ p.toNat := by
  revert p; decide

theorem dtrModeOf_none_iff {p : Byte} : dtrModeOf p = none ↔ 2 ≤ p.toNat := by
  revert p; decide

theorem dcdActionOf_none_iff {p : Byte} : dcdActionOf p = none ↔ 3 ≤ p.toNat := by
  revert p; decide

theorem eventMaskOf_code (cts dcd : Bool) : eventMaskOf (eventMaskCode cts dcd) = some (cts, dcd) := by
  cases cts <;> cases dcd <;> rfl

theorem eventMaskOf_none_iff {p : Byte} : eventMaskOf p = none ↔ 4 ≤ p.toNat := by
  revert p; decide

theorem holdActionOf_none_iff {p : Byte} : holdActionOf p = none ↔ 2 ≤ p.toNat := by
  revert p; decide

/-- A configuration command and what makes its values badly coded (R141). -/
theorem configRow_coding {c : Instr} (hc : c ∈ Claims.configRows) :
    ∃ coding, (∀ s, exec c s = .next (hostCommand (cmdConfigure coding) s)) ∧
      ∀ p1 p2 p3 cfg, coding p1 p2 p3 cfg = none ↔ Claims.badlyCoded c p1 p2 p3 = true := by
  simp only [Claims.configRows, List.mem_cons, List.not_mem_nil, or_false] at hc
  obtain rfl | rfl | rfl | rfl | rfl | rfl := hc
  · refine ⟨formatOf, fun _ => rfl, fun p1 p2 p3 cfg => ?_⟩
    rw [Claims.badlyCoded, decide_eq_true_eq, ← baudOf_none_iff, ← dataBitsOf_none_iff, ← parityStopOf_none_iff, formatOf]
    cases baudOf p1 <;> cases dataBitsOf p2 <;> cases parityStopOf p3 <;> simp
  · refine ⟨recordOf, fun _ => rfl, fun p1 p2 p3 cfg => ?_⟩
    have hrange : rangeOf 1 64 p1 = none ↔ p1.toNat = 0 ∨ 65 ≤ p1.toNat := by rw [rangeOf_eq_none_iff]; omega
    rw [Claims.badlyCoded, decide_eq_true_eq, ← or_assoc, ← hrange, ← errorPolicyOf_none_iff, recordOf]
    cases rangeOf 1 64 p1 <;> cases errorPolicyOf p3 <;> simp
  · refine ⟨flowOf, fun _ => rfl, fun p1 p2 p3 cfg => ?_⟩
    rw [Claims.badlyCoded, decide_eq_true_eq, ← txFlowOf_none_iff, ← rtsModeOf_none_iff, ← boolOf_none_iff, flowOf]
    cases txFlowOf p1 <;> cases rtsModeOf p2 <;> cases boolOf p3 <;> simp
  · refine ⟨modemOf, fun _ => rfl, fun p1 p2 p3 cfg => ?_⟩
    rw [Claims.badlyCoded, decide_eq_true_eq, ← dtrModeOf_none_iff, ← dcdActionOf_none_iff, ← eventMaskOf_none_iff, modemOf]
    cases dtrModeOf p1 <;> cases dcdActionOf p2 <;> cases eventMaskOf p3 <;> simp
  · exact ⟨timersOf, fun _ => rfl, fun p1 p2 p3 cfg => by simp [timersOf, Claims.badlyCoded]⟩
  · refine ⟨queueOf, fun _ => rfl, fun p1 p2 p3 cfg => ?_⟩
    have hrange : rangeOf 1 8 p1 = none ↔ p1.toNat = 0 ∨ 9 ≤ p1.toNat := by rw [rangeOf_eq_none_iff]; omega
    rw [Claims.badlyCoded, decide_eq_true_eq, ← or_assoc, ← hrange, ← holdActionOf_none_iff, queueOf]
    cases rangeOf 1 8 p1 <;> cases holdActionOf p2 <;> simp

section configure

variable {coding : Byte → Byte → Byte → LineConfig → Option LineConfig} {s : State} {l : LineNo}

/-- A configuration command on the line that it names (R140). -/
def configureOn (coding : Byte → Byte → Byte → LineConfig → Option LineConfig) (l : LineNo) (s : State) : State :=
  match coding s.param1 s.param2 s.param3 (s.line l).cfg with
  | none => complete .badParam s
  | some cfg =>
    match (s.line l).state with
    | .restarting | .disabling => complete .lineBusy s
    | .enabled => complete .lineActive s
    | .disabled =>
      if (s.line l).tx.queue.isEmpty then complete .ok (s.setLine l { s.line l with cfg := cfg })
      else complete .lineActive s

theorem cmdConfigure_eq : cmdConfigure coding = withLine (configureOn coding) := rfl

theorem configureOn_bad (h : coding s.param1 s.param2 s.param3 (s.line l).cfg = none) :
    configureOn coding l s = complete .badParam s := by rw [configureOn, h]

variable {cfg : LineConfig} (h : coding s.param1 s.param2 s.param3 (s.line l).cfg = some cfg)

include h

theorem configureOn_ok (hst : (s.line l).state = .disabled) (hq : (s.line l).tx.queue = []) :
    configureOn coding l s = complete .ok (s.setLine l { s.line l with cfg := cfg }) := by
  simp [configureOn, h, hst, hq]

theorem configureOn_busy (hst : (s.line l).state = .restarting ∨ (s.line l).state = .disabling) :
    configureOn coding l s = complete .lineBusy s := by
  obtain hst | hst := hst <;> simp [configureOn, h, hst]

theorem configureOn_active
    (hst : (s.line l).state = .enabled ∨ ((s.line l).state = .disabled ∧ (s.line l).tx.queue ≠ [])) :
    configureOn coding l s = complete .lineActive s := by
  obtain hst | ⟨hst, hq⟩ := hst
  · simp [configureOn, h, hst]
  · simp [configureOn, h, hst, hq]

end configure

end codings

/-! ## Enable, restart, disable: the checks (R144, R145) -/

section line_commands

variable {s : State} {l : LineNo}

/-- ENABLE LINE on the line that it names (R144). -/
def enableOn (l : LineNo) (s : State) : State :=
  match (s.line l).state with
  | .restarting | .disabling => complete .lineBusy s
  | .enabled => complete .lineActive s
  | .disabled => complete .ok (s.setLine l (enabledLine (s.line l)))

theorem cmdEnableLine_eq : cmdEnableLine = withLine enableOn := rfl

theorem leaving_commands_busy (hst : (s.line l).state = .restarting ∨ (s.line l).state = .disabling) :
    enableOn l s = complete .lineBusy s ∧ restartOn l s = complete .lineBusy s ∧ disableOn l s = complete .lineBusy s := by
  obtain hst | hst := hst <;> simp [enableOn, restartOn, disableOn, hst]

theorem restartOn_enabled (hst : (s.line l).state = .enabled) : restartOn l s = restartFrom l (loseWindow l s) := by
  simp only [restartOn, hst]

theorem disableOn_enabled (hst : (s.line l).state = .enabled) : disableOn l s = disableFrom l (loseWindow l s) := by
  simp only [disableOn, hst]

end line_commands

/-! ## OPEN BLOCK (R48 to R50) -/

section open_block

variable {s : State}

theorem cmdOpenBlock_bad (h : 16 ≤ s.param0.toNat ∨ 2 ≤ s.param2.toNat) : cmdOpenBlock s = complete .badParam s := by
  unfold cmdOpenBlock
  obtain h | h := h
  · rw [lineOf_eq_none_iff.mpr h]
  · rw [boolOf_none_iff.mpr h]
    cases lineOf s.param0 <;> rfl

variable {l : LineNo} {report : Bool} (hl : s.param0.toNat = l.val) (hreport : boolOf s.param2 = some report)

include hl hreport

theorem cmdOpenBlock_refused {r : ResultCode} (h : openRefusal s l = some r) : cmdOpenBlock s = complete r s := by
  simp only [cmdOpenBlock, lineOf_eq_some_iff.mpr hl, hreport, h]

theorem cmdOpenBlock_opens {d : DescNo} (h : openRefusal s l = none) (hd : s.lowestFree = some d) :
    cmdOpenBlock s = complete .ok (openWindow l d s.param1 report s.param3.toNat s) := by
  simp only [cmdOpenBlock, lineOf_eq_some_iff.mpr hl, hreport, h, hd]

end open_block

/-- The first number that has a property. -/
theorem find?_finRange {n : Nat} {p : Fin n → Bool} {i : Fin n} (hi : p i = true) (hlow : ∀ j < i, p j = false) :
    (List.finRange n).find? p = some i := by
  refine List.find?_eq_some_iff_getElem.mpr ⟨hi, i.val, by simp, by simp, fun j hj => ?_⟩
  simpa using hlow ⟨j, Nat.lt_trans hj i.isLt⟩ hj

/-- The lowest-numbered FREE descriptor (R50). -/
theorem lowestFree_eq_some {s : State} {d : DescNo} (hfree : (s.desc d).phase = .free)
    (hlow : ∀ e : DescNo, e < d → (s.desc e).phase ≠ .free) : s.lowestFree = some d :=
  find?_finRange (by simpa using hfree) fun e he => by simpa using hlow e he

theorem lowestFree_eq_none {s : State} (h : ∀ d, (s.desc d).phase ≠ .free) : s.lowestFree = none := by
  unfold State.lowestFree
  exact List.find?_eq_none.mpr fun d _ => by simpa using h d

end Sys2Proof.Machine

namespace Sys2Proof.Claims

open Sys2Proof.Machine

/-- Settles O31. -/
theorem trailEndAndBreakTimerExpiry : Obligations.TrailEndAndBreakTimerExpiry := by
  intro s l hrun
  have htrail : exec (.trailEnd l) s = .next (trailEnd l s) := exec_running rfl hrun
  have hbreak : exec (.breakTimerExpiry l) s = .next (breakTimerExpiry l s) := exec_running rfl hrun
  rw [htrail, hbreak]
  refine ⟨fun hst ht => ?_, fun h => by rw [trailEnd_of_not h], fun hst ht => ?_, fun h => by rw [breakTimerExpiry_of_not h]⟩
  · rw [trailEnd, if_pos ((trailDue_iff _).mpr ⟨hst, ht⟩)]
    rfl
  · rw [breakTimerExpiry, if_pos ((breakDue_iff _).mpr ⟨hst, ht⟩)]
    rfl

/-- Settles O37: each of the three rows looks at the framer's condition alone. -/
theorem framerConditions : Obligations.FramerConditions := by
  intro s l hrun
  have hstart : exec (.frameStart l) s = .next (frameStart l s) := exec_running rfl hrun
  have hnoise : exec (.frameAbandonedAsNoise l) s = .next (frameAbandoned l s) := exec_running rfl hrun
  have hmark : exec (.rxdReturnsToMark l) s = .next (rxdAtMark l s) := exec_running rfl hrun
  rw [hstart, hnoise, hmark]
  refine ⟨fun h => ?_, fun h => ?_, fun h => ?_, fun h => ?_, fun h => ?_, fun h => ?_⟩
  · rw [frameStart, if_pos h]; rfl
  · rw [frameStart, if_neg h]
  · rw [frameAbandoned, if_pos h]; rfl
  · rw [frameAbandoned, if_neg h]
  · rw [rxdAtMark, if_pos h]; rfl
  · rw [rxdAtMark, if_neg h]

/-- Settles O51. -/
theorem captureCommands : Obligations.CaptureCommands := by
  intro s hready
  have hread : exec .readCapture s = .next (cmdReadCapture { s with commandLost := false }) := exec_ready rfl hready
  have hclear : exec .clearCapture s = .next (cmdClearCapture { s with commandLost := false }) := exec_ready rfl hready
  rw [hread, hclear]
  refine ⟨fun h => ?_, fun h => ?_, fun h => ?_, fun h => ?_, fun h => ?_⟩
  · have hne (k : Byte) (hk : k.toNat < 2) : s.param0 ≠ k := ne_of_toNat_lt (Nat.lt_of_lt_of_le hk h)
    have h0 : s.param0 ≠ 0 := hne 0 (by decide)
    have h1 : s.param0 ≠ 1 := hne 1 (by decide)
    simp only [cmdReadCapture, h0, h1, if_false]
    rfl
  · simp only [cmdReadCapture, h, if_true, lockStateCode_eq_asState, code_eq_asCode]
    rfl
  · have hne : ¬((1 : Byte) = 0) := by decide
    simp only [cmdReadCapture, h, hne, if_true, if_false, lockStateCode_eq_asState]
    rfl
  · simp only [cmdClearCapture, h]
    rfl
  · simp only [cmdClearCapture]
    split
    · next hl => exact absurd hl h
    · rfl
    · rfl

/-- Settles O20: with every value coded the command sets the fields it names. -/
theorem configurationAccepted : Obligations.ConfigurationAccepted := by
  intro s l hready hl hst hq
  have hset {c : Instr} {coding : Byte → Byte → Byte → LineConfig → Option LineConfig} {f : LineConfig → LineConfig}
      (hc : exec c s = .next (hostCommand (withLine (configureOn coding)) s))
      (h : coding s.param1 s.param2 s.param3 (s.line l).cfg = some (f (s.line l).cfg)) :
      exec c s = .next (done .ok (onLineOf s l fun ln => { ln with cfg := f ln.cfg })) := by
    rw [exec_lineCommand hc hready hl, configureOn_ok (s := { s with commandLost := false }) h hst hq]
    rfl
  refine ⟨fun b hb d hd p st hp => hset (coding := formatOf) (f := fun c => _) rfl ?_,
    fun hlo hhi e he => hset (coding := recordOf) (f := fun c => _) rfl ?_,
    fun f hf m hm x hx => hset (coding := flowOf) (f := fun c => _) rfl ?_,
    fun m hm a ha cts dcd he => hset (coding := modemOf) (f := fun c => _) rfl ?_, hset (coding := timersOf)
      (f := fun c => { c with rtsLead := s.param1.toNat, rtsTrail := s.param2.toNat, holdLimit := s.param3.toNat }) rfl rfl,
    fun hlo hhi a ha => hset (coding := queueOf) (f := fun c => _) rfl ?_⟩
  · rw [formatOf, baudOf_eq hb, mem_dataBitsCodes_iff.mp hd, dataBitsOf_code, mem_parityStopCodes_iff.mp hp, parityStopOf_code]
  · rw [recordOf, rangeOf_eq_some hlo hhi, mem_errorPolicyCodes_iff.mp he, errorPolicyOf_code]
  · rw [flowOf, mem_txFlowCodes_iff.mp hf, txFlowOf_code, mem_rtsModeCodes_iff.mp hm, rtsModeOf_code, mem_boolCodes_iff.mp hx,
      boolOf_boolCode]
  · rw [modemOf, mem_dtrModeCodes_iff.mp hm, dtrModeOf_code, mem_dcdActionCodes_iff.mp ha, dcdActionOf_code,
      mem_eventMaskCodes_iff.mp he, eventMaskOf_code]
  · rw [queueOf, rangeOf_eq_some hlo hhi, mem_holdActionCodes_iff.mp ha, holdActionOf_code]

/-- Settles O21: the checks in their order. -/
theorem configurationRefused : Obligations.ConfigurationRefused := by
  intro s c hready hc
  obtain ⟨coding, hexec, hcoding⟩ := configRow_coding hc
  refine ⟨exec_lineCommand_no_line (hexec s) hready, fun hbad => ?bad, fun l hl hgood => ⟨fun hst => ?busy, fun hst => ?active⟩⟩
  case bad =>
    obtain h | h := Nat.lt_or_ge s.param0.toNat 16
    · rw [exec_lineCommand (l := ⟨_, h⟩) (hexec s) hready rfl]
      exact congrArg _ (configureOn_bad ((hcoding _ _ _ _).mpr hbad))
    · exact exec_lineCommand_no_line (hexec s) hready h
  all_goals
    obtain ⟨cfg, hcfg⟩ : ∃ cfg, coding s.param1 s.param2 s.param3 (s.line l).cfg = some cfg :=
      Option.ne_none_iff_exists'.mp fun h => by simp [(hcoding _ _ _ _).mp h] at hgood
    rw [exec_lineCommand (hexec s) hready hl]
  case busy => exact congrArg _ (configureOn_busy (s := { s with commandLost := false }) hcfg hst)
  case active => exact congrArg _ (configureOn_active (s := { s with commandLost := false }) hcfg hst)

/-- Settles O23. -/
theorem enableLineAndChecks : Obligations.EnableLineAndChecks := by
  intro s hready
  have henable : exec .enableLine s = .next (hostCommand (withLine enableOn) s) := rfl
  have hrestart : exec .restartLine s = .next (hostCommand (withLine restartOn) s) := rfl
  have hdisable : exec .disableLine s = .next (hostCommand (withLine disableOn) s) := rfl
  refine ⟨fun h => ⟨exec_lineCommand_no_line henable hready h, exec_lineCommand_no_line hrestart hready h,
    exec_lineCommand_no_line hdisable hready h⟩, fun l hl => ?_⟩
  rw [exec_lineCommand henable hready hl, exec_lineCommand hrestart hready hl, exec_lineCommand hdisable hready hl]
  have hline : State.line { s with commandLost := false } l = s.line l := rfl
  refine ⟨fun hst => ?_, fun hst => ?_, fun hst => ?_⟩
  · obtain ⟨h1, h2, h3⟩ := leaving_commands_busy (s := { s with commandLost := false }) hst
    rw [h1, h2, h3]
    exact ⟨rfl, rfl, rfl⟩
  · simp only [enableOn, hline, hst]
    rfl
  · simp only [enableOn, restartOn, disableOn, hline, hst]
    exact ⟨rfl, rfl, rfl⟩

/-- Settles O13: the checks of OPEN BLOCK are one function, whose first refusal is the result. -/
theorem openBlock : Obligations.OpenBlock := by
  intro s hready
  have hexec : exec .openBlock s = .next (cmdOpenBlock { s with commandLost := false }) := exec_ready rfl hready
  rw [hexec]
  refine ⟨fun h => congrArg _ (cmdOpenBlock_bad (s := { s with commandLost := false }) h), fun l hl h2 => ?_⟩
  obtain ⟨report, hreport⟩ : ∃ b, boolOf s.param2 = some b :=
    Option.ne_none_iff_exists'.mp fun h => absurd (boolOf_none_iff.mp h) (Nat.not_le.mpr h2)
  have hrefused {r : ResultCode} (h : openRefusal s l = some r) :
      (.next (cmdOpenBlock { s with commandLost := false }) : Host.Outcome State Fault Refusal) = .next (done r s) :=
    congrArg _ (cmdOpenBlock_refused (s := { s with commandLost := false }) hl hreport h)
  refine ⟨fun hw => hrefused ?_, fun hw => ⟨fun hst => hrefused ?_, fun hst => hrefused ?_, fun hst =>
    ⟨fun hq => hrefused ?_, fun hq => ⟨fun hfree => hrefused ?_, fun d b hfree hlow hb => ?_⟩⟩⟩⟩
  · simp [openRefusal, hw]
  · simp [openRefusal, hw, hst]
  · obtain hst | hst := hst <;> simp [openRefusal, hw, hst]
  · simp [openRefusal, hw, hst, hq]
  · simp [openRefusal, hw, hst, Nat.not_le.mpr hq, lowestFree_eq_none hfree]
  · have hd : s.lowestFree = some d := lowestFree_eq_some hfree hlow
    obtain rfl : report = b := by
      rw [mem_boolCodes_iff.mp hb, boolOf_boolCode, Option.some.injEq] at hreport
      exact hreport.symm
    have hpass : openRefusal s l = none := by simp [openRefusal, hw, hst, Nat.not_le.mpr hq, hd]
    exact congrArg _ ((cmdOpenBlock_opens (s := { s with commandLost := false }) hl hreport hpass hd).trans rfl)

end Sys2Proof.Claims
end

section
/-! PROOFS. The functions of the model in the words of the statements: posting, joining, finishing, the front of a transmit
queue, the match table, and the next-step choice of R72. -/

namespace Sys2Proof.Claims

open Sys2Proof.Machine

/-! ## Posting and joining -/

theorem ite_of_iff {α : Type} {p q : Prop} [Decidable p] [Decidable q] {a b c d : α} (h : p ↔ q) (ha : a = c) (hb : b = d) :
    (if p then a else b) = if q then c else d := by
  subst ha hb
  by_cases hp : p
  · rw [if_pos hp, if_pos (h.mp hp)]
  · rw [if_neg hp, if_neg (mt h.mpr hp)]

theorem slotFree_iff (s : State) : s.slotFree = true ↔ SlotFree s := by simp [State.slotFree]

theorem postEntry_eq_posted (e : Entry) (s : State) : postEntry e s = posted e s := postEntry_eq e s

theorem satAdd_eq_upTo255 (c : Byte) (n : Nat) : satAdd c n = upTo255 c n := by
  unfold satAdd upTo255
  split
  · next h => rw [Nat.min_eq_left (by omega)]; rfl
  · next h => rw [Nat.min_eq_right (by omega)]

theorem isEmpty_iff (c : ChangeSet) : c.isEmpty = true ↔ c = noChanges := by
  obtain ⟨a, b, d, e⟩ := c
  simp [ChangeSet.isEmpty, and_assoc]

theorem joinChanges_eq_joined (l : LineNo) (c : ChangeSet) (s : State) : joinChanges l c s = joined l c s := by
  have hpost : ((s.line l).changes.isEmpty && s.slotFree) = true ↔ (s.line l).changes = noChanges ∧ s.queue.length < 48 := by
    rw [Bool.and_eq_true, isEmpty_iff, slotFree_iff]
  unfold joinChanges joined
  rw [postEntry_eq_posted]
  exact ite_of_iff (isEmpty_iff c) rfl (ite_of_iff hpost rfl rfl)

/-! ## Blocks that finish -/

theorem finishBlock_eq_blockEnded (d : DescNo) (o : BlockOutcome) (s : State) : finishBlock d o s = blockEnded o d s := rfl

theorem finishBlocks_eq_blocksEnded (ps : List Phase) (l : LineNo) (o : BlockOutcome) (s : State) :
    finishBlocks ps l o s = blocksEnded ps l o s := by
  have hstep : finishIf ps o = fun t d => if (t.desc d).phase ∈ ps then blockEnded o d t else t := by
    funext t d
    exact ite_of_iff List.contains_iff_mem rfl rfl
  rw [finishBlocks, blocksEnded, hstep]

/-! ## The front of a transmit queue (R32) -/

section front

variable {l : LineNo} {s t : State}

theorem frontStep_of_stops (h : FrontStops l s) : frontStep l s = s := by
  obtain hsame | ⟨d, rest, hq, hf, hr⟩ := frontStep_cases l s
  · exact hsame
  · have hstop := h d rest hq
    obtain ⟨hr, -⟩ | ⟨-, hs, -⟩ := hr
    · simp [hf, hr] at hstop
    · exact absurd ((slotFree_iff s).mp hs) (hstop.resolve_left (not_not_intro hf)).2

theorem frontSteps_of_stops (h : FrontStops l s) (n : Nat) : frontSteps l n s = s := by
  induction n with
  | zero => rfl
  | succ n ih => rw [frontSteps, frontStep_of_stops h, ih]

theorem dropHeadBlock_eq {d : DescNo} {rest : List DescNo} (hq : (s.line l).tx.queue = d :: rest) :
    dropHeadBlock l d s = onLineOf (s.setDesc d .unused) l fun ln => { ln with tx.queue := rest } := by
  rw [dropHeadBlock, hq]
  rfl

section head

variable {d : DescNo} {rest : List DescNo} (hq : (s.line l).tx.queue = d :: rest) (hf : (s.desc d).phase = .finished)

include hq hf

theorem frontStep_silent (hr : (s.desc d).report = false) :
    frontStep l s = onLineOf (s.setDesc d .unused) l fun ln => { ln with tx.queue := rest } := by
  rw [← dropHeadBlock_eq hq]
  simp [frontStep, hq, hf, hr]

theorem frontStep_reported (hr : (s.desc d).report = true) (hs : SlotFree s) :
    frontStep l s = posted (reportOf (s.desc d))
      (onLineOf (s.setDesc d .unused) l fun ln => { ln with tx.queue := rest }) := by
  have hdrop := dropHeadBlock_eq (l := l) (s := postEntry (reportOf (s.desc d)) s) (d := d) (rest := rest)
    (by rw [line_postEntry]; exact hq)
  have hstep : frontStep l s = dropHeadBlock l d (postEntry (reportOf (s.desc d)) s) := by
    simp [frontStep, hq, hf, hr, (slotFree_iff s).mpr hs]
  rw [hstep, hdrop, postEntry_eq_posted]
  rfl

end head

/-- A head descriptor that does not stop the handling leaves the queue (R16, R32). -/
theorem headHandled_frontStep (h : ¬FrontStops l s) : HeadHandled l s (frontStep l s) := by
  unfold FrontStops at h
  obtain ⟨d, h⟩ := Classical.not_forall.mp h
  obtain ⟨rest, h⟩ := Classical.not_forall.mp h
  obtain ⟨hq, h⟩ := Classical.not_imp.mp h
  obtain ⟨hnot, hfull⟩ := not_or.mp h
  have hf : (s.desc d).phase = .finished := Decidable.not_not.mp hnot
  have hslot (hr : (s.desc d).report = true) : SlotFree s := Decidable.not_not.mp fun hs => hfull ⟨hr, hs⟩
  cases hr : (s.desc d).report with
  | false =>
    rw [frontStep_silent hq hf hr]
    exact .silent d rest .unused hq hf hr rfl
  | true =>
    rw [frontStep_reported hq hf hr (hslot hr)]
    exact .reported d rest .unused ((s.desc d).outcome.getD .sent) hq hf hr (hslot hr) rfl fun p hp => by rw [hp]; rfl

theorem HeadHandled.queue (h : HeadHandled l s t) : ∃ d, (s.line l).tx.queue = d :: (t.line l).tx.queue := by
  cases h with
  | silent d rest u hq => exact ⟨d, by rw [onLineOf]; simpa [State.line] using hq⟩
  | reported d rest u o hq => exact ⟨d, by rw [posted, onLineOf]; simpa [State.line] using hq⟩

theorem frontStops_of_empty (h : (s.line l).tx.queue = []) : FrontStops l s := fun d rest hq => by
  rw [h] at hq
  cases hq

theorem frontHandled_frontSteps (n : Nat) (h : (s.line l).tx.queue.length ≤ n) : FrontHandled l s (frontSteps l n s) := by
  induction n generalizing s with
  | zero => exact ⟨.none s, frontStops_of_empty (List.length_eq_zero_iff.mp (Nat.le_zero.mp h))⟩
  | succ n ih =>
    by_cases hstop : FrontStops l s
    · rw [frontSteps_of_stops hstop]
      exact ⟨.none s, hstop⟩
    · have hhead := headHandled_frontStep hstop
      obtain ⟨d, hq⟩ := hhead.queue
      rw [hq, List.length_cons] at h
      obtain ⟨hheads, hend⟩ := ih (Nat.le_of_succ_le_succ h)
      exact ⟨.more s _ _ hhead hheads, hend⟩

theorem frontHandled_handleFront (l : LineNo) (s : State) : FrontHandled l s (handleFront l s) :=
  frontHandled_frontSteps _ (Nat.le_refl _)

end front

end Sys2Proof.Claims
end

section
/-! PROOFS. The match table at a tested character in the words of the statements (R155 to R161), and the transmission start
with its TX test (R70). -/

namespace Sys2Proof.Claims

open Sys2Proof.Machine

section match_table

variable (c : TestedChar) (s : State)

theorem onLine_eq_onWire (cfg : LineConfig) (v : Byte) : onLine cfg v = onWire cfg v := by
  unfold onLine onWire
  cases cfg.dataBits <;> rfl

theorem covers_iff (m : MatchDirection) (d : Direction) :
    m.covers d = true ↔ m = .either ∨ (m = .rx ∧ d = .rx) ∨ (m = .tx ∧ d = .tx) := by
  cases m <;> cases d <;> decide

theorem hits_iff (m : MatchEntry) : hits m c.line c.direction c.char = true ↔ Hits m c := by
  simp only [hits, hasLine, Bool.and_eq_true, decide_eq_true_eq, covers_iff, and_assoc]

theorem hitters_eq : hitters s c.line c.direction c.char = (List.finRange 8).filter fun n => decide (Hits (s.matchEntry n) c) :=
  List.filter_congr fun n _ => by rw [Bool.eq_iff_iff, hits_iff, decide_eq_true_eq]

/-- Whether an entry hits with an action depends on its pattern alone. -/
theorem hitWith_of_pattern {m k : MatchEntry} (h : m.pattern = k.pattern) (a : MatchAction) :
    (Hits m c ∧ m.action = a) ↔ (Hits k c ∧ k.action = a) := by
  obtain ⟨h1, h2, h3, h4, h5, h6⟩ := pattern_fields h
  simp only [Hits, h1, h2, h3, h4, h5, h6]

/-- The entries that hit with an action, read from any state in which the patterns are the same. -/
theorem hittersWith_eq {t : State} (h : ∀ n, (t.matchEntry n).pattern = (s.matchEntry n).pattern) (a : MatchAction) :
    hittersWith t a (hitters s c.line c.direction c.char) =
      (List.finRange 8).filter fun n => decide (HitWith c a t n) := by
  rw [hitters_eq, hittersWith, List.filter_filter]
  refine List.filter_congr fun n _ => ?_
  have hpat := h n
  rw [Bool.eq_iff_iff, Bool.and_eq_true, decide_eq_true_eq, decide_eq_true_eq, decide_eq_true_eq, and_comm]
  obtain ⟨h1, h2, h3, h4, h5, h6⟩ := pattern_fields hpat
  simp only [Hits, HitWith, h1, h2, h3, h4, h5, h6]

theorem hittersWith_isEmpty_iff {t : State} (h : ∀ n, (t.matchEntry n).pattern = (s.matchEntry n).pattern) (a : MatchAction) :
    (hittersWith t a (hitters s c.line c.direction c.char)).isEmpty = true ↔ ∀ n, ¬HitWith c a t n := by
  rw [hittersWith_eq c s h, List.isEmpty_iff, List.filter_eq_nil_iff]
  simp only [decide_eq_true_eq, List.mem_finRange, true_implies]

/-! ## Hit counts (R156) -/

/-- An entry that counts one more hit. -/
def countedHit (m : MatchEntry) : MatchEntry := { m with hitCount := satAdd m.hitCount 1 }

theorem countHits_eq (ns : List MatchNo) : countHits ns s = { s with matchTable := (countHits ns s).matchTable } := by
  induction ns generalizing s with
  | nil => rfl
  | cons n ns ih => exact ih (countHit s n)

theorem matchEntry_countHits {ns : List MatchNo} (hnodup : ns.Nodup) (k : MatchNo) :
    (countHits ns s).matchEntry k = if k ∈ ns then countedHit (s.matchEntry k) else s.matchEntry k := by
  induction ns generalizing s with
  | nil => rfl
  | cons n ns ih =>
    obtain ⟨hn, hns⟩ := List.nodup_cons.mp hnodup
    have h := ih (countHit s n) hns
    rw [show countHits (n :: ns) s = countHits ns (countHit s n) from rfl, h]
    by_cases hk : k = n
    · subst hk
      rw [if_neg hn, if_pos List.mem_cons_self]
      exact matchEntry_setMatch_self ..
    · have hkeep : (countHit s n).matchEntry k = s.matchEntry k := matchEntry_setMatch_ne s n k _ hk
      simp only [hkeep, List.mem_cons, hk, false_or]

theorem countHits_eq_hitsCounted : countHits (hitters s c.line c.direction c.char) s = hitsCounted c s := by
  rw [countHits_eq, hitsCounted]
  congr 1
  refine Vector.ext fun i hi => ?_
  have hentry := matchEntry_countHits s (ns := hitters s c.line c.direction c.char)
    ((List.nodup_finRange 8).filter _) ⟨i, hi⟩
  rw [State.matchEntry] at hentry
  rw [hentry, Vector.getElem_ofFn]
  refine ite_of_iff ?_ (by rw [countedHit, satAdd_eq_upTo255]) rfl
  rw [hitters_eq, List.mem_filter, decide_eq_true_eq]
  exact and_iff_right (List.mem_finRange _)

theorem patterns_hitsCounted (n : MatchNo) : ((hitsCounted c s).matchEntry n).pattern = (s.matchEntry n).pattern := by
  rw [← countHits_eq_hitsCounted]
  exact (LineStep.countHits 0 s _).patterns n

/-! ## CAPTURE and POST (R158, R160) -/

theorem captureAction_eq_captured {ns : List MatchNo}
    (h : ns = (List.finRange 8).filter fun n => decide (HitWith c .capture s n)) : captureAction c ns s = captured c s := by
  have hhead : ns.head? = (List.finRange 8).find? fun n => decide (HitWith c .capture s n) := by rw [h, List.head?_filter]
  rw [captured, ← hhead]
  cases ns with
  | nil => rfl
  | cons n ns =>
    cases hst : s.capture.state <;> simp [captureAction, hst, satAdd_eq_upTo255]

theorem postHit_eq_hitPosted (n : MatchNo) : postHit c n s = hitPosted c s n := by
  unfold postHit hitPosted
  rw [postEntry_eq_posted]
  cases (s.matchEntry n).pendingPost with
  | none => exact ite_of_iff (slotFree_iff s) rfl rfl
  | some p =>
    exact congrArg (fun k => s.setMatch n { s.matchEntry n with pendingPost := some { p with count := k } })
      (satAdd_eq_upTo255 p.count 1)

theorem postHits_eq_postsMade {ns : List MatchNo}
    (h : ns = (List.finRange 8).filter fun n => decide (HitWith c .post s n)) : postHits c ns s = postsMade c s := by
  have hstep : (fun t n => postHit c n t) = hitPosted c := by
    funext t n
    exact postHit_eq_hitPosted c t n
  rw [postsMade, ← h, postHits, hstep]

theorem patterns_captured (n : MatchNo) : ((captured c s).matchEntry n).pattern = (s.matchEntry n).pattern := by
  rw [← captureAction_eq_captured c s rfl]
  exact (LineStep.captureAction 0 s).patterns n

theorem patterns_postsMade (n : MatchNo) : ((postsMade c s).matchEntry n).pattern = (s.matchEntry n).pattern := by
  rw [← postHits_eq_postsMade c s rfl]
  exact (LineStep.postHits 0 s _).patterns n

/-- The state after the hits of a character are counted and its CAPTURE has acted. -/
theorem captureAction_counted : captureAction c (hittersWith s .capture (hitters s c.line c.direction c.char))
    (countHits (hitters s c.line c.direction c.char) s) = captured c (hitsCounted c s) := by
  rw [countHits_eq_hitsCounted]
  refine captureAction_eq_captured c _ ?_
  rw [hittersWith_eq c s fun _ => rfl]
  refine List.filter_congr fun n _ => ?_
  rw [Bool.eq_iff_iff, decide_eq_true_eq, decide_eq_true_eq]
  exact (hitWith_of_pattern c (patterns_hitsCounted c s n) .capture).symm

end match_table

/-! ## The transmission start (R70) -/

theorem charStarts_txTest {c : TestedChar} {l : LineNo} {s u : State} (hl : c.line = l) (hdir : c.direction = .tx)
    (hu : u = onLineOf s l fun ln => { ln with tx := { stoppedIn .sending ln.tx with inFlight := some (.block c.char) } }) :
    CharStarts l c s (txTest c u) := by
  have hpat (n : MatchNo) : ((captured c (hitsCounted c u)).matchEntry n).pattern = (u.matchEntry n).pattern :=
    (patterns_captured c _ n).trans (patterns_hitsCounted c u n)
  have hpost (n : MatchNo) : ((postsMade c (captured c (hitsCounted c u))).matchEntry n).pattern = (u.matchEntry n).pattern :=
    (patterns_postsMade c _ n).trans (hpat n)
  have htest : txTest c u =
      if ∀ n, ¬HitWith c .hold (postsMade c (captured c (hitsCounted c u))) n then postsMade c (captured c (hitsCounted c u))
      else setHaltRequest c.line (postsMade c (captured c (hitsCounted c u))) := by
    have hns : hitters u c.line .tx c.char = hitters u c.line c.direction c.char := by rw [hdir]
    simp only [txTest, hns, captureAction_counted]
    rw [postHits_eq_postsMade c _ (hittersWith_eq c u hpat .post)]
    exact ite_of_iff (hittersWith_isEmpty_iff c u hpost .hold) rfl rfl
  have hhold (n : MatchNo) : HitWith c .hold (postsMade c (captured c (hitsCounted c u))) n ↔ HitWith c .hold s n := by
    rw [HitWith, hitWith_of_pattern c (hpost n), hu]
    rfl
  simp only [hhold] at htest
  subst hl
  refine ⟨fun h => ?_, fun h => ?_⟩
  · rw [htest, if_pos h, hu]
  · rw [htest, if_neg (Classical.not_forall_not.mpr h), hu]
    rfl

theorem charStarts_startBlockChar {l : LineNo} {d : DescNo} {s : State} {cell : CellNo} {rest : List CellNo}
    (hcells : (s.desc d).cells = cell :: rest) : CharStarts l (nextChar l d cell s) s (startBlockChar l d s) := by
  have hchar : nextBlockChar s l d = (nextChar l d cell s).char := by
    have hcell : (s.desc d).cells[(s.desc d).sent % 16 / 16]? = some cell := by
      rw [Nat.div_eq_of_lt (Nat.mod_lt _ (by decide)), hcells]
      rfl
    rw [nextBlockChar, onLine_eq_onWire, charAt_of_cell hcell, Nat.mod_mod]
    rfl
  rw [startBlockChar, hchar]
  exact charStarts_txTest rfl rfl rfl

end Sys2Proof.Claims
end

section
/-! PROOFS. The next-step choice (R72): one making of it, and the choice as the relation that the statements use. -/

namespace Sys2Proof.Machine

/-- What the choice makes of a line whose block `d` is ACTIVE (R72, steps 3 to 5). -/
def workOn (l : LineNo) (d : DescNo) (s : State) : State :=
  if holdCondition (s.line l) then enterHold l s
  else
    match (s.line l).tx.pendingPriority with
    | some c => startPriority l c s
    | none => blockWork l d s

/-- The number of QUEUED blocks of a line. -/
def queuedCount (l : LineNo) (s : State) : Nat := (s.line l).tx.queue.countP fun e => decide ((s.desc e).phase = .queued)

section choose

variable {l : LineNo} {s : State} {d : DescNo}

theorem choose_halt (n : Nat) (h : (s.line l).tx.haltRequest = true) : choose l (n + 1) s = takeHalt l s := by
  rw [choose, if_pos h]

variable (h : (s.line l).tx.haltRequest = false)

include h

theorem choose_active (n : Nat) (hd : s.activeDesc l = some d) : choose l (n + 1) s = workOn l d s := by
  rw [choose, if_neg (by simp [h]), hd]
  rfl

variable (hnone : s.activeDesc l = none)

include hnone

theorem choose_zero (n : Nat) (hd : s.oldestQueued l = some d) (hz : (s.desc d).length = 0 ∧ (s.desc d).breakBefore = 0) :
    choose l (n + 1) s = choose l n (handleFront l (finishBlock d .sent (takeBlock l d s))) := by
  simp only [choose, h, hnone, hd, if_pos hz, Bool.false_eq_true, if_false]

theorem choose_take (n : Nat) (hd : s.oldestQueued l = some d)
    (hz : ¬((s.desc d).length = 0 ∧ (s.desc d).breakBefore = 0)) (hk : mustKey (s.line l) = false) :
    choose l (n + 1) s = choose l n (takeBlock l d s) := by
  simp only [choose, h, hnone, hd, if_neg hz, hk, Bool.false_eq_true, if_false]

theorem choose_take_keying (n : Nat) (hd : s.oldestQueued l = some d)
    (hz : ¬((s.desc d).length = 0 ∧ (s.desc d).breakBefore = 0)) (hk : mustKey (s.line l) = true) :
    choose l (n + 1) s = if (s.line l).cfg.rtsLead = 0 then choose l n (startKeying l (takeBlock l d s))
      else startKeying l (takeBlock l d s) := by
  simp only [choose, h, hnone, hd, if_neg hz, hk, Bool.false_eq_true, if_false, if_true]

variable (hq : s.oldestQueued l = none)

include hq

theorem choose_priority (n : Nat) {c : FlowChar} (hc : (s.line l).tx.pendingPriority = some c)
    (hk : mustKey (s.line l) = false) : choose l (n + 1) s = startPriority l c s := by
  simp only [choose, h, hnone, hq, hc, hk, Bool.false_eq_true, if_false]

theorem choose_priority_keying (n : Nat) {c : FlowChar} (hc : (s.line l).tx.pendingPriority = some c)
    (hk : mustKey (s.line l) = true) : choose l (n + 1) s =
      if (s.line l).cfg.rtsLead = 0 then choose l n (startKeying l s) else startKeying l s := by
  simp only [choose, h, hnone, hq, hc, hk, Bool.false_eq_true, if_false, if_true]

theorem choose_nothing (n : Nat) (hc : (s.line l).tx.pendingPriority = none) : choose l (n + 1) s = nothingToSend l s := by
  simp only [choose, h, hnone, hq, hc, Bool.false_eq_true, if_false]

end choose

/-! ## The block that the choice takes is the ACTIVE one then (R69, R73) -/

theorem find?_of_unique {α : Type} {p : α → Bool} {a : α} {xs : List α} (ha : a ∈ xs) (hp : p a = true)
    (h : ∀ b ∈ xs, p b = true → b = a) : xs.find? p = some a := by
  obtain ⟨b, hb⟩ := Option.isSome_iff_exists.mp (List.find?_isSome.mpr ⟨a, ha, hp⟩)
  rw [hb, h b (List.mem_of_find?_eq_some hb) (List.find?_some hb)]

theorem desc_takeBlock (l : LineNo) (d e : DescNo) (s : State) :
    (takeBlock l d s).desc e = if e = d then { s.desc d with phase := .active, sent := 0 } else s.desc e :=
  desc_setDesc ..

theorem activeDesc_takeBlock {l : LineNo} {d : DescNo} {s : State} (hnone : s.activeDesc l = none)
    (hd : s.oldestQueued l = some d) : (takeBlock l d s).activeDesc l = some d := by
  have hqueue := queue_takeBlock l s d
  refine find?_of_unique (by rw [hqueue]; exact oldestQueued_mem hd) (by rw [desc_takeBlock, if_pos rfl]; rfl)
    fun e he hact => Decidable.byContradiction fun hne => ?_
  rw [desc_takeBlock, if_neg hne] at hact
  rw [hqueue] at he
  exact List.find?_eq_none.mp hnone e he hact

theorem line_startKeying (l : LineNo) (s : State) : (startKeying l s).line l = { s.line l with
    tx := { (s.line l).tx.enter .keying with
      keyed := true, leadTimer := if (s.line l).cfg.rtsLead = 0 then none else some (s.line l).cfg.rtsLead } } :=
  line_updTx l s _

theorem find?_queue_startKeying (l : LineNo) (s : State) (p : Phase) :
    ((startKeying l s).line l).tx.queue.find? (fun e => decide (((startKeying l s).desc e).phase = p)) =
      (s.line l).tx.queue.find? (fun e => decide ((s.desc e).phase = p)) := by
  rw [line_startKeying]
  rfl

end Sys2Proof.Machine

namespace Sys2Proof.Claims

open Sys2Proof.Machine

section conditions

variable (l : LineNo) (s : State)

theorem holdCondition_iff (ln : Line) : holdCondition ln = true ↔ Held ln := by
  unfold holdCondition Held
  cases ln.cfg.txFlow <;> simp

theorem holdCondition_eq_false {ln : Line} (h : ¬Held ln) : holdCondition ln = false := by
  rw [← holdCondition_iff, Bool.not_eq_true] at h
  exact h

theorem mustKey_iff (ln : Line) : mustKey ln = true ↔ Unkeyed ln := by simp [mustKey, Unkeyed]

theorem mustKey_eq_false {ln : Line} (h : ¬Unkeyed ln) : mustKey ln = false := by
  rw [← mustKey_iff, Bool.not_eq_true] at h
  exact h

theorem activeDesc_eq_none_iff : s.activeDesc l = none ↔ NoneActive s l := by
  rw [State.activeDesc, List.find?_eq_none]
  simp only [decide_eq_true_eq, NoneActive, ne_eq]

theorem oldestQueued_eq_none_iff : s.oldestQueued l = none ↔ NoneQueued s l := by
  rw [State.oldestQueued, List.find?_eq_none]
  simp only [decide_eq_true_eq, NoneQueued, ne_eq]

end conditions

/-! ## The work of the ACTIVE block (R71, R72, R76, R87) -/

theorem blockChoice_workOn (l : LineNo) (d : DescNo) (s : State) : BlockChoice l d s (workOn l d s) where
  held hh hp := by
    rw [workOn, if_pos ((holdCondition_iff _).mpr hh), enterHold, hp]
    rfl
  heldPriority c hh hp := by
    rw [workOn, if_pos ((holdCondition_iff _).mpr hh), enterHold, hp]
    simp only [State.updTx, startPriority, line_setLine_self, setLine_setLine]
    rfl
  priority c hh hp := by
    rw [workOn, holdCondition_eq_false hh, hp]
    rfl
  breaks hh hp hb hbreak := by
    have hwork : blockWork l d s = startBreak l (s.desc d).breakBefore s := by
      rw [blockWork, if_pos (by simp [hb, hbreak])]
    rw [workOn, holdCondition_eq_false hh, hp, if_neg Bool.false_ne_true]
    simp only [hwork]
    rfl
  starts hh hp hb c rest hcells := by
    have hwork : blockWork l d s = startBlockChar l d s := by
      rw [blockWork, if_neg]
      obtain hb | hb := hb <;> simp [hb]
    rw [workOn, holdCondition_eq_false hh, hp, if_neg Bool.false_ne_true]
    simp only [hwork]
    exact charStarts_startBlockChar hcells

/-! ## One making of the choice (R72) -/

section made

variable {l : LineNo} {s : State}

theorem choiceMade_choose (n : Nat) : ChoiceMade l s (choose l (n + 2) s) where
  halt h := choose_halt _ h
  active h d hd := by
    rw [choose_active h _ hd]
    exact blockChoice_workOn l d s
  take h hnone d hd hz := by
    have hz' : ¬((s.desc d).length = 0 ∧ (s.desc d).breakBefore = 0) := fun h0 => hz.elim (· h0.1) (· h0.2)
    have hactive := (activeDesc_eq_none_iff l s).mpr hnone
    have htaken := activeDesc_takeBlock hactive hd
    refine ⟨fun hk => ?_, fun hk hlead => ?_, fun hk hlead => ?_⟩
    · have hhalt : ((takeBlock l d s).line l).tx.haltRequest = false := by rw [line_takeBlock]; exact h
      rw [choose_take h hactive _ hd hz' (mustKey_eq_false hk), choose_active hhalt _ htaken]
      exact blockChoice_workOn l d (takeBlock l d s)
    · rw [choose_take_keying h hactive _ hd hz' ((mustKey_iff _).mpr hk), if_neg hlead]
      have hlead' : ((takeBlock l d s).line l).cfg.rtsLead ≠ 0 := by rw [line_takeBlock]; exact hlead
      simp only [startKeying, hlead', if_false]
      rfl
    · have hhalt : ((startKeying l (takeBlock l d s)).line l).tx.haltRequest = false := by
        rw [line_startKeying, line_takeBlock]
        exact h
      have hfound : (startKeying l (takeBlock l d s)).activeDesc l = some d :=
        (find?_queue_startKeying l (takeBlock l d s) .active).trans htaken
      rw [choose_take_keying h hactive _ hd hz' ((mustKey_iff _).mpr hk), if_pos hlead, choose_active hhalt _ hfound]
      have hlead' : ((takeBlock l d s).line l).cfg.rtsLead = 0 := by rw [line_takeBlock]; exact hlead
      have hkeyed : startKeying l (takeBlock l d s) = onLineOf (taken l d s) l fun ln =>
          { ln with tx := { stoppedIn .keying ln.tx with keyed := true } } := by
        simp only [startKeying, hlead', if_true]
        rfl
      rw [← hkeyed]
      exact blockChoice_workOn l d _
  priority h hnone hqueued c hc := by
    have hactive := (activeDesc_eq_none_iff l s).mpr hnone
    have hold := (oldestQueued_eq_none_iff l s).mpr hqueued
    refine ⟨fun hk => ?_, fun hk hlead => ?_, fun hk hlead => ?_⟩
    · rw [choose_priority h hactive hold _ hc (mustKey_eq_false hk)]
      rfl
    · rw [choose_priority_keying h hactive hold _ hc ((mustKey_iff _).mpr hk), if_neg hlead]
      simp only [startKeying, hlead, if_false]
      rfl
    · have hline := line_startKeying l s
      have hhalt : ((startKeying l s).line l).tx.haltRequest = false := by rw [hline]; exact h
      have hactive' : (startKeying l s).activeDesc l = none := (find?_queue_startKeying l s .active).trans hactive
      have hold' : (startKeying l s).oldestQueued l = none := (find?_queue_startKeying l s .queued).trans hold
      have hc' : ((startKeying l s).line l).tx.pendingPriority = some c := by rw [hline]; exact hc
      have hkeyed : ¬Unkeyed ((startKeying l s).line l) := by rw [hline]; simp
      rw [choose_priority_keying h hactive hold _ hc ((mustKey_iff _).mpr hk), if_pos hlead,
        choose_priority hhalt hactive' hold' _ hc' (mustKey_eq_false hkeyed), startPriority, hline, startKeying]
      simp only [State.updTx, setLine_setLine]
      rfl
  nothing h hnone hqueued hc := by
    have hactive := (activeDesc_eq_none_iff l s).mpr hnone
    have hold := (oldestQueued_eq_none_iff l s).mpr hqueued
    rw [choose_nothing h hactive hold _ hc]
    refine ⟨fun hk => ?_, fun hk ht => ?_, fun hk ht => ?_⟩
    · simp only [nothingToSend, State.updTx, hk, Bool.false_eq_true, if_false]
      rfl
    · simp only [nothingToSend, State.updTx, hk, if_true, ht]
      rfl
    · simp only [nothingToSend, State.updTx, hk, if_true, ht, if_false]
      rfl

end made

/-! ## The choice made again: the QUEUED blocks become fewer (R73) -/

section fewer

variable {l : LineNo} {s t : State}

theorem queuedCount_le_of_queue (hq : List.Sublist (t.line l).tx.queue (s.line l).tx.queue)
    (hd : ∀ e, (t.desc e).phase = .queued → (s.desc e).phase = .queued) : queuedCount l t ≤ queuedCount l s :=
  Nat.le_trans hq.countP_le (List.countP_mono_left fun e _ h => by simpa using hd e (by simpa using h))

/-- A descriptor that leaves the front is FREE; the others are as they were. -/
theorem HeadHandled.desc (h : HeadHandled l s t) (e : DescNo) : t.desc e = s.desc e ∨
    ((s.desc e).phase = .finished ∧ (t.desc e).phase = .free) := by
  have hset {d : DescNo} {u : Descriptor} (hf : (s.desc d).phase = .finished) (hu : u.phase = .free) :
      (s.setDesc d u).desc e = s.desc e ∨ ((s.desc e).phase = .finished ∧ ((s.setDesc d u).desc e).phase = .free) := by
    by_cases hed : e = d
    · subst hed
      exact .inr ⟨hf, by rw [desc_setDesc_self, hu]⟩
    · exact .inl (desc_setDesc_ne s d e u hed)
  cases h with
  | silent d rest u hq hf hr hu => exact hset hf hu
  | reported d rest u o hq hf hr hs hu =>
    rw [← postEntry_eq_posted, desc_postEntry]
    exact hset hf hu

theorem HeadsHandled.desc (h : HeadsHandled l s t) (e : DescNo) : t.desc e = s.desc e ∨
    ((s.desc e).phase = .finished ∧ (t.desc e).phase = .free) := by
  induction h with
  | none s => exact .inl rfl
  | more s t w hhead _ ih =>
    obtain ht | ⟨hf, hw⟩ := ih
    · rw [ht]
      exact hhead.desc e
    · obtain hs | ⟨-, hfree⟩ := hhead.desc e
      · exact .inr ⟨hs ▸ hf, hw⟩
      · rw [hfree] at hf
        cases hf

theorem HeadsHandled.queue (h : HeadsHandled l s t) : (t.line l).tx.queue <:+ (s.line l).tx.queue := by
  induction h with
  | none s => exact List.suffix_refl _
  | more s t w hhead _ ih =>
    obtain ⟨d, hq⟩ := hhead.queue
    exact ih.trans (hq ▸ List.suffix_cons d _)

theorem HeadsHandled.queuedCount_le (h : HeadsHandled l s t) : queuedCount l t ≤ queuedCount l s := by
  refine queuedCount_le_of_queue h.queue.sublist fun e he => ?_
  obtain hs | ⟨-, hfree⟩ := h.desc e
  · rwa [hs] at he
  · rw [hfree] at he
    cases he

theorem countP_lt_of_mem {α : Type} {p q : α → Bool} {a : α} {xs : List α} (h : ∀ x ∈ xs, q x = true → p x = true)
    (ha : a ∈ xs) (hp : p a = true) (hq : q a = false) : xs.countP q < xs.countP p := by
  obtain ⟨ys, zs, rfl⟩ := List.append_of_mem ha
  have hys := List.countP_mono_left (l := ys) fun x hx => h x (by simp [hx])
  have hzs := List.countP_mono_left (l := zs) fun x hx => h x (by simp [hx])
  simp only [List.countP_append, List.countP_cons, hp, hq, if_true, Bool.false_eq_true, if_false]
  omega

/-- A block that is taken and finished is QUEUED no more. -/
theorem queuedCount_finish_take {d : DescNo} (hd : OldestQueued s l d) :
    queuedCount l (blockEnded .sent d (taken l d s)) < queuedCount l s := by
  have hqueue : ((blockEnded .sent d (taken l d s)).line l).tx.queue = (s.line l).tx.queue := queue_takeBlock l s d
  have hd' : ((blockEnded .sent d (taken l d s)).desc d).phase = .finished :=
    congrArg Descriptor.phase (desc_finishBlock d .sent (taken l d s))
  have hne (e : DescNo) (he : e ≠ d) : (blockEnded .sent d (taken l d s)).desc e = s.desc e :=
    (desc_setDesc_ne (taken l d s) d e _ he).trans (desc_setDesc_ne s d e _ he)
  rw [queuedCount, hqueue]
  have hqueued : decide ((s.desc d).phase = .queued) = true := decide_eq_true (oldestQueued_queued hd)
  refine countP_lt_of_mem (fun e _ he => ?_) (oldestQueued_mem hd) hqueued (by rw [hd']; rfl)
  by_cases hed : e = d
  · rw [hed]
    exact hqueued
  · rwa [hne e hed] at he

end fewer

/-- Every choice with repetitions left for its QUEUED blocks, and for a lead of 0, is the choice of R72. -/
theorem chooses_choose {l : LineNo} (n : Nat) (s : State) (h : queuedCount l s + 2 ≤ n) : Chooses l s (choose l n s) := by
  induction n generalizing s with
  | zero => omega
  | succ n ih =>
    by_cases hz : ∃ d, ZeroBlock l d s
    · obtain ⟨d, hzero⟩ := hz
      obtain ⟨hhalt, hnone, hd, hlen, hbreak⟩ := id hzero
      have hfront := frontHandled_handleFront l (blockEnded .sent d (taken l d s))
      have hfewer := Nat.lt_of_le_of_lt hfront.1.queuedCount_le (queuedCount_finish_take hd)
      rw [choose_zero hhalt ((activeDesc_eq_none_iff l s).mpr hnone) n hd ⟨hlen, hbreak⟩]
      exact .zero s _ _ d hzero hfront (ih _ (by exact Nat.le_of_lt_succ (by omega)))
    · obtain ⟨m, rfl⟩ : ∃ m, n = m + 1 := ⟨n - 1, by omega⟩
      exact .made s _ (not_exists.mp hz) (choiceMade_choose m)

theorem chooses_nextStepChoice (l : LineNo) (s : State) : Chooses l s (nextStepChoice l s) :=
  chooses_choose _ s (Nat.add_le_add (List.countP_le_length) (by decide))

end Sys2Proof.Claims
end

section
/-! PROOFS. The post arbiter and RELEASE HEAD (R36 to R38, R42), the moments at which a choice is made (R72), halts, priority
characters and congestion (R80, R87, R121 to R124), and the obligations of these. -/

namespace Sys2Proof.Claims

open Sys2Proof.Machine

/-! ## One line changed -/

@[simp] theorem line_onLineOf (s : State) (l : LineNo) (f : Line → Line) : (onLineOf s l f).line l = f (s.line l) :=
  line_setLine_self ..

@[simp] theorem onLineOf_onLineOf (s : State) (l : LineNo) (f g : Line → Line) :
    onLineOf (onLineOf s l f) l g = onLineOf s l fun ln => g (f ln) := by
  rw [onLineOf_eq, line_onLineOf, onLineOf_eq, onLineOf_eq, setLine_setLine]

theorem onLineOf_congr {s : State} {l : LineNo} {f g : Line → Line} (h : f (s.line l) = g (s.line l)) :
    onLineOf s l f = onLineOf s l g := congrArg (s.setLine l) h

theorem updTx_eq (s : State) (l : LineNo) (f : Transmitter → Transmitter) :
    s.updTx l f = onLineOf s l fun ln => { ln with tx := f ln.tx } := rfl

/-! ## The moments of choice (R72) -/

section moments

variable {l : LineNo} {s : State}

theorem choiceIn_of_mem {sts : List TxState} (h : (s.line l).tx.state ∈ sts) : choiceIn sts l s = nextStepChoice l s :=
  if_pos (List.contains_iff_mem.mpr h)

theorem choiceIn_of_not_mem {sts : List TxState} (h : (s.line l).tx.state ∉ sts) : choiceIn sts l s = s :=
  if_neg (mt List.contains_iff_mem.mp h)

theorem haltAsked_at_once {ln : Line} (h : ln.tx.state ∈ [TxState.idle, .held, .trailing]) :
    haltAsked ln = { ln with tx := { stoppedIn .halted ln.tx with haltRequest := false } } := by
  unfold haltAsked
  cases hst : ln.tx.state <;> simp [hst] at h ⊢

theorem haltAsked_left {ln : Line} (h : ln.tx.state ∈ [TxState.sending, .breaking, .keying]) :
    haltAsked ln = { ln with tx.haltRequest := true } := by
  unfold haltAsked
  cases hst : ln.tx.state <;> simp [hst] at h ⊢

theorem haltAsked_ignored {ln : Line} (h : ln.tx.state ∈ [TxState.halted, .off]) : haltAsked ln = ln := by
  unfold haltAsked
  cases hst : ln.tx.state <;> simp [hst] at h ⊢

theorem setHaltRequest_eq (l : LineNo) (s : State) :
    setHaltRequest l s = onLineOf s l fun ln => { ln with tx.haltRequest := true } := rfl

/-- A halt request is recorded, taken at once or ignored, as the state of the transmitter says (R80, R81). -/
theorem requestHalt_eq (l : LineNo) (s : State) : requestHalt l s = onLineOf s l haltAsked := by
  have hset : ((setHaltRequest l s).line l).tx.state = (s.line l).tx.state := by rw [setHaltRequest_eq, line_onLineOf]
  unfold requestHalt
  by_cases hignored : (s.line l).tx.state ∈ [TxState.halted, .off]
  · rw [if_pos (List.contains_iff_mem.mpr hignored)]
    exact (setLine_eq_self (haltAsked_ignored hignored)).symm
  · rw [if_neg (mt List.contains_iff_mem.mp hignored)]
    by_cases hnow : (s.line l).tx.state ∈ [TxState.idle, .held, .trailing]
    · have hhalt : ((setHaltRequest l s).line l).tx.haltRequest = true := by rw [setHaltRequest_eq, line_onLineOf]
      rw [choiceIn_of_mem (by rwa [hset]), nextStepChoice, choose_halt _ hhalt, takeHalt, updTx_eq, setHaltRequest_eq,
        onLineOf_onLineOf]
      exact onLineOf_congr (haltAsked_at_once hnow).symm
    · rw [choiceIn_of_not_mem (by rwa [hset]), setHaltRequest_eq]
      refine onLineOf_congr (haltAsked_left ?_).symm
      cases hst : (s.line l).tx.state <;> simp [hst] at hignored hnow ⊢

theorem requested_requestPriority (l : LineNo) (c : FlowChar) (s : State) : Requested l c s (requestPriority l c s) := by
  have hstate : ((s.updTx l fun t => { t with pendingPriority := some c }).line l).tx.state = (s.line l).tx.state := by
    rw [line_updTx]
  unfold Requested requestPriority
  simp only
  split
  · next h =>
    rw [choiceIn_of_mem (by rw [hstate]; simpa using h)]
    exact chooses_nextStepChoice l _
  · next h =>
    rw [choiceIn_of_not_mem (by rw [hstate]; simpa using h)]
    rfl

end moments

/-! ## Congestion (R121, R123, R124) -/

theorem congests_becomeCongested (l : LineNo) (s : State) : Congests l s (becomeCongested l s) := by
  have hline : (onLineOf s l fun ln => { ln with flow.congested := true }).line l =
      { s.line l with flow.congested := true } := line_setLine_self ..
  have hstep (h : (s.line l).flow.congested = false) :
      becomeCongested l s = receiveXoff l (onLineOf s l fun ln => { ln with flow.congested := true }) := by
    rw [becomeCongested, if_neg (by simp [h])]
    rfl
  refine ⟨fun h => if_pos h, fun h hx => ?_, fun h hx hsent hp => ?_, fun h hx hsent hp => ?_, fun h hx hsent hp => ?_⟩ <;>
    rw [hstep h]
  · simp only [receiveXoff, hline, hx, Bool.false_eq_true, if_false]
  · simp only [receiveXoff, hline, hx, hsent, hp, if_true]
    exact requested_requestPriority l .xoff _
  · simp only [receiveXoff, hline, hx, hsent, hp, if_true, withdrawPriority, updTx_eq, onLineOf_onLineOf]
  · simp only [receiveXoff, hline, hx, hsent, hp, if_true]

theorem uncongests_uncongestIfClear (l : LineNo) (s : State) : Uncongests l s (uncongestIfClear l s) := by
  have hline : (onLineOf s l fun ln => { ln with flow.congested := false }).line l =
      { s.line l with flow.congested := false } := line_setLine_self ..
  have hclear : ((s.line l).flow.congested && (s.line l).rx.fifo.isEmpty && decide ((s.line l).rx.state ≠ .stalled)) = true ↔
      Clear (s.line l) := by simp [Clear, and_assoc]
  have hstep (h : Clear (s.line l)) :
      uncongestIfClear l s = receiveXon l (onLineOf s l fun ln => { ln with flow.congested := false }) :=
    if_pos (hclear.mpr h)
  refine ⟨fun h => if_neg (mt hclear.mp h), fun h hx => ?_, fun h hx hsent hp => ?_, fun h hx hsent hp => ?_⟩ <;>
    rw [hstep h]
  · simp only [receiveXon, hline, hx, Bool.false_eq_true, if_false]
  · simp only [receiveXon, hline, hx, hsent, hp, if_true, withdrawPriority, updTx_eq, onLineOf_onLineOf]
  · simp only [receiveXon, hline, hx, hsent, hp, if_true]
    exact requested_requestPriority l .xon _

/-! ## Records that are posted or stall (R24, R108) -/

theorem postRecord_eq (l : LineNo) (c : Cause) (n : Nat) (e : Bool) (cells : List CellNo) (s : State) :
    postRecord l c n e cells s = recordPosted l c n e cells s := by
  rw [postRecord, State.updRx, line_postEntry, postEntry_eq]
  rfl

theorem closes_closeRecord (l : LineNo) (c : Cause) (n : Nat) (e : Bool) (cells : List CellNo) (s : State) :
    Closes l c n e cells s (closeRecord l c n e cells s) := by
  refine ⟨fun h => ?_, fun h => ?_⟩
  · rw [closeRecord, if_pos ((slotFree_iff s).mpr h), postRecord_eq]
  · rw [closeRecord, if_neg (mt (slotFree_iff s).mp h)]
    exact congests_becomeCongested l _

/-! ## The post arbiter (R36 to R38) -/

section arbiter

variable {s : State} {l : LineNo}

theorem reportWaits_iff : reportWaits s l = true ↔ ∃ d, ReportWaits s l d := by
  unfold reportWaits ReportWaits
  cases (s.line l).tx.queue <;> simp

theorem recordWaits_iff (ln : Line) : recordWaits ln = true ↔ ln.rx.state = .stalled ∧ ln.rx.closedRec.isSome := by
  simp [recordWaits]

theorem lineWaits_iff : lineWaits s l = true ↔ LineWaits s l := by
  have hchanges : (!(s.line l).changes.isEmpty) = true ↔ (s.line l).changes ≠ noChanges := by
    rw [Bool.not_eq_true', ← Bool.not_eq_true, isEmpty_iff]
  rw [lineWaits, Bool.or_eq_true, Bool.or_eq_true, hchanges, reportWaits_iff, recordWaits_iff, or_assoc]

theorem lowestPost_isSome_iff : (lowestPost s).isSome = true ↔ ∃ n, (s.matchEntry n).pendingPost.isSome := by
  rw [lowestPost, List.find?_isSome]
  exact exists_congr fun n => and_iff_right (List.mem_finRange n)

theorem sourceWaits_iff (src : SourceNo) : sourceWaits s src = true ↔ Waits s src := by
  unfold sourceWaits Waits
  split
  · next h =>
    rw [lineWaits_iff]
    refine ⟨fun hl => .inl ⟨⟨src.val, h⟩, rfl, hl⟩, fun hw => ?_⟩
    obtain ⟨l, hl, hw⟩ | ⟨h16, -⟩ := hw
    · obtain rfl : l = ⟨src.val, h⟩ := Fin.ext hl
      exact hw
    · omega
  · next h =>
    rw [lowestPost_isSome_iff]
    refine ⟨fun hn => .inr ⟨by omega, hn⟩, fun hw => ?_⟩
    obtain ⟨l, hl, -⟩ | ⟨-, hn⟩ := hw
    · omega
    · exact hn

/-- The search finds the source that waits and has the earliest turn (R37). -/
theorem find?_searchOrder {src : SourceNo} (h : Chosen s src) : (searchOrder s.pointer).find? (sourceWaits s) = some src := by
  obtain ⟨hwaits, hfirst⟩ := h
  have hp := s.pointer.isLt
  have hsrc := src.isLt
  have hturn : turn s.pointer src < 17 := Nat.mod_lt _ (by decide)
  have hat : (⟨(s.pointer.val + 1 + turn s.pointer src) % 17, Nat.mod_lt _ (by decide)⟩ : SourceNo) = src :=
    Fin.ext (by simp only [turn]; omega)
  rw [searchOrder, List.find?_map, Option.map_eq_some_iff]
  refine ⟨turn s.pointer src, List.find?_range_eq_some.mpr ⟨?_, List.mem_range.mpr hturn, fun j hj => ?_⟩, hat⟩
  · rw [Function.comp_apply, hat]
    exact (sourceWaits_iff src).mpr hwaits
  · rw [Function.comp_apply, Bool.not_eq_true', ← Bool.not_eq_true, sourceWaits_iff]
    intro hw
    have hle := hfirst _ hw
    simp only [turn] at hle hj hturn
    omega

theorem find?_searchOrder_none (h : ∀ src, ¬Waits s src) : (searchOrder s.pointer).find? (sourceWaits s) = none :=
  List.find?_eq_none.mpr fun src _ => mt (sourceWaits_iff src).mp (h src)

theorem postGrant_full (h : ¬SlotFree s) : postGrant s = s := if_neg (mt (slotFree_iff s).mp h)

theorem postGrant_none (h : ∀ src, ¬Waits s src) : postGrant s = s := by
  unfold postGrant
  rw [find?_searchOrder_none h]
  exact ite_self s

theorem postGrant_chosen {src : SourceNo} (hs : SlotFree s) (h : Chosen s src) :
    postGrant s = { grantTo src s with pointer := src } := by
  rw [postGrant, if_pos ((slotFree_iff s).mpr hs), find?_searchOrder h]

theorem grantTo_line {src : SourceNo} (h : l.val = src.val) : grantTo src s = grantLine l s := by
  have hlt : src.val < 16 := h ▸ l.isLt
  have hl : l = ⟨src.val, hlt⟩ := Fin.ext h
  rw [hl]
  exact dif_pos hlt

theorem grantTo_match {src : SourceNo} (h : src.val = 16) : grantTo src s = grantMatch s := dif_neg (by omega)

theorem grantLine_changes (h : (s.line l).changes ≠ noChanges) : grantLine l s =
    posted (.lineEvent l (s.line l).changes (s.line l).flow.cts.level (s.line l).flow.dcd.level)
      (onLineOf s l fun ln => { ln with changes := noChanges }) := by
  have hne : (!(s.line l).changes.isEmpty) = true := by
    rw [Bool.not_eq_true', ← Bool.not_eq_true, isEmpty_iff]
    exact h
  rw [grantLine, if_pos hne, grantChanges, postEntry_eq]
  rfl

variable (hnone : (s.line l).changes = noChanges)

include hnone

theorem grantLine_report (h : ∃ d, ReportWaits s l d) : grantLine l s = handleFront l s := by
  rw [grantLine, if_neg (by rw [hnone]; decide), if_pos (reportWaits_iff.mpr h)]

theorem grantLine_record (h : ∀ d, ¬ReportWaits s l d) {r : ClosedRecord} (hr : (s.line l).rx.closedRec = some r) :
    grantLine l s = uncongestIfClear l (recordPosted l r.cause r.length r.errorFlag r.cells s) := by
  rw [grantLine, if_neg (by rw [hnone]; decide), if_neg (by rw [reportWaits_iff]; exact not_exists.mpr h), grantRecord, hr]
  simp only [postRecord_eq]

omit hnone in
theorem grantMatch_of_lowest {n : MatchNo} {p : PendingPost} (hp : (s.matchEntry n).pendingPost = some p)
    (hlow : ∀ k : MatchNo, k < n → (s.matchEntry k).pendingPost = none) : grantMatch s =
      posted (.matched p.line n p.direction p.char p.count) (s.setMatch n { s.matchEntry n with pendingPost := none }) := by
  have hfound : lowestPost s = some n := find?_finRange (by rw [hp]; rfl) fun k hk => by rw [hlow k hk]; rfl
  rw [grantMatch, hfound]
  simp only [hp, postEntry_eq_posted]

end arbiter

theorem commandLost_postGrant (s : State) : (postGrant s).commandLost = s.commandLost := by
  unfold postGrant
  split
  · next hfree =>
    split
    · next src _ =>
      show (grantTo src s).commandLost = s.commandLost
      unfold grantTo
      split
      · exact (LineStep.grantLine hfree).side.commandLost
      · exact (LineStep.grantMatch 0 hfree).side.commandLost
    · rfl
  · rfl

/-- A completion in a state whose command has been accepted (R184, R185). -/
theorem complete_of_accepted {r : ResultCode} {t : State} (h : t.commandLost = false) : complete r t = done r t := by
  rw [complete, done, ← h]

theorem cmdReleaseHead_empty {s : State} (h : s.queue = []) : cmdReleaseHead s = complete .empty s := by
  rw [cmdReleaseHead, h]

theorem cmdReleaseHead_entry {s : State} {e : Entry} {rest : List Entry} (h : s.queue = e :: rest) :
    cmdReleaseHead s = complete .ok (postGrant (dropHeadEntry e rest s)) := by
  rw [cmdReleaseHead, h]

/-- A report at the front that has a slot is posted, and the handling goes on behind it (R32). -/
theorem frontHandled_report {l : LineNo} {s : State} {d : DescNo} {rest : List DescNo} {o : BlockOutcome}
    (hq : (s.line l).tx.queue = d :: rest) (hf : (s.desc d).phase = .finished) (hr : (s.desc d).report = true)
    (hs : SlotFree s) (ho : (s.desc d).outcome = some o) :
    FrontHandled l (posted (.txReport (s.desc d).line (s.desc d).tag o (s.desc d).sent)
      (onLineOf (s.setDesc d .unused) l fun ln => { ln with tx.queue := rest })) (handleFront l s) := by
  have hreport : reportOf (s.desc d) = .txReport (s.desc d).line (s.desc d).tag o (s.desc d).sent := by rw [reportOf, ho]; rfl
  rw [handleFront, hq, List.length_cons, frontSteps, frontStep_reported hq hf hr hs, hreport]
  refine frontHandled_frontSteps _ (Nat.le_of_eq ?_)
  rw [← postEntry_eq_posted, line_postEntry, onLineOf_eq, line_setLine_self]

/-! ## Settled -/

/-- Settles O19: the search of R37 is found by its turns, then each kind of source has its entry. -/
theorem postGrantServesTheFirstWaiting : Obligations.PostGrantServesTheFirstWaiting := by
  intro s hrun
  have hexec : exec .postGrant s = .next (postGrant s) := exec_running rfl hrun
  rw [hexec]
  refine ⟨fun h => by rw [postGrant_full h], fun h => by rw [postGrant_none h], fun src hs hsrc => ?_⟩
  rw [postGrant_chosen hs hsrc]
  refine ⟨fun l hl => ?_, fun h16 n p hp hlow => by rw [grantTo_match h16, grantMatch_of_lowest hp hlow]⟩
  rw [grantTo_line hl]
  refine ⟨fun h => by rw [grantLine_changes h], fun hnone d rest hq hd o ho => ?_, fun hnone h r hr => ?_⟩
  · obtain ⟨-, hf, hreport⟩ := id hd
    rw [grantLine_report hnone ⟨d, hd⟩]
    exact ⟨.unused, _, rfl, frontHandled_report hq hf hreport hs ho, rfl⟩
  · rw [grantLine_record hnone h hr]
    exact ⟨_, rfl, uncongests_uncongestIfClear l _⟩

/-- Settles O17. -/
theorem releaseHead : Obligations.ReleaseHead := by
  intro s hready
  have hexec : exec .releaseHead s = .next (cmdReleaseHead { s with commandLost := false }) := exec_ready rfl hready
  rw [hexec]
  refine ⟨fun hq => congrArg _ (cmdReleaseHead_empty (s := { s with commandLost := false }) hq), fun e rest hq => ?_⟩
  intro freed
  have hfreed : dropHeadEntry e rest { s with commandLost := false } = freed := by cases e <;> rfl
  rw [cmdReleaseHead_entry (s := { s with commandLost := false }) hq, hfreed]
  refine ⟨fun h => ?_, ⟨_, exec_running rfl hready.1, congrArg _ ?_⟩⟩
  · rw [postGrant_none (s := freed) h]
    rfl
  · exact complete_of_accepted ((commandLost_postGrant freed).trans rfl)

end Sys2Proof.Claims
end

section
/-! PROOFS. The commands and timer events of the line transmitter that lead to the next-step choice: HALT, RESUME and FLUSH LINE,
the end of a lead and of a break, and a commit (R58, R71, R74, R80 to R85). -/

namespace Sys2Proof.Machine

/-! ## What the choice leaves of the line -/

section leaves

variable (s : State) (k : LineNo)

@[simp] theorem line_countHits (ns : List MatchNo) : (countHits ns s).line k = s.line k := by
  rw [Claims.countHits_eq]
  rfl

@[simp] theorem line_captureAction (c : TestedChar) (ns : List MatchNo) : (captureAction c ns s).line k = s.line k := by
  unfold captureAction
  split
  · rfl
  · split <;> rfl

@[simp] theorem line_postHit (c : TestedChar) (n : MatchNo) : (postHit c n s).line k = s.line k := by
  unfold postHit
  split
  · rfl
  · split
    · exact line_postEntry _ s k
    · rfl

@[simp] theorem line_postHits (c : TestedChar) (ns : List MatchNo) : (postHits c ns s).line k = s.line k := by
  unfold postHits
  induction ns generalizing s with
  | nil => rfl
  | cons n ns ih => rw [List.foldl_cons, ih, line_postHit]

/-- The mark of a flush that waits is no concern of the operation. -/
def KeepsFlushDue (l : LineNo) (s t : State) : Prop := (t.line l).tx.flushDue = (s.line l).tx.flushDue

variable (l : LineNo)

theorem keepsFlushDue_updTx {f : Transmitter → Transmitter} (h : (f (s.line l).tx).flushDue = (s.line l).tx.flushDue) :
    KeepsFlushDue l s (s.updTx l f) := by rw [KeepsFlushDue, line_updTx, h]

theorem keepsFlushDue_txTest {c : TestedChar} (hc : c.line = l) : KeepsFlushDue l s (txTest c s) := by
  subst hc
  unfold KeepsFlushDue txTest
  simp only
  split
  · rw [line_postHits, line_captureAction, line_countHits]
  · rw [setHaltRequest, line_setLine_self, line_postHits, line_captureAction, line_countHits]

theorem keepsFlushDue_workOn (d : DescNo) : KeepsFlushDue l s (workOn l d s) := by
  unfold workOn
  split
  · unfold enterHold
    simp only
    split
    · unfold KeepsFlushDue
      rw [line_updTx, startPriority, line_setLine_self]
      rfl
    · exact keepsFlushDue_updTx s l rfl
  · split
    · unfold KeepsFlushDue
      rw [startPriority, line_setLine_self]
      rfl
    · unfold blockWork
      split
      · exact keepsFlushDue_updTx s l rfl
      · exact (keepsFlushDue_txTest _ l rfl).trans (keepsFlushDue_updTx s l rfl)

theorem keepsFlushDue_handleFront : KeepsFlushDue l s (handleFront l s) := by
  obtain ⟨q, hq⟩ := line_handleFront l s
  rw [KeepsFlushDue, hq]

theorem keepsFlushDue_choose (n : Nat) : KeepsFlushDue l s (choose l n s) := by
  induction n generalizing s with
  | zero => rfl
  | succ n ih =>
    have htake (d : DescNo) : KeepsFlushDue l s (takeBlock l d s) := by rw [KeepsFlushDue, line_takeBlock]
    have hkey (u : State) : KeepsFlushDue l u (startKeying l u) := by
      rw [KeepsFlushDue, line_startKeying]
      rfl
    unfold choose
    split
    · exact keepsFlushDue_updTx s l rfl
    · split
      · next d _ => exact keepsFlushDue_workOn s l d
      · split
        · next d _ =>
          split
          · exact (ih _).trans ((keepsFlushDue_handleFront _ l).trans (htake d))
          · split
            · split
              · exact (ih _).trans ((hkey _).trans (htake d))
              · exact (hkey _).trans (htake d)
            · exact (ih _).trans (htake d)
        · split
          · split
            · split
              · exact (ih _).trans (hkey s)
              · exact hkey s
            · rw [KeepsFlushDue, startPriority, line_setLine_self]
              rfl
          · refine keepsFlushDue_updTx s l ?_
            split
            · split <;> rfl
            · rfl

theorem flushDue_nextStepChoice : ((nextStepChoice l s).line l).tx.flushDue = (s.line l).tx.flushDue :=
  keepsFlushDue_choose s l _

theorem SameBut.flushDue {a b : Line} (h : SameBut a b) : b.tx.flushDue = a.tx.flushDue := by
  obtain ⟨q, c, rfl⟩ := h
  rfl

/-! ## Blocks that finish -/

/-- A block that is in none of the phases named is as it was. -/
theorem desc_finishBlocks_of_not_mem {ps : List Phase} {o : BlockOutcome} {d : DescNo} (h : (s.desc d).phase ∉ ps) :
    (finishBlocks ps l o s).desc d = s.desc d := by
  unfold finishBlocks
  generalize (s.line l).tx.queue = ds
  induction ds generalizing s with
  | nil => rfl
  | cons e ds ih =>
    have hstep : (finishIf ps o s e).desc d = s.desc d := by
      unfold finishIf
      split
      · next hmem =>
        refine desc_setDesc_ne _ e d _ fun hde => h ?_
        rw [hde]
        exact List.contains_iff_mem.mp hmem
      · rfl
    rw [List.foldl_cons, ih _ (by rw [hstep]; exact h), hstep]

/-- A block keeps its phase or is FINISHED. -/
theorem phase_finishIf {ps : List Phase} {o : BlockOutcome} (e d : DescNo) :
    ((finishIf ps o s e).desc d).phase = (s.desc d).phase ∨ ((finishIf ps o s e).desc d).phase = .finished := by
  unfold finishIf
  split
  · by_cases hde : d = e
    · subst hde
      exact .inr (by rw [desc_finishBlock])
    · exact .inl (congrArg _ (desc_setDesc_ne _ e d _ hde))
  · exact .inl rfl

/-- No block of the queue is left in one of the phases named, FINISHED not being one. -/
theorem phase_finishBlocks {ps : List Phase} {o : BlockOutcome} (hps : Phase.finished ∉ ps) {d : DescNo}
    (hd : d ∈ (s.line l).tx.queue) : ((finishBlocks ps l o s).desc d).phase ∉ ps := by
  unfold finishBlocks
  have hfold (ds : List DescNo) (u : State) (hu : d ∈ ds ∨ (u.desc d).phase ∉ ps) :
      ((ds.foldl (finishIf ps o) u).desc d).phase ∉ ps := by
    induction ds generalizing u with
    | nil => exact hu.resolve_left List.not_mem_nil
    | cons e ds ih =>
      refine ih _ ?_
      by_cases hmem : (u.desc d).phase ∈ ps
      · obtain hmem' | hnot := hu
        · by_cases hde : d = e
          · subst hde
            refine .inr ?_
            rw [finishIf, if_pos (List.contains_iff_mem.mpr hmem), desc_finishBlock]
            exact hps
          · exact .inl ((List.mem_cons.mp hmem').resolve_left hde)
        · exact absurd hmem hnot
      · refine .inr ?_
        obtain hsame | hfin := phase_finishIf u (ps := ps) (o := o) e d
        · rwa [hsame]
        · rwa [hfin]
  exact hfold _ s (.inl hd)

end leaves

end Sys2Proof.Machine

namespace Sys2Proof.Claims

open Sys2Proof.Machine

/-! ## HALT, RESUME and FLUSH LINE: the checks (R82, R83, R85) -/

section checks

variable {k : LineNo → State → State} {l : LineNo} {s : State}

theorem onEnabled_disabled (h : (s.line l).state = .disabled) : onEnabled k l s = complete .lineDisabled s := by
  rw [onEnabled, h]

theorem onEnabled_leaving (h : (s.line l).state = .restarting ∨ (s.line l).state = .disabling) :
    onEnabled k l s = complete .lineBusy s := by
  obtain h | h := h <;> rw [onEnabled, h]

theorem onEnabled_enabled (h : (s.line l).state = .enabled) : onEnabled k l s = k l s := by rw [onEnabled, h]

/-- The three commands with this check. -/
theorem exec_onEnabled {c : Instr} (h : c ∈ [Instr.haltLine, .resumeLine, .flushLine]) :
    ∃ k : LineNo → State → State, ∀ s, exec c s = .next (hostCommand (withLine (onEnabled k)) s) := by
  simp only [List.mem_cons, List.not_mem_nil, or_false] at h
  obtain rfl | rfl | rfl := h <;> exact ⟨_, fun s => rfl⟩

end checks

/-- The choice on a state whose command has been accepted. -/
theorem complete_nextStepChoice {l : LineNo} {s : State} (h : s.commandLost = false) :
    complete .ok (nextStepChoice l s) = done .ok (nextStepChoice l s) :=
  complete_of_accepted ((LineStep.nextStepChoice l s).side.commandLost.trans h)

/-- Settles O28. -/
theorem haltAndResumeLine : Obligations.HaltAndResumeLine := by
  intro s hready
  refine ⟨fun h c hc => ?_, fun l hl => ⟨fun hst c hc => ?_, fun hst c hc => ?_, fun hst => ?_⟩⟩
  · obtain ⟨k, hexec⟩ := exec_onEnabled hc
    exact exec_lineCommand_no_line (hexec s) hready h
  · obtain ⟨k, hexec⟩ := exec_onEnabled hc
    rw [exec_lineCommand (hexec s) hready hl]
    exact congrArg _ (onEnabled_disabled (s := { s with commandLost := false }) hst)
  · obtain ⟨k, hexec⟩ := exec_onEnabled hc
    rw [exec_lineCommand (hexec s) hready hl]
    exact congrArg _ (onEnabled_leaving (s := { s with commandLost := false }) hst)
  · have hhalt : exec .haltLine s = .next (done .ok (onLineOf s l haltAsked)) := by
      rw [exec_lineCommand (k := onEnabled fun l s => complete .ok (requestHalt l s)) rfl hready hl,
        onEnabled_enabled (s := { s with commandLost := false }) hst, requestHalt_eq]
      rfl
    have hresume : exec .resumeLine s = .next (complete .ok
        (if (s.line l).tx.state = .halted then nextStepChoice l { s with commandLost := false }
        else State.updTx { s with commandLost := false } l fun t => { t with haltRequest := false })) := by
      rw [exec_lineCommand (k := onEnabled fun l s => complete .ok
          (if (s.line l).tx.state = .halted then nextStepChoice l s else s.updTx l fun t => { t with haltRequest := false }))
        rfl hready hl, onEnabled_enabled (s := { s with commandLost := false }) hst]
      rfl
    rw [hhalt, hresume]
    refine ⟨fun h => ?_, fun h => ?_, fun h => ⟨?_, ?_⟩, fun h => ?_⟩
    · refine congrArg (fun t => Host.Outcome.next (done .ok t)) (onLineOf_congr ?_)
      exact haltAsked_at_once (by simpa using h)
    · refine congrArg (fun t => Host.Outcome.next (done .ok t)) (onLineOf_congr ?_)
      exact haltAsked_left (by simpa using h)
    · rw [show onLineOf s l haltAsked = s from setLine_eq_self (haltAsked_ignored (by simp [h]))]
    · rw [if_pos h]
      exact ⟨_, congrArg _ (complete_nextStepChoice rfl), chooses_nextStepChoice l _⟩
    · rw [if_neg h]
      rfl

/-! ## FLUSH LINE (R84, R85) -/

section flush

variable (l : LineNo) (s : State)

theorem isSome_activeDesc_eq_any :
    (s.activeDesc l).isSome = (s.line l).tx.queue.any fun d => decide ((s.desc d).phase = .active) :=
  List.isSome_find?

theorem flushBlocks_eq_flushMade : flushBlocks l s = flushMade l s := by
  unfold flushBlocks flushMade
  rw [isSome_activeDesc_eq_any, finishQueued, finishUnfinished, finishBlocks_eq_blocksEnded, finishBlocks_eq_blocksEnded]
  refine ite_of_iff Iff.rfl ?_ rfl
  rw [updTx_eq]
  refine onLineOf_congr ?_
  rw [← finishBlocks_eq_blocksEnded, line_finishBlocks]

variable {l s}

theorem line_flushBlocks_in_flight (h : (s.line l).tx.inFlight.isSome) : (flushBlocks l s).line l = { s.line l with tx :=
    { (s.line l).tx with holdTimer := none, flushDue := (s.line l).tx.flushDue || (s.activeDesc l).isSome } } := by
  rw [flushBlocks, if_pos h, line_updTx, finishQueued, line_finishBlocks]

theorem line_flushBlocks_clear (h : (s.line l).tx.inFlight = none) : (flushBlocks l s).line l =
    { s.line l with tx := { (s.line l).tx with holdTimer := none, breakTimer := .stopped } } := by
  rw [flushBlocks, if_neg (by simp [h]), line_updTx, finishUnfinished, line_finishBlocks]

/-- With a character in flight the ACTIVE block is left for the boundary (R84). -/
theorem flush_in_flight (h : (s.line l).tx.inFlight.isSome) : flush l s = handleFront l (flushMade l s) := by
  have hline := SameBut.handleFront l (flushBlocks l s)
  have hflight : ((handleFront l (flushBlocks l s)).line l).tx.inFlight.isSome := by
    rw [hline.inFlight, line_flushBlocks_in_flight h]
    exact h
  rw [flush, flushChoice, if_neg (by simp [Option.isSome_iff_ne_none.mp hflight]), flushBlocks_eq_flushMade]

theorem flushDue_flush (h : (s.line l).tx.inFlight.isSome) :
    ((flush l s).line l).tx.flushDue = ((s.line l).tx.flushDue || (s.activeDesc l).isSome) := by
  rw [flush_in_flight h, ← flushBlocks_eq_flushMade, (SameBut.handleFront l _).flushDue, line_flushBlocks_in_flight h]

/-- With none in flight no block is left ACTIVE. -/
theorem noneActive_flushed (h : (s.line l).tx.inFlight = none) : NoneActive (handleFront l (flushBlocks l s)) l := by
  intro d hd hact
  obtain ⟨hheads, -⟩ := frontHandled_handleFront l (flushBlocks l s)
  have hqueue := hheads.queue.subset hd
  rw [line_flushBlocks_clear h] at hqueue
  have hblocks : flushBlocks l s = (finishUnfinished l .flushed s).updTx l fun t =>
      { t with holdTimer := none, breakTimer := .stopped } := if_neg (by simp [h])
  obtain hsame | ⟨-, hfree⟩ := hheads.desc d
  · rw [hsame, hblocks] at hact
    have hactive : ((finishBlocks [.active, .queued] l .flushed s).desc d).phase = .active := hact
    exact phase_finishBlocks s l (ps := [.active, .queued]) (by decide) hqueue (by rw [hactive]; decide)
  · rw [hfree] at hact
    cases hact

theorem flush_clear (h : (s.line l).tx.inFlight = none) :
    flush l s = choiceIn [.breaking, .held] l (handleFront l (flushMade l s)) := by
  have hflight : ((handleFront l (flushBlocks l s)).line l).tx.inFlight = none := by
    rw [(SameBut.handleFront l _).inFlight, line_flushBlocks_clear h]
    exact h
  have hnone := (activeDesc_eq_none_iff l _).mpr (noneActive_flushed h)
  rw [flush, flushChoice, if_pos (by rw [hflight, hnone]; rfl), flushBlocks_eq_flushMade]

/-- The line between a flush and its choice. -/
theorem line_flushed (h : (s.line l).tx.inFlight = none) :
    ((handleFront l (flushMade l s)).line l).tx.state = (s.line l).tx.state ∧
      ((handleFront l (flushMade l s)).line l).tx.flushDue = (s.line l).tx.flushDue := by
  rw [← flushBlocks_eq_flushMade, (SameBut.handleFront l _).txState, (SameBut.handleFront l _).flushDue,
    line_flushBlocks_clear h]
  exact ⟨rfl, rfl⟩

/-- The ACTIVE block is as it was while its character is in flight. -/
theorem desc_flush_active (h : (s.line l).tx.inFlight.isSome) {d : DescNo} (hd : (s.desc d).phase = .active) :
    (handleFront l (flushMade l s)).desc d = s.desc d := by
  have hkept : (flushMade l s).desc d = s.desc d := by
    rw [← flushBlocks_eq_flushMade, flushBlocks, if_pos h]
    exact desc_finishBlocks_of_not_mem s l (by rw [hd]; decide)
  obtain ⟨hheads, -⟩ := frontHandled_handleFront l (flushMade l s)
  obtain hsame | ⟨hf, -⟩ := hheads.desc d
  · rw [hsame, hkept]
  · rw [hkept, hd] at hf
    cases hf

/-- FLUSH LINE on the line that it names (R85). -/
def flushOn (l : LineNo) (s : State) : State :=
  if ((flush l s).line l).tx.flushDue then { flush l s with busy := some (.flush l) } else complete .ok (flush l s)

end flush

/-- Settles O29: the flush is one, and what follows it depends on the character in flight. -/
theorem flushLine : Obligations.FlushLine := by
  intro s l hready hl hst
  have hexec : exec .flushLine s = .next (flushOn l { s with commandLost := false }) := by
    rw [exec_lineCommand (k := onEnabled flushOn) rfl hready hl, onEnabled_enabled (s := { s with commandLost := false }) hst]
  rw [hexec]
  have hline : State.line { s with commandLost := false } l = s.line l := rfl
  have hactive : State.activeDesc { s with commandLost := false } l = s.activeDesc l := rfl
  have hdesc (d : DescNo) : State.desc { s with commandLost := false } d = s.desc d := rfl
  have hlost : State.commandLost { s with commandLost := false } = false := rfl
  generalize ({ s with commandLost := false } : State) = u at hline hactive hdesc hlost ⊢
  have hlost' : (flush l u).commandLost = false := (LineStep.flush l u).side.commandLost.trans hlost
  have hdone (h : ((flush l u).line l).tx.flushDue = false) : flushOn l u = done .ok (flush l u) := by
    rw [flushOn, if_neg (by simp [h]), complete_of_accepted hlost']
  refine ⟨_, frontHandled_handleFront l (flushMade l u), fun c d hc hd => ?_, fun hdue => ⟨fun c hc hnone => ?_, fun hclear => ?_⟩⟩
  · have hflight : (u.line l).tx.inFlight.isSome := by rw [hline, hc]; rfl
    have hdue : ((flush l u).line l).tx.flushDue = true := by
      rw [flushDue_flush hflight, hactive, show s.activeDesc l = some d from hd]
      exact Bool.or_true _
    have hphase : (u.desc d).phase = .active := by rw [hdesc, activeDesc_active hd]
    rw [flushOn, if_pos hdue, flush_in_flight hflight, desc_flush_active hflight hphase, hdesc]
    exact ⟨rfl, rfl⟩
  · have hflight : (u.line l).tx.inFlight.isSome := by rw [hline, hc]; rfl
    have hnot : ((flush l u).line l).tx.flushDue = false := by
      rw [flushDue_flush hflight, hactive, (activeDesc_eq_none_iff l s).mpr hnone, hline, hdue]
      rfl
    rw [hdone hnot, flush_in_flight hflight]
  · have hclear' : (u.line l).tx.inFlight = none := by rw [hline, hclear]
    obtain ⟨hstate, hdue'⟩ := line_flushed hclear'
    rw [hline] at hstate hdue'
    refine ⟨fun hb hh => ?_, fun h => ?_⟩
    · have hflush : flush l u = handleFront l (flushMade l u) := by
        rw [flush_clear hclear', choiceIn_of_not_mem (by rw [hstate]; simp [hb, hh])]
      rw [hdone (by rw [hflush, hdue', hdue]), hflush]
    · have hflush : flush l u = nextStepChoice l (handleFront l (flushMade l u)) := by
        rw [flush_clear hclear', choiceIn_of_mem (by rw [hstate]; simpa using h)]
      rw [hdone (by rw [hflush, flushDue_nextStepChoice, hdue', hdue]), hflush]
      exact ⟨_, chooses_nextStepChoice l _, rfl⟩

end Sys2Proof.Claims
end

section
/-! PROOFS. The end of a lead, of a break and of a hold (R71, R74, R78): the acts of a hold expiry in any order that R29 leaves,
and the obligations of the three events. -/

namespace Sys2Proof.Claims

open Sys2Proof.Machine

/-! ## The lead and the break (R71, R74) -/

theorem activeDesc_onLineOf {s : State} {l : LineNo} {f : Line → Line} (h : (f (s.line l)).tx.queue = (s.line l).tx.queue) :
    (onLineOf s l f).activeDesc l = s.activeDesc l := by
  rw [State.activeDesc, line_onLineOf, h]
  rfl

/-- Settles O30. -/
theorem leadEnd : Obligations.LeadEnd := by
  intro s l hrun
  have hexec : exec (.leadEnd l) s = .next (Machine.leadEnd l s) := exec_running rfl hrun
  rw [hexec]
  refine ⟨fun hst ht => ⟨_, congrArg _ (if_pos ((leadDue_iff _).mpr ⟨hst, ht⟩)), chooses_nextStepChoice l _⟩, fun h => ?_⟩
  rw [Machine.leadEnd, if_neg (by rw [leadDue_iff]; exact fun hdue => h.elim (· hdue.1) (· hdue.2))]

section break_end

variable {l : LineNo} {s : State}

theorem breakEnd_ends (hst : (s.line l).tx.state = .breaking) (ht : (s.line l).tx.breakTimer = .mark) :
    Machine.breakEnd l s = nextStepChoice l (finishIfEmpty l
      (onLineOf s l fun ln => { ln with tx.breakTimer := .stopped, tx.breakSent := true })) :=
  if_pos ⟨hst, ht⟩

theorem finishIfEmpty_none (h : NoneActive s l) : finishIfEmpty l s = s := by
  rw [finishIfEmpty, (activeDesc_eq_none_iff l s).mpr h]

theorem finishIfEmpty_some {d : DescNo} (hd : Working s l d) (hlen : (s.desc d).length ≠ 0) : finishIfEmpty l s = s := by
  rw [finishIfEmpty, show s.activeDesc l = some d from hd]
  exact if_neg hlen

theorem finishIfEmpty_empty {d : DescNo} (hd : Working s l d) (hlen : (s.desc d).length = 0) :
    finishIfEmpty l s = handleFront l (blockEnded .sent d s) := by
  rw [finishIfEmpty, show s.activeDesc l = some d from hd]
  exact if_pos hlen

end break_end

/-- Settles O32. -/
theorem breakEnd : Obligations.BreakEnd := by
  intro s l hrun
  have hexec : exec (.breakEnd l) s = .next (Machine.breakEnd l s) := exec_running rfl hrun
  rw [hexec]
  refine ⟨fun h => ?_, fun hst ht => ?_⟩
  · rw [Machine.breakEnd, if_neg fun hmark => h.elim (· hmark.1) (· hmark.2)]
  · intro u
    have hactive : u.activeDesc l = s.activeDesc l := activeDesc_onLineOf rfl
    rw [breakEnd_ends hst ht]
    refine ⟨fun hnone => ?_, fun d hd => ⟨fun hlen => ?_, fun hlen => ?_⟩⟩
    · have hnone' : NoneActive u l := by rwa [← activeDesc_eq_none_iff, hactive, activeDesc_eq_none_iff]
      rw [finishIfEmpty_none hnone']
      exact ⟨_, rfl, chooses_nextStepChoice l u⟩
    · rw [finishIfEmpty_some (hactive.trans hd) hlen]
      exact ⟨_, rfl, chooses_nextStepChoice l u⟩
    · rw [finishIfEmpty_empty (hactive.trans hd) hlen]
      exact ⟨_, _, rfl, frontHandled_handleFront l _, chooses_nextStepChoice l _⟩

/-! ## Joining commutes with finishing (R29) -/

section commute

variable {l : LineNo} {c : ChangeSet} {s : State}

theorem joined_none (h : c = noChanges) : joined l c s = s := if_pos h

theorem joined_posts (hc : c ≠ noChanges) (h : (s.line l).changes = noChanges ∧ s.queue.length < 48) :
    joined l c s = posted (.lineEvent l c (s.line l).flow.cts.level (s.line l).flow.dcd.level) s := by
  rw [joined, if_neg hc, if_pos h]

theorem joined_waits (hc : c ≠ noChanges) (h : ¬((s.line l).changes = noChanges ∧ s.queue.length < 48)) :
    joined l c s = onLineOf s l fun ln => { ln with changes :=
      ⟨ln.changes.cts || c.cts, ln.changes.dcd || c.dcd, ln.changes.holdExpired || c.holdExpired,
        ln.changes.lineCleared || c.lineCleared⟩ } := by
  rw [joined, if_neg hc, if_neg h]

variable (l c s)

@[simp] theorem desc_joined (d : DescNo) : (joined l c s).desc d = s.desc d := by
  by_cases hc : c = noChanges
  · rw [joined_none hc]
  · by_cases h : (s.line l).changes = noChanges ∧ s.queue.length < 48
    · rw [joined_posts hc h]
      rfl
    · rw [joined_waits hc h]
      rfl

theorem sameBut_joined : SameBut (s.line l) ((joined l c s).line l) := by
  rw [← joinChanges_eq_joined]
  exact .joinChanges l s c

theorem queue_tx_joined : ((joined l c s).line l).tx.queue = (s.line l).tx.queue := by
  by_cases hc : c = noChanges
  · rw [joined_none hc]
  · by_cases h : (s.line l).changes = noChanges ∧ s.queue.length < 48
    · rw [joined_posts hc h]
      rfl
    · rw [joined_waits hc h, line_onLineOf]

theorem queue_joined : s.queue <+: (joined l c s).queue := by
  rw [← joinChanges_eq_joined]
  exact (LineStep.joinChanges l s).entries

theorem finishBlock_joined (d : DescNo) (o : BlockOutcome) :
    finishBlock d o (joined l c s) = joined l c (finishBlock d o s) := by
  by_cases hc : c = noChanges
  · rw [joined_none hc, joined_none hc]
  · by_cases h : (s.line l).changes = noChanges ∧ s.queue.length < 48
    · rw [joined_posts hc h, joined_posts hc (s := finishBlock d o s) h]
      rfl
    · rw [joined_waits hc h, joined_waits hc (s := finishBlock d o s) h]
      rfl

theorem finishIf_joined (ps : List Phase) (o : BlockOutcome) (d : DescNo) :
    finishIf ps o (joined l c s) d = joined l c (finishIf ps o s d) := by
  unfold finishIf
  rw [desc_joined, finishBlock_joined, apply_ite (joined l c)]

theorem finishBlocks_joined (ps : List Phase) (o : BlockOutcome) :
    finishBlocks ps l o (joined l c s) = joined l c (finishBlocks ps l o s) := by
  rw [finishBlocks, queue_tx_joined]
  exact List.foldl_hom (joined l c) fun t d => finishIf_joined l c t ps o d

theorem finishBlocks_drawn (ps : List Phase) (o : BlockOutcome) (n : Nat) :
    finishBlocks ps l o { s with freeCtr := n } = { finishBlocks ps l o s with freeCtr := n } := by
  refine List.foldl_hom (fun t : State => { t with freeCtr := n }) fun t d => ?_
  exact (apply_ite (fun u : State => { u with freeCtr := n }) (ps.contains (t.desc d).phase = true) (finishBlock d o t) t).symm

end commute

/-! ## The front in steps, with a joining among them (R29, R32) -/

section front_steps

variable {l : LineNo} {s t : State}

theorem headsHandled_frontSteps (n : Nat) : HeadsHandled l s (frontSteps l n s) := by
  induction n generalizing s with
  | zero => exact .none s
  | succ n ih =>
    by_cases hstop : FrontStops l s
    · rw [frontSteps_of_stops hstop]
      exact .none s
    · exact .more s _ _ (headHandled_frontStep hstop) ih

/-- Each step takes one descriptor off the queue until the handling stops. -/
theorem frontSteps_progress (n : Nat) : FrontStops l (frontSteps l n s) ∨
    ((frontSteps l n s).line l).tx.queue.length + n = (s.line l).tx.queue.length := by
  induction n generalizing s with
  | zero => exact .inr rfl
  | succ n ih =>
    by_cases hstop : FrontStops l s
    · rw [frontSteps_of_stops hstop]
      exact .inl hstop
    · obtain ⟨d, hq⟩ := (headHandled_frontStep hstop).queue
      rw [hq, List.length_cons, frontSteps]
      refine ih.imp_right fun h => ?_
      omega

theorem runAll_replicate (n : Nat) : runAll (List.replicate n (frontStep l)) s = frontSteps l n s := by
  induction n generalizing s with
  | zero => rfl
  | succ n ih => exact ih

/-- A joining does not let the handling go on. -/
theorem frontStops_joined (c : ChangeSet) (h : FrontStops l s) : FrontStops l (joined l c s) := by
  intro d rest hq
  rw [queue_tx_joined] at hq
  rw [desc_joined]
  refine (h d rest hq).imp_right fun hr => ⟨hr.1, fun hslot => hr.2 ?_⟩
  exact Nat.lt_of_le_of_lt (queue_joined l c s).length_le hslot

/-- The steps that are left after a joining end the handling. -/
theorem frontHandled_after_joined (c : ChangeSet) {j n : Nat} (hj : j ≤ n) (hn : (s.line l).tx.queue.length ≤ n) :
    FrontHandled l (joined l c (frontSteps l j s)) (frontSteps l (n - j) (joined l c (frontSteps l j s))) := by
  obtain hstop | hlen := frontSteps_progress (l := l) (s := s) j
  · have hstop' := frontStops_joined c hstop
    rw [frontSteps_of_stops hstop']
    exact ⟨.none _, hstop'⟩
  · exact frontHandled_frontSteps _ (by rw [queue_tx_joined]; omega)

end front_steps

/-! ## A hold expiry beside a flush (R78) -/

section expiry

variable {l : LineNo} {s : State} {ps : List Phase} {n : Nat}

theorem runAll_cons (f : State → State) (fs : List (State → State)) : runAll (f :: fs) s = runAll fs (f s) := rfl

/-- HOLD_EXPIRED put at any place among the acts of a flush: before the blocks finish, or among the steps at the front. -/
theorem frontWithExpiry_runAll (hn : (s.line l).tx.queue.length ≤ n) (k : Nat) :
    let acts := finishBlocks ps l .flushed :: List.replicate n (frontStep l)
    FrontWithExpiry l (blocksEnded ps l .flushed s) (runAll (acts.take k ++ joinChanges l holdExpired :: acts.drop k) s) := by
  intro acts
  have hjoin : joinChanges l holdExpired = joined l holdExpiredChange := funext (joinChanges_eq_joined l holdExpired)
  have hlen : ((finishBlocks ps l .flushed s).line l).tx.queue.length ≤ n := by rwa [line_finishBlocks]
  rw [← finishBlocks_eq_blocksEnded, hjoin]
  cases k with
  | zero =>
    refine ⟨finishBlocks ps l .flushed s, .none _, ?_⟩
    show FrontHandled l _ (runAll (List.replicate n (frontStep l)) (finishBlocks ps l .flushed (joined l holdExpiredChange s)))
    rw [runAll_replicate, finishBlocks_joined]
    exact frontHandled_frontSteps n (by rwa [queue_tx_joined])
  | succ k =>
    refine ⟨frontSteps l (min k n) (finishBlocks ps l .flushed s), headsHandled_frontSteps _, ?_⟩
    have hacts : acts.take (k + 1) ++ joined l holdExpiredChange :: acts.drop (k + 1) =
        finishBlocks ps l .flushed ::
          (List.replicate (min k n) (frontStep l) ++ joined l holdExpiredChange :: List.replicate (n - k) (frontStep l)) := by
      simp only [acts, List.take_succ_cons, List.drop_succ_cons, List.take_replicate, List.drop_replicate, List.cons_append]
    have hrest : n - k = n - min k n := by omega
    rw [hacts, runAll_cons, runAll_append, runAll_cons, runAll_replicate, runAll_replicate, hrest]
    exact frontHandled_after_joined _ (Nat.min_le_right k n) hlen

theorem flushActs_eq : flushActs ps l s =
    finishBlocks ps l .flushed :: List.replicate (s.line l).tx.queue.length (frontStep l) := rfl

/-- The acts of a flush without the joining. -/
theorem frontHandled_flushActs : FrontHandled l (blocksEnded ps l .flushed s) (runAll (flushActs ps l s) s) := by
  rw [flushActs_eq, runAll_cons, runAll_replicate, finishBlocks_eq_blocksEnded]
  refine frontHandled_frontSteps _ (Nat.le_of_eq ?_)
  rw [← finishBlocks_eq_blocksEnded, line_finishBlocks]

/-- HOLD_EXPIRED before the acts of a flush. -/
theorem frontWithExpiry_joined_first :
    FrontWithExpiry l (blocksEnded ps l .flushed s) (runAll (flushActs ps l s) (joinChanges l holdExpired s)) :=
  frontWithExpiry_runAll (s := s) (Nat.le_refl _) 0

/-- A flush of an expiry and its HOLD_EXPIRED; `m` is the count of the model's draws. -/
theorem frontWithExpiry_expireHold (ps : List Phase) (l : LineNo) (s : State) :
    ∃ m, FrontWithExpiry l { blocksEnded ps l .flushed s with freeCtr := m } (expireHold (flushActs ps l s) l s) := by
  unfold expireHold
  split
  · refine ⟨s.freeCtr + 1, ?_⟩
    rw [← finishBlocks_eq_blocksEnded, ← finishBlocks_drawn, finishBlocks_eq_blocksEnded]
    exact frontWithExpiry_runAll (s := (draw s).2) (Nat.le_refl _) _
  · exact ⟨(blocksEnded ps l .flushed s).freeCtr, frontWithExpiry_joined_first⟩

theorem idleAfterExpiry_eq (l : LineNo) (s : State) : idleAfterExpiry l s = onLineOf s l idleLine := by
  unfold idleAfterExpiry
  simp only [updTx_eq, line_onLineOf]
  split
  · next h =>
    have hhalt : (s.line l).tx.haltRequest = true := h
    rw [takeHalt, updTx_eq, onLineOf_onLineOf]
    exact onLineOf_congr (by rw [idleLine, if_pos hhalt]; rfl)
  · next h =>
    have hhalt : ¬(s.line l).tx.haltRequest = true := h
    exact onLineOf_congr (by rw [idleLine, if_neg hhalt]; rfl)

end expiry

/-- Settles O33. -/
theorem holdExpiry : Obligations.HoldExpiry := by
  intro s l hrun
  have hexec : exec (.holdExpiry l) s = .next (Machine.holdExpiry l s) := exec_running rfl hrun
  rw [hexec]
  refine ⟨fun h => ?_, fun h => ?_⟩
  · rw [Machine.holdExpiry, if_neg (by rwa [holdTimeUp_iff])]
  · intro stopped
    have hup : Machine.holdExpiry l s = if (s.line l).tx.state = .held then
        match (s.line l).cfg.holdAction with
        | .report => expireHold [] l stopped
        | .flush => idleAfterExpiry l (expireHold (flushActs [.active, .queued] l stopped) l stopped)
      else onLineOf stopped l fun ln => { ln with tx.holdDue := true } := if_pos ((holdTimeUp_iff _).mpr h)
    rw [hup]
    refine ⟨fun hst ha => ?_, fun hst ha => ?_, fun hst => ?_⟩
    · rw [if_pos hst, ha, ← joinChanges_eq_joined]
      simp only [expireHold, List.isEmpty_nil, Bool.not_true, Bool.and_false, Bool.false_eq_true, if_false]
      rfl
    · obtain ⟨n, hfront⟩ := frontWithExpiry_expireHold [.active, .queued] l stopped
      rw [if_pos hst, ha]
      exact ⟨n, _, hfront, congrArg _ (idleAfterExpiry_eq l _)⟩
    · rw [if_neg hst, onLineOf_onLineOf]

end Sys2Proof.Claims
end

section
/-! PROOFS. The character boundary (R8, R70, R72, R78, R84, R85, R148, R149): the character's own effects, what waits for the
boundary, and the account of the block whose character was in flight. -/

namespace Sys2Proof.Claims

open Sys2Proof.Machine

/-! ## The character's own effects (R8, R70) -/

section own_effects

variable {l : LineNo} {d : DescNo} {s : State}

/-- The line whose character has left. -/
def landed (l : LineNo) (s : State) : State := onLineOf s l fun ln => { ln with tx.inFlight := none }

theorem charCounted_last (h : (s.desc d).sent + 1 = (s.desc d).length) : charCounted l d s =
    blockEnded .sent d ((landed l s).setDesc d { s.desc d with sent := (s.desc d).sent + 1 }) := if_pos h

theorem charCounted_cell (h : (s.desc d).sent + 1 ≠ (s.desc d).length) (hc : ((s.desc d).sent + 1) % 16 = 0) :
    charCounted l d s = { (landed l s).setDesc d
        { s.desc d with sent := (s.desc d).sent + 1, cells := (s.desc d).cells.drop 1 } with
      freeList := s.freeList ++ (s.desc d).cells.take 1 } := (if_neg h).trans (if_pos hc)

theorem charCounted_mid (h : (s.desc d).sent + 1 ≠ (s.desc d).length) (hc : ((s.desc d).sent + 1) % 16 ≠ 0) :
    charCounted l d s = (landed l s).setDesc d { s.desc d with sent := (s.desc d).sent + 1 } := (if_neg h).trans (if_neg hc)

theorem finishBlock_setDesc (d : DescNo) (o : BlockOutcome) (ds : Descriptor) (s : State) :
    finishBlock d o (s.setDesc d ds) =
      (returnCells ds.cells s).setDesc d { ds with phase := .finished, cells := [], outcome := some o } := by
  rw [finishBlock, desc_setDesc_self]
  exact setDesc_setDesc (returnCells ds.cells s) d ds _

theorem returnCells_append (a b : List CellNo) (s : State) : returnCells b (returnCells a s) = returnCells (a ++ b) s := by
  simp only [returnCells, List.append_assoc]

theorem countSent_eq_charCounted (l : LineNo) (d : DescNo) (s : State) : countSent d (landed l s) = charCounted l d s := by
  have hdesc : (landed l s).desc d = s.desc d := rfl
  by_cases h : (s.desc d).sent + 1 = (s.desc d).length
  · have hlast : lastChar (s.desc d) = true := decide_eq_true h
    simp only [countSent, hdesc, hlast, or_true, if_true]
    rw [charCounted_last h, ← finishBlock_eq_blockEnded, finishBlock_setDesc, finishBlock_setDesc, returnCells_append,
      List.take_append_drop]
  · have hlast : lastChar (s.desc d) = false := decide_eq_false h
    by_cases hc : ((s.desc d).sent + 1) % 16 = 0
    · rw [charCounted_cell h hc]
      simp only [countSent, hdesc, hlast, hc, true_or, if_true, Bool.false_eq_true, if_false]
      rfl
    · rw [charCounted_mid h hc]
      simp only [countSent, hdesc, hlast, hc, or_self, Bool.false_eq_true, if_false]

theorem activeDesc_landed : (landed l s).activeDesc l = s.activeDesc l := activeDesc_onLineOf rfl

theorem ownEffects_priority (p : FlowChar) : ownEffects l (.priority p) s = landed l s := rfl

variable (v : Byte)

theorem ownEffects_none (h : NoneActive s l) : ownEffects l (.block v) s = landed l s := by
  have hnone : (landed l s).activeDesc l = none := by rw [activeDesc_landed, activeDesc_eq_none_iff]; exact h
  show (match (landed l s).activeDesc l with
    | some d => _
    | none => landed l s) = _
  rw [hnone]

theorem ownEffects_counts (hd : Working s l d) : ownEffects l (.block v) s =
    if (s.desc d).sent + 1 = (s.desc d).length then handleFront l (charCounted l d s) else charCounted l d s := by
  have hsome : (landed l s).activeDesc l = some d := activeDesc_landed.trans hd
  show (match (landed l s).activeDesc l with
    | some d => if lastChar ((landed l s).desc d) then handleFront l (countSent d (landed l s)) else countSent d (landed l s)
    | none => _) = _
  rw [hsome]
  simp only [countSent_eq_charCounted]
  exact ite_of_iff decide_eq_true_iff rfl rfl

theorem landed_ownEffects (c : InFlight) : Landed l c s (ownEffects l c s) where
  priority p hp := by rw [hp, ownEffects_priority]; rfl
  noBlock v hv hnone := by rw [hv, ownEffects_none v hnone]; rfl
  counts v d hv hd hlen := by rw [hv, ownEffects_counts v hd, if_neg hlen]
  ends v d hv hd hlen := by
    rw [hv, ownEffects_counts v hd, if_pos hlen]
    exact frontHandled_handleFront l _

end own_effects

/-! ## What follows the character's own effects -/

section after

variable {l : LineNo} {s : State}

theorem completeFlush_eq_waitsTaken (l : LineNo) (s : State) :
    completeFlush l (s.updTx l fun t => { t with flushDue := false, holdDue := false }) = waitsTaken l s := rfl

theorem line_waitsTaken (l : LineNo) (s : State) :
    (waitsTaken l s).line l = { s.line l with tx.flushDue := false, tx.holdDue := false } := by
  rw [← completeFlush_eq_waitsTaken, line_completeFlush, line_updTx]

theorem clearMarks_self {ln : Line} (hf : ln.tx.flushDue = false) (hh : ln.tx.holdDue = false) :
    { ln with tx.flushDue := false, tx.holdDue := false } = ln := by
  obtain ⟨_, _, tx, _, _, _, _⟩ := ln
  obtain ⟨⟩ := tx
  subst hf hh
  rfl

/-- With nothing that waits there is nothing to take. -/
theorem waitsTaken_self (hf : (s.line l).tx.flushDue = false) (hh : (s.line l).tx.holdDue = false)
    (hb : s.busy ≠ some (.flush l)) : waitsTaken l s = s := by
  have hline : (onLineOf s l fun ln => { ln with tx.flushDue := false, tx.holdDue := false }) = s :=
    setLine_eq_self (clearMarks_self hf hh)
  unfold waitsTaken
  rw [hline]
  exact if_neg hb

/-- What waits for the boundary, by the two marks. -/
theorem afterBoundary_eq : afterBoundary l s =
    if (s.line l).tx.holdDue then
      match (s.line l).cfg.holdAction with
      | .report => expireHold ((if (s.line l).tx.flushDue then flushActs [.active] l (waitsTaken l s) else []) ++
          [nextStepChoice l]) l (waitsTaken l s)
      | .flush => idleAfterExpiry l (expireHold (flushActs [.active, .queued] l (waitsTaken l s)) l (waitsTaken l s))
    else if (s.line l).tx.flushDue then
      nextStepChoice l (handleFront l (blocksEnded [.active] l .flushed (waitsTaken l s)))
    else nextStepChoice l (waitsTaken l s) := by
  have hcfg : ((waitsTaken l s).line l).cfg = (s.line l).cfg := by rw [line_waitsTaken]
  rw [← finishBlocks_eq_blocksEnded, ← hcfg]
  rfl

/-- HOLD_EXPIRED beside the choice alone; `n` is the count of the model's draws. -/
theorem expireHold_choice (l : LineNo) (s : State) : ∃ n,
    expireHold [nextStepChoice l] l s = nextStepChoice l (joined l holdExpiredChange { s with freeCtr := n }) ∨
    expireHold [nextStepChoice l] l s = joined l holdExpiredChange (nextStepChoice l { s with freeCtr := n }) := by
  have hjoin : joinChanges l holdExpired = joined l holdExpiredChange := funext (joinChanges_eq_joined l holdExpired)
  unfold expireHold
  rw [hjoin]
  split
  · refine ⟨s.freeCtr + 1, ?_⟩
    obtain ⟨k, hk⟩ | hk := insertAct_concat (draw s).1 (joined l holdExpiredChange) (nextStepChoice l) []
    · refine .inl ?_
      have hacts : insertAct (draw s).1 (joined l holdExpiredChange) [nextStepChoice l] =
          [joined l holdExpiredChange, nextStepChoice l] := by simpa using hk
      simp only [hacts]
      rfl
    · refine .inr ?_
      have hacts : insertAct (draw s).1 (joined l holdExpiredChange) [nextStepChoice l] =
          [nextStepChoice l, joined l holdExpiredChange] := by simpa using hk
      simp only [hacts]
      rfl
  · exact ⟨s.freeCtr, .inl rfl⟩

/-- HOLD_EXPIRED beside a flush and the choice that follows it. -/
theorem expireHold_flush_choice (l : LineNo) (s : State) : ∃ n,
    (∃ w, FrontWithExpiry l { blocksEnded [.active] l .flushed s with freeCtr := n } w ∧
      expireHold (flushActs [.active] l s ++ [nextStepChoice l]) l s = nextStepChoice l w) ∨
    ∃ w, FrontHandled l { blocksEnded [.active] l .flushed s with freeCtr := n } w ∧
      expireHold (flushActs [.active] l s ++ [nextStepChoice l]) l s = joined l holdExpiredChange (nextStepChoice l w) := by
  unfold expireHold
  split
  · refine ⟨s.freeCtr + 1, ?_⟩
    have hdrawn : { blocksEnded [.active] l .flushed s with freeCtr := s.freeCtr + 1 } =
        blocksEnded [.active] l .flushed (draw s).2 := by
      rw [← finishBlocks_eq_blocksEnded, ← finishBlocks_drawn, finishBlocks_eq_blocksEnded]
      rfl
    rw [hdrawn]
    have hacts : flushActs [.active] l s = flushActs [.active] l (draw s).2 := rfl
    obtain ⟨k, hk⟩ | hk := insertAct_concat (draw s).1 (joinChanges l holdExpired) (nextStepChoice l) (flushActs [.active] l s)
    · refine .inl ⟨_, frontWithExpiry_runAll (s := (draw s).2) (Nat.le_refl _) k, ?_⟩
      simp only [hk, runAll_append]
      rfl
    · refine .inr ⟨_, frontHandled_flushActs (s := (draw s).2), ?_⟩
      simp only [hk, runAll_append, ← joinChanges_eq_joined]
      rfl
  · refine ⟨(blocksEnded [.active] l .flushed s).freeCtr, .inl ⟨_, frontWithExpiry_joined_first, ?_⟩⟩
    rw [runAll_append]
    rfl

section cases

theorem afterBoundary_plain (hh : (s.line l).tx.holdDue = false) (hf : (s.line l).tx.flushDue = false) :
    afterBoundary l s = nextStepChoice l (waitsTaken l s) := by
  rw [afterBoundary_eq, hh, hf]
  rfl

theorem afterBoundary_flush (hh : (s.line l).tx.holdDue = false) (hf : (s.line l).tx.flushDue = true) :
    afterBoundary l s = nextStepChoice l (handleFront l (blocksEnded [.active] l .flushed (waitsTaken l s))) := by
  rw [afterBoundary_eq, hh, hf]
  rfl

variable (hh : (s.line l).tx.holdDue = true)

include hh

theorem afterBoundary_expiryFlush (ha : (s.line l).cfg.holdAction = .flush) : afterBoundary l s =
    onLineOf (expireHold (flushActs [.active, .queued] l (waitsTaken l s)) l (waitsTaken l s)) l idleLine := by
  rw [afterBoundary_eq, if_pos hh, ha]
  exact idleAfterExpiry_eq l _

theorem afterBoundary_expiryReport (ha : (s.line l).cfg.holdAction = .report) (hf : (s.line l).tx.flushDue = false) :
    afterBoundary l s = expireHold [nextStepChoice l] l (waitsTaken l s) := by
  rw [afterBoundary_eq, if_pos hh, ha, hf]
  rfl

theorem afterBoundary_expiryReportFlush (ha : (s.line l).cfg.holdAction = .report) (hf : (s.line l).tx.flushDue = true) :
    afterBoundary l s =
      expireHold (flushActs [.active] l (waitsTaken l s) ++ [nextStepChoice l]) l (waitsTaken l s) := by
  rw [afterBoundary_eq, if_pos hh, ha, hf]
  rfl

end cases

theorem boundaryEnds_afterBoundary (l : LineNo) (s : State) : BoundaryEnds l s (afterBoundary l s) where
  plain hh hf := by
    rw [afterBoundary_plain hh hf]
    exact chooses_nextStepChoice l _
  flush hh hf := by
    rw [afterBoundary_flush hh hf]
    exact ⟨_, frontHandled_handleFront l _, chooses_nextStepChoice l _⟩
  expiryFlush hh ha := by
    obtain ⟨n, hfront⟩ := frontWithExpiry_expireHold [.active, .queued] l (waitsTaken l s)
    rw [afterBoundary_expiryFlush hh ha]
    exact ⟨n, _, hfront, rfl⟩
  expiryReport hh ha hf := by
    obtain ⟨n, h | h⟩ := expireHold_choice l (waitsTaken l s) <;> rw [afterBoundary_expiryReport hh ha hf, h]
    · exact ⟨n, .inl (chooses_nextStepChoice l _)⟩
    · exact ⟨n, .inr ⟨_, chooses_nextStepChoice l _, rfl⟩⟩
  expiryReportFlush hh ha hf := by
    obtain ⟨n, ⟨w, hw, h⟩ | ⟨w, hw, h⟩⟩ := expireHold_flush_choice l (waitsTaken l s) <;>
      rw [afterBoundary_expiryReportFlush hh ha hf, h]
    · exact ⟨n, .inl ⟨w, hw, chooses_nextStepChoice l _⟩⟩
    · exact ⟨n, .inr ⟨w, _, hw, chooses_nextStepChoice l _, rfl⟩⟩

end after

end Sys2Proof.Claims
end

section
/-! PROOFS. The account of a block that finished (R16, R32): it stays FINISHED as it is, or it is FREE and a report of it that
was requested is among the entries posted since; and the obligations of the character boundary. -/

namespace Sys2Proof.Machine

/-! ## What the choice leaves of the descriptors -/

section descs

variable (s : State) (d : DescNo)

@[simp] theorem desc_countHits (ns : List MatchNo) : (countHits ns s).desc d = s.desc d := by
  rw [Claims.countHits_eq]
  rfl

@[simp] theorem desc_captureAction (c : TestedChar) (ns : List MatchNo) : (captureAction c ns s).desc d = s.desc d := by
  unfold captureAction
  split
  · rfl
  · split <;> rfl

@[simp] theorem desc_postHit (c : TestedChar) (n : MatchNo) : (postHit c n s).desc d = s.desc d := by
  unfold postHit
  split
  · rfl
  · split
    · exact desc_postEntry _ s d
    · rfl

@[simp] theorem desc_postHits (c : TestedChar) (ns : List MatchNo) : (postHits c ns s).desc d = s.desc d := by
  unfold postHits
  induction ns generalizing s with
  | nil => rfl
  | cons n ns ih => rw [List.foldl_cons, ih, desc_postHit]

theorem desc_txTest (c : TestedChar) : (txTest c s).desc d = s.desc d := by
  unfold txTest
  simp only
  split
  · rw [desc_postHits, desc_captureAction, desc_countHits]
  · rw [setHaltRequest, desc_setLine, desc_postHits, desc_captureAction, desc_countHits]

theorem desc_workOn (l : LineNo) (e : DescNo) : (workOn l e s).desc d = s.desc d := by
  unfold workOn
  split
  · unfold enterHold
    simp only
    split <;> rfl
  · split
    · rfl
    · unfold blockWork
      split
      · rfl
      · exact desc_txTest _ d _

theorem entries_workOn (l : LineNo) (e : DescNo) : s.queue <+: (workOn l e s).queue := by
  unfold workOn
  split
  · exact (LineStep.enterHold l s).entries
  · split
    · exact (LineStep.startPriority l s).entries
    · exact (LineStep.blockWork l s).entries

theorem queue_finishBlocks (ps : List Phase) (l : LineNo) (o : BlockOutcome) : (finishBlocks ps l o s).queue = s.queue := by
  unfold finishBlocks
  generalize (s.line l).tx.queue = ds
  induction ds generalizing s with
  | nil => rfl
  | cons d ds ih =>
    rw [List.foldl_cons, ih]
    unfold finishIf
    split <;> rfl

/-- A block of the queue in one of the phases named finishes with its outcome and without cells. -/
theorem desc_finishBlocks_of_mem {ps : List Phase} {o : BlockOutcome} {l : LineNo} (hps : Phase.finished ∉ ps)
    (hd : d ∈ (s.line l).tx.queue) (h : (s.desc d).phase ∈ ps) :
    (finishBlocks ps l o s).desc d = { s.desc d with phase := .finished, cells := [], outcome := some o } := by
  have hfold (ds : List DescNo) (u : State) (hu : (d ∈ ds ∧ u.desc d = s.desc d) ∨
      u.desc d = { s.desc d with phase := .finished, cells := [], outcome := some o }) :
      (ds.foldl (finishIf ps o) u).desc d = { s.desc d with phase := .finished, cells := [], outcome := some o } := by
    induction ds generalizing u with
    | nil => exact hu.resolve_left fun hmem => List.not_mem_nil hmem.1
    | cons e ds ih =>
      refine ih _ ?_
      by_cases hde : d = e
      · subst hde
        refine .inr ?_
        obtain ⟨-, hsame⟩ | hfin := hu
        · rw [finishIf, if_pos (by rw [hsame]; exact List.contains_iff_mem.mpr h), desc_finishBlock, hsame]
        · rw [finishIf, if_neg (by rw [hfin]; exact mt List.contains_iff_mem.mp hps), hfin]
      · have hstep : (finishIf ps o u e).desc d = u.desc d := by
          unfold finishIf
          split
          · exact desc_setDesc_ne _ e d _ hde
          · rfl
        rw [hstep]
        exact hu.imp_left fun hmem => ⟨(List.mem_cons.mp hmem.1).resolve_left hde, hmem.2⟩
  exact hfold _ s (.inl ⟨hd, rfl⟩)

end descs

end Sys2Proof.Machine

namespace Sys2Proof.Claims

open Sys2Proof.Machine

/-- What becomes of blocks that are FINISHED or FREE: they stay so, but that a FINISHED one may become FREE, its report, if it
was requested, being among the entries posted since. -/
structure Accounts (s t : State) : Prop where
  entries : s.queue <+: t.queue
  free : ∀ d, (s.desc d).phase = .free → (t.desc d).phase = .free
  finished : ∀ d, (s.desc d).phase = .finished → t.desc d = s.desc d ∨
    ((t.desc d).phase = .free ∧ ∀ o, (s.desc d).outcome = some o → (s.desc d).report = true →
      .txReport (s.desc d).line (s.desc d).tag o (s.desc d).sent ∈ t.queue.drop s.queue.length)

theorem Accounts.of_desc {s t : State} (hdesc : ∀ d, t.desc d = s.desc d) (hq : s.queue <+: t.queue) : Accounts s t where
  entries := hq
  free d h := by rw [hdesc, h]
  finished d _ := .inl (hdesc d)

theorem Accounts.trans {s t u : State} (h : Accounts s t) (k : Accounts t u) : Accounts s u where
  entries := h.entries.trans k.entries
  free d hd := k.free d (h.free d hd)
  finished d hd := by
    obtain hsame | ⟨hfree, hreport⟩ := h.finished d hd
    · have hk := k.finished d (by rw [hsame, hd])
      rw [hsame] at hk
      refine hk.imp_right fun ⟨hf, hr⟩ => ⟨hf, fun o ho hreq => ?_⟩
      exact List.drop_subset_drop_left _ h.entries.length_le (hr o ho hreq)
    · refine .inr ⟨k.free d hfree, fun o ho hreq => ?_⟩
      obtain ⟨later, hlater⟩ := k.entries
      rw [← hlater, List.drop_append_of_le_length h.entries.length_le]
      exact List.mem_append_left _ (hreport o ho hreq)

/-- A change of one block that is neither FINISHED nor FREE. -/
theorem Accounts.of_block {s t : State} {d : DescNo} (hdesc : ∀ e, e ≠ d → t.desc e = s.desc e)
    (hd : (s.desc d).phase = .queued ∨ (s.desc d).phase = .active) (hq : s.queue <+: t.queue) : Accounts s t where
  entries := hq
  free e he := by
    by_cases hed : e = d
    · rw [hed] at he
      simp [he] at hd
    · rw [hdesc e hed, he]
  finished e he := by
    by_cases hed : e = d
    · rw [hed] at he
      simp [he] at hd
    · exact .inl (hdesc e hed)

theorem HeadHandled.accounts {l : LineNo} {s t : State} (h : HeadHandled l s t) : Accounts s t where
  entries := by
    cases h with
    | silent => exact List.prefix_refl _
    | reported => exact List.prefix_append _ _
  free e he := by
    obtain hsame | ⟨hf, -⟩ := h.desc e
    · rw [hsame, he]
    · rw [he] at hf
      cases hf
  finished e he := by
    cases h with
    | silent d rest u hq hf hr hu =>
      by_cases hed : e = d
      · subst hed
        refine .inr ⟨by rw [onLineOf_eq, desc_setLine, desc_setDesc_self, hu], fun o ho hreq => ?_⟩
        rw [hr] at hreq
        cases hreq
      · exact .inl (desc_setDesc_ne s d e u hed)
    | reported d rest u o hq hf hr hs hu ho =>
      by_cases hed : e = d
      · subst hed
        refine .inr ⟨by rw [← postEntry_eq_posted, desc_postEntry, onLineOf_eq, desc_setLine, desc_setDesc_self, hu],
          fun p hp _ => ?_⟩
        rw [ho p hp, ← postEntry_eq_posted, queue_postEntry]
        exact List.mem_of_mem_drop (i := 0) (by simp [onLineOf_eq])
      · refine .inl ?_
        rw [← postEntry_eq_posted, desc_postEntry]
        exact desc_setDesc_ne s d e u hed

theorem HeadsHandled.accounts {l : LineNo} {s t : State} (h : HeadsHandled l s t) : Accounts s t := by
  induction h with
  | none s => exact .of_desc (fun _ => rfl) (List.prefix_refl _)
  | more s t w hhead _ ih => exact hhead.accounts.trans ih

theorem FrontHandled.accounts {l : LineNo} {s t : State} (h : FrontHandled l s t) : Accounts s t := h.1.accounts

section accounts

variable (l : LineNo) (s : State)

theorem accounts_joined (c : ChangeSet) : Accounts s (joined l c s) := .of_desc (desc_joined l c s) (queue_joined l c s)

theorem FrontWithExpiry.accounts {l : LineNo} {s t : State} (h : FrontWithExpiry l s t) : Accounts s t := by
  obtain ⟨w, hheads, hfront⟩ := h
  exact (hheads.accounts.trans (accounts_joined l w _)).trans hfront.accounts

theorem accounts_onLineOf (f : Line → Line) : Accounts s (onLineOf s l f) := .of_desc (fun _ => rfl) (List.prefix_refl _)

theorem accounts_takeBlock {d : DescNo} (hd : s.oldestQueued l = some d) : Accounts s (takeBlock l d s) :=
  .of_block (fun e he => by rw [desc_takeBlock, if_neg he]) (.inl (oldestQueued_queued hd)) (List.prefix_refl _)

theorem accounts_finishBlock {d : DescNo} {o : BlockOutcome}
    (hd : (s.desc d).phase = .queued ∨ (s.desc d).phase = .active) : Accounts s (finishBlock d o s) :=
  .of_block (fun e he => desc_setDesc_ne _ d e _ he) hd (List.prefix_refl _)

theorem accounts_finishBlocks {ps : List Phase} {o : BlockOutcome} (hps : ∀ p ∈ ps, p = .queued ∨ p = .active) :
    Accounts s (finishBlocks ps l o s) := by
  unfold finishBlocks
  generalize (s.line l).tx.queue = ds
  induction ds generalizing s with
  | nil => exact .of_desc (fun _ => rfl) (List.prefix_refl _)
  | cons d ds ih =>
    refine Accounts.trans ?_ (ih _)
    unfold finishIf
    split
    · next h => exact accounts_finishBlock s (hps _ (List.contains_iff_mem.mp h))
    · exact .of_desc (fun _ => rfl) (List.prefix_refl _)

theorem accounts_choose (n : Nat) : Accounts s (choose l n s) := by
  induction n generalizing s with
  | zero => exact .of_desc (fun _ => rfl) (List.prefix_refl _)
  | succ n ih =>
    have hkey (u : State) : Accounts u (startKeying l u) := .of_desc (fun _ => rfl) (List.prefix_refl _)
    unfold choose
    split
    · exact .of_desc (fun _ => rfl) (List.prefix_refl _)
    · split
      · next d _ => exact .of_desc (fun e => desc_workOn s e l d) (entries_workOn s l d)
      · split
        · next d hd =>
          have htake := accounts_takeBlock l s hd
          split
          · have hactive : ((takeBlock l d s).desc d).phase = .active := by rw [desc_takeBlock, if_pos rfl]
            exact ((htake.trans (accounts_finishBlock _ (.inr hactive))).trans
              (frontHandled_handleFront l _).accounts).trans (ih _)
          · split
            · split
              · exact (htake.trans (hkey _)).trans (ih _)
              · exact htake.trans (hkey _)
            · exact htake.trans (ih _)
        · split
          · split
            · split
              · exact (hkey s).trans (ih _)
              · exact hkey s
            · exact .of_desc (fun _ => rfl) (List.prefix_refl _)
          · exact .of_desc (fun _ => rfl) (List.prefix_refl _)

theorem accounts_nextStepChoice : Accounts s (nextStepChoice l s) := accounts_choose l s _

end accounts

/-! ## The block whose character was in flight -/

section accounted

variable {l : LineNo} {s : State} {d : DescNo} {o : BlockOutcome}

theorem queue_charCounted (l : LineNo) (d : DescNo) (s : State) : (charCounted l d s).queue = s.queue := by
  unfold charCounted
  simp only
  split
  · rfl
  · split <;> rfl

/-- The account of a block from the state in which it is FINISHED. -/
theorem accounted_of_finished {x t : State} {out : BlockOutcome} (hq : x.queue = s.queue)
    (hx : x.desc d = { s.desc d with
      phase := .finished, sent := (s.desc d).sent + 1, cells := [], outcome := some out }) (h : Accounts x t) :
    ((t.desc d).phase = .finished ∧ (t.desc d).sent = (s.desc d).sent + 1 ∧ (t.desc d).cells = [] ∧
      (t.desc d).outcome = some out) ∨
    ((t.desc d).phase = .free ∧ ((s.desc d).report = true →
      .txReport (s.desc d).line (s.desc d).tag out ((s.desc d).sent + 1) ∈ t.queue.drop s.queue.length)) := by
  have hfin := h.finished d (by rw [hx])
  rw [hx, hq] at hfin
  obtain hsame | ⟨hfree, hreport⟩ := hfin
  · exact .inl (by rw [hsame]; exact ⟨rfl, rfl, rfl, rfl⟩)
  · exact .inr ⟨hfree, hreport out rfl⟩

/-- What follows the character's own effects finishes the block if it is still ACTIVE: `u` is the state that the finishing
begins with, `t` comes after it. -/
theorem blockAccounted_of_finishBlocks {c : InFlight} {u t : State} {ps : List Phase} (hactive : Phase.active ∈ ps)
    (hps : ∀ p ∈ ps, p = .queued ∨ p = .active) (hdesc : ∀ e, u.desc e = (ownEffects l c s).desc e)
    (hqueue : u.queue = (ownEffects l c s).queue) (htx : (u.line l).tx.queue = ((ownEffects l c s).line l).tx.queue)
    (h : Accounts (finishBlocks ps l o u) t) : BlockAccounted l c o s t := by
  intro v d hv hd
  subst hv
  have hown := ownEffects_counts (l := l) (s := s) v hd
  by_cases hlast : (s.desc d).sent + 1 = (s.desc d).length
  · rw [if_pos hlast] at hown
    simp only [if_pos hlast]
    refine accounted_of_finished (x := charCounted l d s) (queue_charCounted l d s) ?_ ?_
    · rw [charCounted_last hlast, ← finishBlock_eq_blockEnded, desc_finishBlock, desc_setDesc_self]
    · have hfront := (frontHandled_handleFront l (charCounted l d s)).accounts
      rw [← hown] at hfront
      exact ((hfront.trans (.of_desc hdesc ⟨[], by rw [List.append_nil, hqueue]⟩)).trans (accounts_finishBlocks l u hps)).trans h
  · rw [if_neg hlast] at hown
    simp only [if_neg hlast]
    have hcounted : ∃ cells, (charCounted l d s).desc d = { s.desc d with sent := (s.desc d).sent + 1, cells := cells } := by
      by_cases hc : ((s.desc d).sent + 1) % 16 = 0
      · exact ⟨_, by rw [charCounted_cell hlast hc]; exact desc_setDesc_self (landed l s) d _⟩
      · exact ⟨_, by rw [charCounted_mid hlast hc]; exact desc_setDesc_self (landed l s) d _⟩
    obtain ⟨cells, hcells⟩ := hcounted
    have hu : u.desc d = { s.desc d with sent := (s.desc d).sent + 1, cells := cells } := by rw [hdesc, hown, hcells]
    have hphase : (u.desc d).phase = .active := by rw [hu]; exact activeDesc_active hd
    have hmem : d ∈ (u.line l).tx.queue := by
      have hline : (charCounted l d s).line l = (landed l s).line l := by rw [← countSent_eq_charCounted, line_countSent]
      rw [htx, hown, hline, landed, line_onLineOf]
      exact activeDesc_mem hd
    have hfinished : Phase.finished ∉ ps := fun hf => by simpa using hps _ hf
    refine accounted_of_finished (x := finishBlocks ps l o u) ?_ ?_ h
    · rw [queue_finishBlocks, hqueue, hown, queue_charCounted]
    · rw [desc_finishBlocks_of_mem u d hfinished hmem (by rw [hphase]; exact hactive), hu]

end accounted

/-! ## Settled -/

section boundary

variable {l : LineNo} {s : State} {c : InFlight} (hc : (s.line l).tx.inFlight = some c)

theorem state_ownEffects (l : LineNo) (c : InFlight) (s : State) : ((ownEffects l c s).line l).state = (s.line l).state :=
  (SameBut.ownEffects l s c).state

theorem busy_ownEffects (l : LineNo) (c : InFlight) (s : State) : (ownEffects l c s).busy = s.busy := by
  have hcount (d : DescNo) (u : State) : (countSent d u).busy = u.busy := by
    unfold countSent
    simp only
    split <;> split <;> rfl
  unfold ownEffects
  simp only
  split
  · split
    · split
      · exact (TxSide.handleFront l _).busy.trans (hcount _ _)
      · exact hcount _ _
    · rfl
  · rfl

include hc

theorem characterBoundary_enabled (hst : (s.line l).state = .enabled) :
    characterBoundary l s = afterBoundary l (ownEffects l c s) := by
  rw [characterBoundary, hc]
  simp only [state_ownEffects, hst]

/-- With nothing that waits the choice follows the character's own effects. -/
theorem characterBoundary_plain (hst : (s.line l).state = .enabled) (hf : (s.line l).tx.flushDue = false)
    (hh : (s.line l).tx.holdDue = false) (hb : s.busy ≠ some (.flush l)) :
    characterBoundary l s = nextStepChoice l (ownEffects l c s) := by
  obtain ⟨q, x, hline⟩ := SameBut.ownEffects l s c
  have hf' : ((ownEffects l c s).line l).tx.flushDue = false := by rw [hline]; exact hf
  have hh' : ((ownEffects l c s).line l).tx.holdDue = false := by rw [hline]; exact hh
  rw [characterBoundary_enabled hc hst, afterBoundary_plain hh' hf',
    waitsTaken_self hf' hh' (by rw [busy_ownEffects]; exact hb)]

theorem characterBoundary_restarting (hst : (s.line l).state = .restarting) : characterBoundary l s =
    completeRestart l (handleFront l (finishBlocks [.active] l .restarted (ownEffects l c s))) := by
  rw [characterBoundary, hc]
  simp only [state_ownEffects, hst]

theorem characterBoundary_disabling (hst : (s.line l).state = .disabling) : characterBoundary l s =
    completeDisable l (handleFront l (finishBlocks [.active] l .restarted (ownEffects l c s))) := by
  rw [characterBoundary, hc]
  simp only [state_ownEffects, hst]

end boundary

theorem completeRestart_eq_restarted (l : LineNo) (s : State) : completeRestart l s = restarted l s := by
  rw [completeRestart, joinChanges_eq_joined]
  rfl

theorem completeDisable_eq_disabled (l : LineNo) (s : State) : completeDisable l s = disabled l s := by
  rw [completeDisable, joinChanges_eq_joined]
  rfl

theorem accounts_restarted (l : LineNo) (s : State) : Accounts s (restarted l s) :=
  ((accounts_onLineOf l s _).trans (accounts_joined l _ lineClearedChange)).trans (.of_desc (fun _ => rfl) (List.prefix_refl _))

theorem accounts_disabled (l : LineNo) (s : State) : Accounts s (disabled l s) :=
  ((accounts_onLineOf l s _).trans (accounts_joined l _ lineClearedChange)).trans (.of_desc (fun _ => rfl) (List.prefix_refl _))

/-- Settles O26. -/
theorem boundaryCompletesRestartAndDisable : Obligations.BoundaryCompletesRestartAndDisable := by
  intro s l c hrun hc
  have hexec : exec (.characterBoundary l) s = .next (characterBoundary l s) := exec_running rfl hrun
  have hfront := frontHandled_handleFront l (finishBlocks [.active] l .restarted (ownEffects l c s))
  have haccount {t : State} (h : Accounts (handleFront l (finishBlocks [.active] l .restarted (ownEffects l c s))) t) :
      BlockAccounted l c .restarted s t :=
    blockAccounted_of_finishBlocks (ps := [.active]) (List.mem_singleton_self _) (by simp) (fun _ => rfl) rfl rfl
      (hfront.accounts.trans h)
  rw [hexec]
  refine ⟨fun hst => ⟨_, _, landed_ownEffects c, ?_, congrArg _ ?_, haccount (accounts_restarted l _)⟩,
    fun hst => ⟨_, _, landed_ownEffects c, ?_, congrArg _ ?_, haccount (accounts_disabled l _)⟩⟩
  · rw [← finishBlocks_eq_blocksEnded]
    exact hfront
  · rw [characterBoundary_restarting hc hst, completeRestart_eq_restarted]
  · rw [← finishBlocks_eq_blocksEnded]
    exact hfront
  · rw [characterBoundary_disabling hc hst, completeDisable_eq_disabled]

/-- Settles O34. -/
theorem characterBoundaryGoesOn : Obligations.CharacterBoundaryGoesOn := by
  intro s l hrun
  have hexec : exec (.characterBoundary l) s = .next (characterBoundary l s) := exec_running rfl hrun
  rw [hexec]
  refine ⟨fun hc => by rw [characterBoundary, hc], fun hst hf hh hb => ⟨fun c hc => ?_, fun v d hc hd hlen => ⟨fun hmid => ?_,
    fun hcell c rest hcells => ?_⟩⟩⟩ <;>
    rw [characterBoundary_plain hc hst hf hh hb]
  · rw [ownEffects_priority]
    exact ⟨_, rfl, chooses_nextStepChoice l _⟩
  · rw [ownEffects_counts v hd, if_neg hlen, charCounted_mid hlen (by omega)]
    exact ⟨_, rfl, chooses_nextStepChoice l _⟩
  · rw [ownEffects_counts v hd, if_neg hlen, charCounted_cell hlen (by omega), hcells]
    exact ⟨_, rfl, chooses_nextStepChoice l _⟩

/-- Settles O35. -/
theorem characterBoundaryEndsTheBlock : Obligations.CharacterBoundaryEndsTheBlock := by
  intro s l v d hrun hst hf hh hb hc hd hlen
  have hexec : exec (.characterBoundary l) s = .next (characterBoundary l s) := exec_running rfl hrun
  intro ended
  have hended : charCounted l d s = ended := by
    rw [charCounted_last hlen, ← finishBlock_eq_blockEnded, finishBlock_setDesc]
    rfl
  rw [hexec, characterBoundary_plain hc hst hf hh hb, ownEffects_counts v hd, if_pos hlen, hended]
  exact ⟨_, _, rfl, frontHandled_handleFront l ended, chooses_nextStepChoice l _⟩

/-- A waiting flush at the boundary: the blocks finish, and what else there is comes after (R84). -/
theorem accounts_afterBoundary {l : LineNo} {s : State} (hf : (s.line l).tx.flushDue = true) :
    ∃ ps n, Phase.active ∈ ps ∧ (∀ p ∈ ps, p = .queued ∨ p = .active) ∧
      Accounts (finishBlocks ps l .flushed { waitsTaken l s with freeCtr := n }) (afterBoundary l s) := by
  cases hh : (s.line l).tx.holdDue with
  | false =>
    refine ⟨[.active], (waitsTaken l s).freeCtr, by simp, by simp, ?_⟩
    rw [afterBoundary_flush hh hf, ← finishBlocks_eq_blocksEnded]
    exact (frontHandled_handleFront l _).accounts.trans (accounts_nextStepChoice l _)
  | true =>
    cases ha : (s.line l).cfg.holdAction with
    | flush =>
      obtain ⟨n, hfront⟩ := frontWithExpiry_expireHold [.active, .queued] l (waitsTaken l s)
      refine ⟨[.active, .queued], n, by simp, by simp, ?_⟩
      rw [afterBoundary_expiryFlush hh ha, finishBlocks_drawn, finishBlocks_eq_blocksEnded]
      exact hfront.accounts.trans (accounts_onLineOf l _ _)
    | report =>
      obtain ⟨n, h⟩ := expireHold_flush_choice l (waitsTaken l s)
      refine ⟨[.active], n, by simp, by simp, ?_⟩
      rw [afterBoundary_expiryReportFlush hh ha hf, finishBlocks_drawn, finishBlocks_eq_blocksEnded]
      obtain ⟨w, hw, h⟩ | ⟨w, hw, h⟩ := h <;> rw [h]
      · exact hw.accounts.trans (accounts_nextStepChoice l w)
      · exact (hw.accounts.trans (accounts_nextStepChoice l w)).trans (accounts_joined l _ _)

/-- Settles O36. -/
theorem characterBoundaryCompletesFlush : Obligations.CharacterBoundaryCompletesFlush := by
  intro s l c hrun hst hc
  have hexec : exec (.characterBoundary l) s = .next (characterBoundary l s) := exec_running rfl hrun
  rw [hexec, characterBoundary_enabled hc hst]
  refine ⟨_, _, rfl, landed_ownEffects c, boundaryEnds_afterBoundary l _, fun hf => ?_⟩
  have hdue : ((ownEffects l c s).line l).tx.flushDue = true := by
    rw [(SameBut.ownEffects l s c).flushDue]
    exact hf
  obtain ⟨ps, n, hactive, hps, h⟩ := accounts_afterBoundary hdue
  have hwaits : (waitsTaken l (ownEffects l c s)).queue = (ownEffects l c s).queue ∧
      ∀ d, (waitsTaken l (ownEffects l c s)).desc d = (ownEffects l c s).desc d := by
    unfold waitsTaken
    simp only
    split <;> exact ⟨rfl, fun _ => rfl⟩
  obtain ⟨hqueue, hdesc⟩ := hwaits
  refine blockAccounted_of_finishBlocks (u := { waitsTaken l (ownEffects l c s) with freeCtr := n }) hactive hps hdesc hqueue
    ?_ h
  show ((waitsTaken l (ownEffects l c s)).line l).tx.queue = _
  rw [line_waitsTaken]

end Sys2Proof.Claims
end

section
/-! PROOFS. The acceptance of RESTART LINE and DISABLE LINE (R61, R89, R114, R138, R146), at once or with a character in flight,
and the commit of a block (R58, R59, R73). -/

namespace Sys2Proof.Claims

open Sys2Proof.Machine

/-! ## The acceptance (R146) -/

section acceptance

variable (l : LineNo) (s : State)

theorem windowLost_loseWindow : WindowLost l s (loseWindow l s) := by
  obtain ⟨he, hkeep⟩ | ⟨d, hd, hline, he⟩ := loseWindow_eq s l <;> rw [he]
  · exact ⟨fun d hd hl => absurd hl (hkeep d hd), fun _ => rfl⟩
  · refine ⟨fun e hwe _ => ?_, fun h => absurd hline (h d hd)⟩
    obtain rfl : d = e := Option.some.inj (hd.symm.trans hwe)
    exact ⟨.unused, rfl, rfl⟩

theorem discardedLength_eq (r : Receiver) : discardedLength r = recordLength r := by
  unfold discardedLength recordLength
  cases r.openRec <;> cases r.closedRec <;> rfl

theorem discardedCells_eq (r : Receiver) : discardedCells r = recordCells r := by
  unfold discardedCells recordCells
  cases r.openRec <;> cases r.closedRec <;> rfl

theorem fifoChars_eq (fifo : List FifoItem) : fifoChars fifo = fifo.countP fun i => decide (i ≠ .breakMarker) :=
  List.countP_congr fun i _ => by cases i <;> simp

theorem acceptTransmitter_eq (st : LineState) :
    acceptTransmitter l (s.setLine l { s.line l with state := st }) =
      handleFront l (blocksEnded (acceptedPhases (s.line l)) l .restarted (onLineOf s l (stoppedLine st))) := by
  have hstopped : (s.setLine l { s.line l with state := st }).updTx l stoppedTransmitter = onLineOf s l (stoppedLine st) := by
    rw [State.updTx, line_setLine_self, setLine_setLine]
    rfl
  have hflight : ((onLineOf s l (stoppedLine st)).line l).tx.inFlight = (s.line l).tx.inFlight := by rw [line_onLineOf]; rfl
  unfold acceptTransmitter
  simp only [hstopped, hflight, ← finishBlocks_eq_blocksEnded, acceptedPhases]
  split <;> rfl

theorem acceptFlow_acceptReceiver : acceptFlow l (acceptReceiver l s) =
    onLineOf { s with freeList := s.freeList ++ discardedCells (s.line l).rx } l discardedLine := by
  rw [acceptFlow, acceptReceiver_eq, line_setLine_self, setLine_setLine, discardedCells_eq]
  have hline : discardedLine (s.line l) = { emptiedLine (s.line l) with
      flow := { (emptiedLine (s.line l)).flow with congested := false, xoffSent := false } } := by
    rw [discardedLine, discardedLength_eq, ← fifoChars_eq, ← satAdd_eq_upTo255, ← satAdd_eq_upTo255]
    rfl
  rw [← hline]
  rfl

theorem accepted_acceptParts (st : LineState) : Accepted st l s (acceptParts st l (loseWindow l s)) := by
  refine ⟨loseWindow l s, _, windowLost_loseWindow l s, frontHandled_handleFront l _, ?_⟩
  have hrx : ((acceptTransmitter l ((loseWindow l s).setLine l { (loseWindow l s).line l with state := st })).line l).rx =
      (s.line l).rx := by
    rw [(SameBut.acceptTransmitter l _).rx, line_setLine_self, line_loseWindow]
  rw [acceptParts, acceptFlow_acceptReceiver, hrx, acceptTransmitter_eq, line_loseWindow]

theorem inFlight_acceptParts (st : LineState) :
    ((acceptParts st l s).line l).tx.inFlight = (s.line l).tx.inFlight := (SameBut.acceptParts l s st).inFlight

variable {l s}

theorem desc_loseWindow {d : DescNo} (h : s.window ≠ some d) : (loseWindow l s).desc d = s.desc d := by
  obtain ⟨he, -⟩ | ⟨e, hw, -, he⟩ := loseWindow_eq s l <;> rw [he]
  refine desc_setDesc_ne s e d .unused fun hde => h ?_
  rw [hde, hw]

/-- The ACTIVE block is left for the boundary while its character is in flight (R89). -/
theorem desc_acceptParts (st : LineState) (hflight : (s.line l).tx.inFlight.isSome) {d : DescNo}
    (hd : (s.desc d).phase = .active) : (acceptParts st l s).desc d = s.desc d := by
  have hkept : (blocksEnded (acceptedPhases (s.line l)) l .restarted (onLineOf s l (stoppedLine st))).desc d = s.desc d := by
    rw [← finishBlocks_eq_blocksEnded, acceptedPhases, if_pos hflight]
    have hphase : ((onLineOf s l (stoppedLine st)).desc d).phase = .active := hd
    exact desc_finishBlocks_of_not_mem (onLineOf s l (stoppedLine st)) l (by rw [hphase]; decide)
  have hparts : (acceptParts st l s).desc d = (acceptTransmitter l (s.setLine l { s.line l with state := st })).desc d := by
    rw [acceptParts, acceptFlow_acceptReceiver]
    rfl
  obtain ⟨hheads, -⟩ := frontHandled_handleFront l
    (blocksEnded (acceptedPhases (s.line l)) l .restarted (onLineOf s l (stoppedLine st)))
  rw [hparts, acceptTransmitter_eq]
  obtain hsame | ⟨hf, -⟩ := hheads.desc d
  · rw [hsame, hkept]
  · rw [hkept, hd] at hf
    cases hf

variable (hready : Ready s) (hl : Names s.param0 l) (hst : (s.line l).state = .enabled)

include hready hl hst

theorem exec_restartLine_enabled :
    exec .restartLine s = .next (restartFrom l (loseWindow l { s with commandLost := false })) := by
  rw [exec_lineCommand (k := restartOn) rfl hready hl, restartOn_enabled (s := { s with commandLost := false }) hst]

theorem exec_disableLine_enabled :
    exec .disableLine s = .next (disableFrom l (loseWindow l { s with commandLost := false })) := by
  rw [exec_lineCommand (k := disableOn) rfl hready hl, disableOn_enabled (s := { s with commandLost := false }) hst]

end acceptance

/-- Settles O24. -/
theorem restartAndDisableAtOnce : Obligations.RestartAndDisableAtOnce := by
  intro s l hready hl hst hclear
  have hnone (st : LineState) :
      ((acceptParts st l (loseWindow l { s with commandLost := false })).line l).tx.inFlight = none := by
    rw [inFlight_acceptParts, line_loseWindow]
    exact hclear
  refine ⟨⟨_, accepted_acceptParts l _ .restarting, ?_⟩, ⟨_, accepted_acceptParts l _ .disabling, ?_⟩⟩
  · rw [exec_restartLine_enabled hready hl hst, restartFrom, hnone, completeRestart_eq_restarted]
    rfl
  · rw [exec_disableLine_enabled hready hl hst, disableFrom, hnone, completeDisable_eq_disabled]
    rfl

/-- Settles O25. -/
theorem restartAndDisableWait : Obligations.RestartAndDisableWait := by
  intro s l c hready hl hst hc
  have hflight (st : LineState) :
      ((acceptParts st l (loseWindow l { s with commandLost := false })).line l).tx.inFlight.isSome = true := by
    rw [inFlight_acceptParts, line_loseWindow, show (State.line { s with commandLost := false } l).tx.inFlight = some c from hc]
    rfl
  have hkept (st : LineState) (d : DescNo) (hd : Working s l d) (hw : s.window ≠ some d) :
      (acceptParts st l (loseWindow l { s with commandLost := false })).desc d = s.desc d := by
    have hwindow : (loseWindow l { s with commandLost := false }).desc d = s.desc d :=
      desc_loseWindow (s := { s with commandLost := false }) hw
    rw [desc_acceptParts st ?_ (by rw [hwindow]; exact activeDesc_active hd), hwindow]
    rw [← inFlight_acceptParts l _ st]
    exact hflight st
  refine ⟨⟨_, accepted_acceptParts l _ .restarting, ?_, hkept _⟩, ⟨_, accepted_acceptParts l _ .disabling, ?_, hkept _⟩⟩
  · rw [exec_restartLine_enabled hready hl hst, restartFrom, if_pos (hflight _)]
  · rw [exec_disableLine_enabled hready hl hst, disableFrom, if_pos (hflight _)]

/-! ## CLOSE BLOCK (R58, R59, R73) -/

section commit

variable {l : LineNo} {s : State} {d : DescNo}

theorem cmdCloseBlock_none (h : s.window = none) : cmdCloseBlock s = complete .noWindow s := by rw [cmdCloseBlock, h]

theorem cmdCloseBlock_some (h : s.window = some d) :
    cmdCloseBlock s = complete .ok (commitChoice (s.desc d).line (committed d s)) := by
  rw [cmdCloseBlock, h]
  rfl

theorem meetsDcdFlush_iff (ln : Line) :
    meetsDcdFlush ln = true ↔ (ln.tx.state = .idle ∨ ln.tx.state = .trailing) ∧ MeetsDcdFlush ln := by
  simp [meetsDcdFlush, MeetsDcdFlush, changeDue, qualifies, and_assoc]

/-- The commit's choice where it is one (R72), or where it may meet a DCD flush (R59, log 28). -/
theorem commitChoice_plain (h : ¬MeetsDcdFlush (s.line l)) : commitChoice l s = choiceIn [.idle, .trailing] l s :=
  if_neg (by rw [meetsDcdFlush_iff]; exact fun hm => h hm.2)

theorem commitChoice_elsewhere (hi : (s.line l).tx.state ≠ .idle) (ht : (s.line l).tx.state ≠ .trailing) :
    commitChoice l s = s := by
  rw [commitChoice, if_neg (by rw [meetsDcdFlush_iff]; exact fun hm => hm.1.elim hi ht), choiceIn_of_not_mem (by simp [hi, ht])]

theorem commitChoice_meets (hst : (s.line l).tx.state = .idle ∨ (s.line l).tx.state = .trailing)
    (h : MeetsDcdFlush (s.line l)) :
    commitChoice l s = nextStepChoice l { s with freeCtr := s.freeCtr + 1 } ∨
    commitChoice l s = onLineOf { s with freeCtr := s.freeCtr + 1 } l fun ln =>
      { ln with tx.trailTimer := none, tx.commitDue := true } := by
  rw [commitChoice, if_pos ((meetsDcdFlush_iff _).mpr ⟨hst, h⟩)]
  by_cases hn : (draw s).1 % 2 = 0
  · exact .inl (if_pos hn)
  · exact .inr (if_neg hn)

/-- A block of length 0 without a break, alone in its queue, that the choice comes to in an unkeyed line with nothing else to
send: it finishes SENT and its report is posted, and the line is TX_IDLE (R73). -/
theorem nextStepChoice_empty_block (hq : (s.line l).tx.queue = [d]) (hd : (s.desc d).phase = .queued)
    (hlen : (s.desc d).length = 0) (hbreak : (s.desc d).breakBefore = 0) (hcells : (s.desc d).cells = [])
    (hreport : (s.desc d).report = true) (hs : SlotFree s) (hhalt : (s.line l).tx.haltRequest = false)
    (hkeyed : (s.line l).tx.keyed = false) (hp : (s.line l).tx.pendingPriority = none) :
    nextStepChoice l s = posted (.txReport (s.desc d).line (s.desc d).tag .sent 0)
      (onLineOf (s.setDesc d .unused) l fun ln =>
        { ln with tx := { stoppedIn .idle ln.tx with queue := [], breakSent := false } }) := by
  have hnone : s.activeDesc l = none := by simp [State.activeDesc, hq, hd]
  have hqueued : s.oldestQueued l = some d := by simp [State.oldestQueued, hq, hd]
  let ended : Descriptor := { s.desc d with phase := .finished, sent := 0, cells := [], outcome := some .sent }
  let began : State := onLineOf s l fun ln => { ln with tx.breakSent := false, tx.inHold := false }
  have hended : finishBlock d .sent (takeBlock l d s) = began.setDesc d ended := by
    have htaken : takeBlock l d s = began.setDesc d { s.desc d with phase := .active, sent := 0 } := rfl
    rw [htaken, finishBlock_setDesc, hcells, returnCells_nil]
  have hbegan : began.line l = { s.line l with tx.breakSent := false, tx.inHold := false } := line_onLineOf ..
  have hfront : handleFront l (began.setDesc d ended) = posted (reportOf ended)
      (onLineOf (began.setDesc d .unused) l fun ln => { ln with tx.queue := [] }) := by
    have hqueue : ((began.setDesc d ended).line l).tx.queue = [d] := by rw [line_setDesc, hbegan]; exact hq
    have hdesc : (began.setDesc d ended).desc d = ended := desc_setDesc_self ..
    rw [handleFront, hqueue]
    show frontStep l (began.setDesc d ended) = _
    rw [frontStep_reported hqueue (by rw [hdesc]) (by rw [hdesc]; exact hreport) hs, hdesc, setDesc_setDesc]
  let left : State := posted (reportOf ended) (onLineOf (began.setDesc d .unused) l fun ln => { ln with tx.queue := [] })
  have hleft : left.line l = { s.line l with tx.breakSent := false, tx.inHold := false, tx.queue := [] } := by
    show (onLineOf (began.setDesc d .unused) l fun ln => { ln with tx.queue := [] }).line l = _
    rw [line_onLineOf, line_setDesc, hbegan]
  have hnothing : choose l 3 left = nothingToSend l left :=
    choose_nothing (by rw [hleft]; exact hhalt) (by rw [State.activeDesc, hleft]; rfl) (by rw [State.oldestQueued, hleft]; rfl) _
      (by rw [hleft]; exact hp)
  rw [nextStepChoice, hq]
  show choose l 4 s = _
  rw [choose_zero hhalt hnone _ hqueued ⟨hlen, hbreak⟩, hended, hfront]
  show choose l 3 left = _
  have hidle : nothingToSend l left = onLineOf left l fun ln => { ln with tx := stoppedIn .idle ln.tx } := by
    have hk : (left.line l).tx.keyed = false := by rw [hleft]; exact hkeyed
    simp only [nothingToSend, State.updTx, hk, Bool.false_eq_true, if_false]
    rfl
  have hcommute (t : State) (e : Entry) (f : Line → Line) : onLineOf (posted e t) l f = posted e (onLineOf t l f) := rfl
  rw [hnothing, hidle, hcommute, onLineOf_onLineOf]
  have hset : began.setDesc d .unused =
      onLineOf (s.setDesc d .unused) l fun ln => { ln with tx.breakSent := false, tx.inHold := false } := rfl
  rw [hset, onLineOf_onLineOf]
  rfl

end commit

/-- Settles O15. -/
theorem closeBlockCommits : Obligations.CloseBlockCommits := by
  intro s hready
  have hexec : exec .closeBlock s = .next (cmdCloseBlock { s with commandLost := false }) := exec_ready rfl hready
  rw [hexec]
  refine ⟨fun hw => congrArg _ (cmdCloseBlock_none (s := { s with commandLost := false }) hw), fun d l hw hl => ?_⟩
  subst hl
  intro u
  have hline : u.line (s.desc d).line = { s.line (s.desc d).line with tx.queue := (s.line (s.desc d).line).tx.queue ++ [d] } :=
    line_onLineOf (s.setDesc d { s.desc d with phase := .queued }) (s.desc d).line fun ln =>
      { ln with tx.queue := ln.tx.queue ++ [d] }
  have hclose : cmdCloseBlock { s with commandLost := false } = done .ok (commitChoice (s.desc d).line u) :=
    (cmdCloseBlock_some (s := { s with commandLost := false }) hw).trans
      (complete_of_accepted (LineStep.commitChoice (s := u) (s.desc d).line).side.commandLost)
  have hplain (hm : ¬MeetsDcdFlush (s.line (s.desc d).line))
      (hst : (s.line (s.desc d).line).tx.state = .idle ∨ (s.line (s.desc d).line).tx.state = .trailing) :
      commitChoice (s.desc d).line u = nextStepChoice (s.desc d).line u := by
    rw [commitChoice_plain (by rw [hline]; exact hm), choiceIn_of_mem (by rw [hline]; simpa using hst)]
  rw [hclose]
  refine ⟨fun hi ht => ?_, fun hst => ⟨fun hm => ?_, fun hm => ?_⟩, fun hm hi hhalt hkeyed hp hq hlen hbreak hcells hreport hs => ?_⟩
  · rw [commitChoice_elsewhere (by rw [hline]; exact hi) (by rw [hline]; exact ht)]
  · rw [hplain hm hst]
    exact ⟨_, rfl, chooses_nextStepChoice _ u⟩
  · obtain h | h := commitChoice_meets (s := u) (by rw [hline]; exact hst) (by rw [hline]; exact hm) <;> rw [h]
    · exact ⟨_, _, rfl, .inl (chooses_nextStepChoice _ _)⟩
    · exact ⟨_, _, rfl, .inr rfl⟩
  · have hd : u.desc d = { s.desc d with phase := .queued } := desc_setDesc_self ..
    have hempty := nextStepChoice_empty_block (l := (s.desc d).line) (s := u) (d := d) (by rw [hline, hq]; rfl) (by rw [hd])
      (by rw [hd]; exact hlen) (by rw [hd]; exact hbreak) (by rw [hd]; exact hcells) (by rw [hd]; exact hreport) hs
      (by rw [hline]; exact hhalt) (by rw [hline]; exact hkeyed) (by rw [hline]; exact hp)
    refine ⟨.unused, rfl, ?_⟩
    have hset : (s.setDesc d { s.desc d with phase := .queued }).setDesc d .unused = s.setDesc d .unused := setDesc_setDesc ..
    have hleft : (onLineOf (u.setDesc d .unused) (s.desc d).line fun ln =>
        { ln with tx := { stoppedIn .idle ln.tx with queue := [], breakSent := false } }) =
        { onLineOf (onLineOf ((s.setDesc d { s.desc d with phase := .queued }).setDesc d .unused) (s.desc d).line fun ln =>
            { ln with tx.queue := ln.tx.queue ++ [d] }) (s.desc d).line fun ln =>
              { ln with tx := { stoppedIn .idle ln.tx with queue := [], breakSent := false } } with
          window := none, blockFull := false, commandLost := false } := rfl
    rw [hplain hm (.inl hi), hempty, hd, hleft, hset, onLineOf_onLineOf]
    have hcongr := onLineOf_congr (s := s.setDesc d .unused) (l := (s.desc d).line)
      (f := fun ln => { ln with tx := { stoppedIn .idle ln.tx with queue := [], breakSent := false } })
      (g := fun ln => { ln with tx := { stoppedIn .idle ln.tx with breakSent := false } })
      (by rw [← hq]; rfl)
    exact congrArg (fun t : State => Host.Outcome.next (done .ok (posted (.txReport (s.desc d).line (s.desc d).tag .sent 0)
      { t with window := none, blockFull := false }))) hcongr

end Sys2Proof.Claims
end

section
/-! PROOFS. The line receiver: the status of a frame (R95, R96), error reports (R170 to R174), arrivals (R94, R97 to R99), the
takes that store nothing (R102 to R107) and the idle timer (R109, R110). -/

namespace Sys2Proof.Claims

open Sys2Proof.Machine

/-! ## The status of a frame (R95, R96) -/

section frames

variable (cfg : LineConfig) (f : RxFrame)

theorem isBreakStart_iff : isBreakStart cfg f = true ↔ BreakStart cfg f := by
  rw [isBreakStart, Bool.and_eq_true, decide_eq_true_eq, Bool.not_eq_true', onLine_eq_onWire]

theorem getLsbD_mask (v : Byte) {i : Nat} (h : i < 7) : (v &&& 0x7F).getLsbD i = v.getLsbD i := by
  have hall : ∀ j : Fin 7, (0x7F : Byte).getLsbD j.val = true := by decide
  have hmask : (0x7F : Byte).getLsbD i = true := hall ⟨i, h⟩
  rw [BitVec.getLsbD_and, hmask, Bool.and_true]

/-- The 1 bits among the data bits of a frame. -/
theorem count_dataBitList (v : Byte) :
    (dataBitList cfg v).count true = (List.range 8).countP fun i => (onWire cfg v).getLsbD i := by
  have hcount (n : Nat) (w : Byte) : ((List.range n).map w.getLsbD).count true = (List.range n).countP w.getLsbD := by
    rw [List.count, List.countP_map]
    exact List.countP_congr fun i _ => by simp
  cases h : cfg.dataBits with
  | eight => simp only [dataBitList, onWire, h, hcount, reduceCtorEq, if_false]
  | seven =>
    have hlast : (v &&& 0x7F).getLsbD 7 = false := by
      rw [BitVec.getLsbD_and]
      exact Bool.and_false _
    have hrange : List.range 8 = List.range 7 ++ [7] := rfl
    simp only [dataBitList, onWire, h, hcount, if_true]
    rw [hrange, List.countP_append, List.countP_singleton, hlast]
    exact List.countP_congr fun i hi => by rw [getLsbD_mask v (List.mem_range.mp hi)]

theorem statusOf_eq_frameStatus : statusOf cfg f = frameStatus cfg f := by
  have hodd : oddOnes (f.parityBit :: dataBitList cfg f.data) = decide (frameOnes cfg f % 2 = 1) := by
    rw [oddOnes_eq, List.count_cons, count_dataBitList, frameOnes]
    cases f.parityBit <;> rfl
  unfold statusOf frameStatus
  rw [hodd]
  cases hm : f.stopMark with
  | false => rfl
  | true =>
    cases cfg.parity with
    | none => rfl
    | even => simp
    | odd =>
      have hpar : frameOnes cfg f % 2 = 1 ↔ ¬frameOnes cfg f % 2 = 0 := by omega
      simp only [hpar]
      by_cases h0 : frameOnes cfg f % 2 = 0 <;> simp [h0]

variable {cfg f}

theorem not_breakStart_of_consumed (h : Consumed cfg f) : ¬BreakStart cfg f := by
  obtain ⟨-, hok, -⟩ := h
  rintro ⟨-, hstop⟩
  rw [frameStatus, if_pos hstop] at hok
  cases hok

end frames

/-! ## Error reports (R170 to R174) -/

/-- The report as it reaches the error record, LOCKED or not (R173, R174). -/
theorem reachErrorRecord_eq (k : ErrorKind) (l : LineNo) (v : Option Byte) (s : State) : reachErrorRecord k l v s =
    if s.errorRec.state = .locked then
      { s with errorRec := { s.errorRec with
          further := upTo255 s.errorRec.further 1
          severeAfter := s.errorRec.severeAfter || decide (k = .overrun ∧ s.errorRec.firstSeverity = .minor)
          firstSeverity := if k = .overrun then .severe else s.errorRec.firstSeverity } }
    else if k ≠ .overrun ∧ s.suppressMinor = true then s
    else
      { s with
        errorRec := { state := .locked, firstKind := k, firstSeverity := if k = .overrun then .severe else .minor, line := l,
                      char := v, severeAfter := false, further := 0 }
        pendError := true } := by
  unfold reachErrorRecord
  rw [satAdd_eq_upTo255]
  cases hst : s.errorRec.state with
  | locked =>
    cases k with
    | parity | framing => simp [ErrorKind.severity]
    | overrun => cases s.errorRec.firstSeverity <;> simp [ErrorKind.severity]
  | empty | unlocked =>
    cases k with
    | parity | framing => simp [ErrorKind.severity]
    | overrun => simp [ErrorKind.severity]

theorem errorReport_eq_reported (k : ErrorKind) (l : LineNo) (v : Option Byte) (s : State) :
    errorReport k l v s = reported k l v s := by
  have hcount (c : Counters) : countError k c =
      { c with
        parity := if k = .parity then upTo255 c.parity 1 else c.parity
        framing := if k = .framing then upTo255 c.framing 1 else c.framing
        overrun := if k = .overrun then upTo255 c.overrun 1 else c.overrun } := by
    cases k <;> simp [countError, satAdd_eq_upTo255]
  rw [errorReport, reachErrorRecord_eq, hcount]
  rfl

theorem line_reachErrorRecord (k : ErrorKind) (l j : LineNo) (v : Option Byte) (s : State) :
    (reachErrorRecord k l v s).line j = s.line j := by
  rw [reachErrorRecord_eq]
  split
  · rfl
  · split <;> rfl

/-- A report leaves the line but for its counters. -/
theorem line_reported (k : ErrorKind) (l : LineNo) (v : Option Byte) (s : State) :
    ∃ c, (reported k l v s).line l = { s.line l with counters := c } := by
  rw [← errorReport_eq_reported, errorReport, line_reachErrorRecord]
  exact ⟨_, line_onLineOf s l fun ln => { ln with counters := countError k ln.counters }⟩

/-! ## Arrivals (R94 to R99) -/

section arrivals

variable {l : LineNo} {s : State} {f : RxFrame}

/-- The line once the framer has seen a frame (R94, R95). -/
def frameSeen (l : LineNo) (f : RxFrame) (s : State) : State :=
  onLineOf s l fun ln => { ln with rx.framer := framerAfter ln.cfg f }

/-- The error report of an item that is offered to the FIFO (R99, step 1). -/
def itemTold (l : LineNo) (i : FifoItem) (s : State) : State :=
  match i with
  | .char v .parity => reported .parity l (some v) s
  | .char v .framing => reported .framing l (some v) s
  | .char _ .ok => s
  | .breakMarker => s

theorem reportStatus_eq_itemTold (v : Byte) (st : CharStatus) : reportStatus l v st s = itemTold l (.char v st) s := by
  cases st
  · rfl
  · exact errorReport_eq_reported ..
  · exact errorReport_eq_reported ..

theorem line_itemTold (i : FifoItem) : ∃ c, (itemTold l i s).line l = { s.line l with counters := c } := by
  unfold itemTold
  split
  · exact line_reported ..
  · exact line_reported ..
  · exact ⟨_, rfl⟩
  · exact ⟨_, rfl⟩

theorem arrival_not_in_frame (h : (s.line l).rx.framer ≠ .inFrame) : arrival l f s = s := if_neg h

variable (h : (s.line l).rx.framer = .inFrame)

include h

omit h in
theorem state_frameSeen : ((frameSeen l f s).line l).state = (s.line l).state := by rw [frameSeen, line_onLineOf]

omit h in
theorem cfg_frameSeen : ((frameSeen l f s).line l).cfg = (s.line l).cfg := by rw [frameSeen, line_onLineOf]

section break_start

variable (hb : BreakStart (s.line l).cfg f)

include hb

omit h in
theorem frameSeen_break : (s.updRx l fun r => { r with framer := .awaitingMark }) = frameSeen l f s :=
  onLineOf_congr (f := fun ln => { ln with rx.framer := .awaitingMark }) (by simp only [framerAfter, if_pos hb])

theorem arrival_break_enabled (hst : (s.line l).state = .enabled) :
    arrival l f s = placeItem l .breakMarker (frameSeen l f s) := by
  rw [arrival, if_pos h, if_pos ((isBreakStart_iff _ f).mpr hb)]
  simp only [frameSeen_break hb, state_frameSeen, hst]

theorem arrival_break_leaving (hst : (s.line l).state = .restarting ∨ (s.line l).state = .disabling) :
    arrival l f s = frameSeen l f s := by
  rw [arrival, if_pos h, if_pos ((isBreakStart_iff _ f).mpr hb)]
  obtain hst | hst := hst <;> simp only [frameSeen_break hb, state_frameSeen, hst]

end break_start

section no_break

variable (hb : ¬BreakStart (s.line l).cfg f)

include hb

omit h in
theorem frameSeen_char : (s.updRx l fun r => { r with framer := .hunting }) = frameSeen l f s :=
  onLineOf_congr (f := fun ln => { ln with rx.framer := .hunting }) (by simp only [framerAfter, if_neg hb])

theorem arrival_char_enabled (hst : (s.line l).state = .enabled) : arrival l f s =
    receiveChar l (onWire (s.line l).cfg f.data) (frameStatus (s.line l).cfg f) (frameSeen l f s) := by
  rw [arrival, if_pos h, if_neg (mt (isBreakStart_iff _ f).mp hb), onLine_eq_onWire, statusOf_eq_frameStatus]
  simp only [frameSeen_char hb, state_frameSeen, hst]

theorem arrival_char_leaving (hst : (s.line l).state = .restarting ∨ (s.line l).state = .disabling) :
    arrival l f s = onLineOf (frameSeen l f s) l fun ln => { ln with counters.discarded := upTo255 ln.counters.discarded 1 } := by
  have hadd : addDiscarded l 1 (frameSeen l f s) = onLineOf (frameSeen l f s) l fun ln =>
      { ln with counters.discarded := upTo255 ln.counters.discarded 1 } := by
    rw [addDiscarded, satAdd_eq_upTo255]
    rfl
  rw [arrival, if_pos h, if_neg (mt (isBreakStart_iff _ f).mp hb), ← hadd]
  obtain hst | hst := hst <;> simp only [frameSeen_char hb, state_frameSeen, hst]

end no_break

omit h in
theorem consumes_iff (t : TxFlow) : t.consumes = true ↔ t = .xonXoff ∨ t = .both := by cases t <;> simp [TxFlow.consumes]

/-- A consumed flow character sets or clears the remote hold and may end the hold (R98, R119, R120). -/
theorem arrival_consumed (hst : (s.line l).state = .enabled) (hc : Consumed (s.line l).cfg f) : arrival l f s =
    releaseHold l (onLineOf (frameSeen l f s) l fun ln =>
      { ln with tx.remoteHold := decide (onWire ln.cfg f.data = 0x13) }) := by
  have hcfg := cfg_frameSeen (l := l) (s := s) (f := f)
  obtain ⟨hflow, hok, hchar⟩ := id hc
  have hcons : ((frameSeen l f s).line l).cfg.txFlow.consumes = true := by rw [hcfg, consumes_iff]; exact hflow
  rw [arrival_char_enabled h (not_breakStart_of_consumed hc) hst]
  simp only [receiveChar, hok]
  obtain hxon | hxoff := hchar
  · rw [if_neg (by rw [hxon]; simp [Config.xoffChar]), if_pos ⟨hcons, trivial, hxon⟩, consumeFlowChar, updTx_eq]
    refine congrArg _ (onLineOf_congr ?_)
    rw [hcfg, hxon]
    rfl
  · rw [if_pos ⟨hcons, trivial, hxoff⟩, consumeFlowChar, updTx_eq]
    refine congrArg _ (onLineOf_congr ?_)
    rw [hcfg, hxoff]
    rfl

/-- Everything else is offered to the FIFO, its error report first (R95, R96, R99). -/
theorem arrival_offered (hst : (s.line l).state = .enabled) (hc : ¬Consumed (s.line l).cfg f) : arrival l f s =
    placeItem l (itemOf (s.line l).cfg f) (itemTold l (itemOf (s.line l).cfg f) (frameSeen l f s)) := by
  have hcfg := cfg_frameSeen (l := l) (s := s) (f := f)
  by_cases hb : BreakStart (s.line l).cfg f
  · rw [arrival_break_enabled h hb hst, itemOf, if_pos hb]
    rfl
  · rw [arrival_char_enabled h hb hst, itemOf, if_neg hb, ← reportStatus_eq_itemTold]
    have hnot (x : Byte) (hx : x = 0x11 ∨ x = 0x13) : ¬(((frameSeen l f s).line l).cfg.txFlow.consumes = true ∧
        frameStatus (s.line l).cfg f = .ok ∧ onWire (s.line l).cfg f.data = x) := by
      rw [hcfg, consumes_iff]
      rintro ⟨hflow, hok, hchar⟩
      exact hc ⟨hflow, hok, hx.imp (hchar.trans ·) (hchar.trans ·)⟩
    simp only [receiveChar]
    rw [if_neg (hnot _ (.inr rfl)), if_neg (hnot _ (.inl rfl))]

end arrivals

/-- A held line whose hold condition has become false makes the choice (R77). -/
theorem releaseHold_stays {l : LineNo} {s : State} (h : (s.line l).tx.state ≠ .held ∨ Held (s.line l)) :
    releaseHold l s = s := by
  unfold releaseHold
  split
  · rfl
  · next hh =>
    exact choiceIn_of_not_mem (by simpa using h.resolve_right (mt (holdCondition_iff _).mpr hh))

theorem releaseHold_chooses {l : LineNo} {s : State} (hst : (s.line l).tx.state = .held) (h : ¬Held (s.line l)) :
    releaseHold l s = nextStepChoice l s := by
  rw [releaseHold, holdCondition_eq_false h, if_neg Bool.false_ne_true, choiceIn_of_mem (by simp [hst])]

/-- Settles O38. -/
theorem arrivalDiscardedOrConsumed : Obligations.ArrivalDiscardedOrConsumed := by
  intro s l f hrun
  have hexec : exec (.arrival l f) s = .next (arrival l f s) := exec_running rfl hrun
  rw [hexec]
  refine ⟨fun h => by rw [arrival_not_in_frame h], fun h => ⟨fun hst => ⟨fun hb => ?_, fun hb => ?_⟩, fun hst hc => ?_⟩⟩
  · exact congrArg _ (arrival_break_leaving h hb hst)
  · exact congrArg _ (arrival_char_leaving h hb hst)
  · intro flagged
    have harrival : arrival l f s = releaseHold l flagged := arrival_consumed h hst hc
    have hstate : (flagged.line l).tx.state = (s.line l).tx.state := by simp only [flagged, line_onLineOf]
    rw [harrival]
    refine ⟨fun hq => congrArg _ (releaseHold_stays (by rwa [hstate])), fun hheld hq => ?_⟩
    rw [releaseHold_chooses (by rwa [hstate]) hq]
    exact ⟨_, rfl, chooses_nextStepChoice l _⟩

/-- Settles O39. -/
theorem arrivalOfferedToTheFifo : Obligations.ArrivalOfferedToTheFifo := by
  intro s l f hrun h hst hc
  have hexec : exec (.arrival l f) s = .next (arrival l f s) := exec_running rfl hrun
  intro seen told stored
  have htold : told = itemTold l (itemOf (s.line l).cfg f) (frameSeen l f s) := rfl
  have hline : ∃ c, told.line l = { seen.line l with counters := c } := line_itemTold _
  have hseen : seen.line l = { s.line l with rx.framer := framerAfter (s.line l).cfg f } := line_onLineOf ..
  rw [hseen] at hline
  obtain ⟨c, hline⟩ := hline
  have hstored : stored = told.updRx l fun r => { r with fifo := r.fifo ++ [itemOf (s.line l).cfg f] } := by
    have hcfg : (told.line l).cfg = (s.line l).cfg := by rw [hline]
    exact onLineOf_congr (f := fun ln => { ln with rx.fifo := ln.rx.fifo ++ [itemOf ln.cfg f] })
      (g := fun ln => { ln with rx.fifo := ln.rx.fifo ++ [itemOf (s.line l).cfg f] }) (by rw [hcfg])
  have hfifo : (told.line l).rx.fifo = (s.line l).rx.fifo := by rw [hline]
  rw [hexec, arrival_offered h hst hc, ← htold]
  unfold placeItem
  simp only [hfifo, ← hstored, Config.fifoCapacity]
  refine ⟨fun hlt hne => ?_, fun h1 => ?_, fun hge => ?_⟩
  · rw [if_pos hlt, if_neg (by omega)]
  · rw [if_pos (by omega), if_pos (by omega)]
    exact ⟨_, rfl, congests_becomeCongested l stored⟩
  · rw [if_neg (by omega), errorReport_eq_reported]
    simp only [satAdd_eq_upTo255]
    rfl

end Sys2Proof.Claims
end

section
/-! PROOFS. The record assembler: the takes that store nothing (R102 to R107), the character that is stored (R104, R106, R155 to
R161) and the idle timer (R109, R110). -/

namespace Sys2Proof.Claims

open Sys2Proof.Machine

/-! ## Records that close -/

section closing

variable {l : LineNo} {s : State} {c : Cause}

theorem closeOpen_none (h : (s.line l).rx.openRec = none) : closeOpen l c s = s := by
  rw [closeOpen, h]

theorem closes_closeOpen {r : OpenRecord} (h : (s.line l).rx.openRec = some r) :
    Closes l c r.length r.errorFlag r.cells s (closeOpen l c s) := by
  rw [closeOpen, h]
  exact closes_closeRecord ..

/-- A record that closes takes nothing from the FIFO. -/
theorem fifo_closeRecord (n : Nat) (e : Bool) (cells : List CellNo) :
    ((closeRecord l c n e cells s).line l).rx.fifo = (s.line l).rx.fifo := by
  unfold closeRecord
  split
  · rw [postRecord_eq, recordPosted, ← postEntry_eq_posted, line_postEntry, line_onLineOf]
  · rw [rx_becomeCongested, State.updRx, line_setLine_self]

theorem loadIdle_eq (l : LineNo) (s : State) : loadIdle l s = onLineOf s l fun ln =>
    { ln with rx.idleTimer := if ln.cfg.idleGap = 0 then none else some ln.cfg.idleGap } := rfl

end closing

/-! ## The idle timer (R109, R110) -/

theorem idleDue_iff (r : Receiver) : idleDue r = true ↔ r.state = .assembling ∧ r.idleTimer = some 0 := by
  rw [idleDue, expired, Bool.and_eq_true, decide_eq_true_eq, decide_eq_true_eq]

section idle

variable {l : LineNo} {s : State}

theorem idleExpiry_not_due (h : ¬((s.line l).rx.state = .assembling ∧ (s.line l).rx.idleTimer = some 0)) :
    idleExpiry l s = s := if_neg (mt (idleDue_iff _).mp h)

variable (hst : (s.line l).rx.state = .assembling) (hdue : (s.line l).rx.idleTimer = some 0)

include hst hdue

theorem idleExpiry_empty (h : (s.line l).rx.fifo = []) : idleExpiry l s = closeOpen l .idle s := by
  rw [idleExpiry, if_pos ((idleDue_iff _).mpr ⟨hst, hdue⟩), h]

theorem idleExpiry_char {v : Byte} {st : CharStatus} {rest : List FifoItem} (h : (s.line l).rx.fifo = .char v st :: rest) :
    idleExpiry l s = loadIdle l s := by
  rw [idleExpiry, if_pos ((idleDue_iff _).mpr ⟨hst, hdue⟩), h]

theorem idleExpiry_marker {rest : List FifoItem} (h : (s.line l).rx.fifo = .breakMarker :: rest) :
    idleExpiry l s = if (draw s).1 % 2 = 0 then closeOpen l .idle (draw s).2 else loadIdle l (draw s).2 := by
  rw [idleExpiry, if_pos ((idleDue_iff _).mpr ⟨hst, hdue⟩), h]

end idle

/-- Settles O42. -/
theorem idleExpiry : Obligations.IdleExpiry := by
  intro s l hrun
  have hexec : exec (.idleExpiry l) s = .next (Machine.idleExpiry l s) := exec_running rfl hrun
  rw [hexec]
  refine ⟨fun h => by rw [idleExpiry_not_due fun hdue => h.elim (· hdue.1) (· hdue.2)], fun hst hdue => ⟨fun v st rest h => ?_, fun r hr => ⟨fun h => ?_, ?_⟩⟩⟩
  · rw [idleExpiry_char hst hdue h]
    rfl
  · rw [idleExpiry_empty hst hdue h]
    exact ⟨_, rfl, closes_closeOpen hr⟩
  · intro rest h
    rw [idleExpiry_marker hst hdue h]
    refine ⟨s.freeCtr + 1, _, rfl, ?_⟩
    split
    · exact .inr (closes_closeOpen (s := { s with freeCtr := s.freeCtr + 1 }) hr)
    · exact .inl rfl

/-! ## Takes that store nothing (R102 to R107) -/

section takes

variable {l : LineNo} {s : State}

theorem assemblerRuns_iff (ln : Line) :
    assemblerRuns ln = true ↔ ln.state = .enabled ∧ (ln.rx.state = .idle ∨ ln.rx.state = .assembling) := by
  rw [assemblerRuns, Bool.and_eq_true, Bool.or_eq_true, decide_eq_true_eq, decide_eq_true_eq, decide_eq_true_eq]

theorem assemblerTake_none (h : (s.line l).state ≠ .enabled ∨ (s.line l).rx.state = .off ∨ (s.line l).rx.state = .stalled ∨
    (s.line l).rx.fifo = []) : assemblerTake l s = s := by
  refine if_neg fun hrun => ?_
  obtain ⟨hruns, hitems⟩ := Bool.and_eq_true_iff.mp hrun
  obtain ⟨hen, hst⟩ := (assemblerRuns_iff _).mp hruns
  obtain h | h | h | h := h
  · exact h hen
  · simp [h] at hst
  · simp [h] at hst
  · simp [h] at hitems

theorem assemblerTake_item (hen : (s.line l).state = .enabled)
    (hst : (s.line l).rx.state = .idle ∨ (s.line l).rx.state = .assembling) (h : (s.line l).rx.fifo ≠ []) :
    assemblerTake l s = uncongestIfClear l (takeItem l s) := by
  refine if_pos (Bool.and_eq_true_iff.mpr ⟨(assemblerRuns_iff _).mpr ⟨hen, hst⟩, ?_⟩)
  rwa [Bool.not_eq_true', ← Bool.not_eq_true, List.isEmpty_iff]

/-- A take that leaves items in the FIFO does not end the congestion (R121). -/
theorem uncongestIfClear_items (h : (s.line l).rx.fifo ≠ []) : uncongestIfClear l s = s :=
  (uncongests_uncongestIfClear l s).stays fun hclear => h hclear.2.1

theorem dropHeadItem_eq {i : FifoItem} {rest : List FifoItem} (h : (s.line l).rx.fifo = i :: rest) :
    dropHeadItem l s = onLineOf s l fun ln => { ln with rx.fifo := rest } := by
  have htail : (s.line l).rx.fifo.tail = rest := by rw [h]; rfl
  rw [← htail]
  rfl

theorem takeItem_dropped {v : Byte} {st : CharStatus} {rest : List FifoItem} (h : (s.line l).rx.fifo = .char v st :: rest)
    (hbad : st ≠ .ok) (hdrop : (s.line l).cfg.errorPolicy = .drop) : takeItem l s = onLineOf s l fun ln =>
      { ln with rx.fifo := rest, counters.discarded := upTo255 ln.counters.discarded 1 } := by
  have hcount (u : State) : addDiscarded l 1 u = onLineOf u l fun ln =>
      { ln with counters.discarded := upTo255 ln.counters.discarded 1 } := by
    rw [addDiscarded, satAdd_eq_upTo255]
    rfl
  rw [takeItem, h]
  simp only [hbad, hdrop, ne_eq, not_false_eq_true, and_self, if_true]
  rw [dropHeadItem_eq h, hcount, onLineOf_onLineOf]

theorem takeItem_char {v : Byte} {st : CharStatus} {rest : List FifoItem} (h : (s.line l).rx.fifo = .char v st :: rest)
    (hkeep : st = .ok ∨ (s.line l).cfg.errorPolicy ≠ .drop) : takeItem l s = takeChar l v st s := by
  rw [takeItem, h]
  exact if_neg fun hdrop => hkeep.elim hdrop.1 (· hdrop.2)

theorem takeItem_marker {rest : List FifoItem} (h : (s.line l).rx.fifo = .breakMarker :: rest) :
    takeItem l s = takeMarker l s := by
  rw [takeItem, h]

section marker

variable {rest : List FifoItem} (h : (s.line l).rx.fifo = .breakMarker :: rest)

include h

theorem closes_marker_open {r : OpenRecord} (hr : (s.line l).rx.openRec = some r) :
    Closes l .brk r.length r.errorFlag r.cells (onLineOf s l fun ln => { ln with rx.fifo := rest }) (takeItem l s) := by
  have hopen : ((onLineOf s l fun ln => { ln with rx.fifo := rest }).line l).rx.openRec = some r := by
    rw [line_onLineOf, hr]
  rw [takeItem_marker h, takeMarker, dropHeadItem_eq h]
  simp only [hopen]
  exact closes_closeRecord ..

theorem closes_marker_none (hr : (s.line l).rx.openRec = none) :
    Closes l .brk 0 false [] (onLineOf s l fun ln => { ln with rx.fifo := rest }) (takeItem l s) := by
  have hopen : ((onLineOf s l fun ln => { ln with rx.fifo := rest }).line l).rx.openRec = none := by rw [line_onLineOf, hr]
  rw [takeItem_marker h, takeMarker, dropHeadItem_eq h]
  simp only [hopen]
  exact closes_closeRecord ..

end marker

section refused

variable {v : Byte} {st : CharStatus} (hfree : s.freeList = [])

include hfree

theorem takeChar_refused_none (hr : (s.line l).rx.openRec = none) : takeChar l v st s = s := by
  rw [takeChar, hr]
  simp only [(takeCell_none_iff true s).mpr (.inl hfree)]

theorem takeChar_refused_open {r : OpenRecord} (hr : (s.line l).rx.openRec = some r) (hfull : r.length % 16 = 0) :
    takeChar l v st s = closeRecord l .storeFull r.length r.errorFlag r.cells s := by
  rw [takeChar, hr]
  simp only [(takeCell_none_iff true s).mpr (.inl hfree), Config.cellSize, hfull, if_true]

end refused

end takes

/-- Settles O41. -/
theorem assemblerTakeStoresNothing : Obligations.AssemblerTakeStoresNothing := by
  intro s l hrun
  have hexec : exec (.assemblerTake l) s = .next (assemblerTake l s) := exec_running rfl hrun
  rw [hexec]
  refine ⟨fun h => by rw [assemblerTake_none h], fun hen hst => ?_⟩
  have htake {i : FifoItem} {rest : List FifoItem} (h : (s.line l).rx.fifo = i :: rest) :
      assemblerTake l s = uncongestIfClear l (takeItem l s) := assemblerTake_item hen hst (by simp [h])
  refine ⟨fun v st rest h hbad hdrop => ?_, fun rest h => ⟨fun hr => ?_, fun r hr => ?_⟩, fun v st rest h hkeep hfree =>
    ⟨fun hr => ?_, fun r hr hfull => ?_⟩⟩ <;> rw [htake h]
  · rw [takeItem_dropped h hbad hdrop]
    exact ⟨_, rfl, uncongests_uncongestIfClear l _⟩
  · exact ⟨_, _, rfl, uncongests_uncongestIfClear l _, closes_marker_none h hr⟩
  · exact ⟨_, _, rfl, uncongests_uncongestIfClear l _, closes_marker_open h hr⟩
  · rw [takeItem_char h hkeep, takeChar_refused_none hfree hr, uncongestIfClear_items (by simp [h])]
  · rw [takeItem_char h hkeep, takeChar_refused_open hfree hr hfull,
      uncongestIfClear_items (by simp [fifo_closeRecord, h])]
    exact ⟨_, rfl, closes_closeRecord ..⟩

/-! ## The test of a stored character (R106, R155 to R161) -/

section tested

variable {c : TestedChar} {s : State}

theorem hitWith_congr {t : State} (h : ∀ n, (t.matchEntry n).pattern = (s.matchEntry n).pattern) (a : MatchAction)
    (n : MatchNo) : HitWith c a t n ↔ HitWith c a s n := hitWith_of_pattern c (h n) a

/-- The state after the RX test of a stored character, its POST entries apart: hits are counted, CAPTURE acts, and a HOLD hit
makes a halt request. -/
def charTested (c : TestedChar) (s : State) : State :=
  if ∀ n, ¬HitWith c .hold s n then captured c (hitsCounted c s) else onLineOf (captured c (hitsCounted c s)) c.line haltAsked

theorem pattern_charTested (n : MatchNo) : ((charTested c s).matchEntry n).pattern = (s.matchEntry n).pattern := by
  have hcaptured := (patterns_captured c _ n).trans (patterns_hitsCounted c s n)
  unfold charTested
  split
  · exact hcaptured
  · exact hcaptured

theorem line_captured (j : LineNo) : (captured c s).line j = s.line j := by
  rw [← captureAction_eq_captured c s rfl, line_captureAction]

theorem line_postsMade (j : LineNo) : (postsMade c s).line j = s.line j := by
  rw [← postHits_eq_postsMade c s rfl, line_postHits]

theorem rx_haltAsked (ln : Line) : (haltAsked ln).rx = ln.rx := by
  unfold haltAsked
  split <;> rfl

theorem rx_charTested : ((charTested c s).line c.line).rx = (s.line c.line).rx := by
  have hline : (captured c (hitsCounted c s)).line c.line = s.line c.line := line_captured c.line
  unfold charTested
  split
  · rw [hline]
  · rw [line_onLineOf, rx_haltAsked, hline]

variable (hdir : c.direction = .rx)

include hdir

theorem hittersWith_isEmpty (a : MatchAction) :
    (hittersWith s a (hitters s c.line .rx c.char)).isEmpty = true ↔ ∀ n, ¬HitWith c a s n := by
  rw [← hdir]
  exact hittersWith_isEmpty_iff c s (fun _ => rfl) a

theorem not_isEmpty_hittersWith (a : MatchAction) :
    (!(hittersWith s a (hitters s c.line .rx c.char)).isEmpty) = decide (∃ n, HitWith c a s n) := by
  rw [Bool.eq_iff_iff, Bool.not_eq_true', ← Bool.not_eq_true, hittersWith_isEmpty hdir, Classical.not_forall_not, decide_eq_true_eq]

/-- The POST entries that hit act on any state in which the patterns are the same. -/
theorem postHits_hittersWith {t : State} (h : ∀ n, (t.matchEntry n).pattern = (s.matchEntry n).pattern) :
    postHits c (hittersWith s .post (hitters s c.line .rx c.char)) t = postsMade c t := by
  refine postHits_eq_postsMade c t ?_
  rw [show hitters s c.line .rx c.char = hitters s c.line c.direction c.char by rw [hdir], hittersWith_eq c s fun _ => rfl]
  exact List.filter_congr fun n _ => decide_eq_decide.mpr (hitWith_congr h .post n).symm

/-- The test, the halt and the close of a character at the end of its record (R106, steps 2 to 5). -/
theorem afterAppend_eq (st : CharStatus) : afterAppend c st s =
    match closeCause (s.line c.line).cfg st (decide (∃ n, HitWith c .delimit s n)) (c.position + 1) with
    | none => loadIdle c.line (postsMade c (charTested c s))
    | some cause =>
      if (charTested c s).slotFree && decide (∃ n, HitWith c .post s n) then
        runAll (insertAct (draw (charTested c s)).1 (closeOpen c.line cause)
          [postHits c (hittersWith s .post (hitters s c.line .rx c.char))]) (draw (charTested c s)).2
      else closeOpen c.line cause (postsMade c (charTested c s)) := by
  have htested : (if (!(hittersWith s .hold (hitters s c.line .rx c.char)).isEmpty) = true then
      requestHalt c.line (captureAction c (hittersWith s .capture (hitters s c.line .rx c.char))
        (countHits (hitters s c.line .rx c.char) s))
      else captureAction c (hittersWith s .capture (hitters s c.line .rx c.char))
        (countHits (hitters s c.line .rx c.char) s)) = charTested c s := by
    have hcaptured := captureAction_counted c s
    rw [hdir] at hcaptured
    rw [hcaptured, requestHalt_eq, charTested]
    by_cases h : ∀ n, ¬HitWith c .hold s n
    · rw [if_pos h, (hittersWith_isEmpty hdir .hold).mpr h]
      rfl
    · rw [if_neg h, Bool.eq_false_iff.mpr (mt (hittersWith_isEmpty hdir .hold).mp h)]
      rfl
  unfold afterAppend
  simp only [htested]
  simp only [not_isEmpty_hittersWith hdir]
  rw [postHits_hittersWith hdir pattern_charTested] <;> rfl

/-- A character that closes no record leaves it open with the idle timer loaded (R109). -/
theorem afterAppend_open {st : CharStatus}
    (h : closeCause (s.line c.line).cfg st (decide (∃ n, HitWith c .delimit s n)) (c.position + 1) = none) :
    afterAppend c st s = loadIdle c.line (postsMade c (charTested c s)) := by
  rw [afterAppend_eq hdir, h]

omit hdir in
theorem insertAct_single (n : Nat) (f g : State → State) : insertAct n f [g] = [f, g] ∨ insertAct n f [g] = [g, f] := by
  unfold insertAct
  obtain h | h := Nat.mod_two_eq_zero_or_one n
  · exact .inl (by simp [h])
  · exact .inr (by simp [h])

/-- A character that closes its record: the record and the MATCH entries take free slots in either order (R157, log 6). -/
theorem afterAppend_closes {st : CharStatus} {cause : Cause} {r : OpenRecord}
    (h : closeCause (s.line c.line).cfg st (decide (∃ n, HitWith c .delimit s n)) (c.position + 1) = some cause)
    (hr : (s.line c.line).rx.openRec = some r) :
    ClosesWithPosts c cause r.length r.errorFlag r.cells (charTested c s) (afterAppend c st s) := by
  have hopen (n : Nat) : (State.line { charTested c s with freeCtr := n } c.line).rx.openRec = some r :=
    (congrArg Receiver.openRec rx_charTested).trans hr
  have hlast (n : Nat) : Closes c.line cause r.length r.errorFlag r.cells (postsMade c { charTested c s with freeCtr := n })
      (closeOpen c.line cause (postsMade c { charTested c s with freeCtr := n })) := by
    refine closes_closeOpen ?_
    rw [line_postsMade, hopen]
  rw [afterAppend_eq hdir, h]
  simp only
  split
  · have hposts (t : State) (ht : ∀ n, (t.matchEntry n).pattern = (s.matchEntry n).pattern) :=
      postHits_hittersWith hdir ht
    obtain hfirst | hsecond := insertAct_single (draw (charTested c s)).1 (closeOpen c.line cause)
      (postHits c (hittersWith s .post (hitters s c.line .rx c.char)))
    · refine ⟨(charTested c s).freeCtr + 1, .inr ⟨_, closes_closeOpen (hopen _), ?_⟩⟩
      rw [hfirst]
      exact hposts _ fun n => (LineStep.closeOpen c.line _ |>.patterns n).trans (pattern_charTested n)
    · refine ⟨(charTested c s).freeCtr + 1, .inl ?_⟩
      rw [hsecond]
      have hmade := hposts (draw (charTested c s)).2 pattern_charTested
      show Closes _ _ _ _ _ _ (closeOpen c.line cause (postHits c _ (draw (charTested c s)).2))
      rw [hmade]
      exact hlast _
  · exact ⟨(charTested c s).freeCtr, .inl (hlast _)⟩

end tested

end Sys2Proof.Claims
end

section
/-! PROOFS. The take of a character that is stored (R103, R104, R106, R108, R109, R155 to R161). -/

namespace Sys2Proof.Claims

open Sys2Proof.Machine

section stored

variable (l : LineNo) (v : Byte) (st : CharStatus) (pos : Nat) (flag : Bool) (cells : List CellNo)

/-- The character under test when a character is stored. -/
def storedChar : TestedChar := { line := l, direction := .rx, char := v, position := pos, tag := none }

/-- The line once a character is in its open record (R104, R106, step 1). -/
def lineStored (rest : List FifoItem) (ln : Line) : Line :=
  { ln with rx := { ln.rx with
      state := .assembling, fifo := rest
      openRec := some { length := pos + 1, errorFlag := flag || decide (st ≠ .ok ∧ ln.cfg.errorPolicy = .keep)
                        cells := cells } } }

/-- The state before the test of that character. -/
def charStored (rest : List FifoItem) (m : List Host.Cell) (free : List CellNo) (pool : Bool) (s : State) : State :=
  { onLineOf s l (lineStored st pos flag cells rest) with mem := m, freeList := free, pendPool := pool }

variable {s : State} {l v st pos flag cells} {rest : List FifoItem} {free : List CellNo} {pool : Bool}

/-- What a store of a character writes depends on the memory alone. -/
theorem mem_storeChar (s : State) : (storeChar cells pos v { s with freeList := free, pendPool := pool }).mem =
    (storeChar cells pos v s).mem := by
  unfold storeChar
  cases positionAddress cells pos <;> rfl

theorem appendChar_eq (h : (s.line l).rx.fifo.tail = rest) :
    appendChar l v st pos flag cells { s with freeList := free, pendPool := pool } =
      afterAppend (storedChar l v pos) st (charStored l st pos flag cells rest
        (storeChar cells pos v s).mem free pool s) := by
  unfold appendChar
  simp only [← Bool.decide_and]
  rw [storeChar_eq, mem_storeChar, charStored, ← h]
  rfl

theorem takeCell_head {c : CellNo} (h : s.freeList = c :: free) : takeCell true s =
    some (c, { s with freeList := free, pendPool := s.pendPool || decide (s.freeList.length = s.poolLow) }) := by
  simp only [takeCell, h, if_true, List.length_cons, ← Bool.decide_and, falls_below_iff]

/-- The first character of a record takes a cell (R104). -/
theorem takeChar_first {c : CellNo} (hr : (s.line l).rx.openRec = none) (h : s.freeList = c :: free) :
    takeChar l v st s = appendChar l v st 0 false [c]
      { s with freeList := free, pendPool := s.pendPool || decide (s.freeList.length = s.poolLow) } := by
  rw [takeChar, hr]
  simp only [takeCell_head h]

/-- So does every sixteenth after it. -/
theorem takeChar_newCell {r : OpenRecord} {c : CellNo} (hr : (s.line l).rx.openRec = some r) (hfull : r.length % 16 = 0)
    (h : s.freeList = c :: free) : takeChar l v st s = appendChar l v st r.length r.errorFlag (r.cells ++ [c])
      { s with freeList := free, pendPool := s.pendPool || decide (s.freeList.length = s.poolLow) } := by
  rw [takeChar, hr]
  simp only [takeCell_head h, Config.cellSize, hfull, if_true]

theorem takeChar_midCell {r : OpenRecord} (hr : (s.line l).rx.openRec = some r) (hmid : r.length % 16 ≠ 0) :
    takeChar l v st s = appendChar l v st r.length r.errorFlag r.cells s := by
  rw [takeChar, hr]
  simp only [Config.cellSize, hmid, if_false]

/-- The causes of the close that a stored character requests, in their order (R106, step 4). -/
theorem closeCause_error {cfg : LineConfig} (h : st ≠ .ok ∧ cfg.errorPolicy = .close) (b : Bool) (n : Nat) :
    closeCause cfg st b n = some .error := if_pos h

section no_error

variable {cfg : LineConfig} (h : st = .ok ∨ cfg.errorPolicy ≠ .close)

include h

theorem not_error : ¬(st ≠ .ok ∧ cfg.errorPolicy = .close) := fun herr => h.elim herr.1 (· herr.2)

theorem closeCause_delimiter {b : Bool} (hb : b = true) (n : Nat) : closeCause cfg st b n = some .delimiter := by
  rw [closeCause, if_neg (not_error h), if_pos hb]

theorem closeCause_length {b : Bool} (hb : b = false) {n : Nat} (hn : n = cfg.maxLength) :
    closeCause cfg st b n = some .length := by
  rw [closeCause, if_neg (not_error h), if_neg (by simp [hb]), if_pos hn]

theorem closeCause_none {b : Bool} (hb : b = false) {n : Nat} (hn : n ≠ cfg.maxLength) :
    closeCause cfg st b n = none := by
  rw [closeCause, if_neg (not_error h), if_neg (by simp [hb]), if_neg hn]

end no_error

variable {m : List Host.Cell}

theorem line_charStored :
    (charStored l st pos flag cells rest m free pool s).line l = lineStored st pos flag cells rest (s.line l) :=
  line_onLineOf ..

end stored

/-- Settles O40. -/
theorem assemblerTakeStores : Obligations.AssemblerTakeStores := by
  intro s l v st rest pos flag cells free pool hrun hwf hen hst hfifo hkeep hplace
  have hexec : exec (.assemblerTake l) s = .next (assemblerTake l s) := exec_running rfl hrun
  have happend : takeChar l v st s = appendChar l v st pos flag cells { s with freeList := free, pendPool := pool } := by
    obtain ⟨hr, rfl, rfl, rfl, c, hfree, rfl⟩ | ⟨r, hr, rfl, rfl, hcell⟩ := hplace
    · exact takeChar_first hr hfree
    · obtain ⟨hmid, rfl, rfl, rfl⟩ | ⟨hfull, rfl, c, hfree, rfl⟩ := hcell
      · exact takeChar_midCell hr hmid
      · exact takeChar_newCell hr hfull hfree
  have htake : assemblerTake l s = uncongestIfClear l (afterAppend (storedChar l v pos) st
      (charStored l st pos flag cells rest (storeChar cells pos v s).mem free pool s)) := by
    rw [assemblerTake_item hen hst (by simp [hfifo]), takeItem_char hfifo hkeep, happend,
      appendChar_eq (by rw [hfifo, List.tail_cons])]
  rw [hexec, htake]
  refine ⟨_, charTested (storedChar l v pos) (charStored l st pos flag cells rest (storeChar cells pos v s).mem
    free pool s), _, _, rfl, uncongests_uncongestIfClear l _,
    fun c hc => read_storeChar_of_cell hwf hc, fun a ha => read_storeChar_other ha, ?_⟩
  generalize (storeChar cells pos v s).mem = m
  intro errorFlag stored c
  have hline : stored.line c.line = lineStored st pos flag cells rest (s.line l) := line_charStored
  have hrec : (stored.line c.line).rx.openRec = some { length := pos + 1, errorFlag := errorFlag, cells := cells } := by
    rw [hline]
    rfl
  have hcfg : (stored.line c.line).cfg = (s.line l).cfg := by
    rw [hline]
    rfl
  have hcloses (cause : Cause)
      (h : closeCause (s.line l).cfg st (decide (∃ n, HitWith c .delimit s n)) (pos + 1) = some cause) :
      ClosesWithPosts c cause (pos + 1) errorFlag cells (charTested c stored) (afterAppend c st stored) :=
    afterAppend_closes rfl (by rw [hcfg]; exact h) hrec
  refine ⟨fun h => if_pos h, fun h => if_neg (Classical.not_forall_not.mpr h), fun hbad hclose => ?_, fun hno => ⟨fun hdel => ?_,
    fun hdel => ⟨fun hlen => ?_, fun hlen => ?_⟩⟩⟩
  · exact hcloses _ (closeCause_error ⟨hbad, hclose⟩ _ _)
  · exact hcloses _ (closeCause_delimiter hno (decide_eq_true hdel) _)
  · exact hcloses _ (closeCause_length hno (decide_eq_false (not_exists.mpr hdel)) hlen)
  · refine (afterAppend_open (c := c) (s := stored) (st := st) rfl ?_).trans (loadIdle_eq ..)
    rw [hcfg]
    exact closeCause_none hno (decide_eq_false (not_exists.mpr hdel)) hlen

end Sys2Proof.Claims
end

section
/-! PROOFS. A front that has stopped stays stopped (R32), and the qualified changes of CTS and DCD (R120, R132, R133). -/

namespace Sys2Proof.Machine

/-! ## The transmit queue while a line works on its block -/

section queue

variable (l : LineNo) (s : State)

theorem queue_tx_txTest {c : TestedChar} (hc : c.line = l) : ((txTest c s).line l).tx.queue = (s.line l).tx.queue := by
  subst hc
  unfold txTest
  simp only
  split
  · rw [line_postHits, line_captureAction, line_countHits]
  · rw [setHaltRequest, line_setLine_self, line_postHits, line_captureAction, line_countHits]

theorem queue_tx_startPriority (c : FlowChar) : ((startPriority l c s).line l).tx.queue = (s.line l).tx.queue := by
  rw [startPriority, line_setLine_self]
  rfl

theorem queue_tx_workOn (d : DescNo) : ((workOn l d s).line l).tx.queue = (s.line l).tx.queue := by
  unfold workOn
  split
  · unfold enterHold
    simp only
    split
    · rw [line_updTx, queue_tx_startPriority]
    · rw [line_updTx]
      rfl
  · split
    · exact queue_tx_startPriority ..
    · unfold blockWork
      split
      · rw [startBreak, line_updTx]
        rfl
      · unfold startBlockChar
        rw [queue_tx_txTest l _ rfl, line_updTx]
        rfl

theorem queue_tx_startKeying : ((startKeying l s).line l).tx.queue = (s.line l).tx.queue := by
  rw [line_startKeying]
  rfl

theorem queue_tx_nothingToSend : ((nothingToSend l s).line l).tx.queue = (s.line l).tx.queue := by
  unfold nothingToSend
  rw [line_updTx]
  split
  · split <;> rfl
  · rfl

end queue

end Sys2Proof.Machine

namespace Sys2Proof.Claims

open Sys2Proof.Machine

/-! ## A front that has stopped (R32) -/

section front_stays

variable {l : LineNo} {s t : State}

theorem frontStops_of_kept (h : FrontStops l s) (hqueue : (t.line l).tx.queue = (s.line l).tx.queue)
    (hdesc : ∀ d, t.desc d = s.desc d) (hentries : s.queue <+: t.queue) : FrontStops l t := by
  intro d rest hq
  rw [hqueue] at hq
  rw [hdesc]
  exact (h d rest hq).imp_right fun hr => ⟨hr.1, fun hslot => hr.2 (Nat.lt_of_le_of_lt hentries.length_le hslot)⟩

theorem frontStops_takeBlock (d : DescNo) (h : FrontStops l s) : FrontStops l (takeBlock l d s) := by
  intro e rest hq
  rw [queue_takeBlock] at hq
  rw [desc_takeBlock]
  split
  · exact .inl (by simp)
  · exact h e rest hq

/-- The choice ends with the front stopped if it began so. -/
theorem frontStops_choose (n : Nat) (h : FrontStops l s) : FrontStops l (choose l n s) := by
  induction n generalizing s with
  | zero => exact h
  | succ n ih =>
    have hkey (u : State) (hu : FrontStops l u) : FrontStops l (startKeying l u) :=
      frontStops_of_kept hu (queue_tx_startKeying l u) (fun _ => rfl) (List.prefix_refl _)
    unfold choose
    split
    · exact frontStops_of_kept h (by rw [takeHalt, line_updTx]; rfl) (fun _ => rfl) (List.prefix_refl _)
    · split
      · next d _ => exact frontStops_of_kept h (queue_tx_workOn l s d) (fun e => desc_workOn s e l d) (entries_workOn s l d)
      · split
        · next d _ =>
          have htake := frontStops_takeBlock d h
          split
          · exact ih (frontHandled_handleFront l _).2
          · split
            · split
              · exact ih (hkey _ htake)
              · exact hkey _ htake
            · exact ih htake
        · split
          · split
            · split
              · exact ih (hkey s h)
              · exact hkey s h
            · exact frontStops_of_kept h (queue_tx_startPriority l s _) (fun _ => rfl) (List.prefix_refl _)
          · exact frontStops_of_kept h (queue_tx_nothingToSend l s) (fun _ => rfl) (List.prefix_refl _)

theorem frontStops_choiceIn (sts : List TxState) (h : FrontStops l s) : FrontStops l (choiceIn sts l s) := by
  unfold choiceIn
  split
  · exact frontStops_choose _ h
  · exact h

theorem frontStops_onLineOf {f : Line → Line} (hf : (f (s.line l)).tx.queue = (s.line l).tx.queue) (h : FrontStops l s) :
    FrontStops l (onLineOf s l f) :=
  frontStops_of_kept h (by rw [line_onLineOf, hf]) (fun _ => rfl) (List.prefix_refl _)

theorem frontStops_updRx {f : Receiver → Receiver} (h : FrontStops l s) : FrontStops l (s.updRx l f) :=
  frontStops_onLineOf (f := fun ln => { ln with rx := f ln.rx }) rfl h

theorem frontStops_receiveXoff (h : FrontStops l s) : FrontStops l (receiveXoff l s) := by
  unfold receiveXoff
  split
  · split
    · exact frontStops_choiceIn _ (frontStops_onLineOf (f := fun ln => { ln with tx.pendingPriority := some .xoff }) rfl h)
    · exact frontStops_onLineOf (f := fun ln => { ln with tx.pendingPriority := none }) rfl h
    · exact h
  · exact h

theorem frontStops_becomeCongested (h : FrontStops l s) : FrontStops l (becomeCongested l s) := by
  unfold becomeCongested
  split
  · exact h
  · exact frontStops_receiveXoff (frontStops_onLineOf (f := fun ln => { ln with flow.congested := true }) rfl h)

theorem frontStops_posted (e : Entry) (h : FrontStops l s) : FrontStops l (posted e s) :=
  frontStops_of_kept h rfl (fun _ => rfl) (List.prefix_append ..)

/-- A record that closes does not let the handling of the front go on: it takes a slot, or there is none. -/
theorem frontStops_closeOpen (c : Cause) (h : FrontStops l s) : FrontStops l (closeOpen l c s) := by
  unfold closeOpen
  split
  · unfold closeRecord
    split
    · rw [postRecord_eq]
      exact frontStops_posted _ (frontStops_onLineOf rfl h)
    · exact frontStops_becomeCongested (frontStops_updRx h)
  · exact h

end front_stays

/-! ## A qualified change of CTS (R120, R132) -/

section cts

variable {l : LineNo} {s : State}

theorem held_of_sameBut {a b : Line} (h : SameBut a b) : Held b ↔ Held a := by
  obtain ⟨q, c, rfl⟩ := h
  rfl

theorem ctsEffects_quiet {c : ChangeSet} (h : (s.line l).state ≠ .enabled ∨ (s.line l).tx.state ≠ .held ∨ Held (s.line l)) :
    ctsEffects l c s = joined l c s := by
  have hrelease : (if (s.line l).state = .enabled then releaseHold l else id) s = s := by
    split
    · next hen => exact releaseHold_stays (h.resolve_left (not_not_intro hen))
    · rfl
  have hnot : ¬((s.line l).state = .enabled ∧ (s.line l).tx.state = .held ∧ (!holdCondition (s.line l)) = true ∧
      s.slotFree = true ∧ (!c.isEmpty) = true) := by
    rintro ⟨hen, hst, hhold, -⟩
    obtain h | h | h := h
    · exact h hen
    · exact h hst
    · rw [(holdCondition_iff _).mpr h] at hhold
      cases hhold
  simp only [ctsEffects, if_neg hnot, hrelease, joinChanges_eq_joined]

theorem ctsActs_ctsEffects (l : LineNo) (c : ChangeSet) (s : State) : CtsActs l c s (ctsEffects l c s) := by
  refine ⟨ctsEffects_quiet, fun hen hst hheld => ?_⟩
  have hjoin : joinChanges l c = joined l c := funext (joinChanges_eq_joined l c)
  have hchooses (u : State) (hu : SameBut (s.line l) (u.line l)) : Chooses l u (releaseHold l u) := by
    rw [releaseHold_chooses (hu.txState.trans hst) (mt (held_of_sameBut hu).mp hheld)]
    exact chooses_nextStepChoice l u
  unfold ctsEffects
  simp only [if_pos hen, hjoin]
  split
  · refine ⟨s.freeCtr + 1, ?_⟩
    obtain hfirst | hlast := insertAct_single (draw s).1 (joined l c) (releaseHold l)
    · rw [hfirst]
      exact .inr (hchooses _ (sameBut_joined l c (draw s).2))
    · rw [hlast]
      exact .inl ⟨_, hchooses _ (.refl _), rfl⟩
  · exact ⟨s.freeCtr, .inl ⟨_, hchooses s (.refl _), rfl⟩⟩

end cts

end Sys2Proof.Claims
end

section
/-! PROOFS. The DCD action (R86, R111, R133): its acts in any order that R29 leaves, and what follows them. -/

namespace Sys2Proof.Claims

open Sys2Proof.Machine

/-! ## The acts of a DCD negation, in any order -/

section acts

variable {l : LineNo} {c : ChangeSet}

/-- An order of the acts of a DCD negation: the flush and then `n` steps at the front, the close, the joining. The indices say
what is still to be done; `id` stands for a close that there is not. -/
inductive ActsOf (l : LineNo) (c : ChangeSet) : FlushStage → Nat → Bool → Bool → List (State → State) → Prop
  | done (g : FlushStage) : g ≠ .due → ActsOf l c g 0 false false []
  | flush (n : Nat) (b j : Bool) (acts : List (State → State)) : ActsOf l c .made n b j acts →
      ActsOf l c .due n b j (flushBlocks l :: acts)
  | step (n : Nat) (b j : Bool) (acts : List (State → State)) : ActsOf l c .made n b j acts →
      ActsOf l c .made (n + 1) b j (frontStep l :: acts)
  | close (g : FlushStage) (n : Nat) (j : Bool) (acts : List (State → State)) : ActsOf l c g n false j acts →
      ActsOf l c g n true j (closeOpen l .carrier :: acts)
  | nothing (g : FlushStage) (n : Nat) (b j : Bool) (acts : List (State → State)) : ActsOf l c g n b j acts →
      ActsOf l c g n b j (id :: acts)
  | join (g : FlushStage) (n : Nat) (b : Bool) (acts : List (State → State)) : ActsOf l c g n b false acts →
      ActsOf l c g n b true (joined l c :: acts)

variable {g : FlushStage} {n : Nat} {b j : Bool} {acts : List (State → State)}

theorem actsOf_steps (n : Nat) : ActsOf l c .made n false false (List.replicate n (frontStep l)) := by
  induction n with
  | zero => exact .done _ (by decide)
  | succ n ih => exact .step n _ _ _ ih

/-- One more act at any place among the others: the close (`x`), the joining (`y`), or nothing. -/
theorem ActsOf.insert {f : State → State} {x y : Bool} (h : ActsOf l c g n b j acts)
    (hf : ∀ g n b j as, (x = true → b = false) → (y = true → j = false) → ActsOf l c g n b j as →
      ActsOf l c g n (b || x) (j || y) (f :: as))
    (hx : x = true → b = false) (hy : y = true → j = false) (p : Nat) :
    ActsOf l c g n (b || x) (j || y) (acts.take p ++ f :: acts.drop p) := by
  induction h generalizing p with
  | done g hg =>
    rw [List.take_nil, List.drop_nil]
    exact hf _ _ _ _ _ hx hy (.done g hg)
  | flush n b j acts h ih =>
    cases p with
    | zero => exact hf _ _ _ _ _ hx hy (.flush n b j acts h)
    | succ p => exact .flush _ _ _ _ (ih hx hy p)
  | step n b j acts h ih =>
    cases p with
    | zero => exact hf _ _ _ _ _ hx hy (.step n b j acts h)
    | succ p => exact .step _ _ _ _ (ih hx hy p)
  | nothing g n b j acts h ih =>
    cases p with
    | zero => exact hf _ _ _ _ _ hx hy (.nothing g n b j acts h)
    | succ p => exact .nothing _ _ _ _ _ (ih hx hy p)
  | close g n j acts h ih =>
    cases p with
    | zero => exact hf _ _ _ _ _ hx hy (.close g n j acts h)
    | succ p =>
      obtain rfl : x = false := by simpa using hx
      exact .close _ _ _ _ (ih nofun hy p)
  | join g n b acts h ih =>
    cases p with
    | zero => exact hf _ _ _ _ _ hx hy (.join g n b acts h)
    | succ p =>
      obtain rfl : y = false := by simpa using hy
      exact .join _ _ _ _ (ih hx nofun p)

/-- The close, or `id` where there is none, among the acts of the flush. -/
theorem ActsOf.insertClose {x : Bool} (h : ActsOf l c g n false false acts) (p : Nat) :
    ActsOf l c g n x false (acts.take p ++ (if x then closeOpen l .carrier else id) :: acts.drop p) := by
  have hins := h.insert (x := x) (y := false) (f := if x then closeOpen l .carrier else id)
    (fun g n b j as hx _ has => by
      cases x with
      | false =>
        rw [Bool.or_false, Bool.or_false]
        exact .nothing g n b j as has
      | true =>
        rw [hx rfl] at has ⊢
        rw [Bool.or_false]
        exact .close g n j as has) (fun _ => rfl) nofun p
  rwa [Bool.false_or] at hins

theorem ActsOf.insertJoin (h : ActsOf l c g n b false acts) (p : Nat) :
    ActsOf l c g n b true (acts.take p ++ joined l c :: acts.drop p) := by
  have hins := h.insert (x := false) (y := true) (f := joined l c)
    (fun g n b j as _ hy has => by
      rw [hy rfl] at has ⊢
      rw [Bool.or_false]
      exact .join g n b as has) nofun (fun _ => rfl) p
  rwa [Bool.or_false] at hins

/-- With the steps that are left the front can be handled to its end. -/
def StepsSuffice (l : LineNo) (n : Nat) (s : State) : Prop := FrontStops l s ∨ (s.line l).tx.queue.length ≤ n

theorem length_closeOpen_le (s : State) (l : LineNo) (k : Cause) :
    ((closeOpen l k s).line l).tx.queue.length ≤ (s.line l).tx.queue.length := (LineStep.closeOpen l s).front.length_le

/-- Acts in such an order make a DCD negation's acts of the statements. -/
theorem dcdActs_runAll {k : Option OpenRecord} {s : State} (h : ActsOf l c g n b j acts)
    (hdue : g = .due → (s.line l).tx.queue.length ≤ n) (hmade : g = .made → StepsSuffice l n s)
    (hk : k = if b then (s.line l).rx.openRec else none) : DcdActs l c g k j s (runAll acts s) := by
  induction h generalizing k s with
  | done g hg =>
    obtain rfl : k = none := hk
    refine .rest g s hg fun h => ?_
    obtain hstop | hlen := hmade h
    · exact hstop
    · exact frontStops_of_empty (List.length_eq_zero_iff.mp (Nat.le_zero.mp hlen))
  | flush n b j acts h ih =>
    have hline := TxSide.flushBlocks l s
    have hfront := (LineStep.flushBlocks l s).front.length_le
    refine .flush k j s _ ?_
    rw [← flushBlocks_eq_flushMade]
    exact ih nofun (fun _ => .inr (Nat.le_trans hfront (hdue rfl))) (by rw [hk, hline.rx])
  | step n b j acts h ih =>
    by_cases hstop : FrontStops l s
    · rw [runAll_cons, frontStep_of_stops hstop]
      exact ih nofun (fun _ => .inl hstop) hk
    · have hhead := headHandled_frontStep hstop
      obtain ⟨d, hq⟩ := hhead.queue
      have hlen := (hmade rfl).resolve_left hstop
      rw [hq, List.length_cons] at hlen
      exact .head k j s _ _ hhead (ih nofun (fun _ => .inr (by omega)) (by rw [hk, (SameBut.frontStep l s).rx]))
  | close g n j acts h ih =>
    have hfront := length_closeOpen_le s l .carrier
    cases hr : (s.line l).rx.openRec with
    | none =>
      obtain rfl : k = none := hk.trans hr
      rw [runAll_cons, closeOpen_none hr]
      exact ih hdue hmade rfl
    | some r =>
      obtain rfl : k = some r := hk.trans hr
      exact .close g r j s _ _ (closes_closeOpen hr) (ih (fun hg => Nat.le_trans hfront (hdue hg))
        (fun hg => (hmade hg).imp (frontStops_closeOpen .carrier) (Nat.le_trans hfront)) rfl)
  | nothing g n b j acts h ih => exact ih hdue hmade hk
  | join g n b acts h ih =>
    refine .join g k s _ (ih (fun hg => by rw [queue_tx_joined]; exact hdue hg) (fun hg => ?_)
      (by rw [hk, (sameBut_joined l c s).rx]))
    refine (hmade hg).imp (frontStops_joined c) fun hlen => ?_
    rwa [queue_tx_joined]

end acts

/-! ## A qualified change of DCD (R132, R133) -/

section dcd

variable {l : LineNo} {c : ChangeSet} {s : State}

/-- What follows the acts of a DCD negation (R79, R84, R86). -/
def dcdEnds (l : LineNo) (s : State) : State → State :=
  if dcdFlushes s l then dcdFlushEnds (meetsHoldExpiry (s.line l).tx) l else id

/-- A DCD negation is its acts in some order and what follows them; `m` is the count of the model's draws. -/
theorem dcdNegated_eq (l : LineNo) (c : ChangeSet) (s : State) :
    ∃ m acts, dcdNegated l c s = dcdEnds l s (runAll acts { s with freeCtr := m }) ∧
      ActsOf l c (if dcdFlushes s l then .due else .absent) (if dcdFlushes s l then (s.line l).tx.queue.length else 0)
        (dcdCloses (s.line l)) true acts := by
  have hflushes : ActsOf l c (if dcdFlushes s l then .due else .absent)
      (if dcdFlushes s l then (s.line l).tx.queue.length else 0) false false
      (if dcdFlushes s l then flushBlocks l :: frontActs l s else []) := by
    split
    · exact .flush _ _ _ _ (actsOf_steps _)
    · exact .done _ (by decide)
  have hclose (p : Nat) := hflushes.insertClose (x := dcdCloses (s.line l)) p
  have hjoin : joinChanges l c = joined l c := funext (joinChanges_eq_joined l c)
  unfold dcdNegated
  simp only [hjoin]
  split
  · exact ⟨s.freeCtr + 2, _, rfl, (hclose _).insertJoin _⟩
  · have hlast := (hclose (if dcdFlushes s l then flushBlocks l :: frontActs l s else []).length).insertJoin
      (if dcdFlushes s l then flushBlocks l :: frontActs l s else []).length.succ
    rw [List.take_length, List.drop_length, List.take_of_length_le (by simp), List.drop_eq_nil_of_le (by simp)] at hlast
    refine ⟨s.freeCtr, _, ?_, hlast⟩
    split
    · rw [List.append_assoc, runAll_append]
      rfl
    · next hnone =>
      obtain ⟨hc, hf⟩ := Bool.or_eq_false_iff.mp (Bool.eq_false_iff.mpr hnone)
      rw [dcdEnds, hc, hf]
      rfl

theorem hasUnfinished_eq : s.hasUnfinished l =
    (s.line l).tx.queue.any fun d => decide ((s.desc d).phase = .active ∨ (s.desc d).phase = .queued) :=
  congrArg _ (funext fun d => by cases (s.desc d).phase <;> rfl)

theorem dcdFlushes_not_enabled (h : (s.line l).state ≠ .enabled) : dcdFlushes s l = false := by
  rw [dcdFlushes, decide_eq_false h, Bool.false_and, Bool.false_and]

theorem dcdCloses_not_enabled {ln : Line} (h : ln.state ≠ .enabled) : dcdCloses ln = false := by
  rw [dcdCloses, decide_eq_false h, Bool.false_and, Bool.false_and]

theorem dcdNegated_not_enabled (h : (s.line l).state ≠ .enabled) : dcdNegated l c s = joined l c s := by
  unfold dcdNegated
  simp [dcdFlushes_not_enabled h, dcdCloses_not_enabled h, joinChanges_eq_joined]

section enabled

variable (h : (s.line l).state = .enabled)

include h

theorem dcdFlushStage_eq : dcdFlushStage s l = if dcdFlushes s l then .due else .absent := by
  rw [dcdFlushStage, dcdFlushes, decide_eq_true h, Bool.true_and, hasUnfinished_eq]
  exact ite_of_iff (by rw [Bool.and_eq_true, decide_eq_true_eq]) rfl rfl

theorem dcdRecord_eq : dcdRecord (s.line l) = if dcdCloses (s.line l) then (s.line l).rx.openRec else none := by
  rw [dcdRecord, dcdCloses, decide_eq_true h, Bool.true_and]
  exact ite_of_iff (by rw [Bool.and_eq_true, decide_eq_true_eq, decide_eq_true_eq]) rfl rfl

end enabled

theorem meetsHoldExpiry_iff (t : Transmitter) : meetsHoldExpiry t = true ↔ t.state = .held ∧ t.holdTimer = some 0 := by
  rw [meetsHoldExpiry, expired, Bool.and_eq_true, decide_eq_true_eq, decide_eq_true_eq]

theorem flushChoice_chooses {w : State} (hst : (w.line l).tx.state = .breaking ∨ (w.line l).tx.state = .held)
    (hclear : (w.line l).tx.inFlight = none) (hnone : NoneActive w l) : Chooses l w (flushChoice l w) := by
  rw [flushChoice, if_pos (by rw [hclear, (activeDesc_eq_none_iff l w).mpr hnone]; rfl), choiceIn_of_mem (by simpa using hst)]
  exact chooses_nextStepChoice l w

theorem flushChoice_stays {w : State} (h : ¬(((w.line l).tx.state = .breaking ∨ (w.line l).tx.state = .held) ∧
    (w.line l).tx.inFlight = none ∧ NoneActive w l)) : flushChoice l w = w := by
  unfold flushChoice
  split
  · next hclear =>
    rw [Bool.and_eq_true, Option.isNone_iff_eq_none, Option.isNone_iff_eq_none, activeDesc_eq_none_iff] at hclear
    exact choiceIn_of_not_mem fun hst => h ⟨by simpa using hst, hclear⟩
  · rfl

theorem dcdHas_dcdEffects (l : LineNo) (c : ChangeSet) (v : Level) (s : State) : DcdHas l c v s (dcdEffects l v c s) := by
  refine ⟨fun h => ?_, fun hv hen => ?_⟩
  · cases v with
    | asserted => exact joinChanges_eq_joined l c s
    | negated => exact dcdNegated_not_enabled (h.resolve_left nofun)
  · subst hv
    obtain ⟨m, acts, heq, hacts⟩ := dcdNegated_eq l c s
    have hdcd : dcdEffects l .negated c s = dcdEnds l s (runAll acts { s with freeCtr := m }) := heq
    rw [hdcd, dcdFlushStage_eq hen, dcdRecord_eq hen]
    refine ⟨m, _, dcdActs_runAll (s := { s with freeCtr := m }) hacts (fun hg => ?_) (fun hg => ?_) rfl,
      fun hg => ?_, fun hg => ?_⟩
    · split at hg
      · next hf =>
        rw [if_pos hf]
        exact Nat.le_refl _
      · cases hg
    · split at hg <;> cases hg
    · split at hg
      · cases hg
      · next hf => rw [dcdEnds, if_neg hf, id]
    · split at hg
      · next hf =>
        rw [dcdEnds, if_pos hf]
        generalize runAll acts { s with freeCtr := m } = w
        unfold dcdFlushEnds
        refine ⟨fun hmet hst => ?_, fun hnot => ?_⟩
        · rw [if_pos (Bool.and_eq_true_iff.mpr ⟨(meetsHoldExpiry_iff _).mpr hmet, decide_eq_true hst⟩), idleAfterExpiry_eq]
        · rw [if_neg (by rwa [Bool.and_eq_true, meetsHoldExpiry_iff, decide_eq_true_eq])]
          exact ⟨flushChoice_chooses, flushChoice_stays⟩
      · cases hg

theorem settled_settleCommit (l : LineNo) (s : State) : Settled l s (settleCommit l s) := by
  unfold settleCommit
  refine ⟨fun h => ?_, fun hdue hst => ?_⟩
  · split
    · next hdue =>
      obtain h | h := h
      · rw [hdue] at h
        cases h
      · exact choiceIn_of_not_mem (by simpa using h)
    · rfl
  · rw [if_pos hdue, choiceIn_of_mem (by simpa using hst)]
    exact chooses_nextStepChoice l s

end dcd

/-! ## The samples (R131) -/

section samples

variable {l : LineNo} {s : State}

theorem qualifier_eq (ln : Line) (i : ModemInput) : ln.flow.qualifier i = qualifierOf ln i := by cases i <;> rfl

theorem setLevel_eq_requalified (l : LineNo) (i : ModemInput) (v : Level) (s : State) :
    setLevel l i v s = requalified l i v s := by cases i <;> rfl

theorem setPrevious_eq_sampled (l : LineNo) (i : ModemInput) (v : Level) (s : State) :
    setPrevious l i v s = sampled l i v s := by cases i <;> rfl

theorem qualifies_iff (q : Qualifier) (v : Level) : qualifies q v = true ↔ Qualifies q v := by
  rw [qualifies, Bool.and_eq_true, decide_eq_true_eq, decide_eq_true_eq]

theorem changeDue_iff (q : Qualifier) (v : Level) : changeDue q v = true ↔ Due q ∧ Qualifies q v := by
  rw [changeDue, Bool.and_eq_true, qualifies_iff]

variable {i : ModemInput} {v : Level}

theorem sampleInput_disabled (h : (s.line l).state = .disabled) : sampleInput l i v s = s := if_pos (.inl h)

theorem sampleInput_not_due (h : ¬Due (qualifierOf (s.line l) i)) : sampleInput l i v s = s := by
  refine if_pos (.inr ?_)
  rw [qualifier_eq]
  exact Bool.eq_false_iff.mpr h

variable (hst : (s.line l).state ≠ .disabled) (hdue : Due (qualifierOf (s.line l) i))

include hst hdue

theorem sampleInput_qualified (h : Qualifies (qualifierOf (s.line l) i) v) :
    sampleInput l i v s = qualifiedChange l i v s := by
  rw [sampleInput, qualifier_eq, if_neg (not_or.mpr ⟨hst, by simp [hdue]⟩), if_pos ((qualifies_iff _ _).mpr h)]

theorem sampleInput_plain (h : ¬Qualifies (qualifierOf (s.line l) i) v) : sampleInput l i v s = plainSample l i v s := by
  rw [sampleInput, qualifier_eq, if_neg (not_or.mpr ⟨hst, by simp [hdue]⟩), if_neg (mt (qualifies_iff _ _).mp h)]

end samples

theorem qualifiedChange_cts_eq (l : LineNo) (v : Level) (s : State) : qualifiedChange l .cts v s =
    ctsEffects l ⟨(s.line l).cfg.maskCts, false, false, false⟩ (requalified l .cts v s) := by
  rw [← setLevel_eq_requalified]
  rfl

theorem qualifiedChange_dcd_eq (l : LineNo) (v : Level) (s : State) : qualifiedChange l .dcd v s =
    settleCommit l (dcdEffects l v ⟨false, (s.line l).cfg.maskDcd, false, false⟩ (requalified l .dcd v s)) := by
  rw [← setLevel_eq_requalified]
  rfl

/-- Settles O46. -/
theorem qualifiedChangeOfCts : Obligations.QualifiedChangeOfCts := by
  intro s l v hrun hst hdue hq
  have hexec : exec (.qualifiedChange l .cts v) s = .next (sampleInput l .cts v s) := exec_running rfl hrun
  rw [hexec, sampleInput_qualified (i := .cts) hst hdue hq, qualifiedChange_cts_eq]
  exact ⟨_, rfl, ctsActs_ctsEffects ..⟩

/-- Settles O47. -/
theorem qualifiedChangeOfDcd : Obligations.QualifiedChangeOfDcd := by
  intro s l v hrun hst hdue hq
  have hexec : exec (.qualifiedChange l .dcd v) s = .next (sampleInput l .dcd v s) := exec_running rfl hrun
  rw [hexec, sampleInput_qualified (i := .dcd) hst hdue hq, qualifiedChange_dcd_eq]
  exact ⟨_, _, rfl, dcdHas_dcdEffects .., settled_settleCommit ..⟩

end Sys2Proof.Claims
end

section
/-! PROOFS. The qualifiers of CTS and DCD on a tick (R131, R132): a sample of one input leaves the other's qualifier alone. -/

namespace Sys2Proof.Claims

open Sys2Proof.Machine

/-! ## What a change of one input leaves of the line -/

/-- The line's state and the two qualifiers are no concern of the operation. -/
structure KeepsInputs (l : LineNo) (s t : State) : Prop where
  state : (t.line l).state = (s.line l).state := by rfl
  cts : (t.line l).flow.cts = (s.line l).flow.cts := by rfl
  dcd : (t.line l).flow.dcd = (s.line l).flow.dcd := by rfl

section keeps

variable {l : LineNo} {s t u : State}

theorem KeepsInputs.refl (l : LineNo) (s : State) : KeepsInputs l s s := {}

theorem KeepsInputs.drawn (l : LineNo) (s : State) (n : Nat) : KeepsInputs l s { s with freeCtr := n } := {}

theorem KeepsInputs.trans (h : KeepsInputs l s t) (k : KeepsInputs l t u) : KeepsInputs l s u :=
  ⟨k.state.trans h.state, k.cts.trans h.cts, k.dcd.trans h.dcd⟩

theorem keepsInputs_of_txSide (h : TxSide l s t) : KeepsInputs l s t := ⟨h.state, h.cts, h.dcd⟩

theorem keepsInputs_of_sameBut (h : SameBut (s.line l) (t.line l)) : KeepsInputs l s t := by
  obtain ⟨q, c, h⟩ := h
  refine ⟨?_, ?_, ?_⟩ <;> rw [h]

theorem keepsInputs_onLineOf {f : Line → Line} (hstate : (f (s.line l)).state = (s.line l).state)
    (hcts : (f (s.line l)).flow.cts = (s.line l).flow.cts) (hdcd : (f (s.line l)).flow.dcd = (s.line l).flow.dcd) :
    KeepsInputs l s (onLineOf s l f) := by
  refine ⟨?_, ?_, ?_⟩ <;> rw [line_onLineOf]
  · exact hstate
  · exact hcts
  · exact hdcd

theorem keepsInputs_becomeCongested (l : LineNo) (s : State) : KeepsInputs l s (becomeCongested l s) := by
  unfold becomeCongested
  split
  · exact .refl l s
  · exact (keepsInputs_onLineOf (f := fun ln => { ln with flow.congested := true }) rfl rfl rfl).trans
      (keepsInputs_of_txSide (.receiveXoff l _))

theorem keepsInputs_updRx (l : LineNo) (s : State) (f : Receiver → Receiver) : KeepsInputs l s (s.updRx l f) :=
  keepsInputs_onLineOf (f := fun ln => { ln with rx := f ln.rx }) rfl rfl rfl

theorem keepsInputs_closeOpen (l : LineNo) (c : Cause) (s : State) : KeepsInputs l s (closeOpen l c s) := by
  unfold closeOpen
  split
  · unfold closeRecord
    split
    · exact (keepsInputs_of_sameBut (by rw [line_postEntry]; exact .refl _)).trans (keepsInputs_updRx l _ _)
    · exact (keepsInputs_updRx l s _).trans (keepsInputs_becomeCongested l _)
  · exact .refl l s

theorem keepsInputs_joined (l : LineNo) (c : ChangeSet) (s : State) : KeepsInputs l s (joined l c s) :=
  keepsInputs_of_sameBut (sameBut_joined l c s)

theorem keepsInputs_settleCommit (l : LineNo) (s : State) : KeepsInputs l s (settleCommit l s) := by
  unfold settleCommit
  split
  · exact keepsInputs_of_txSide (.choiceIn l s)
  · exact .refl l s

theorem keepsInputs_runAll {c : ChangeSet} {g : FlushStage} {n : Nat} {b j : Bool} {acts : List (State → State)}
    (h : ActsOf l c g n b j acts) (s : State) : KeepsInputs l s (runAll acts s) := by
  induction h generalizing s with
  | done => exact .refl l s
  | flush n b j acts h ih => exact (keepsInputs_of_txSide (.flushBlocks l s)).trans (ih _)
  | step n b j acts h ih => exact (keepsInputs_of_sameBut (.frontStep l s)).trans (ih _)
  | close g n j acts h ih => exact (keepsInputs_closeOpen l .carrier s).trans (ih _)
  | nothing g n b j acts h ih => exact ih s
  | join g n b acts h ih => exact (keepsInputs_joined l c s).trans (ih _)

theorem keepsInputs_dcdEnds (l : LineNo) (s t : State) : KeepsInputs l t (dcdEnds l s t) := by
  unfold dcdEnds
  split
  · unfold dcdFlushEnds
    split
    · rw [idleAfterExpiry_eq]
      refine keepsInputs_onLineOf ?_ ?_ ?_ <;> unfold idleLine <;> split <;> rfl
    · exact keepsInputs_of_txSide (.flushChoice l t)
  · exact .refl l t

theorem keepsInputs_dcdEffects (l : LineNo) (v : Level) (c : ChangeSet) (s : State) :
    KeepsInputs l s (dcdEffects l v c s) := by
  cases v with
  | asserted =>
    show KeepsInputs l s (joinChanges l c s)
    rw [joinChanges_eq_joined]
    exact keepsInputs_joined l c s
  | negated =>
    obtain ⟨m, acts, heq, hacts⟩ := dcdNegated_eq l c s
    show KeepsInputs l s (dcdNegated l c s)
    rw [heq]
    exact ((KeepsInputs.drawn l s m).trans (keepsInputs_runAll hacts _)).trans (keepsInputs_dcdEnds l s _)

theorem keepsInputs_ctsEffects (l : LineNo) (c : ChangeSet) (s : State) : KeepsInputs l s (ctsEffects l c s) := by
  have hrel (u : State) : KeepsInputs l u ((if (s.line l).state = .enabled then releaseHold l else id) u) := by
    split
    · exact keepsInputs_of_txSide (.releaseHold l u)
    · exact .refl l u
  have hjoin : joinChanges l c = joined l c := funext (joinChanges_eq_joined l c)
  unfold ctsEffects
  simp only [hjoin]
  split
  · obtain h | h := insertAct_single (draw s).1 (joined l c) (if (s.line l).state = .enabled then releaseHold l else id)
    · rw [h]
      exact ((KeepsInputs.drawn l s _).trans (keepsInputs_joined l c _)).trans (hrel _)
    · rw [h]
      exact ((KeepsInputs.drawn l s _).trans (hrel _)).trans (keepsInputs_joined l c _)
  · exact (hrel s).trans (keepsInputs_joined l c _)

end keeps

/-! ## Both inputs on a tick (R131, R132) -/

section both

variable {l : LineNo} {s : State} {c d : Level}

theorem line_sampled (l : LineNo) (v : Level) (s : State) :
    (sampled l .cts v s).line l = { s.line l with flow.cts := ⟨(s.line l).flow.cts.level, v, false⟩ } := line_onLineOf ..

theorem plainSample_cts (l : LineNo) (v : Level) (s : State) : plainSample l .cts v s = sampled l .cts v s :=
  setPrevious_eq_sampled l .cts v s

theorem plainSample_dcd (l : LineNo) (v : Level) (s : State) :
    plainSample l .dcd v s = settleCommit l (sampled l .dcd v s) :=
  congrArg (settleCommit l) (setPrevious_eq_sampled l .dcd v s)

theorem sampleInputs_not_both (h : ¬(Due (s.line l).flow.cts ∧ Qualifies (s.line l).flow.cts c ∧
    Due (s.line l).flow.dcd ∧ Qualifies (s.line l).flow.dcd d)) :
    sampleInputs l c d s = sampleInput l .dcd d (sampleInput l .cts c s) := by
  refine if_neg ?_
  rintro ⟨-, hc, hd⟩
  obtain ⟨hcdue, hcq⟩ := (changeDue_iff _ _).mp hc
  obtain ⟨hddue, hdq⟩ := (changeDue_iff _ _).mp hd
  exact h ⟨hcdue, hcq, hddue, hdq⟩

theorem sampleInputs_disabled (h : (s.line l).state = .disabled) : sampleInputs l c d s = s := by
  rw [sampleInputs, if_neg (by simp [h]), sampleInput_disabled (i := .cts) h, sampleInput_disabled h]

/-- After a qualified change of CTS the line is in service as it was, and DCD's qualifier is untouched. -/
theorem keeps_qualifiedChange_cts (l : LineNo) (v : Level) (s : State) :
    ((qualifiedChange l .cts v s).line l).state = (s.line l).state ∧
      ((qualifiedChange l .cts v s).line l).flow.dcd = (s.line l).flow.dcd := by
  have hkeep := keepsInputs_ctsEffects l ⟨(s.line l).cfg.maskCts, false, false, false⟩ (requalified l .cts v s)
  have hline : (requalified l .cts v s).line l = _ := line_onLineOf s l fun ln =>
    { ln with flow.cts := ⟨v, ln.flow.cts.previous, false⟩ }
  rw [qualifiedChange_cts_eq]
  exact ⟨hkeep.state.trans (by rw [hline]), hkeep.dcd.trans (by rw [hline])⟩

/-- And the other way round. -/
theorem keeps_qualifiedChange_dcd (l : LineNo) (v : Level) (s : State) :
    ((qualifiedChange l .dcd v s).line l).state = (s.line l).state ∧
      ((qualifiedChange l .dcd v s).line l).flow.cts = (s.line l).flow.cts := by
  have hkeep := (keepsInputs_dcdEffects l v ⟨false, (s.line l).cfg.maskDcd, false, false⟩ (requalified l .dcd v s)).trans
    (keepsInputs_settleCommit l _)
  have hline : (requalified l .dcd v s).line l = _ := line_onLineOf s l fun ln =>
    { ln with flow.dcd := ⟨v, ln.flow.dcd.previous, false⟩ }
  rw [qualifiedChange_dcd_eq]
  exact ⟨hkeep.state.trans (by rw [hline]), hkeep.cts.trans (by rw [hline])⟩

theorem resetHeld_sampleInput (l : LineNo) (i : ModemInput) (v : Level) (s : State) :
    (sampleInput l i v s).resetHeld = s.resetHeld := by
  have hkept := (LineStep.sampleInput l s (i := i) (v := v)).kept
  simp only [State.kept, Prod.mk.injEq] at hkept
  obtain ⟨-, -, -, -, -, -, -, -, -, -, -, -, -, -, -, -, -, -, hheld, -⟩ := hkept
  exact hheld

theorem exec_qualifiedChange (hrun : s.resetHeld = false) (i : ModemInput) (v : Level) :
    exec (.qualifiedChange l i v) s = .next (sampleInput l i v s) := exec_running rfl hrun

variable (hrun : s.resetHeld = false) (hst : (s.line l).state ≠ .disabled)
  (hcdue : Due (s.line l).flow.cts) (hcq : Qualifies (s.line l).flow.cts c)
  (hddue : Due (s.line l).flow.dcd) (hdq : Qualifies (s.line l).flow.dcd d)

include hrun hst hcdue hcq hddue hdq

theorem exec_cts_then_dcd : ∃ w, exec (.qualifiedChange l .cts c) s = .next w ∧
    exec (.qualifiedChange l .dcd d) w = .next (qualifiedChange l .dcd d (qualifiedChange l .cts c s)) := by
  have hfirst : sampleInput l .cts c s = qualifiedChange l .cts c s := sampleInput_qualified (i := .cts) hst hcdue hcq
  obtain ⟨hstate, hdcd⟩ := keeps_qualifiedChange_cts l c s
  have hheld := resetHeld_sampleInput l .cts c s
  rw [hfirst] at hheld
  refine ⟨_, (exec_qualifiedChange hrun .cts c).trans (congrArg _ hfirst), ?_⟩
  rw [exec_qualifiedChange (hheld.trans hrun)]
  exact congrArg _ (sampleInput_qualified (i := .dcd) (by rwa [hstate]) (by rwa [qualifierOf, hdcd])
    (by rwa [qualifierOf, hdcd]))

theorem exec_dcd_then_cts : ∃ w, exec (.qualifiedChange l .dcd d) s = .next w ∧
    exec (.qualifiedChange l .cts c) w = .next (qualifiedChange l .cts c (qualifiedChange l .dcd d s)) := by
  have hfirst : sampleInput l .dcd d s = qualifiedChange l .dcd d s := sampleInput_qualified (i := .dcd) hst hddue hdq
  obtain ⟨hstate, hcts⟩ := keeps_qualifiedChange_dcd l d s
  have hheld := resetHeld_sampleInput l .dcd d s
  rw [hfirst] at hheld
  refine ⟨_, (exec_qualifiedChange hrun .dcd d).trans (congrArg _ hfirst), ?_⟩
  rw [exec_qualifiedChange (hheld.trans hrun)]
  exact congrArg _ (sampleInput_qualified (i := .cts) (by rwa [hstate]) (by rwa [qualifierOf, hcts])
    (by rwa [qualifierOf, hcts]))

omit hrun hst hcdue hcq hddue hdq in
/-- The four cases of two changes on one tick (log 7). -/
theorem bothQualify_eq {n : Nat} {u : State} (h : draw s = (n, u)) :
    let both := requalified l .dcd d (requalified l .cts c u)
    let joint : ChangeSet := ⟨(s.line l).cfg.maskCts, (s.line l).cfg.maskDcd, false, false⟩
    bothQualify l c d s =
      if n % 4 = 0 then qualifiedChange l .dcd d (qualifiedChange l .cts c u)
      else if n % 4 = 1 then qualifiedChange l .cts c (qualifiedChange l .dcd d u)
      else if n % 4 = 2 then settleCommit l (dcdEffects l d joint (ctsEffects l noChanges both))
      else ctsEffects l noChanges (settleCommit l (dcdEffects l d joint both)) := by
  have hjoint : (ctsChange (s.line l)).union (dcdChange (s.line l)) =
      ⟨(s.line l).cfg.maskCts, (s.line l).cfg.maskDcd, false, false⟩ := by
    simp [ctsChange, dcdChange, ChangeSet.union, ChangeSet.empty]
  obtain ⟨rfl, rfl⟩ := Prod.mk.inj h
  rw [← hjoint, ← setLevel_eq_requalified, ← setLevel_eq_requalified]
  rfl

/-- Both qualify: one of the four cases is drawn. -/
theorem bothQualify_cases : ∃ n w x,
    let u : State := { s with freeCtr := n }
    let both := requalified l .dcd d (requalified l .cts c u)
    let joint : ChangeSet := ⟨(s.line l).cfg.maskCts, (s.line l).cfg.maskDcd, false, false⟩
    let t := bothQualify l c d s
    (exec (.qualifiedChange l .cts c) u = .next w ∧ exec (.qualifiedChange l .dcd d) w = .next t) ∨
      (exec (.qualifiedChange l .dcd d) u = .next w ∧ exec (.qualifiedChange l .cts c) w = .next t) ∨
      (CtsActs l noChanges both w ∧ DcdHas l joint d w x ∧ Settled l x t) ∨
      (DcdHas l joint d both w ∧ Settled l w x ∧ CtsActs l noChanges x t) := by
  refine ⟨s.freeCtr + 1, ?_⟩
  obtain ⟨w0, hw0, ht0⟩ := exec_cts_then_dcd (s := { s with freeCtr := s.freeCtr + 1 }) hrun hst hcdue hcq hddue hdq
  obtain ⟨w1, hw1, ht1⟩ := exec_dcd_then_cts (s := { s with freeCtr := s.freeCtr + 1 }) hrun hst hcdue hcq hddue hdq
  have hdraw : draw s = (Config.freeChoice s.freeCtr, { s with freeCtr := s.freeCtr + 1 }) := rfl
  rw [bothQualify_eq hdraw]
  generalize ({ s with freeCtr := s.freeCtr + 1 } : State) = u at hw0 ht0 hw1 ht1 ⊢
  split
  · exact ⟨w0, s, .inl ⟨hw0, ht0⟩⟩
  · split
    · exact ⟨w1, s, .inr (.inl ⟨hw1, ht1⟩)⟩
    · split
      · exact ⟨_, _, .inr (.inr (.inl ⟨ctsActs_ctsEffects .., dcdHas_dcdEffects .., settled_settleCommit ..⟩))⟩
      · exact ⟨_, _, .inr (.inr (.inr ⟨dcdHas_dcdEffects .., settled_settleCommit .., ctsActs_ctsEffects ..⟩))⟩

end both

/-- Settles O45. -/
theorem modemInputsAreQualified : Obligations.ModemInputsAreQualified := by
  intro s l hrun
  have hboth (c d : Level) : exec (.modemInputSample l c d) s = .next (sampleInputs l c d s) := exec_running rfl hrun
  simp only [exec_qualifiedChange hrun, hboth]
  refine ⟨fun h => ⟨fun i v => by rw [sampleInput_disabled h], fun c d => by rw [sampleInputs_disabled h]⟩,
    fun i v h => by rw [sampleInput_not_due h],
    fun hst => ⟨fun v hdue hq => ?_, fun v hdue hq => ?_, fun c d => ⟨fun hcdue hddue hcq hdq => ?_, fun h => ?_, ?_⟩⟩⟩
  · rw [sampleInput_plain (i := .cts) hst hdue hq, plainSample_cts]
  · rw [sampleInput_plain (i := .dcd) hst hdue hq, plainSample_dcd]
    exact ⟨_, rfl, settled_settleCommit ..⟩
  · have hline := line_sampled l c s
    rw [sampleInputs_not_both fun h => hcq h.2.1, sampleInput_plain (i := .cts) hst hcdue hcq, plainSample_cts,
      sampleInput_plain (i := .dcd) (by rwa [hline]) (by rwa [qualifierOf, hline]) (by rwa [qualifierOf, hline]),
      plainSample_dcd]
    exact ⟨_, rfl, settled_settleCommit ..⟩
  · refine ⟨_, rfl, ?_⟩
    rw [sampleInputs_not_both h, exec_qualifiedChange ((resetHeld_sampleInput l .cts c s).trans hrun)]
  · intro hcdue hcq hddue hdq
    have hdrawn : sampleInputs l c d s = bothQualify l c d s :=
      if_pos ⟨hst, (changeDue_iff _ _).mpr ⟨hcdue, hcq⟩, (changeDue_iff _ _).mpr ⟨hddue, hdq⟩⟩
    obtain ⟨n, w, x, h⟩ := bothQualify_cases hrun hst hcdue hcq hddue hdq
    exact ⟨n, w, x, _, congrArg _ hdrawn, h⟩

end Sys2Proof.Claims
end

section
/-! PROOFS. A tested character that one entry alone can hit (R155 to R161), and the match table at a transmission start (R70). -/

namespace Sys2Proof.Claims

open Sys2Proof.Machine

/-! ## One entry that hits -/

section one_entry

/-- The entry `n` hits, and no other entry is enabled. -/
structure OnlyHit (c : TestedChar) (n : MatchNo) (s : State) : Prop where
  hits : Hits (s.matchEntry n) c
  others : ∀ k, k ≠ n → (s.matchEntry k).enabled = false

variable {c : TestedChar} {n : MatchNo} {s t : State}

theorem onlyHit_of_pattern (h : OnlyHit c n s) (hpat : ∀ k, (t.matchEntry k).pattern = (s.matchEntry k).pattern) :
    OnlyHit c n t := by
  refine ⟨((hitWith_of_pattern c (hpat n) _).mpr ⟨h.hits, rfl⟩).1, fun k hk => ?_⟩
  obtain ⟨henabled, -⟩ := pattern_fields (hpat k)
  rw [henabled, h.others k hk]

/-- The actions that are taken are those of the entry. -/
theorem hitWith_iff (h : OnlyHit c n s) (a : MatchAction) (k : MatchNo) :
    HitWith c a s k ↔ k = n ∧ (s.matchEntry n).action = a := by
  constructor
  · rintro ⟨hhit, ha⟩
    have hk : k = n := Decidable.byContradiction fun hk => by
      have henabled := hhit.1
      rw [h.others k hk] at henabled
      cases henabled
    subst hk
    exact ⟨rfl, ha⟩
  · rintro ⟨rfl, ha⟩
    exact ⟨h.hits, ha⟩

theorem not_hitWith (h : OnlyHit c n s) {a : MatchAction} (ha : (s.matchEntry n).action ≠ a) (k : MatchNo) :
    ¬HitWith c a s k := fun hk => ha ((hitWith_iff h a k).mp hk).2

/-! ### Its hit count (R156) -/

theorem matchEntry_hitsCounted (c : TestedChar) (s : State) (k : MatchNo) : (hitsCounted c s).matchEntry k =
    if Hits (s.matchEntry k) c then { s.matchEntry k with hitCount := upTo255 (s.matchEntry k).hitCount 1 }
    else s.matchEntry k := by
  rw [State.matchEntry, hitsCounted, Vector.getElem_ofFn]

theorem onlyHit_hitsCounted (h : OnlyHit c n s) : OnlyHit c n (hitsCounted c s) :=
  onlyHit_of_pattern h (patterns_hitsCounted c s)

/-! ### CAPTURE (R158) -/

theorem captured_none (h : ∀ k, ¬HitWith c .capture s k) : captured c s = s := by
  rw [captured, List.find?_eq_none.mpr fun k _ => by rw [decide_eq_true_eq]; exact h k]

theorem find?_capture (h : OnlyHit c n s) (ha : (s.matchEntry n).action = .capture) :
    (List.finRange 8).find? (fun k => decide (HitWith c .capture s k)) = some n :=
  find?_finRange (decide_eq_true ⟨h.hits, ha⟩) fun k hk =>
    decide_eq_false fun hhit => Fin.ne_of_lt hk ((hitWith_iff h .capture k).mp hhit).1

theorem captured_locked (h : OnlyHit c n s) (ha : (s.matchEntry n).action = .capture) (hlocked : s.capture.state = .locked) :
    captured c s = { s with capture := { s.capture with laterHits := upTo255 s.capture.laterHits 1 } } := by
  rw [captured, find?_capture h ha]
  exact if_pos hlocked

theorem captured_unlocked (h : OnlyHit c n s) (ha : (s.matchEntry n).action = .capture)
    (hunlocked : s.capture.state ≠ .locked) : captured c s = { s with
      capture := { state := .locked, entry := n, line := c.line, direction := c.direction, char := c.char,
                   position := c.position, tag := c.tag, laterHits := 0 }
      pendCapture := true } := by
  rw [captured, find?_capture h ha]
  exact if_neg hunlocked

theorem matchEntry_captured (c : TestedChar) (s : State) (k : MatchNo) : (captured c s).matchEntry k = s.matchEntry k := by
  unfold captured
  split
  · rfl
  · split <;> rfl

theorem queue_captured (c : TestedChar) (s : State) : (captured c s).queue = s.queue := by
  unfold captured
  split
  · rfl
  · split <;> rfl

/-! ### POST (R160) -/

theorem postsMade_none (h : ∀ k, ¬HitWith c .post s k) : postsMade c s = s := by
  rw [postsMade, List.filter_eq_nil_iff.mpr fun k _ => by rw [decide_eq_true_eq]; exact h k]
  rfl

theorem count_finRange (n : MatchNo) : (List.finRange 8).count n = 1 :=
  Nat.le_antisymm (List.nodup_iff_count.mp (List.nodup_finRange 8) n) (List.count_pos_iff.mpr (List.mem_finRange n))

theorem postsMade_one (h : OnlyHit c n s) (ha : (s.matchEntry n).action = .post) : postsMade c s = hitPosted c s n := by
  have hone : (List.finRange 8).filter (fun k => decide (HitWith c .post s k)) = [n] := by
    have hsame (k : MatchNo) : decide (HitWith c .post s k) = (k == n) := by
      rw [Bool.eq_iff_iff, decide_eq_true_eq, beq_iff_eq, hitWith_iff h]
      exact and_iff_left ha
    rw [List.filter_congr fun k _ => hsame k, List.filter_beq,
      count_finRange, List.replicate_one]
  rw [postsMade, hone]
  rfl

section posting

variable (c n s)

theorem hitPosted_waiting {p : PendingPost} (hp : (s.matchEntry n).pendingPost = some p) : hitPosted c s n =
    s.setMatch n { s.matchEntry n with pendingPost := some { p with count := upTo255 p.count 1 } } := by
  rw [hitPosted, hp]
  rfl

theorem hitPosted_slot (hp : (s.matchEntry n).pendingPost = none) (hs : SlotFree s) :
    hitPosted c s n = posted (.matched c.line n c.direction c.char 1) s := by
  rw [hitPosted, hp]
  exact if_pos hs

theorem hitPosted_full (hp : (s.matchEntry n).pendingPost = none) (hs : ¬SlotFree s) : hitPosted c s n =
    s.setMatch n { s.matchEntry n with
      pendingPost := some { line := c.line, direction := c.direction, char := c.char, count := 1 } } := by
  rw [hitPosted, hp]
  exact if_neg hs

/-- A POST changes the queue and the pending posts alone. -/
theorem hitPosted_keeps : (hitPosted c s n).capture = s.capture ∧ (hitPosted c s n).pendCapture = s.pendCapture ∧
    ((hitPosted c s n).matchEntry n).hitCount = (s.matchEntry n).hitCount := by
  cases hp : (s.matchEntry n).pendingPost with
  | some p =>
    rw [hitPosted_waiting c n s hp, matchEntry_setMatch_self]
    exact ⟨rfl, rfl, rfl⟩
  | none =>
    by_cases hs : SlotFree s
    · rw [hitPosted_slot c n s hp hs]
      exact ⟨rfl, rfl, rfl⟩
    · rw [hitPosted_full c n s hp hs, matchEntry_setMatch_self]
      exact ⟨rfl, rfl, rfl⟩

end posting

/-! ### The character's test -/

/-- What the test of a character does when one entry alone hits, a HOLD apart. -/
structure HitOnce (c : TestedChar) (n : MatchNo) (s t : State) : Prop where
  count : (t.matchEntry n).hitCount = upTo255 (s.matchEntry n).hitCount 1
  unlocked : (s.matchEntry n).action = .capture → s.capture.state ≠ .locked → t.pendCapture = true ∧
    t.capture = { state := .locked, entry := n, line := c.line, direction := c.direction, char := c.char,
                  position := c.position, tag := c.tag, laterHits := 0 }
  locked : (s.matchEntry n).action = .capture → s.capture.state = .locked → t.pendCapture = s.pendCapture ∧
    t.capture = { s.capture with laterHits := upTo255 s.capture.laterHits 1 }
  noCapture : (s.matchEntry n).action ≠ .capture → t.capture = s.capture ∧ t.pendCapture = s.pendCapture
  noPost : (s.matchEntry n).action ≠ .post → t.queue = s.queue
  posts : (s.matchEntry n).action = .post → (s.matchEntry n).pendingPost = none → SlotFree s →
    (t.matchEntry n).pendingPost = none ∧ t.queue = s.queue ++ [.matched c.line n c.direction c.char 1]
  waits : (s.matchEntry n).action = .post → (s.matchEntry n).pendingPost = none → ¬SlotFree s →
    t.queue = s.queue ∧
      (t.matchEntry n).pendingPost = some { line := c.line, direction := c.direction, char := c.char, count := 1 }
  merges : (s.matchEntry n).action = .post → ∀ p, (s.matchEntry n).pendingPost = some p →
    t.queue = s.queue ∧ (t.matchEntry n).pendingPost = some { p with count := upTo255 p.count 1 }

variable (h : OnlyHit c n s)

include h

theorem matchEntry_hitsCounted_only : (hitsCounted c s).matchEntry n =
    { s.matchEntry n with hitCount := upTo255 (s.matchEntry n).hitCount 1 } := by
  rw [matchEntry_hitsCounted, if_pos h.hits]

/-- An entry that captures nothing is tested without a capture. -/
theorem captured_hitsCounted (ha : (s.matchEntry n).action ≠ .capture) : captured c (hitsCounted c s) = hitsCounted c s := by
  refine captured_none (not_hitWith (onlyHit_hitsCounted h) ?_)
  rwa [matchEntry_hitsCounted_only h]

theorem hitOnce_noPost (ha : (s.matchEntry n).action ≠ .post) (ht : t = captured c (hitsCounted c s)) : HitOnce c n s t := by
  subst ht
  have hcounted := onlyHit_hitsCounted h
  have hentry := matchEntry_hitsCounted_only h
  refine { count := ?_, unlocked := fun hc hu => ?_, locked := fun hc hl => ?_, noCapture := fun hc => ?_
           noPost := fun _ => queue_captured .., posts := fun hp => absurd hp ha, waits := fun hp => absurd hp ha
           merges := fun hp => absurd hp ha }
  · rw [matchEntry_captured, hentry]
  · rw [captured_unlocked hcounted (by rw [hentry, hc]) hu]
    exact ⟨rfl, rfl⟩
  · rw [captured_locked hcounted (by rw [hentry, hc]) hl]
    exact ⟨rfl, rfl⟩
  · rw [captured_hitsCounted h hc]
    exact ⟨rfl, rfl⟩

theorem hitOnce_post (ha : (s.matchEntry n).action = .post) : HitOnce c n s (hitPosted c (hitsCounted c s) n) := by
  obtain ⟨hcapture, hpend, hcount⟩ := hitPosted_keeps c n (hitsCounted c s)
  have hentry := matchEntry_hitsCounted_only h
  have hpost : ((hitsCounted c s).matchEntry n).pendingPost = (s.matchEntry n).pendingPost := by rw [hentry]
  have hnot : (s.matchEntry n).action ≠ .capture := by simp [ha]
  refine { count := by rw [hcount, hentry], unlocked := fun hc => absurd hc hnot, locked := fun hc => absurd hc hnot
           noCapture := fun _ => ⟨hcapture, hpend⟩, noPost := fun hp => absurd ha hp, posts := fun _ hp hs => ?_
           waits := fun _ hp hs => ?_, merges := fun _ p hp => ?_ }
  · rw [hitPosted_slot c n _ (hpost.trans hp) hs]
    exact ⟨hpost.trans hp, rfl⟩
  · rw [hitPosted_full c n _ (hpost.trans hp) hs, matchEntry_setMatch_self]
    exact ⟨rfl, rfl⟩
  · rw [hitPosted_waiting c n _ (hpost.trans hp), matchEntry_setMatch_self]
    exact ⟨rfl, rfl⟩

/-- The test of a character that one entry alone hits. -/
theorem hitOnce_tested : HitOnce c n s (postsMade c (captured c (hitsCounted c s))) := by
  have hentry := matchEntry_hitsCounted_only h
  by_cases ha : (s.matchEntry n).action = .post
  · have hnot : (s.matchEntry n).action ≠ .capture := by simp [ha]
    rw [captured_hitsCounted h hnot, postsMade_one (onlyHit_hitsCounted h) (by rw [hentry, ha])]
    exact hitOnce_post h ha
  · have hcaptured : OnlyHit c n (captured c (hitsCounted c s)) :=
      onlyHit_of_pattern (onlyHit_hitsCounted h) (patterns_captured c _)
    refine hitOnce_noPost h ha (postsMade_none (not_hitWith hcaptured ?_))
    rwa [matchEntry_captured, hentry]

end one_entry

end Sys2Proof.Claims
end

section
/-! PROOFS. The match table at a transmission start (R70, R155 to R161). -/

namespace Sys2Proof.Claims

open Sys2Proof.Machine

/-! ## The start of a block character at the end of a lead -/

section start

variable {l : LineNo} {d : DescNo} {s : State}

/-- A line that works on a block and need not wait starts the next character (R72, steps 3 to 5). -/
theorem nextStepChoice_starts (hhalt : (s.line l).tx.haltRequest = false) (hd : Working s l d) (hheld : ¬Held (s.line l))
    (hprio : (s.line l).tx.pendingPriority = none)
    (hbreak : (s.line l).tx.breakSent = true ∨ (s.desc d).breakBefore = 0) :
    nextStepChoice l s = startBlockChar l d s := by
  have hnone : ¬((!(s.line l).tx.breakSent && decide ((s.desc d).breakBefore ≠ 0)) = true) := by
    rw [Bool.and_eq_true, Bool.not_eq_true', decide_eq_true_eq]
    rintro ⟨hsent, hunits⟩
    obtain h | h := hbreak
    · rw [hsent] at h
      cases h
    · exact hunits h
  have hwork : blockWork l d s = startBlockChar l d s := if_neg hnone
  rw [nextStepChoice, choose_active hhalt _ hd, workOn, holdCondition_eq_false hheld, if_neg Bool.false_ne_true, hprio]
  exact hwork

/-- The state at the end of a lead, before the choice (R74). -/
def leadEnded (l : LineNo) (s : State) : State := onLineOf s l fun ln => { ln with tx.leadTimer := none }

theorem line_leadEnded (l : LineNo) (s : State) :
    (leadEnded l s).line l = { s.line l with tx := { (s.line l).tx with leadTimer := none } } := line_onLineOf ..

theorem leadEnd_chooses (hst : (s.line l).tx.state = .keying) (hlead : (s.line l).tx.leadTimer = some 0) :
    Machine.leadEnd l s = nextStepChoice l (leadEnded l s) := if_pos ((leadDue_iff _).mpr ⟨hst, hlead⟩)

/-- The state in which a character is in flight, before its TX test. -/
def charInFlight (l : LineNo) (v : Byte) (s : State) : State :=
  onLineOf s l fun ln => { ln with tx := { stoppedIn .sending ln.tx with inFlight := some (.block v) } }

theorem line_charInFlight (l : LineNo) (v : Byte) (s : State) : (charInFlight l v s).line l =
    { s.line l with tx := { stoppedIn .sending (s.line l).tx with inFlight := some (.block v) } } := line_onLineOf ..

theorem charInFlight_leadEnded (l : LineNo) (v : Byte) (s : State) :
    charInFlight l v (leadEnded l s) = charInFlight l v s := by
  rw [charInFlight, leadEnded, onLineOf_onLineOf]
  rfl

theorem line_tested (c : TestedChar) (s : State) (j : LineNo) :
    (postsMade c (captured c (hitsCounted c s))).line j = s.line j := by
  rw [line_postsMade, line_captured]
  rfl

end start

/-- Settles O44: the state after the TX test by whether the entry's action is HOLD. -/
theorem matchActionsAtATransmissionStart : Obligations.MatchActionsAtATransmissionStart := by
  intro s l d cell rest n v hrun hst hlead hhalt hd hheld hprio hbreak hcells hv hothers henabled hlines hdir hchar
  have hexec : exec (.leadEnd l) s = .next (Machine.leadEnd l s) := exec_running rfl hrun
  have hlast := line_leadEnded l s
  have hworking : Working (leadEnded l s) l d := (activeDesc_onLineOf rfl).trans hd
  have hstarts := charStarts_startBlockChar (l := l) (s := leadEnded l s) hcells
  rw [hexec, leadEnd_chooses hst hlead, nextStepChoice_starts (by rwa [hlast]) hworking (by rwa [hlast]) (by rwa [hlast])
    (by rwa [hlast])]
  have hval : (nextChar l d cell (leadEnded l s)).char = v := by
    rw [nextChar, hlast]
    exact hv.symm
  have htag : nextChar l d cell (leadEnded l s) =
      { line := l, direction := .tx, char := v, position := (s.desc d).sent, tag := some (s.desc d).tag } := by
    rw [← hval]
    rfl
  generalize nextChar l d cell (leadEnded l s) = c at hstarts hval htag
  have honly : OnlyHit c n (charInFlight l v s) := by
    rw [htag]
    exact ⟨⟨henabled, hlines, hdir.elim (fun h => .inr (.inr ⟨h, rfl⟩)) .inl, hchar⟩, hothers⟩
  have hhit := hitOnce_tested honly
  have hline := line_tested c (charInFlight l v s) l
  rw [line_charInFlight] at hline
  generalize hz : postsMade c (captured c (hitsCounted c (charInFlight l v s))) = z at hhit hline
  subst htag
  refine ⟨_, rfl, ?_⟩
  by_cases hhold : (s.matchEntry n).action = .hold
  · have ht : startBlockChar l d (leadEnded l s) = onLineOf z l fun ln => { ln with tx.haltRequest := true } := by
      rw [hstarts.halts ⟨n, honly.hits, hhold⟩, ← hz, ← charInFlight_leadEnded]
      rfl
    have hafter : (startBlockChar l d (leadEnded l s)).line l = { z.line l with tx.haltRequest := true } := by
      rw [ht, line_onLineOf]
    have hnot (a : MatchAction) (ha : a ≠ .hold) : (s.matchEntry n).action ≠ a := by
      rw [hhold]
      exact ha.symm
    rw [hafter, hline, ht]
    exact ⟨rfl, rfl, rfl, hhit.count, fun h => absurd h (hnot _ nofun), hhit.noCapture, fun h => absurd h (hnot _ nofun),
      fun h => absurd h (hnot _ nofun), fun _ => ⟨hhit.noPost (hnot _ nofun), rfl⟩⟩
  · have ht : startBlockChar l d (leadEnded l s) = z := by
      rw [hstarts.plain (not_hitWith (s := charInFlight l v s) honly hhold), ← hz, ← charInFlight_leadEnded]
      rfl
    have hqueue {a : MatchAction} (h : (s.matchEntry n).action = a) (ha : a ≠ .post) : z.queue = s.queue :=
      hhit.noPost fun hp => ha (h.symm.trans hp)
    rw [ht, hline]
    exact ⟨rfl, rfl, rfl, hhit.count, fun h => ⟨hqueue h nofun, hhalt, hhit.unlocked h, hhit.locked h⟩, hhit.noCapture,
      fun h => ⟨hqueue h nofun, hhalt⟩, fun h => ⟨hhalt, hhit.posts h, hhit.waits h, hhit.merges h⟩, fun h => absurd h hhold⟩

end Sys2Proof.Claims
end

section
/-! PROOFS. The match table at an append in mid-cell (R155, R156, R158 to R161). -/

namespace Sys2Proof.Claims

open Sys2Proof.Machine

/-! ## A priority character that becomes pending tests no character -/

/-- The match unit is no concern of the operation, nor is an event queue that is full. -/
structure KeepsTables (s t : State) : Prop where
  capture : t.capture = s.capture := by rfl
  table : t.matchTable = s.matchTable := by rfl
  queue : ¬SlotFree s → t.queue = s.queue := by exact fun _ => rfl

section tables

variable {l : LineNo} {s t u : State}

theorem KeepsTables.refl (s : State) : KeepsTables s s := {}

theorem KeepsTables.trans (h : KeepsTables s t) (k : KeepsTables t u) : KeepsTables s u where
  capture := k.capture.trans h.capture
  table := k.table.trans h.table
  queue hs := by
    have hq := h.queue hs
    rw [k.queue (by rwa [SlotFree, hq]), hq]

theorem keepsTables_onLineOf (s : State) (l : LineNo) (f : Line → Line) : KeepsTables s (onLineOf s l f) := {}

theorem keepsTables_updRx (s : State) (l : LineNo) (f : Receiver → Receiver) : KeepsTables s (s.updRx l f) := {}

theorem HeadHandled.keepsTables (h : HeadHandled l s t) : KeepsTables s t := by
  cases h with
  | silent => exact {}
  | reported _ _ _ _ _ _ _ hslot => exact { queue := fun hfull => absurd hslot hfull }

theorem HeadsHandled.keepsTables (h : HeadsHandled l s t) : KeepsTables s t := by
  induction h with
  | none s => exact .refl s
  | more s t w hhead _ ih => exact hhead.keepsTables.trans ih

theorem keepsTables_handleFront (l : LineNo) (s : State) : KeepsTables s (handleFront l s) :=
  (frontHandled_handleFront l s).1.keepsTables

/-- With a priority character pending the line starts no block character. -/
theorem keepsTables_workOn {d : DescNo} (h : (s.line l).tx.pendingPriority.isSome) : KeepsTables s (workOn l d s) := by
  obtain ⟨c, hc⟩ := Option.isSome_iff_exists.mp h
  unfold workOn
  split
  · unfold enterHold
    rw [hc]
    exact {}
  · rw [hc]
    exact {}

/-- A choice with a priority character pending tests no character. -/
theorem keepsTables_choose (n : Nat) (h : (s.line l).tx.pendingPriority.isSome) : KeepsTables s (choose l n s) := by
  induction n generalizing s with
  | zero => exact .refl s
  | succ n ih =>
    have hkey (u : State) (hu : (u.line l).tx.pendingPriority.isSome) :
        ((startKeying l u).line l).tx.pendingPriority.isSome := by
      rw [line_startKeying]
      exact hu
    have htaken (d : DescNo) : ((takeBlock l d s).line l).tx.pendingPriority.isSome := by rwa [line_takeBlock]
    unfold choose
    split
    · exact {}
    · split
      · next d _ => exact keepsTables_workOn (d := d) h
      · split
        · next d _ =>
          have htake : KeepsTables s (takeBlock l d s) := {}
          split
          · have hended : KeepsTables (takeBlock l d s) (finishBlock d .sent (takeBlock l d s)) := {}
            obtain ⟨q, hq⟩ := line_handleFront l (finishBlock d .sent (takeBlock l d s))
            exact ((htake.trans hended).trans (keepsTables_handleFront l _)).trans (ih (by rw [hq]; exact htaken d))
          · split
            · have hkeyed : KeepsTables (takeBlock l d s) (startKeying l (takeBlock l d s)) := {}
              split
              · exact (htake.trans hkeyed).trans (ih (hkey _ (htaken d)))
              · exact htake.trans hkeyed
            · exact htake.trans (ih (htaken d))
        · split
          · split
            · have hkeyed : KeepsTables s (startKeying l s) := {}
              split
              · exact hkeyed.trans (ih (hkey s h))
              · exact hkeyed
            · exact {}
          · next hnone => rw [hnone] at h; cases h

theorem keepsTables_requestPriority (l : LineNo) (c : FlowChar) (s : State) : KeepsTables s (requestPriority l c s) := by
  refine (keepsTables_onLineOf s l fun ln => { ln with tx.pendingPriority := some c }).trans ?_
  unfold requestPriority choiceIn
  split
  · exact keepsTables_choose _ (by rw [line_onLineOf]; rfl)
  · exact .refl _

theorem keepsTables_becomeCongested (l : LineNo) (s : State) : KeepsTables s (becomeCongested l s) := by
  unfold becomeCongested
  split
  · exact .refl s
  · refine (keepsTables_onLineOf s l fun ln => { ln with flow.congested := true }).trans ?_
    unfold receiveXoff
    split
    · split
      · exact keepsTables_requestPriority l .xoff _
      · exact keepsTables_onLineOf _ l fun ln => { ln with tx.pendingPriority := none }
      · exact .refl _
    · exact .refl _

end tables

/-! ## The record that a DELIMIT closes (R108, R159) -/

section delimit

variable {l : LineNo} {s : State} {c : Cause} {n : Nat} {e : Bool} {cells : List CellNo}

theorem closeRecord_slot (h : SlotFree s) : closeRecord l c n e cells s = recordPosted l c n e cells s := by
  rw [closeRecord, if_pos ((slotFree_iff s).mpr h), postRecord_eq]

theorem line_recordPosted : (recordPosted l c n e cells s).line l = { s.line l with rx :=
    { (s.line l).rx with state := .idle, openRec := none, closedRec := none, idleTimer := none, lostTally := 0 } } := by
  rw [recordPosted, ← postEntry_eq_posted, line_postEntry, line_onLineOf]

theorem rx_closeRecord_full (h : ¬SlotFree s) : ((closeRecord l c n e cells s).line l).rx =
    { (s.line l).rx with
      state := .stalled, openRec := none, idleTimer := none
      closedRec := some { cause := c, length := n, errorFlag := e, cells := cells } } := by
  rw [closeRecord, if_neg (mt (slotFree_iff s).mp h), rx_becomeCongested, State.updRx, line_setLine_self]

theorem keepsTables_closeRecord (l : LineNo) (c : Cause) (n : Nat) (e : Bool) (cells : List CellNo) (s : State)
    (h : ¬SlotFree s) : KeepsTables s (closeRecord l c n e cells s) := by
  rw [closeRecord, if_neg (mt (slotFree_iff s).mp h)]
  exact (keepsTables_updRx s l _).trans (keepsTables_becomeCongested l _)

theorem tables_closeRecord (l : LineNo) (c : Cause) (n : Nat) (e : Bool) (cells : List CellNo) (s : State) :
    (closeRecord l c n e cells s).capture = s.capture ∧ (closeRecord l c n e cells s).matchTable = s.matchTable := by
  by_cases h : SlotFree s
  · rw [closeRecord_slot h]
    exact ⟨rfl, rfl⟩
  · exact ⟨(keepsTables_closeRecord l c n e cells s h).capture, (keepsTables_closeRecord l c n e cells s h).table⟩

/-- A close on a line that is not congested leaves nothing for the end of the take to do (R121). -/
theorem uncongestIfClear_closeRecord (h : (s.line l).flow.congested = false) :
    uncongestIfClear l (closeRecord l c n e cells s) = closeRecord l c n e cells s := by
  refine (uncongests_uncongestIfClear l _).stays ?_
  rintro ⟨hcong, -, hst⟩
  by_cases hs : SlotFree s
  · rw [closeRecord_slot hs, line_recordPosted, h] at hcong
    cases hcong
  · exact hst (by rw [rx_closeRecord_full hs])

end delimit

/-! ## The append -/

section append

variable {c : TestedChar} {n : MatchNo} {s : State}

/-- The test and the posts of a stored character that one entry alone hits: HOLD asks for a halt as well. -/
theorem postsMade_charTested (h : OnlyHit c n s) : postsMade c (charTested c s) =
    if (s.matchEntry n).action = .hold then onLineOf (postsMade c (captured c (hitsCounted c s))) c.line haltAsked
    else postsMade c (captured c (hitsCounted c s)) := by
  by_cases hhold : (s.matchEntry n).action = .hold
  · have hcaptured : OnlyHit c n (captured c (hitsCounted c s)) :=
      onlyHit_of_pattern (onlyHit_hitsCounted h) (patterns_captured c _)
    have hnone (k : MatchNo) : ¬HitWith c .post (captured c (hitsCounted c s)) k :=
      not_hitWith hcaptured (by rw [matchEntry_captured, matchEntry_hitsCounted_only h]; simp [hhold]) k
    rw [if_pos hhold, charTested, if_neg (Classical.not_forall_not.mpr ⟨n, h.hits, hhold⟩), postsMade_none hnone]
    exact postsMade_none hnone
  · rw [if_neg hhold, charTested, if_pos (not_hitWith h hhold)]

variable (hdir : c.direction = .rx) (h : OnlyHit c n s)

include hdir h

theorem afterAppend_delimit (ha : (s.matchEntry n).action = .delimit) : afterAppend c .ok s =
    closeOpen c.line .delimiter (postsMade c (captured c (hitsCounted c s))) := by
  have hcause := closeCause_delimiter (st := .ok) (cfg := (s.line c.line).cfg) (.inl rfl)
    (b := decide (∃ k, HitWith c .delimit s k)) (decide_eq_true ⟨n, h.hits, ha⟩) (c.position + 1)
  have hnopost : decide (∃ k, HitWith c .post s k) = false :=
    decide_eq_false (not_exists.mpr (not_hitWith h (by simp [ha])))
  rw [afterAppend_eq hdir, hcause, hnopost, Bool.and_false, postsMade_charTested h, if_neg (by simp [ha])]
  rfl

theorem afterAppend_goesOn (ha : (s.matchEntry n).action ≠ .delimit) (hlen : c.position + 1 ≠ (s.line c.line).cfg.maxLength) :
    afterAppend c .ok s = loadIdle c.line (postsMade c (charTested c s)) :=
  afterAppend_open hdir (closeCause_none (.inl rfl) (decide_eq_false (not_exists.mpr (not_hitWith h ha))) hlen)

end append

section midcell

variable {l : LineNo} {s : State} {v : Byte} {rest : List FifoItem} {r : OpenRecord}

/-- A good character that goes into the last cell of the open record (R104, R106). -/
def midStored (l : LineNo) (r : OpenRecord) (rest : List FifoItem) (m : List Host.Cell) (s : State) : State :=
  charStored l .ok r.length r.errorFlag r.cells rest m s.freeList s.pendPool s

theorem line_midStored (l : LineNo) (r : OpenRecord) (rest : List FifoItem) (m : List Host.Cell) (s : State) :
    (midStored l r rest m s).line l = { s.line l with rx := { (s.line l).rx with
      state := .assembling, fifo := rest, openRec := some { r with length := r.length + 1 } } } := by
  rw [midStored, line_charStored, lineStored]
  simp

theorem assemblerTake_midCell (hen : (s.line l).state = .enabled) (hst : (s.line l).rx.state = .assembling)
    (hfifo : (s.line l).rx.fifo = .char v .ok :: rest) (hr : (s.line l).rx.openRec = some r) (hmid : r.length % 16 ≠ 0) :
    ∃ m, assemblerTake l s = uncongestIfClear l (afterAppend (storedChar l v r.length) .ok (midStored l r rest m s)) := by
  refine ⟨(storeChar r.cells r.length v s).mem, ?_⟩
  rw [assemblerTake_item hen (.inr hst) (by simp [hfifo]), takeItem_char hfifo (.inl rfl), takeChar_midCell hr hmid]
  exact congrArg _ (appendChar_eq (free := s.freeList) (pool := s.pendPool) (by rw [hfifo, List.tail_cons]))

end midcell

theorem flow_haltAsked (ln : Line) : (haltAsked ln).flow = ln.flow := by
  unfold haltAsked
  split <;> rfl

section after_test

variable {l : LineNo} {s : State}

theorem uncongestIfClear_quiet (h : (s.line l).flow.congested = false) : uncongestIfClear l s = s :=
  (uncongests_uncongestIfClear l s).stays fun hclear => by
    have hcong := hclear.1
    rw [h] at hcong
    cases hcong

theorem line_loadIdle (l : LineNo) (s : State) : (loadIdle l s).line l = { s.line l with rx :=
    { (s.line l).rx with
      idleTimer := if (s.line l).cfg.idleGap = 0 then none else some (s.line l).cfg.idleGap } } := by
  rw [loadIdle_eq, line_onLineOf]

theorem congested_loadIdle (l : LineNo) (s : State) :
    ((loadIdle l s).line l).flow.congested = (s.line l).flow.congested := by rw [line_loadIdle]

/-- What the statement says of a DELIMIT hit, from the state before the close. -/
theorem delimit_closes {z : State} {r : OpenRecord} (hopen : (z.line l).rx.openRec = some { r with length := r.length + 1 })
    (hqueue : z.queue = s.queue) (htally : (z.line l).rx.lostTally = (s.line l).rx.lostTally) :
    let t := closeRecord l .delimiter (r.length + 1) r.errorFlag r.cells z
    closeOpen l .delimiter z = t ∧ (t.line l).rx.openRec = none ∧
      (SlotFree s → (t.line l).rx.state = .idle ∧ t.queue = s.queue ++
        [.rxRecord l (r.length + 1) .delimiter r.errorFlag (lostOf (s.line l).rx.lostTally) r.cells]) ∧
      (¬SlotFree s → (t.line l).rx.state = .stalled ∧ t.queue = s.queue ∧ (t.line l).rx.closedRec =
        some { cause := .delimiter, length := r.length + 1, errorFlag := r.errorFlag, cells := r.cells }) := by
  intro t
  have hslot : SlotFree z ↔ SlotFree s := by rw [SlotFree, hqueue]
  have hposted (h : SlotFree s) : t = recordPosted l .delimiter (r.length + 1) r.errorFlag r.cells z :=
    closeRecord_slot (hslot.mpr h)
  have hstalled (h : ¬SlotFree s) := rx_closeRecord_full (l := l) (c := .delimiter) (n := r.length + 1) (e := r.errorFlag)
    (cells := r.cells) (mt hslot.mp h)
  refine ⟨by rw [closeOpen, hopen], ?_, fun h => ⟨?_, ?_⟩, fun h => ⟨by rw [hstalled h], ?_, by rw [hstalled h]⟩⟩
  · by_cases h : SlotFree s
    · rw [hposted h, line_recordPosted]
    · rw [hstalled h]
  · rw [hposted h, line_recordPosted]
  · rw [hposted h, recordPosted, ← htally, ← hqueue]
    rfl
  · exact ((keepsTables_closeRecord l _ _ _ _ z (mt hslot.mp h)).queue (mt hslot.mp h)).trans hqueue

end after_test

/-- Settles O43: by whether the entry's action is DELIMIT, HOLD or another. -/
theorem matchActionsAtAnAppend : Obligations.MatchActionsAtAnAppend := by
  intro s l v rest r n hrun hen hst hfifo hr hmid hlen hcong hothers henabled hlines hdir hchar
  have hexec : exec (.assemblerTake l) s = .next (assemblerTake l s) := exec_running rfl hrun
  obtain ⟨m, htake⟩ := assemblerTake_midCell hen hst hfifo hr hmid
  rw [hexec, htake]
  have honly : OnlyHit (storedChar l v r.length) n (midStored l r rest m s) :=
    ⟨⟨henabled, hlines, hdir.elim (fun h => .inr (.inl ⟨h, rfl⟩)) .inl, hchar⟩, hothers⟩
  have hhit := hitOnce_tested honly
  have hline := line_tested (storedChar l v r.length) (midStored l r rest m s) l
  have hstored := line_midStored l r rest m s
  have hdelimited := afterAppend_delimit rfl honly
  have hgoesOn := afterAppend_goesOn rfl honly
  rw [postsMade_charTested honly] at hgoesOn
  have hcl : (storedChar l v r.length).line = l := rfl
  rw [hstored] at hline
  rw [hcl] at hdelimited hgoesOn
  rw [hstored] at hgoesOn
  generalize postsMade (storedChar l v r.length) (captured (storedChar l v r.length)
    (hitsCounted (storedChar l v r.length) (midStored l r rest m s))) = z at hhit hline hdelimited hgoesOn
  refine ⟨_, rfl, ?_⟩
  have hnot {a b : MatchAction} (h : (s.matchEntry n).action = a) (hab : a ≠ b) : (s.matchEntry n).action ≠ b := by rwa [h]
  by_cases hdel : (s.matchEntry n).action = .delimit
  · obtain ⟨hclose, hopen, hslot, hfull⟩ := delimit_closes (s := s) (z := z) (r := r) (l := l) (by rw [hline])
      (hhit.noPost (hnot hdel nofun)) (by rw [hline])
    obtain ⟨hcapture, htable⟩ := tables_closeRecord l .delimiter (r.length + 1) r.errorFlag r.cells z
    rw [hdelimited hdel, hclose, uncongestIfClear_closeRecord (by rw [hline]; exact hcong)]
    refine ⟨?_, by rw [fifo_closeRecord, hline], fun h => absurd h (hnot hdel nofun),
      fun _ => ⟨hopen, hcapture.trans (hhit.noCapture (hnot hdel nofun)).1, hslot, hfull⟩,
      fun h => absurd h (hnot hdel nofun), fun h => absurd h (hnot hdel nofun)⟩
    rw [State.matchEntry, htable]
    exact hhit.count
  · rw [hgoesOn hdel hlen]
    by_cases hhold : (s.matchEntry n).action = .hold
    · have hasked : (onLineOf z l haltAsked).line l = haltAsked (z.line l) := line_onLineOf ..
      have hafter := line_loadIdle l (onLineOf z l haltAsked)
      have htx : (z.line l).tx = (s.line l).tx := by rw [hline]
      rw [hasked, rx_haltAsked] at hafter
      rw [if_pos (show (State.matchEntry (midStored l r rest m s) n).action = .hold from hhold),
        uncongestIfClear_quiet (by rw [congested_loadIdle, hasked, flow_haltAsked, hline]; exact hcong), hafter]
      refine ⟨hhit.count, by rw [hline], fun h => absurd h (hnot hhold nofun), fun h => absurd h hdel,
        fun h => absurd h (hnot hhold nofun), fun _ => ⟨by rw [hline], (hhit.noCapture (hnot hhold nofun)).1,
          hhit.noPost (hnot hhold nofun), fun h => ?_, fun h => ?_, fun h => ?_⟩⟩
      · rw [haltAsked_ignored (by simp [htx, h]), htx]
      · rw [haltAsked_at_once (by simpa [htx] using h), htx]
      · rw [haltAsked_left (by simpa [htx] using h), htx]
    · have hafter := line_loadIdle l z
      rw [if_neg (show (State.matchEntry (midStored l r rest m s) n).action ≠ .hold from hhold),
        uncongestIfClear_quiet (by rw [congested_loadIdle, hline]; exact hcong), hafter, hline]
      refine ⟨hhit.count, rfl, fun h => ⟨rfl, hhit.unlocked h, hhit.locked h⟩, fun h => absurd h hdel,
        fun h => ⟨rfl, (hhit.noCapture (hnot h nofun)).1, hhit.posts h, hhit.waits h, hhit.merges h⟩,
        fun h => absurd h hhold⟩

end Sys2Proof.Claims
end
